-- ==== Sys2Proof/Word.lean ====
section
/-! DEFINITION. The word types of sdefl-core and their plainest arithmetic (spec/00_scope.md rules R9 and R10). -/

namespace Sys2Proof

/-- One byte of host memory (R80). -/
abbrev Byte := BitVec 8

/-- A 32-bit host register, a command word, a 32-bit table entry or a host-memory address. -/
abbrev Word := BitVec 32

/-- Narrow an exact number to 32 bits, as R10 lets a rule do once its result fits (or says it wraps). -/
abbrev word (n : Nat) : Word := BitVec.ofNat 32 n

/-- Narrow an exact number to a byte: its eight low-order bits. -/
abbrev byte (n : Nat) : Byte := BitVec.ofNat 8 n

end Sys2Proof
end

