-- ==== Sys2Proof/Syntax.lean ====
section
/-! DEFINITION. The 24 commands of spec/30_encoding.md rule R116, one constructor each, the names behind the
SEL selector (R112), and the command word cut into its four fields (R110). -/

namespace Sys2Proof

/-- A command. SEL and FLAG are carried only where the opcode map uses them (R112, R113); every other operand
comes from the ARG and region registers (R115). SEL stays the 4-bit number of the word: which values are legal
is WellFormed's question (R118), and COMPRESS decodes all sixteen of them. -/
inductive Instr where
  | nop                                             -- 0x00 (R340)
  | resetState                                      -- 0x01 (R341)
  | bound                                           -- 0x02 (R301)
  | compress (level : BitVec 4) (container : Bool)  -- 0x03 (R302)
  | bwReset                                         -- 0x10 (R142)
  | bwEmit                                          -- 0x11 (R143)
  | bwPad                                           -- 0x12 (R144)
  | adlerUpdate                                     -- 0x18 (R161)
  | hcReset                                         -- 0x20 (R172)
  | hcInsert                                        -- 0x21 (R174)
  | findMatch                                       -- 0x22 (R178)
  | huffBuild (sel : BitVec 4)                      -- 0x30 (R201)
  | rleEncode                                       -- 0x31 (R245)
  | freqClear                                       -- 0x40 (R264)
  | freqSeed                                        -- 0x41 (R265)
  | blkHeader (bfinal : Bool)                       -- 0x42 (R266)
  | emitLit                                         -- 0x43 (R269)
  | emitMatch                                       -- 0x44 (R270)
  | emitEob                                         -- 0x45 (R271)
  | emitTerminator                                  -- 0x46 (R272)
  | emitZheader                                     -- 0x47 (R273)
  | emitTrailer                                     -- 0x48 (R274)
  | tblRead (sel : BitVec 4)                        -- 0x60 (R342)
  | tblWrite (sel : BitVec 4)                       -- 0x61 (R343)
  deriving DecidableEq, Repr

/-- The three Huffman alphabets HUFF_BUILD's SEL names (R200). -/
inductive Alphabet where
  | litLen | dist | preCode
  deriving DecidableEq, Repr

/-- The thirteen internal tables, ids 0 to 12 in this order (R48). -/
inductive TableId where
  | head | prev | freqLit | freqDist | freqPre | lenLit | lenDist | lenPre | codeLit | codeDist | codePre
  | rleItem | rleCount
  deriving DecidableEq, Repr

/-- The fields of a 32-bit command word (R110). -/
structure CmdFields where
  opc  : BitVec 8
  sel  : BitVec 4
  flag : Bool
  rsvd : BitVec 19
  deriving DecidableEq, Repr

end Sys2Proof
end

