-- ==== Sys2Proof/Config.lean ====
section
/-! DEFINITION. What an implementation fixes (the parameters of spec/00_scope.md rules R6 to R8) and the free
values the spec leaves open (spec/93_implementation_defined.md part 2).

The six parameters of R7, and the platform's P_REG_BASE (R31), are "arguments" of a model. Here they are one
plain-data record, `Params`, that the state carries and no step changes: a statement about every state is a
statement about every chip. The reset state carries the spec's reference configuration (log entry 2), and a window
base of 0, for which the spec gives no reference value (log entry 15). -/

namespace Sys2Proof

/-! ### Constants of the source (R6, R8) -/

/-- The window, in bytes, and the number of PREV entries (R6). -/
abbrev Config.win : Nat := 32768
/-- The largest input length (R8). -/
abbrev Config.maxInLen : Nat := 0x7FFFFFFF
/-- The "none" sentinel of a position (R8). -/
abbrev Config.nil : Word := 0xFFFFFFFF
/-- Symbols the builder codes and the block header transmits (R8): literal/length. -/
abbrev Config.numLit : Nat := 286
/-- Distance symbols coded and transmitted (R8). -/
abbrev Config.numDist : Nat := 30
/-- Pre-code symbols (R8). -/
abbrev Config.numPre : Nat := 19
/-- The size of a host-memory address space (R80). -/
abbrev Config.memSize : Nat := 2 ^ 32

/-! ### The parameters of R7 and R31 -/

/-- Which 4-byte hash P_HASH is: the spec's reference function, or the `n`-th of a family nothing is known of,
so that a statement about every state is one about every hash function. -/
inductive HashFn where
  | reference
  | other (n : Nat)
  deriving DecidableEq, Repr

/-- The implementation parameters of R7, and the window's base of R31. -/
structure Params where
  hashBits : Nat        -- P_HASH_BITS
  hash     : HashFn     -- P_HASH
  blkMax   : Nat        -- P_BLK_MAX, in input bytes
  niceLen  : List Nat   -- P_NICE_LEN[0..8]
  seedLit  : List Nat   -- P_SEED_LIT[0..287]
  seedDist : List Nat   -- P_SEED_DIST[0..31]
  regBase  : Nat        -- P_REG_BASE, any address (D56)
  deriving DecidableEq, Repr

/-- The constraints R7 puts on the parameters. P_REG_BASE has none (D56). -/
def Params.legal (P : Params) : Bool :=
  decide (1 ≤ P.hashBits ∧ P.hashBits ≤ 24) &&
  decide (1 ≤ P.blkMax ∧ P.blkMax ≤ 2 ^ 21) &&
  decide (P.niceLen.length = 9) && P.niceLen.all (fun n => decide (4 ≤ n ∧ n ≤ 258)) &&
  decide (P.seedLit.length = 288) && P.seedLit.all (fun n => decide (n ≤ 4096)) &&
  decide (P.seedDist.length = 32) && P.seedDist.all (fun n => decide (n ≤ 4096))

/-- The fixed-Huffman code length of a literal/length symbol, FL(s) of R7. -/
def Config.fixedLen (s : Nat) : Nat :=
  if s ≤ 143 then 8 else if s ≤ 255 then 9 else if s ≤ 279 then 7 else 8

/-- The reference configuration of R7, with the window at address 0 (log entry 15). -/
def Params.reference : Params where
  hashBits := 15
  hash     := .reference
  blkMax   := 307200
  niceLen  := [8, 10, 14, 24, 30, 48, 65, 96, 130]
  seedLit  := (List.range 288).map fun s => 2 ^ (9 - Config.fixedLen s)
  seedDist := List.replicate 32 1
  regBase  := 0

/-! ### Free values -/

/-- Where a free value is drawn. -/
inductive DrawSite where
  | prevRead                      -- a PREV entry nothing has written (U1)
  | windowRead                    -- a register-window read with no specified value (U3)
  | outPos | bitBuf | bitCnt | adler  -- the bit writer and ADLER after OUT_OVERFLOW (U2)
  | entry (t : TableId) (i : Nat) -- a table entry after OUT_OVERFLOW, or of PREV after an abandoned command (U2, U9)
  | prevKept (i : Nat)            -- whether an abandoned COMPRESS had written PREV entry i (U9)
  | outByte (j : Nat)             -- the output byte at offset j (U2, U9)
  deriving DecidableEq, Repr

/-- The free values: the value drawn at a site in the `n`-th drawing event. It has no body, so no proof can
know one of its values (log entry 3). -/
opaque Config.drawn : Nat → DrawSite → Word

/-- The hash functions other than the reference one, before they are cut down to P_HASH_BITS bits; no body
(log entry 2). -/
opaque Config.otherHash : Nat → Byte → Byte → Byte → Byte → Nat

end Sys2Proof
end

