-- ==== Sys2Proof/WellFormed.lean ====
section
/-! DEFINITION. Which commands the encoding admits (spec/30_encoding.md rule R118). -/

namespace Sys2Proof

/-- HUFF_BUILD's SEL names an alphabet: 0, 1 or 2 (R118). -/
def WellFormed.alphabetSel (sel : BitVec 4) : Bool := decide (sel.toNat ≤ 2)

/-- TBL_READ's and TBL_WRITE's SEL names a table: 0 to 12 (R118). -/
def WellFormed.tableSel (sel : BitVec 4) : Bool := decide (sel.toNat ≤ 12)

/-- A command some legal 32-bit word encodes (R117, R118). COMPRESS decodes with every level; a level above 8
is BAD_LEVEL, not an illegal encoding. -/
def Instr.wellFormed : Instr → Bool
  | .huffBuild sel => WellFormed.alphabetSel sel
  | .tblRead sel => WellFormed.tableSel sel
  | .tblWrite sel => WellFormed.tableSel sel
  | .nop | .resetState | .bound | .compress _ _ | .bwReset | .bwEmit | .bwPad | .adlerUpdate | .hcReset
  | .hcInsert | .findMatch | .rleEncode | .freqClear | .freqSeed | .blkHeader _ | .emitLit | .emitMatch
  | .emitEob | .emitTerminator | .emitZheader | .emitTrailer => true

end Sys2Proof
end

