-- ==== Sys2Proof/Decode.lean ====
section
/-! DEFINITION. The opcode map, the decoder and the encoder of the 32-bit command word (spec/30_encoding.md). -/

namespace Sys2Proof

/-- Why a word is no command: the checks of R117, in its order. -/
inductive Reject where
  | rsvdNotZero   -- a bit of [31:13] is set
  | unknownOpcode -- [7:0] is no OPC of the map
  | selNotZero    -- SEL must be 0 and is not
  | flagNotZero   -- FLAG must be 0 and is not
  | selIllegal    -- SEL names no alphabet or table (R118)
  deriving DecidableEq, Repr

/-- A row of the opcode map (R116): the opcode, whether SEL and FLAG are used, and the command they make. -/
structure OpRow where
  opc      : BitVec 8
  usesSel  : Bool
  usesFlag : Bool
  make     : BitVec 4 → Bool → Instr

/-- The opcode map (R116). -/
def opcodeMap : List OpRow :=
  [ ⟨0x00, false, false, fun _ _ => .nop⟩,
    ⟨0x01, false, false, fun _ _ => .resetState⟩,
    ⟨0x02, false, false, fun _ _ => .bound⟩,
    ⟨0x03, true,  true,  fun sel flag => .compress sel flag⟩,
    ⟨0x10, false, false, fun _ _ => .bwReset⟩,
    ⟨0x11, false, false, fun _ _ => .bwEmit⟩,
    ⟨0x12, false, false, fun _ _ => .bwPad⟩,
    ⟨0x18, false, false, fun _ _ => .adlerUpdate⟩,
    ⟨0x20, false, false, fun _ _ => .hcReset⟩,
    ⟨0x21, false, false, fun _ _ => .hcInsert⟩,
    ⟨0x22, false, false, fun _ _ => .findMatch⟩,
    ⟨0x30, true,  false, fun sel _ => .huffBuild sel⟩ ] ++
  [ ⟨0x31, false, false, fun _ _ => .rleEncode⟩,
    ⟨0x40, false, false, fun _ _ => .freqClear⟩,
    ⟨0x41, false, false, fun _ _ => .freqSeed⟩,
    ⟨0x42, false, true,  fun _ flag => .blkHeader flag⟩,
    ⟨0x43, false, false, fun _ _ => .emitLit⟩,
    ⟨0x44, false, false, fun _ _ => .emitMatch⟩,
    ⟨0x45, false, false, fun _ _ => .emitEob⟩,
    ⟨0x46, false, false, fun _ _ => .emitTerminator⟩,
    ⟨0x47, false, false, fun _ _ => .emitZheader⟩,
    ⟨0x48, false, false, fun _ _ => .emitTrailer⟩,
    ⟨0x60, true,  false, fun sel _ => .tblRead sel⟩,
    ⟨0x61, true,  false, fun sel _ => .tblWrite sel⟩ ]

/-- The fields of a command word (R110). -/
def splitWord (w : Word) : CmdFields where
  opc  := w.extractLsb' 0 8
  sel  := w.extractLsb' 8 4
  flag := w.getLsbD 12
  rsvd := w.extractLsb' 13 19

/-- The word with the given fields (R110). -/
def joinWord (f : CmdFields) : Word :=
  f.rsvd ++ BitVec.ofBool f.flag ++ f.sel ++ f.opc

/-- The decoder of R117: its checks in order, each failure by name. -/
def decode (w : Word) : Except Reject Instr :=
  let f := splitWord w
  if f.rsvd ≠ 0 then .error .rsvdNotZero
  else match opcodeMap.find? (fun r => r.opc = f.opc) with
    | none => .error .unknownOpcode
    | some r =>
      if !r.usesSel && f.sel ≠ 0 then .error .selNotZero
      else if !r.usesFlag && f.flag then .error .flagNotZero
      else if (r.make f.sel f.flag).wellFormed then .ok (r.make f.sel f.flag)
      else .error .selIllegal

/-- OPC, SEL and FLAG of a command (R116). -/
def Instr.fields : Instr → BitVec 8 × BitVec 4 × Bool
  | .nop => (0x00, 0, false)
  | .resetState => (0x01, 0, false)
  | .bound => (0x02, 0, false)
  | .compress level container => (0x03, level, container)
  | .bwReset => (0x10, 0, false)
  | .bwEmit => (0x11, 0, false)
  | .bwPad => (0x12, 0, false)
  | .adlerUpdate => (0x18, 0, false)
  | .hcReset => (0x20, 0, false)
  | .hcInsert => (0x21, 0, false)
  | .findMatch => (0x22, 0, false)
  | .huffBuild sel => (0x30, sel, false)
  | .rleEncode => (0x31, 0, false)
  | .freqClear => (0x40, 0, false)
  | .freqSeed => (0x41, 0, false)
  | .blkHeader bfinal => (0x42, 0, bfinal)
  | .emitLit => (0x43, 0, false)
  | .emitMatch => (0x44, 0, false)
  | .emitEob => (0x45, 0, false)
  | .emitTerminator => (0x46, 0, false)
  | .emitZheader => (0x47, 0, false)
  | .emitTrailer => (0x48, 0, false)
  | .tblRead sel => (0x60, sel, false)
  | .tblWrite sel => (0x61, sel, false)

/-- The command word of a command (R110, R116). -/
def encode (i : Instr) : Word :=
  joinWord { opc := i.fields.1, sel := i.fields.2.1, flag := i.fields.2.2, rsvd := 0 }

/-- The command of the opcode table's numbering: one 32-bit word, whose bits above `nbits` are 0. -/
def decodeTableWord (nbits w : Nat) : Option Instr :=
  match decode (word (w % 2 ^ nbits)) with
  | .ok i => some i
  | .error _ => none

end Sys2Proof
end

