-- ==== Sys2Proof/Machine/State.lean ====
section
/-! DEFINITION. The state of sdefl-core as plain data (spec/10_state.md), the reasons a step can stop, and the
state after reset (spec/70_reset_and_hazards.md rule R391). -/

namespace Sys2Proof.Machine

/-- The model stops. Both reasons are safe (the model stops where no hardware action is defined), and no
command reaches either. -/
inductive Fault where
  /-- Raised by `inputByte` when a command asks for an input byte at or past IN_LEN: R396 gives the engine no
  such move. Safe. -/
  | outsideInputRegion
  /-- Raised by `memWrite` and `inputByte` at an address of 2^32 or above, which R80 says does not exist. Safe. -/
  | noSuchAddress
  deriving DecidableEq, Repr

/-- The model has no meaning for the command. -/
inductive Refusal where
  /-- Raised only by an arm of `exec` whose command has no meaning yet. Safe. -/
  | notModelled (mnemonic : String)
  deriving DecidableEq, Repr

/-- The fault causes of R360. Codes 10 to 255 are never raised, so they have no name here. -/
inductive Cause where
  | none | illegalCmd | badLevel | outTooSmall | outOverflow | badRegion | bwCapacity | huffFewSymbols
  | huffRange | badArg
  deriving DecidableEq, Repr

/-- STATUS (R34), less its reserved bits, which read 0. -/
structure Status where
  busy  : Bool
  done  : Bool
  fault : Bool
  cause : Cause
  deriving DecidableEq, Repr

/-- The driver's states (R56). -/
inductive DState where
  | header | block | terminator | padding | trailer | finish
  deriving DecidableEq, Repr

/-- The driver's own registers, which the host cannot see (R56). -/
structure Driver where
  dstate : DState
  pos    : Word
  bs     : Word
  be     : Word
  lvl    : BitVec 4
  cont   : Bool
  nblk   : Word
  deriving DecidableEq, Repr

/-- What the host (or the platform's rst pin) does next: the moves of R31, R390, R392 and R396. A register access
carries its address; the register window is a space of its own, apart from host memory (R80). -/
inductive HostOp where
  | write32 (addr : Nat) (value : Word)          -- a 32-bit register write (R31)
  | read32 (addr : Nat)                          -- a 32-bit register read (R31)
  | writeNarrow (addr : Nat) (value : Word)      -- an 8- or 16-bit register write (R31)
  | readNarrow (addr : Nat)                      -- an 8- or 16-bit register read (R31)
  | memStore (addr : Word) (value : Byte)        -- the host writes a byte of its memory (R80)
  | memLoad (addr : Word)                        -- the host reads a byte of its memory (R80)
  | rstAssert                                    -- rst asserted, no command running (R390)
  | rstRelease                                   -- rst released (R390)
  | abandon (command : Word)                     -- a CMD write, then rst asserted before the command ends (R392)
  deriving DecidableEq, Repr

/-- A table or a memory: index and value pairs, in the canonical form `Cells.wf`. -/
abbrev Cells (α : Type) := List (Nat × α)

/-- The canonical form: indices strictly rising and below `size`, and no entry equal to `dflt`, the value an
unlisted index has. -/
abbrev Cells.wf {α : Type} (size : Nat) (dflt : α) (m : Cells α) : Prop :=
  m.Pairwise (fun x y => x.1 < y.1) ∧ ∀ x ∈ m, x.1 < size ∧ x.2 ≠ dflt

/-- The canonical form of a table with no default value: only indices an entry was written at are listed. -/
abbrev Cells.wfSet {α : Type} (size : Nat) (m : Cells α) : Prop :=
  m.Pairwise (fun x y => x.1 < y.1) ∧ ∀ x ∈ m, x.1 < size

/-- Host memory (R80): the bytes that differ from 0, the value an unlisted address reads as (log entry 10). -/
abbrev Memory := List Host.Cell

/-- What a byte of host memory that nothing has written reads as (log entry 10). -/
abbrev Memory.unlisted : Byte := 0

/-- Host memory is in its canonical form. -/
abbrev Memory.wf (m : Memory) : Prop := Cells.wf Config.memSize Memory.unlisted m

/-- Everything the spec gives the machine, and the model's own fields at the end (INVENTORY.md, State). -/
structure State where
  -- the host register file (R32)
  status    : Status
  ie        : Bool         -- CTRL bit 0 (R35)
  faultInfo : Word
  arg0      : Word
  arg1      : Word
  arg2      : Word
  res0      : Word
  res1      : Word
  inBase    : Word
  inLen     : Word
  outBase   : Word
  outCap    : Word
  outPos    : Word
  bitBuf    : Word
  bitCnt    : BitVec 6
  adler     : Word
  -- the internal tables (R48); an unlisted entry is NIL in HEAD, unwritten in PREV (R50), 0 elsewhere
  head      : Cells Word
  prev      : Cells Word
  freqLit   : Cells Word
  freqDist  : Cells Word
  freqPre   : Cells Word
  lenLit    : Cells (BitVec 4)
  lenDist   : Cells (BitVec 4)
  lenPre    : Cells (BitVec 4)
  codeLit   : Cells (BitVec 16)
  codeDist  : Cells (BitVec 16)
  codePre   : Cells (BitVec 16)
  rleItem   : Cells (BitVec 12)
  rleCount  : BitVec 9
  -- the driver's registers (R56)
  driver    : Driver
  -- the reset pin (R390)
  rst       : Bool
  -- host memory (R80)
  mem       : Memory
  -- the model's own: the chip's parameters (R7, R31), the host's pending moves, oldest first (R5, R396), the last
  -- value a read gave the host, and the number of drawing events so far
  params    : Params
  bus       : List HostOp
  hostData  : Word
  draws     : Nat
  deriving DecidableEq, Repr

/-- The driver's registers before any COMPRESS has set them (log entry 11). -/
def Driver.initial : Driver :=
  { dstate := .header, pos := 0, bs := 0, be := 0, lvl := 0, cont := false, nblk := 0 }

/-- STATUS after reset (R34). -/
def Status.initial : Status := { busy := false, done := false, fault := false, cause := .none }

/-- The machine right after rst is released (R391), with no host move pending. -/
def State.reset : State where
  status    := Status.initial
  ie        := false
  faultInfo := 0
  arg0      := 0
  arg1      := 0
  arg2      := 0
  res0      := 0
  res1      := 0
  inBase    := 0
  inLen     := 0
  outBase   := 0
  outCap    := 0
  outPos    := 0
  bitBuf    := 0
  bitCnt    := 0
  adler     := 0x00000001
  head      := []
  prev      := []
  freqLit   := []
  freqDist  := []
  freqPre   := []
  lenLit    := []
  lenDist   := []
  lenPre    := []
  codeLit   := []
  codeDist  := []
  codePre   := []
  rleItem   := []
  rleCount  := 0
  driver    := Driver.initial
  rst       := false
  mem       := []
  params    := Params.reference
  bus       := []
  hostData  := 0
  draws     := 0

end Sys2Proof.Machine
end

