-- ==== Sys2Proof/Machine/Flags.lean ====
section
/-! DEFINITION. What STATUS says: the cause codes, the status word, the engine's mode and the interrupt line
(spec/10_state.md rules R30, R34, R47; spec/60_exceptions.md rule R360). The commands have no arithmetic flags. -/

namespace Sys2Proof.Machine

/-- The 8-bit code of a cause (R360). -/
def Cause.code : Cause → BitVec 8
  | .none => 0
  | .illegalCmd => 1
  | .badLevel => 2
  | .outTooSmall => 3
  | .outOverflow => 4
  | .badRegion => 5
  | .bwCapacity => 6
  | .huffFewSymbols => 7
  | .huffRange => 8
  | .badArg => 9

/-- The STATUS register as the host reads it (R34): CAUSE in [15:8], FAULT, DONE and BUSY in [2:0], and the
reserved bits 0. -/
def Status.word (t : Status) : Word :=
  (0 : BitVec 16) ++ t.cause.code ++ (0 : BitVec 5) ++ BitVec.ofBool t.fault ++ BitVec.ofBool t.done ++
    BitVec.ofBool t.busy

/-- The three modes of R30. -/
inductive Mode where
  | idle | busy | faulted
  deriving DecidableEq, Repr

/-- The engine's mode (R30). -/
def State.mode (s : State) : Mode :=
  if s.status.busy then .busy else if s.status.fault then .faulted else .idle

/-- The engine accepts any command: it is IDLE and not held in reset (R30, R390). -/
def State.ready (s : State) : Bool := !s.rst && !s.status.busy && !s.status.fault

/-- The engine accepts RESET_STATE: in every mode but BUSY, and not held in reset (R46, R366, R390). -/
def State.readyForReset (s : State) : Bool := !s.rst && !s.status.busy

/-- The interrupt line (R47). -/
def State.irq (s : State) : Bool := s.ie && (s.status.done || s.status.fault)

end Sys2Proof.Machine
end

