-- ==== Sys2Proof/Machine/Ops.lean ====
section
/-! DEFINITION. The named operations on tables, memory and registers, and taking a fault, which every command
shares (spec/20_memory.md, spec/60_exceptions.md). -/

namespace Sys2Proof.Machine

/-! ### Tables and memory as index and value pairs -/

/-- The value listed at an index, if any. -/
def Cells.find {α : Type} : Cells α → Nat → Option α
  | [], _ => none
  | (k, v) :: rest, i => if k = i then some v else Cells.find rest i

/-- The value at an index; an unlisted index has the value `dflt`. -/
def Cells.get {α : Type} (dflt : α) (m : Cells α) (i : Nat) : α := (Cells.find m i).getD dflt

/-- The list without its entry at an index. -/
def Cells.drop {α : Type} (m : Cells α) (i : Nat) : Cells α := m.filter (fun x => x.1 ≠ i)

/-- Insert an entry at its place in the order. -/
def Cells.insert {α : Type} (i : Nat) (v : α) : Cells α → Cells α
  | [] => [(i, v)]
  | (k, x) :: rest => if i < k then (i, v) :: (k, x) :: rest else (k, x) :: Cells.insert i v rest

/-- List the value at an index, whatever it is: a write to a table that keeps a written bit (R50). -/
def Cells.put {α : Type} (m : Cells α) (i : Nat) (v : α) : Cells α := Cells.insert i v (Cells.drop m i)

/-- Write the value at an index; writing `dflt` removes the entry. -/
def Cells.set {α : Type} [DecidableEq α] (dflt : α) (m : Cells α) (i : Nat) (v : α) : Cells α :=
  if v = dflt then Cells.drop m i else Cells.put m i v

/-- The table whose entry at each index below `n` is `f` of it. -/
def Cells.tabulate {α : Type} [DecidableEq α] (dflt : α) (n : Nat) (f : Nat → α) : Cells α :=
  ((List.range n).map (fun i => (i, f i))).filter (fun x => x.2 ≠ dflt)

/-- The table of `n` entries that holds a list of numbers from index 0 on, and 0 after it. -/
def Cells.ofNats {w : Nat} (n : Nat) (xs : List Nat) : Cells (BitVec w) :=
  Cells.tabulate 0 n (fun i => BitVec.ofNat w (xs.getD i 0))

/-! ### Ways a command's pseudocode ends early -/

/-- What ends a command before its last line: a fault of the engine (R361), or the model stopping. -/
inductive Trap where
  | raise (cause : Cause) (info : Word)
  | stop (f : Fault)
  deriving DecidableEq, Repr

/-- `if not ok: raise Fault(cause, info)` (R11, R12). -/
def check (ok : Bool) (cause : Cause) (info : Word) : Except Trap Unit :=
  if ok then .ok () else .error (.raise cause info)

/-! ### Host memory -/

/-- The byte host memory holds at an address (R80). -/
def memByte (m : Memory) (addr : Nat) : Byte := Cells.get Memory.unlisted m addr

/-- Host memory with a byte stored. -/
def storeByte (m : Memory) (addr : Nat) (v : Byte) : Memory := Cells.set Memory.unlisted m addr v

/-- MemWrite(addr, 1, v) of R11. An address of 2^32 or above does not exist (R80). -/
def memWrite (addr : Nat) (v : Byte) (s : State) : Except Trap State :=
  if addr < Config.memSize then .ok { s with mem := storeByte s.mem addr v } else .error (.stop .noSuchAddress)

/-- IN(k) of R11 and R84: the input byte at position k. The engine has no move that reads outside the input
region (R396). -/
def inputByte (s : State) (k : Nat) : Except Trap Byte :=
  if s.inLen.toNat ≤ k then .error (.stop .outsideInputRegion)
  else if Config.memSize ≤ s.inBase.toNat + k then .error (.stop .noSuchAddress)
  else .ok (memByte s.mem (s.inBase.toNat + k))

/-- IN(k) .. IN(k + n - 1). -/
def inputBytes (s : State) : Nat → Nat → Except Trap (List Byte)
  | _, 0 => .ok []
  | k, n + 1 => do
    let b ← inputByte s k
    let rest ← inputBytes s (k + 1) n
    .ok (b :: rest)

/-! ### The internal tables -/

/-- HASH_SIZE = 2^P_HASH_BITS (R8). -/
def hashSize (s : State) : Nat := 2 ^ s.params.hashBits

/-- A PREV entry as a command reads it. An entry nothing has written since hardware reset gives a fresh draw on
every read (R50, U1; log entry 4). -/
def readPrev (i : Nat) (s : State) : Word × State :=
  match Cells.find s.prev i with
  | some v => (v, s)
  | none => (Config.drawn s.draws .prevRead, { s with draws := s.draws + 1 })

/-- Count one more token of a literal/length symbol, mod 2^32 (R262). -/
def countLit (sym : Nat) (s : State) : State :=
  { s with freqLit := Cells.set 0 s.freqLit sym (Cells.get 0 s.freqLit sym + 1) }

/-- Count one more token of a distance symbol, mod 2^32 (R262). -/
def countDist (sym : Nat) (s : State) : State :=
  { s with freqDist := Cells.set 0 s.freqDist sym (Cells.get 0 s.freqDist sym + 1) }

/-! ### Accepting, completing and faulting a command -/

/-- A command is accepted (R33): BUSY is set and DONE cleared. -/
def accept (s : State) : State := { s with status := { s.status with busy := true, done := false } }

/-- A command reaches the end of its pseudocode (R362). -/
def complete (s : State) : State := { s with status := { s.status with busy := false, done := true } }

/-- Fault entry (R361): the cause and the information word are recorded, the engine is FAULTED, and nothing
else is saved. Control does not transfer: the engine has no handler. -/
def takeFault (cause : Cause) (info : Word) (s : State) : State :=
  { s with status := { busy := false, done := false, fault := true, cause := cause }, faultInfo := info }

/-- Leaving FAULTED (R341, R366): the fault's record is cleared. The faulted command is not resumed. -/
def clearFault (s : State) : State :=
  { s with status := { s.status with fault := false, cause := .none }, faultInfo := 0 }

/-! ### What is open after an in-flight fault or an abandoned command -/

/-- Draw the `n` output bytes at offsets `start` to `start + n - 1` in drawing event `k` (R364, R392). -/
def drawOutput (k : Nat) (base : Word) (start : Nat) : Nat → Memory → Memory
  | 0, m => m
  | n + 1, m =>
    drawOutput k base start n
      (storeByte m (base + word (start + n)).toNat ((Config.drawn k (.outByte (start + n))).setWidth 8))

/-- A table of `n` entries drawn in drawing event `k`. -/
def drawTable {w : Nat} (k : Nat) (t : TableId) (dflt : BitVec w) (n : Nat) : Cells (BitVec w) :=
  Cells.tabulate dflt n (fun i => (Config.drawn k (.entry t i)).setWidth w)

/-- The state an OUT_OVERFLOW leaves (R364, U2), from the state the command was accepted in: the bit writer, ADLER,
every table and the output bytes from OUTPOS-at-acceptance to OUT_CAP - 1 are drawn, any value each; everything else
is unchanged (log entries 5 and 6). -/
def drawAfterOverflow (s : State) : State :=
  let k := s.draws
  { s with
    outPos   := Config.drawn k .outPos
    bitBuf   := Config.drawn k .bitBuf
    bitCnt   := (Config.drawn k .bitCnt).setWidth 6
    adler    := Config.drawn k .adler
    head     := drawTable k .head Config.nil (hashSize s)
    prev     := (List.range Config.win).map (fun i => (i, Config.drawn k (.entry .prev i)))
    freqLit  := drawTable k .freqLit 0 288
    freqDist := drawTable k .freqDist 0 32
    freqPre  := drawTable k .freqPre 0 19
    lenLit   := drawTable k .lenLit 0 288
    lenDist  := drawTable k .lenDist 0 32
    lenPre   := drawTable k .lenPre 0 19
    codeLit  := drawTable k .codeLit 0 288
    codeDist := drawTable k .codeDist 0 32
    codePre  := drawTable k .codePre 0 19
    rleItem  := drawTable k .rleItem 0 316
    rleCount := (Config.drawn k (.entry .rleCount 0)).setWidth 9
    mem      := drawOutput k s.outBase s.outPos.toNat (s.outCap.toNat - s.outPos.toNat) s.mem
    draws    := s.draws + 1 }

/-! ### Running a command -/

/-- How a command ends (R361 to R364), from the state `a` it was accepted in: it completes, or it faults with
the state of `a` kept (decode and pre-check faults) or drawn (OUT_OVERFLOW, the only in-flight fault), or the
model stops. -/
def finish (a : State) : Except Trap State → Host.Outcome State Fault Refusal
  | .ok t => .next (complete t)
  | .error (.raise cause info) =>
    .next (takeFault cause info (if cause = .outOverflow then drawAfterOverflow a else a))
  | .error (.stop f) => .fault f

/-- One command as one atomic step (R13). The write is ignored while the engine is BUSY, FAULTED or held in
reset (R46, R390); otherwise the command is accepted, runs, and ends. -/
def runCommand (body : State → Except Trap State) (s : State) :
    Host.Outcome State Fault Refusal :=
  if s.ready then finish (accept s) (body (accept s)) else .next s

/-- A command word that is no command (R117, R119): ILLEGAL_CMD with the word. -/
def illegalCommand (w : Word) (s : State) : Host.Outcome State Fault Refusal :=
  runCommand (fun _ => .error (.raise .illegalCmd w)) s

end Sys2Proof.Machine
end

