-- ==== Sys2Proof/Machine/Operands.lean ====
section
/-! DEFINITION. The operand forms: the selectors SEL names, the region check, and the tables as TBL_READ,
TBL_WRITE and HUFF_BUILD address them (spec/30_encoding.md rules R112, R115; spec/20_memory.md rule R83;
spec/48_control.md rule R344; spec/44_huffman.md rule R200). -/

namespace Sys2Proof.Machine

/-- The alphabet a SEL names (R200). -/
def Alphabet.ofSel (sel : BitVec 4) : Option Alphabet :=
  match sel.toNat with
  | 0 => some .litLen
  | 1 => some .dist
  | 2 => some .preCode
  | _ => none

/-- The table a SEL names (R48). -/
def TableId.ofSel (sel : BitVec 4) : Option TableId :=
  match sel.toNat with
  | 0 => some .head
  | 1 => some .prev
  | 2 => some .freqLit
  | 3 => some .freqDist
  | 4 => some .freqPre
  | 5 => some .lenLit
  | 6 => some .lenDist
  | 7 => some .lenPre
  | 8 => some .codeLit
  | 9 => some .codeDist
  | 10 => some .codePre
  | 11 => some .rleItem
  | 12 => some .rleCount
  | _ => none

/-! ### The region check -/

/-- Condition 4 of R83: a region is empty or the two share no address. -/
def regionsDisjoint (s : State) : Bool :=
  decide (s.inLen = 0) || decide (s.outCap = 0) ||
  decide (s.inBase.toNat + s.inLen.toNat ≤ s.outBase.toNat) ||
  decide (s.outBase.toNat + s.outCap.toNat ≤ s.inBase.toNat)

/-- The region check of R83: its four conditions in order. -/
def regionCheck (s : State) : Except Trap Unit := do
  check (decide (s.inLen.toNat ≤ Config.maxInLen)) .badRegion 1
  check (decide (s.inBase.toNat + s.inLen.toNat ≤ Config.memSize)) .badRegion 2
  check (decide (s.outBase.toNat + s.outCap.toNat ≤ Config.memSize)) .badRegion 3
  check (regionsDisjoint s) .badRegion 4

/-- All four conditions of R83 hold. -/
def regionsOk (s : State) : Bool :=
  decide (s.inLen.toNat ≤ Config.maxInLen) &&
  decide (s.inBase.toNat + s.inLen.toNat ≤ Config.memSize) &&
  decide (s.outBase.toNat + s.outCap.toNat ≤ Config.memSize) && regionsDisjoint s

/-! ### Table access -/

/-- E(t): the number of entries of a table (R344). -/
def tableEntries (s : State) : TableId → Nat
  | .head => hashSize s
  | .prev => Config.win
  | .freqLit | .lenLit | .codeLit => 288
  | .freqDist | .lenDist | .codeDist => 32
  | .freqPre | .lenPre | .codePre => 19
  | .rleItem => 316
  | .rleCount => 1

/-- W(t): the width of a table's entries (R344). -/
def tableWidth : TableId → Nat
  | .head | .prev | .freqLit | .freqDist | .freqPre => 32
  | .lenLit | .lenDist | .lenPre => 4
  | .codeLit | .codeDist | .codePre => 16
  | .rleItem => 12
  | .rleCount => 9

/-- A value TBL_WRITE may store in a table: it fits the width and meets the extra condition (R343, R344). -/
def tableAccepts (t : TableId) (v : Word) : Bool :=
  decide (v.toNat < 2 ^ tableWidth t) &&
  match t with
  | .rleItem => decide (v.toNat % 32 ≤ 18)
  | .rleCount => decide (v.toNat ≤ 316)
  | .head | .prev | .freqLit | .freqDist | .freqPre | .lenLit | .lenDist | .lenPre | .codeLit | .codeDist
  | .codePre => true

/-- The entry of a table, widened with zeros (R342), and the state after the read: a read of an unwritten PREV
entry draws its value. -/
def readTable (t : TableId) (i : Nat) (s : State) : Word × State :=
  match t with
  | .head => (Cells.get Config.nil s.head i, s)
  | .prev => readPrev i s
  | .freqLit => (Cells.get 0 s.freqLit i, s)
  | .freqDist => (Cells.get 0 s.freqDist i, s)
  | .freqPre => (Cells.get 0 s.freqPre i, s)
  | .lenLit => ((Cells.get 0 s.lenLit i).setWidth 32, s)
  | .lenDist => ((Cells.get 0 s.lenDist i).setWidth 32, s)
  | .lenPre => ((Cells.get 0 s.lenPre i).setWidth 32, s)
  | .codeLit => ((Cells.get 0 s.codeLit i).setWidth 32, s)
  | .codeDist => ((Cells.get 0 s.codeDist i).setWidth 32, s)
  | .codePre => ((Cells.get 0 s.codePre i).setWidth 32, s)
  | .rleItem => ((Cells.get 0 s.rleItem i).setWidth 32, s)
  | .rleCount => (s.rleCount.setWidth 32, s)

/-- The state with a table's entry written (R343). -/
def writeTable (t : TableId) (i : Nat) (v : Word) (s : State) : State :=
  match t with
  | .head => { s with head := Cells.set Config.nil s.head i v }
  | .prev => { s with prev := Cells.put s.prev i v }
  | .freqLit => { s with freqLit := Cells.set 0 s.freqLit i v }
  | .freqDist => { s with freqDist := Cells.set 0 s.freqDist i v }
  | .freqPre => { s with freqPre := Cells.set 0 s.freqPre i v }
  | .lenLit => { s with lenLit := Cells.set 0 s.lenLit i (v.setWidth 4) }
  | .lenDist => { s with lenDist := Cells.set 0 s.lenDist i (v.setWidth 4) }
  | .lenPre => { s with lenPre := Cells.set 0 s.lenPre i (v.setWidth 4) }
  | .codeLit => { s with codeLit := Cells.set 0 s.codeLit i (v.setWidth 16) }
  | .codeDist => { s with codeDist := Cells.set 0 s.codeDist i (v.setWidth 16) }
  | .codePre => { s with codePre := Cells.set 0 s.codePre i (v.setWidth 16) }
  | .rleItem => { s with rleItem := Cells.set 0 s.rleItem i (v.setWidth 12) }
  | .rleCount => { s with rleCount := v.setWidth 9 }

/-! ### The alphabets' tables (R200) -/

/-- The frequency table of an alphabet. -/
def alphabetFreq (a : Alphabet) (s : State) : Cells Word :=
  match a with
  | .litLen => s.freqLit
  | .dist => s.freqDist
  | .preCode => s.freqPre

/-- The code-length table of an alphabet. -/
def alphabetLen (a : Alphabet) (s : State) : Cells (BitVec 4) :=
  match a with
  | .litLen => s.lenLit
  | .dist => s.lenDist
  | .preCode => s.lenPre

/-- The code table of an alphabet. -/
def alphabetCode (a : Alphabet) (s : State) : Cells (BitVec 16) :=
  match a with
  | .litLen => s.codeLit
  | .dist => s.codeDist
  | .preCode => s.codePre

/-- The number of entries of an alphabet's tables. -/
def alphabetSize : Alphabet → Nat
  | .litLen => 288
  | .dist => 32
  | .preCode => 19

/-- NUM: how many symbols of an alphabet the builder codes. -/
def alphabetNum : Alphabet → Nat
  | .litLen => Config.numLit
  | .dist => Config.numDist
  | .preCode => Config.numPre

/-- MAX: the longest code length of an alphabet. -/
def alphabetMax : Alphabet → Nat
  | .litLen => 14
  | .dist => 15
  | .preCode => 7

/-- The state with an alphabet's length and code tables replaced. -/
def setCodes (a : Alphabet) (lens : Cells (BitVec 4)) (codes : Cells (BitVec 16)) (s : State) : State :=
  match a with
  | .litLen => { s with lenLit := lens, codeLit := codes }
  | .dist => { s with lenDist := lens, codeDist := codes }
  | .preCode => { s with lenPre := lens, codePre := codes }

end Sys2Proof.Machine
end

