-- ==== Sys2Proof/Machine/Control.lean ====
section
/-! DEFINITION. The control commands NOP, RESET_STATE, TBL_READ and TBL_WRITE (spec/48_control.md). -/

namespace Sys2Proof.Machine

/-- NOP (R340). -/
def execNop (s : State) : Host.Outcome State Fault Refusal := runCommand (fun a => .ok a) s

/-- What RESET_STATE clears beside the fault's record (R341): everything but PREV, CTRL, the ARG registers and
the region registers. -/
def resetEngine (s : State) : State :=
  { s with
    res0 := 0, res1 := 0, outPos := 0, bitBuf := 0, bitCnt := 0, adler := 0x00000001, head := [],
    freqLit := [], freqDist := [], freqPre := [], lenLit := [], lenDist := [], lenPre := [],
    codeLit := [], codeDist := [], codePre := [], rleItem := [], rleCount := 0 }

/-- RESET_STATE (R341): the only command accepted while FAULTED (R46), and the return from a fault (R366). -/
def execResetState (s : State) : Host.Outcome State Fault Refusal :=
  if s.readyForReset then .next (complete (resetEngine (clearFault (accept s)))) else .next s

/-- TBL_READ (R342). A SEL that names no table is ILLEGAL_CMD, as its word is at decode (R118; log entry 13). -/
def execTblRead (sel : BitVec 4) (s : State) : Host.Outcome State Fault Refusal :=
  match TableId.ofSel sel with
  | some t =>
    runCommand (fun a => do
      check (decide (a.arg0.toNat < tableEntries a t)) .badArg 0
      let r := readTable t a.arg0.toNat a
      .ok { r.2 with res0 := r.1 }) s
  | none => illegalCommand (encode (.tblRead sel)) s

/-- TBL_WRITE (R343). A SEL that names no table is ILLEGAL_CMD, as its word is at decode (R118; log entry 13). -/
def execTblWrite (sel : BitVec 4) (s : State) : Host.Outcome State Fault Refusal :=
  match TableId.ofSel sel with
  | some t =>
    runCommand (fun a => do
      check (decide (a.arg0.toNat < tableEntries a t)) .badArg 0
      check (tableAccepts t a.arg1) .badArg 1
      .ok (writeTable t a.arg0.toNat a.arg1 a)) s
  | none => illegalCommand (encode (.tblWrite sel)) s

end Sys2Proof.Machine
end

