-- ==== Sys2Proof/Machine/BitWriter.lean ====
section
/-! DEFINITION. The bit writer: OutByte, Emit, Pad, and BW_RESET, BW_EMIT, BW_PAD (spec/41_bit_writer.md). -/

namespace Sys2Proof.Machine

/-- OutByte(v) of R140: the overflow check, the store, and the advance of OUTPOS. -/
def outByte (v : Byte) (s : State) : Except Trap State := do
  check (decide (s.outPos.toNat < s.outCap.toNat)) .outOverflow s.outPos
  let t ← memWrite (s.outBase.toNat + s.outPos.toNat) v s
  .ok { t with outPos := word (t.outPos.toNat + 1) }

/-- The flush loop of R141, `n` complete bytes long: the low byte of the accumulator goes out each time. -/
def flushBytes : Nat → Nat → State → Except Trap State
  | 0, _, s => .ok s
  | n + 1, acc, s => do
    let t ← outByte (byte acc) s
    flushBytes n (acc / 2 ^ 8) t

/-- Whether Emit has room for `n` more bits (R141). -/
def emitFits (n : Nat) (s : State) : Bool := decide (n ≤ 32) && decide (s.bitCnt.toNat + n ≤ 32)

/-- Emit(code, n) of R141. Its loop runs while 8 or more bits are pending, that is once per complete byte. -/
def emit (code n : Nat) (s : State) : Except Trap State := do
  check (emitFits n s) .bwCapacity (word n)
  let acc := s.bitBuf.toNat + (code % 2 ^ n) * 2 ^ s.bitCnt.toNat
  let cnt := s.bitCnt.toNat + n
  let t ← flushBytes (cnt / 8) acc s
  .ok { t with bitBuf := word (acc / 2 ^ (8 * (cnt / 8))), bitCnt := BitVec.ofNat 6 (cnt % 8) }

/-- Pad() of R146. -/
def pad (s : State) : Except Trap State :=
  if s.bitCnt.toNat = 0 then .ok s else emit 0 (8 - s.bitCnt.toNat) s

/-- The writer's registers at their start values (R142). -/
def resetWriter (s : State) : State := { s with bitBuf := 0, bitCnt := 0, outPos := 0 }

/-- The four bytes of a 32-bit value, most significant first, each as eight bits (R274, R302). -/
def emitBigEndian (v : Word) (s : State) : Except Trap State := do
  let s ← emit (v.toNat / 2 ^ 24 % 2 ^ 8) 8 s
  let s ← emit (v.toNat / 2 ^ 16 % 2 ^ 8) 8 s
  let s ← emit (v.toNat / 2 ^ 8 % 2 ^ 8) 8 s
  emit (v.toNat % 2 ^ 8) 8 s

/-- Run a command that writes output, with the region check first (R82, R83). -/
def runEmitter (body : State → Except Trap State) (s : State) : Host.Outcome State Fault Refusal :=
  runCommand (fun a => do regionCheck a; body a) s

/-- BW_RESET (R142). -/
def execBwReset (s : State) : Host.Outcome State Fault Refusal :=
  runCommand (fun a => .ok (resetWriter a)) s

/-- BW_EMIT (R143). -/
def execBwEmit (s : State) : Host.Outcome State Fault Refusal :=
  runEmitter (fun a => do
    check (emitFits a.arg1.toNat a) .bwCapacity a.arg1
    emit a.arg0.toNat a.arg1.toNat a) s

/-- BW_PAD (R144). -/
def execBwPad (s : State) : Host.Outcome State Fault Refusal := runEmitter pad s

end Sys2Proof.Machine
end

