-- ==== Sys2Proof/Machine/BlockEncoder.lean ====
section
/-! DEFINITION. The block encoder: the wire tables, the token primitives, the block header, and FREQ_CLEAR,
FREQ_SEED, BLK_HEADER and the EMIT commands (spec/46_block_encoder.md). -/

namespace Sys2Proof.Machine

/-! ### Wire tables -/

/-- LBASE of R260. -/
def lengthBase : List Nat :=
  [3, 4, 5, 6, 7, 8, 9, 10, 11, 13, 15, 17, 19, 23, 27, 31, 35, 43, 51, 59, 67, 83, 99, 115, 131, 163, 195, 227, 258]

/-- LEXT of R260, with 2, 3 and 4 at slots 15, 19 and 23, as RFC 1951 has them (R2, D45) and as the slots' spans
fill; the row R260 prints has 3, 4 and 5 there. DEDUCED (log entry 21). -/
def lengthExtra : List Nat :=
  [0, 0, 0, 0, 0, 0, 0, 0, 1, 1, 1, 1, 2, 2, 2, 2, 3, 3, 3, 3, 4, 4, 4, 4, 5, 5, 5, 5, 0]

/-- DBASE of R261. -/
def distBase : List Nat :=
  [1, 2, 3, 4, 5, 7, 9, 13, 17, 25, 33, 49, 65, 97, 129, 193, 257, 385, 513, 769] ++
  [1025, 1537, 2049, 3073, 4097, 6145, 8193, 12289, 16385, 24577]

/-- DEXT of R261. -/
def distExtra : List Nat :=
  [0, 0, 0, 0, 1, 1, 2, 2, 3, 3, 4, 4, 5, 5, 6, 6, 7, 7, 8, 8, 9, 9, 10, 10, 11, 11, 12, 12, 13, 13]

/-- The largest slot at or below `k` whose base is at most `x`. -/
def slotBelow (base : List Nat) (x : Nat) : Nat → Nat
  | 0 => 0
  | k + 1 => if base.getD (k + 1) 0 ≤ x then k + 1 else slotBelow base x k

/-- LSlot(L) of R260. -/
def lengthSlot (len : Nat) : Nat := slotBelow lengthBase len 28

/-- DSlot(D) of R261. -/
def distSlot (dist : Nat) : Nat := slotBelow distBase dist 29

/-- PERM of R268. -/
def preCodeOrder : List Nat := [16, 17, 18, 0, 8, 7, 9, 6, 10, 5, 11, 4, 12, 3, 13, 2, 14, 1, 15]

/-! ### Emission primitives -/

/-- Emit the code of a symbol of an alphabet. -/
def emitSymbol (a : Alphabet) (sym : Nat) (s : State) : Except Trap State :=
  emit (Cells.get 0 (alphabetCode a s) sym).toNat (Cells.get 0 (alphabetLen a s) sym).toNat s

/-- EmitLit(b) of R262. -/
def emitLiteral (b : Nat) (s : State) : Except Trap State := do
  let s ← emitSymbol .litLen b s
  .ok (countLit b s)

/-- EmitMatch(L, D) of R262. -/
def emitMatchToken (len dist : Nat) (s : State) : Except Trap State := do
  let ls := lengthSlot len
  let ds := distSlot dist
  let s ← emitSymbol .litLen (257 + ls) s
  let s ← emit (len - lengthBase.getD ls 0) (lengthExtra.getD ls 0) s
  let s ← emitSymbol .dist ds s
  let s ← emit (dist - distBase.getD ds 0) (distExtra.getD ds 0) s
  .ok (countDist ds (countLit (257 + ls) s))

/-- EmitEOB() of R262. -/
def emitEndOfBlock (s : State) : Except Trap State := do
  let s ← emitSymbol .litLen 256 s
  .ok (countLit 256 s)

/-- The pre-code length sent in place `k` of the permuted order (R268). -/
def permutedLength (s : State) (k : Nat) : Nat := (Cells.get 0 s.lenPre (preCodeOrder.getD k 0)).toNat

/-- The trimming loop of R267 from `hclen` = 4 + n. -/
def trimHclen (s : State) : Nat → Nat
  | 0 => 4
  | n + 1 => if permutedLength s (4 + n) = 0 then trimHclen s n else 4 + (n + 1)

/-- hclen of R267. -/
def headerHclen (s : State) : Nat := trimHclen s 15

/-- The pre-code lengths of the header, from place `k` on, `n` of them, three bits each (R266). -/
def emitPreLengths : Nat → Nat → State → Except Trap State
  | _, 0, s => .ok s
  | k, n + 1, s => do
    let s ← emit (permutedLength s k) 3 s
    emitPreLengths (k + 1) n s

/-- The extra bits of a pre-code symbol (R266). -/
def itemExtraBits (sym : Nat) : Nat :=
  if sym = 16 then 2 else if sym = 17 then 3 else if sym = 18 then 7 else 0

/-- One code-length item: its symbol's code, then its extra bits where the symbol has any (R266). -/
def emitItem (item : Nat) (s : State) : Except Trap State := do
  let sym := item % 32
  let s ← emitSymbol .preCode sym s
  if itemExtraBits sym = 0 then .ok s else emit (item / 32) (itemExtraBits sym) s

/-- The code-length items from index `j` on, `n` of them (R266). -/
def emitItems : Nat → Nat → State → Except Trap State
  | _, 0, s => .ok s
  | j, n + 1, s => do
    let s ← emitItem (Cells.get 0 s.rleItem j).toNat s
    emitItems (j + 1) n s

/-- BlockHeader(FLAG) of R266. -/
def blockHeader (bfinal : Bool) (s : State) : Except Trap State := do
  let s ← emit bfinal.toNat 1 s
  let s ← emit 2 2 s
  let s ← emit (Config.numLit - 257) 5 s
  let s ← emit (Config.numDist - 1) 5 s
  let hclen := headerHclen s
  let s ← emit (hclen - 4) 4 s
  let s ← emitPreLengths 0 hclen s
  emitItems 0 s.rleCount.toNat s

/-- Terminator() of R272. -/
def terminator (s : State) : Except Trap State := do
  let s ← emit 1 1 s
  let s ← emit 1 2 s
  emit 0 7 s

/-- The two zlib header bytes of R273. -/
def zlibHeader (s : State) : Except Trap State := do
  let s ← emit 0x78 8 s
  emit 0x01 8 s

/-- FREQ_LIT and FREQ_DIST with every entry 0 (R264). -/
def clearFreqs (s : State) : State := { s with freqLit := [], freqDist := [] }

/-- FREQ_LIT and FREQ_DIST loaded with the seed parameters (R265). -/
def seedFreqs (s : State) : State :=
  { s with freqLit := Cells.ofNats 288 s.params.seedLit, freqDist := Cells.ofNats 32 s.params.seedDist }

/-! ### Commands -/

/-- FREQ_CLEAR (R264). -/
def execFreqClear (s : State) : Host.Outcome State Fault Refusal := runCommand (fun a => .ok (clearFreqs a)) s

/-- FREQ_SEED (R265). -/
def execFreqSeed (s : State) : Host.Outcome State Fault Refusal := runCommand (fun a => .ok (seedFreqs a)) s

/-- BLK_HEADER (R266). -/
def execBlkHeader (bfinal : Bool) (s : State) : Host.Outcome State Fault Refusal :=
  runEmitter (blockHeader bfinal) s

/-- EMIT_LIT (R269). -/
def execEmitLit (s : State) : Host.Outcome State Fault Refusal :=
  runEmitter (fun a => do
    check (decide (a.arg0.toNat ≤ 255)) .badArg 0
    emitLiteral a.arg0.toNat a) s

/-- EMIT_MATCH (R270). -/
def execEmitMatch (s : State) : Host.Outcome State Fault Refusal :=
  runEmitter (fun a => do
    check (decide (3 ≤ a.arg0.toNat ∧ a.arg0.toNat ≤ 258)) .badArg 0
    check (decide (1 ≤ a.arg1.toNat ∧ a.arg1.toNat ≤ 32768)) .badArg 1
    emitMatchToken a.arg0.toNat a.arg1.toNat a) s

/-- EMIT_EOB (R271). -/
def execEmitEob (s : State) : Host.Outcome State Fault Refusal := runEmitter emitEndOfBlock s

/-- EMIT_TERMINATOR (R272). -/
def execEmitTerminator (s : State) : Host.Outcome State Fault Refusal := runEmitter terminator s

/-- EMIT_ZHEADER (R273). -/
def execEmitZheader (s : State) : Host.Outcome State Fault Refusal := runEmitter zlibHeader s

/-- EMIT_TRAILER (R274). -/
def execEmitTrailer (s : State) : Host.Outcome State Fault Refusal :=
  runEmitter (fun a => emitBigEndian a.adler a) s

end Sys2Proof.Machine
end

