-- ==== Sys2Proof/Machine/Checksum.lean ====
section
/-! DEFINITION. The checksum unit: AdlerStep and ADLER_UPDATE (spec/42_checksum.md). -/

namespace Sys2Proof.Machine

/-- The Adler modulus (R6). -/
abbrev adlerMod : Nat := 65521

/-- The loop of R160 over the two lanes. -/
def adlerLanes : Nat → Nat → List Byte → Nat × Nat
  | s1, s2, [] => (s1, s2)
  | s1, s2, b :: bs =>
    let s1 := (s1 + b.toNat) % adlerMod
    adlerLanes s1 ((s2 + s1) % adlerMod) bs

/-- AdlerStep(A, bytes) of R160. -/
def adlerStep (a : Word) (bs : List Byte) : Word :=
  let r := adlerLanes (a.toNat % 2 ^ 16) (a.toNat / 2 ^ 16) bs
  word (r.2 * 2 ^ 16 + r.1)

/-- ADLER_UPDATE (R161). -/
def execAdlerUpdate (s : State) : Host.Outcome State Fault Refusal :=
  runCommand (fun a => do
    regionCheck a
    check (decide (a.arg0.toNat ≤ a.inLen.toNat)) .badArg 0
    check (decide (a.arg1.toNat ≤ a.inLen.toNat - a.arg0.toNat)) .badArg 1
    let bs ← inputBytes a a.arg0.toNat a.arg1.toNat
    .ok { a with adler := adlerStep a.adler bs }) s

end Sys2Proof.Machine
end

