-- ==== Sys2Proof/Machine/Huffman.lean ====
section
/-! DEFINITION. The canonical Huffman builder and HUFF_BUILD (spec/44_huffman.md). -/

namespace Sys2Proof.Machine

/-- The working frequencies f[0 .. NUM-1]: the table's, with zero forced to one (R203). -/
def forcedFreqs (freq : Cells Word) (num : Nat) : List Nat :=
  (List.range num).map (fun s => max (Cells.get 0 freq s).toNat 1)

/-- The key order of R204 on pairs of a frequency and a symbol. -/
def keyLe (x y : Nat × Nat) : Bool := decide (x.1 < y.1) || (decide (x.1 = y.1) && decide (x.2 ≤ y.2))

/-- Insert a pair at its place in the key order. -/
def insertKey (x : Nat × Nat) : List (Nat × Nat) → List (Nat × Nat)
  | [] => [x]
  | y :: ys => if keyLe x y then x :: y :: ys else y :: insertKey x ys

/-- SortSymbols(f) of R204: the pairs (f[s], s) in ascending order. -/
def sortSymbols (f : List Nat) : List (Nat × Nat) := (f.zip (List.range f.length)).foldr insertKey []

/-- One of the two picks of a merge (R205): the weight taken, whether an internal node was taken, and the
leaves and internal nodes left. The leaf wins ties. -/
def pickNode : List Nat → List Nat → Nat × Bool × List Nat × List Nat
  | [], [] => (0, false, [], [])
  | [], q :: qs => (q, true, [], qs)
  | w :: ws, [] => (w, false, ws, [])
  | w :: ws, q :: qs => if w ≤ q then (w, false, ws, q :: qs) else (q, true, w :: ws, qs)

/-- BuildTree of R205, `n` merges from node `e` on, with the weights of the unused leaves and of the unused
internal nodes. Internal nodes are used in index order, so the parents come out as the array parent[b ..]. -/
def buildTree : Nat → Nat → List Nat → List Nat → List Nat
  | 0, _, _, _ => []
  | n + 1, e, ws, qs =>
    let x := pickNode ws qs
    let y := pickNode x.2.2.1 x.2.2.2
    (if x.2.1 then [e] else []) ++ (if y.2.1 then [e] else []) ++
      buildTree n (e + 1) y.2.2.1 (y.2.2.2 ++ [x.1 + y.1])

/-- The depths of the internal nodes k, k+1, ..., root, from the parents of all of them but the root (R206). -/
def nodeDepths : Nat → List Nat → List Nat
  | _, [] => [0]
  | k, p :: ps =>
    let rest := nodeDepths (k + 1) ps
    (rest.getD (p - (k + 1)) 0 + 1) :: rest

/-- The downward search of R206: the deepest level at or above `l` with a free slot. It never reaches level 0
(R207; log entry 12). -/
def freeLevel (cnt : List Nat) : Nat → Nat
  | 0 => 0
  | l + 1 => if cnt.getD (l + 1) 0 = 0 then freeLevel cnt l else l + 1

/-- One internal node below the root, at depth `d`, turns a slot into two slots one level deeper (R206). -/
def splitSlot (maxLen d : Nat) (cnt : List Nat) : List Nat :=
  let l := freeLevel cnt (if maxLen ≤ d then maxLen - 1 else d)
  let cnt := cnt.set l (cnt.getD l 0 - 1)
  cnt.set (l + 1) (cnt.getD (l + 1) 0 + 2)

/-- cnt[0 .. MAX] before any internal node below the root: the root's two children (R206). -/
def rootCounts (maxLen : Nat) : List Nat := (List.replicate (maxLen + 1) 0).set 1 2

/-- LengthCounts of R206: the nodes n-3 down to 0 in turn. -/
def lengthCounts (maxLen : Nat) (parents : List Nat) : List Nat :=
  (nodeDepths 0 parents).dropLast.foldr (splitSlot maxLen) (rootCounts maxLen)

/-- The lengths in sorted order: cnt[l] times l, for l from MAX down to 1 (R208). -/
def sortedLengths (cnt : List Nat) : Nat → List Nat
  | 0 => []
  | l + 1 => List.replicate (cnt.getD (l + 1) 0) (l + 1) ++ sortedLengths cnt l

/-- AssignLengths of R208: the length of each symbol below `num`. -/
def assignLengths (num maxLen : Nat) (order cnt : List Nat) : List Nat :=
  let pairs := order.zip (sortedLengths cnt maxLen)
  (List.range num).map (fun s => (pairs.lookup s).getD 0)

/-- next[l] of R209: the first code of each length. -/
def firstCode (cnt : List Nat) : Nat → Nat
  | 0 => 0
  | 1 => 0
  | l + 2 => (firstCode cnt (l + 1) + cnt.getD (l + 1) 0) * 2

/-- Reverse(v, l) of R210. -/
def reverseBits : Nat → Nat → Nat
  | _, 0 => 0
  | v, l + 1 => v % 2 * 2 ^ l + reverseBits (v / 2) l

/-- The symbol loop of AssignCodes (R209): each symbol takes the next code of its length, bit-reversed. -/
def assignCodes : List Nat → List Nat → List Nat
  | _, [] => []
  | next, l :: ls => reverseBits (next.getD l 0) l :: assignCodes (next.set l (next.getD l 0 + 1)) ls

/-- The counts cnt[0 .. MAX] the builder reaches from the working frequencies (R204 to R206). -/
def huffCounts (maxLen : Nat) (f : List Nat) : List Nat :=
  lengthCounts maxLen (buildTree (f.length - 1) 0 ((sortSymbols f).map Prod.fst) [])

/-- The code lengths of the symbols (R203 to R208). -/
def huffLengths (maxLen : Nat) (f : List Nat) : List Nat :=
  assignLengths f.length maxLen ((sortSymbols f).map Prod.snd) (huffCounts maxLen f)

/-- The codes of the symbols, from the counts and the lengths (R209, R210). -/
def huffCodes (maxLen : Nat) (f : List Nat) : List Nat :=
  assignCodes ((List.range (maxLen + 1)).map (firstCode (huffCounts maxLen f))) (huffLengths maxLen f)

/-- W of R201: the sum of the forced frequencies. -/
def forcedSum (a : Alphabet) (s : State) : Nat := (forcedFreqs (alphabetFreq a s) (alphabetNum a)).sum

/-- Every entry of the alphabet's LEN and CODE tables rebuilt from its frequencies (R203 to R210); those above NUM
get 0 (R211). -/
def buildCodes (a : Alphabet) (s : State) : State :=
  let f := forcedFreqs (alphabetFreq a s) (alphabetNum a)
  setCodes a (Cells.ofNats (alphabetSize a) (huffLengths (alphabetMax a) f))
    (Cells.ofNats (alphabetSize a) (huffCodes (alphabetMax a) f)) s

/-- HUFF_BUILD(a) of R201: the range check of R202, then the tables. -/
def huffBuild (a : Alphabet) (s : State) : Except Trap State := do
  let w := forcedSum a s
  check (decide (w < 2 ^ 22)) .huffRange (word (min w (2 ^ 32 - 1)))
  .ok (buildCodes a s)

/-- HUFF_BUILD (R201). A SEL that names no alphabet is ILLEGAL_CMD, as its word is at decode (R118; log
entry 13). -/
def execHuffBuild (sel : BitVec 4) (s : State) : Host.Outcome State Fault Refusal :=
  match Alphabet.ofSel sel with
  | some a => runCommand (huffBuild a) s
  | none => illegalCommand (encode (.huffBuild sel)) s

end Sys2Proof.Machine
end

