-- ==== Sys2Proof/Machine/MatchFinder.lean ====
section
/-! DEFINITION. The match finder: HASH4, Insert, FindMatch, and HC_RESET, HC_INSERT, FIND_MATCH
(spec/43_match_finder.md). -/

namespace Sys2Proof.Machine

/-- P_HASH of R7: the reference function, or another total function cut down to P_HASH_BITS bits. -/
def hashBytes (P : Params) (b0 b1 b2 b3 : Byte) : Nat :=
  match P.hash with
  | .reference =>
    (b0.toNat + 2 ^ 8 * b1.toNat + 2 ^ 16 * b2.toNat + 2 ^ 24 * b3.toNat) * 0x9E377989 % 2 ^ 32 /
      2 ^ (32 - P.hashBits)
  | .other n => Config.otherHash n b0 b1 b2 b3 % 2 ^ P.hashBits

/-- HASH4(p) of R170. -/
def hash4 (s : State) (p : Nat) : Except Trap Nat := do
  let b0 ← inputByte s p
  let b1 ← inputByte s (p + 1)
  let b2 ← inputByte s (p + 2)
  let b3 ← inputByte s (p + 3)
  .ok (hashBytes s.params b0 b1 b2 b3)

/-- Valid(c, p) of R171. -/
def validCandidate (c : Word) (p : Nat) : Bool :=
  decide (c ≠ Config.nil) && decide (c.toNat < p) && decide (p < c.toNat + Config.win)

/-- Insert(p) of R173. -/
def insertPos (p : Nat) (s : State) : Except Trap State := do
  let h ← hash4 s p
  .ok { s with
    prev := Cells.put s.prev (p % Config.win) (Cells.get Config.nil s.head h)
    head := Cells.set Config.nil s.head h (word p) }

/-- The length of the common prefix of the input at c and at p, at most `n` (R175). -/
def matchLen (s : State) (c p : Nat) : Nat → Except Trap Nat
  | 0 => .ok 0
  | n + 1 => do
    let a ← inputByte s c
    let b ← inputByte s p
    if a = b then
      let m ← matchLen s (c + 1) (p + 1) n
      .ok (m + 1)
    else .ok 0

/-- Examine(c, p, max_len, best_len) of R176: the cheap reject, the 4-byte check, the extension, and the
strictly-longer test; the accepted length, if any. -/
def examine (s : State) (c p maxLen best : Nat) : Except Trap (Option Nat) := do
  let a ← inputByte s (c + best)
  let b ← inputByte s (p + best)
  if a ≠ b then .ok none
  else
    let four ← matchLen s c p 4
    if four ≠ 4 then .ok none
    else
      let more ← matchLen s (c + 4) (p + 4) (maxLen - 4)
      .ok (if best < 4 + more then some (4 + more) else none)

/-- The candidate loop of R177, with `hops` candidates left to examine, from candidate c and the best length and
offset so far. The state that comes back differs only in the draws of unwritten PREV entries. -/
def walkChain (p maxLen : Nat) : Nat → Word → Nat → Nat → State → Except Trap ((Nat × Nat) × State)
  | 0, _, len, off, s => .ok ((len, off), s)
  | hops + 1, c, len, off, s =>
    if validCandidate c p then do
      let found ← examine s c.toNat p maxLen len
      let best := match found with
        | some n => (n, p - c.toNat)
        | none => (len, off)
      if found = some maxLen then .ok (best, s)
      else if hops = 0 then .ok (best, s)
      else
        let r := readPrev (c.toNat % Config.win) s
        walkChain p maxLen hops r.1 best.1 best.2 r.2
    else .ok ((len, off), s)

/-- FindMatch(p, depth, max_len) of R177: the length and offset, and the state after its draws. -/
def findMatch (p depth maxLen : Nat) (s : State) : Except Trap ((Nat × Nat) × State) := do
  let h ← hash4 s p
  walkChain p maxLen depth (Cells.get Config.nil s.head h) 0 0 s

/-- HEAD with every entry NIL (R172). -/
def resetHead (s : State) : State := { s with head := [] }

/-- A position from which four input bytes are left (R174, R178). -/
def positionFits (p : Word) (s : State) : Bool :=
  decide (4 ≤ s.inLen.toNat) && decide (p.toNat ≤ s.inLen.toNat - 4)

/-- HC_RESET (R172). -/
def execHcReset (s : State) : Host.Outcome State Fault Refusal := runCommand (fun a => .ok (resetHead a)) s

/-- HC_INSERT (R174). -/
def execHcInsert (s : State) : Host.Outcome State Fault Refusal :=
  runCommand (fun a => do
    regionCheck a
    check (positionFits a.arg0 a) .badArg 0
    insertPos a.arg0.toNat a) s

/-- The max_len FIND_MATCH accepts (R178). -/
def maxLenFits (s : State) : Bool :=
  decide (4 ≤ s.arg2.toNat) && decide (s.arg2.toNat ≤ 258) &&
  decide (s.arg2.toNat ≤ s.inLen.toNat - s.arg0.toNat)

/-- FIND_MATCH (R178). -/
def execFindMatch (s : State) : Host.Outcome State Fault Refusal :=
  runCommand (fun a => do
    regionCheck a
    check (positionFits a.arg0 a) .badArg 0
    check (decide (a.arg1.toNat ≠ 0)) .badArg 1
    check (maxLenFits a) .badArg 2
    let r ← findMatch a.arg0.toNat a.arg1.toNat a.arg2.toNat a
    .ok { r.2 with res0 := word r.1.1, res1 := word r.1.2 }) s

end Sys2Proof.Machine
end

