-- ==== Sys2Proof/Machine/RunEncoder.lean ====
section
/-! DEFINITION. The code-length run encoder and RLE_ENCODE (spec/45_rle.md). -/

namespace Sys2Proof.Machine

/-- The input sequence Q of R240, 316 lengths. -/
def lengthSequence (s : State) : List Nat :=
  (List.range Config.numLit).map (fun k => (Cells.get 0 s.lenLit k).toNat) ++
  (List.range Config.numDist).map (fun k => (Cells.get 0 s.lenDist k).toNat)

/-- The maximal runs of a sequence: each value with how often it repeats (R242). -/
def maximalRuns : List Nat → List (Nat × Nat)
  | [] => []
  | v :: vs =>
    match maximalRuns vs with
    | [] => [(v, 1)]
    | (w, n) :: rest => if v = w then (w, n + 1) :: rest else (v, 1) :: (w, n) :: rest

/-- The repeats of R242 for `rem` further occurrences of `v`: symbol 16 while three or more are left, each as
long as it can be, then plain occurrences. `fuel` bounds the number of items. -/
def encodeRepeats (v : Nat) : Nat → Nat → List (Nat × Nat)
  | 0, _ => []
  | fuel + 1, rem =>
    if 3 ≤ rem then (16, min rem 6 - 3) :: encodeRepeats v fuel (rem - min rem 6)
    else List.replicate rem (v, 0)

/-- EncodeRun(v, run) of R242: items (SYM, XB). -/
def encodeRun (v run : Nat) : List (Nat × Nat) :=
  if 4 ≤ run then (v, 0) :: encodeRepeats v run (run - 1) else List.replicate run (v, 0)

/-- All the items of a sequence, run by run (R243). -/
def encodeRuns (q : List Nat) : List (Nat × Nat) :=
  (maximalRuns q).flatMap (fun r => encodeRun r.1 r.2)

/-- An item as RLE_ITEM stores it: SYM + 32 * XB (R241). -/
def packItem (x : Nat × Nat) : Nat := x.1 + 32 * x.2

/-- RunEncode() of R243: FREQ_PRE counts the items' symbols, RLE_ITEM takes the items and keeps its entries
from RLE_COUNT on (R245). -/
def runEncode (s : State) : State :=
  let items := encodeRuns (lengthSequence s)
  { s with
    freqPre  := Cells.ofNats 19 ((List.range 19).map (fun sym => items.countP (fun x => x.1 = sym)))
    rleItem  := Cells.tabulate 0 316 (fun i =>
      match items[i]? with
      | some x => BitVec.ofNat 12 (packItem x)
      | none => Cells.get 0 s.rleItem i)
    rleCount := BitVec.ofNat 9 items.length }

/-- RLE_ENCODE (R245). -/
def execRleEncode (s : State) : Host.Outcome State Fault Refusal :=
  runCommand (fun a =>
    let t := runEncode a
    .ok { t with res0 := t.rleCount.setWidth 32 }) s

end Sys2Proof.Machine
end

