-- ==== Sys2Proof/Machine/Driver.lean ====
section
/-! DEFINITION. The compressor driver: the output bound, the token loop, and BOUND and COMPRESS
(spec/47_driver.md). -/

namespace Sys2Proof.Machine

/-- bound(n) of R300. -/
def outputBound (n : Nat) : Nat := max (128 + n * 110 / 100) (128 + n + 5 * (n / 31744 + 1))

/-- DEPTH(l) of R308. -/
def searchDepth (level : Nat) : Nat := if level < 8 then 2 ^ (level + 1) else 8192

/-- LAZY(l) of R308. -/
def lazyLevel (level : Nat) : Bool := decide (5 ≤ level)

/-- SKIP(l) of R308. -/
def skipLevel (level : Nat) : Bool := decide (level ≤ 1)

/-- The driver enters one of its states (R302). -/
def enter (d : DState) (s : State) : State := { s with driver := { s.driver with dstate := d } }

/-- InsertIfRoom(q) of R316. -/
def insertIfRoom (q : Nat) (s : State) : Except Trap State :=
  if q + 4 ≤ s.inLen.toNat then insertPos q s else .ok s

/-- InsertIfRoom of the `n` positions from q on, in order (R315). -/
def insertRange : Nat → Nat → State → Except Trap State
  | _, 0, s => .ok s
  | q, n + 1, s => do
    let s ← insertIfRoom q s
    insertRange (q + 1) n s

/-- InsertAfterMatch(p, L, nice) of R315. -/
def insertAfterMatch (p len nice : Nat) (s : State) : Except Trap State :=
  if skipLevel s.driver.lvl.toNat && decide (nice ≤ len) then insertIfRoom p s else insertRange p len s

/-- The search of Step at p: no match where fewer than four bytes are left in the block (R310). -/
def searchAt (p maxLen : Nat) (s : State) : Except Trap ((Nat × Nat) × State) :=
  if 4 ≤ maxLen then findMatch p (searchDepth s.driver.lvl.toNat) maxLen s else .ok ((0, 0), s)

/-- The lazy probe of Step (R310, R311): the match found at p is dropped if the probe at p + 1 finds a strictly
longer one. -/
def lazyProbe (p nice : Nat) (m : Nat × Nat) (s : State) : Except Trap ((Nat × Nat) × State) :=
  if lazyLevel s.driver.lvl.toNat && decide (4 ≤ m.1) && decide (m.1 < nice) then do
    let r ← findMatch (p + 1) (searchDepth s.driver.lvl.toNat) (min (m.1 + 1) (s.driver.be.toNat - p - 1)) s
    .ok (if m.1 < r.1.1 then (0, 0) else m, r.2)
  else .ok (m, s)

/-- The driver's position moves on. -/
def setPos (p : Nat) (s : State) : State := { s with driver := { s.driver with pos := word p } }

/-- Step() of R310. -/
def tokenStep (s : State) : Except Trap State := do
  let p := s.driver.pos.toNat
  let maxLen := min 258 (s.driver.be.toNat - p)
  let nice := min (s.params.niceLen.getD s.driver.lvl.toNat 0) maxLen
  let found ← searchAt p maxLen s
  let kept ← lazyProbe p nice found.1 found.2
  if 4 ≤ kept.1.1 then
    let s ← emitMatchToken kept.1.1 kept.1.2 kept.2
    let s ← insertAfterMatch p kept.1.1 nice s
    .ok (setPos (p + kept.1.1) s)
  else
    let b ← inputByte kept.2 p
    let s ← emitLiteral b.toNat kept.2
    let s ← insertIfRoom p s
    .ok (setPos (p + 1) s)

/-- The token loop of a block (R302). Every step moves POS on by at least one byte, so BE - BS steps are
enough. -/
def tokenLoop : Nat → State → Except Trap State
  | 0, s => .ok s
  | fuel + 1, s =>
    if s.driver.pos.toNat < s.driver.be.toNat then do
      let s ← tokenStep s
      tokenLoop fuel s
    else .ok s

/-- BlockStart() of R305. -/
def blockStart (s : State) : Except Trap State := do
  let s ← huffBuild .litLen s
  let s ← huffBuild .dist s
  let s := runEncode (clearFreqs s)
  let s ← huffBuild .preCode s
  blockHeader false s

/-- The driver cuts the next block [BS, BE) (R304). -/
def cutBlock (s : State) : State :=
  { s with driver := { s.driver with
      be := word (min (s.driver.bs.toNat + s.params.blkMax) s.inLen.toNat) } }

/-- One block is done: NBLK counts it and BS moves to its end (R302). -/
def closeBlock (s : State) : State :=
  { s with driver := { s.driver with nblk := s.driver.nblk + 1, bs := s.driver.be } }

/-- The block loop of COMPRESS (R302). A block holds at least one byte (R7), so IN_LEN rounds are enough. -/
def blockLoop : Nat → State → Except Trap State
  | 0, s => .ok s
  | fuel + 1, s =>
    if s.driver.bs.toNat < s.inLen.toNat then do
      let s ← blockStart (cutBlock s)
      let s := setPos s.driver.bs.toNat s
      let s ← tokenLoop (s.driver.be.toNat - s.driver.bs.toNat) s
      let s ← emitEndOfBlock s
      blockLoop fuel (closeBlock s)
    else .ok s

/-- Init(level, container) of R303. -/
def compressInit (level : BitVec 4) (container : Bool) (s : State) : Except Trap State := do
  let s := { s with driver := { s.driver with dstate := .header, lvl := level, cont := container, nblk := 0 } }
  let s := seedFreqs (resetHead (resetWriter s))
  if container then
    let bs ← inputBytes s 0 s.inLen.toNat
    zlibHeader { s with adler := adlerStep 0x00000001 bs }
  else .ok s

/-- The TRAILER state (R302, R306). -/
def compressTrailer (s : State) : Except Trap State :=
  if s.driver.cont then emitBigEndian s.adler (enter .trailer s) else .ok s

/-- Compress(SEL, FLAG) of R302: the driver's states in turn. -/
def compressRun (level : BitVec 4) (container : Bool) (s : State) : Except Trap State := do
  let s ← compressInit level container s
  let s := enter .block { s with driver := { s.driver with bs := 0 } }
  let s ← blockLoop s.inLen.toNat s
  let s ← terminator (enter .terminator s)
  let s ← pad (enter .padding s)
  let s ← compressTrailer s
  .ok (enter .finish { s with res0 := s.outPos, res1 := s.driver.nblk })

/-- BOUND (R301). -/
def execBound (s : State) : Host.Outcome State Fault Refusal :=
  runCommand (fun a => do
    check (decide (a.arg0.toNat ≤ Config.maxInLen)) .badArg 0
    .ok { a with res0 := word (outputBound a.arg0.toNat) }) s

/-- COMPRESS (R302). It starts its output at offset 0 (R303); what an OUT_OVERFLOW leaves is R364's (log entry 6). -/
def execCompress (level : BitVec 4) (container : Bool) (s : State) : Host.Outcome State Fault Refusal :=
  runCommand (fun a => do
    check (decide (level.toNat ≤ 8)) .badLevel (level.setWidth 32)
    regionCheck a
    check (decide (outputBound a.inLen.toNat ≤ a.outCap.toNat)) .outTooSmall (word (outputBound a.inLen.toNat))
    compressRun level container a) s

end Sys2Proof.Machine
end

