-- ==== Sys2Proof/Machine/Dispatch.lean ====
section
/-! DEFINITION. One arm per command (spec/30_encoding.md rule R116). -/

namespace Sys2Proof.Machine

/-- What the machine does when the host writes the command word of `i` to CMD. -/
def exec (i : Instr) (s : State) : Host.Outcome State Fault Refusal :=
  match i with
  | .nop => Sys2Proof.Machine.execNop s
  | .resetState => Sys2Proof.Machine.execResetState s
  | .bound => Sys2Proof.Machine.execBound s
  | .compress level container => Sys2Proof.Machine.execCompress level container s
  | .bwReset => Sys2Proof.Machine.execBwReset s
  | .bwEmit => Sys2Proof.Machine.execBwEmit s
  | .bwPad => Sys2Proof.Machine.execBwPad s
  | .adlerUpdate => Sys2Proof.Machine.execAdlerUpdate s
  | .hcReset => Sys2Proof.Machine.execHcReset s
  | .hcInsert => Sys2Proof.Machine.execHcInsert s
  | .findMatch => Sys2Proof.Machine.execFindMatch s
  | .huffBuild sel => Sys2Proof.Machine.execHuffBuild sel s
  | .rleEncode => Sys2Proof.Machine.execRleEncode s
  | .freqClear => Sys2Proof.Machine.execFreqClear s
  | .freqSeed => Sys2Proof.Machine.execFreqSeed s
  | .blkHeader bfinal => Sys2Proof.Machine.execBlkHeader bfinal s
  | .emitLit => Sys2Proof.Machine.execEmitLit s
  | .emitMatch => Sys2Proof.Machine.execEmitMatch s
  | .emitEob => Sys2Proof.Machine.execEmitEob s
  | .emitTerminator => Sys2Proof.Machine.execEmitTerminator s
  | .emitZheader => Sys2Proof.Machine.execEmitZheader s
  | .emitTrailer => Sys2Proof.Machine.execEmitTrailer s
  | .tblRead sel => Sys2Proof.Machine.execTblRead sel s
  | .tblWrite sel => Sys2Proof.Machine.execTblWrite sel s

end Sys2Proof.Machine
end

