-- ==== Sys2Proof/Machine/Bus.lean ====
section
/-! DEFINITION. The register window and the host's moves: register reads and writes, the CMD port, host-memory
accesses and the rst pin (spec/10_state.md rules R31 to R46; spec/70_reset_and_hazards.md rules R390 to R392). -/

namespace Sys2Proof.Machine

/-- What an aligned 32-bit read of the window returns (R32): CMD and the reserved offsets read 0. -/
def readRegister (offset : BitVec 8) (s : State) : Word :=
  match offset.toNat with
  | 0x04 => s.status.word
  | 0x08 => (BitVec.ofBool s.ie).setWidth 32
  | 0x0C => s.faultInfo
  | 0x10 => s.arg0
  | 0x14 => s.arg1
  | 0x18 => s.arg2
  | 0x1C => s.res0
  | 0x20 => s.res1
  | 0x24 => s.inBase
  | 0x28 => s.inLen
  | 0x2C => s.outBase
  | 0x30 => s.outCap
  | 0x34 => s.outPos
  | 0x38 => s.bitBuf
  | 0x3C => s.bitCnt.setWidth 32
  | 0x40 => s.adler
  | _ => 0

/-- An aligned 32-bit write of a register other than CMD (R32, R46): only the read/write registers take it. -/
def writeRegister (offset : BitVec 8) (v : Word) (s : State) : State :=
  match offset.toNat with
  | 0x08 => { s with ie := v.getLsbD 0 }
  | 0x10 => { s with arg0 := v }
  | 0x14 => { s with arg1 := v }
  | 0x18 => { s with arg2 := v }
  | 0x24 => { s with inBase := v }
  | 0x28 => { s with inLen := v }
  | 0x2C => { s with outBase := v }
  | 0x30 => { s with outCap := v }
  | 0x40 => { s with adler := v }
  | _ => s

/-- The offset of CMD (R33). -/
abbrev cmdOffset : BitVec 8 := 0x00

/-- The offset of an address in the 256-byte window at P_REG_BASE (R31); none outside it. -/
def windowOffset (addr : Nat) (s : State) : Option (BitVec 8) :=
  if s.params.regBase ≤ addr ∧ addr < s.params.regBase + 256 then some (BitVec.ofNat 8 (addr - s.params.regBase))
  else none

/-- An access at this offset is aligned (R31). -/
def aligned (offset : BitVec 8) : Bool := decide (offset.toNat % 4 = 0)

/-- A write of the CMD port (R33): the word is decoded and run, or is ILLEGAL_CMD. Whether the engine takes it
at all (R46) is the command's own check. -/
def commandWrite (w : Word) (s : State) : Host.Outcome State Fault Refusal :=
  match decode w with
  | .ok i => exec i s
  | .error _ => illegalCommand w s

/-- The host may write registers: the engine is not BUSY and not held in reset (R46, R390). -/
def writable (s : State) : Bool := !s.status.busy && !s.rst

/-- A 32-bit write of the window. -/
def busWrite (offset : BitVec 8) (v : Word) (s : State) : Host.Outcome State Fault Refusal :=
  if aligned offset then
    if offset = cmdOffset then commandWrite v s
    else if writable s then .next (writeRegister offset v s)
    else .next s
  else .next s

/-- The host receives a value no rule specifies: a fresh draw (U3). -/
def openRead (s : State) : State :=
  { s with hostData := Config.drawn s.draws .windowRead, draws := s.draws + 1 }

/-- A 32-bit read of the window. While rst is asserted the access has no effect, and its value is open (R390;
log entry 8). -/
def busRead (offset : BitVec 8) (s : State) : State :=
  if aligned offset && !s.rst then { s with hostData := readRegister offset s } else openRead s

/-- A 32-bit write at an address: one outside the window is none of the engine's (log entry 15). -/
def hostWrite (addr : Nat) (v : Word) (s : State) : Host.Outcome State Fault Refusal :=
  match windowOffset addr s with
  | some offset => busWrite offset v s
  | none => .next s

/-- A 32-bit read at an address: what one outside the window gives is not the engine's to say (log entry 15). -/
def hostRead (addr : Nat) (s : State) : State :=
  match windowOffset addr s with
  | some offset => busRead offset s
  | none => openRead s

/-- The commands that write the output region (R82). -/
def writesOutput : Instr → Bool
  | .bwEmit | .bwPad | .blkHeader _ | .emitLit | .emitMatch | .emitEob | .emitTerminator | .emitZheader
  | .emitTrailer | .compress _ _ => true
  | .nop | .resetState | .bound | .bwReset | .adlerUpdate | .hcReset | .hcInsert | .findMatch | .huffBuild _
  | .rleEncode | .freqClear | .freqSeed | .tblRead _ | .tblWrite _ => false

/-- The first output offset a command may write, the OUTPOS it starts at (R392): COMPRESS starts over at 0 (R303). -/
def outputStart (i : Instr) (s : State) : Nat :=
  match i with
  | .compress _ _ => 0
  | .nop | .resetState | .bound | .bwReset | .bwEmit | .bwPad | .adlerUpdate | .hcReset | .hcInsert
  | .findMatch | .huffBuild _ | .rleEncode | .freqClear | .freqSeed | .blkHeader _ | .emitLit | .emitMatch
  | .emitEob | .emitTerminator | .emitZheader | .emitTrailer | .tblRead _ | .tblWrite _ => s.outPos.toNat

/-- The command's pre-checks all hold (R365): it can then raise no fault but OUT_OVERFLOW. A SEL that names no table
or alphabet is refused at decode (R118; log entry 13). -/
def passesPreChecks (i : Instr) (s : State) : Bool :=
  match i with
  | .nop | .resetState | .bwReset | .hcReset | .rleEncode | .freqClear | .freqSeed => true
  | .bound => decide (s.arg0.toNat ≤ Config.maxInLen)
  | .compress level _ =>
    decide (level.toNat ≤ 8) && regionsOk s && decide (outputBound s.inLen.toNat ≤ s.outCap.toNat)
  | .bwEmit => regionsOk s && emitFits s.arg1.toNat s
  | .bwPad | .blkHeader _ | .emitEob | .emitTerminator | .emitZheader | .emitTrailer => regionsOk s
  | .adlerUpdate =>
    regionsOk s && decide (s.arg0.toNat ≤ s.inLen.toNat) && decide (s.arg1.toNat ≤ s.inLen.toNat - s.arg0.toNat)
  | .hcInsert => regionsOk s && positionFits s.arg0 s
  | .findMatch => regionsOk s && positionFits s.arg0 s && decide (s.arg1.toNat ≠ 0) && maxLenFits s
  | .huffBuild sel =>
    match Alphabet.ofSel sel with
    | some a => decide (forcedSum a s < 2 ^ 22)
    | none => false
  | .emitLit => regionsOk s && decide (s.arg0.toNat ≤ 255)
  | .emitMatch =>
    regionsOk s && decide (3 ≤ s.arg0.toNat ∧ s.arg0.toNat ≤ 258) && decide (1 ≤ s.arg1.toNat ∧ s.arg1.toNat ≤ 32768)
  | .tblRead sel =>
    match TableId.ofSel sel with
    | some t => decide (s.arg0.toNat < tableEntries s t)
    | none => false
  | .tblWrite sel =>
    match TableId.ofSel sel with
    | some t => decide (s.arg0.toNat < tableEntries s t) && tableAccepts t s.arg1
    | none => false

/-- The PREV entries a command past its pre-checks may write (R50): HC_INSERT's and TBL_WRITE's one, and for COMPRESS
those of the positions with four bytes left (R316). -/
def prevTargets (i : Instr) (s : State) : List Nat :=
  match i with
  | .compress _ _ => List.range (min Config.win (s.inLen.toNat - 3))
  | .hcInsert => [s.arg0.toNat % Config.win]
  | .tblWrite sel => if sel = 1 then [s.arg0.toNat] else []
  | .nop | .resetState | .bound | .bwReset | .bwEmit | .bwPad | .adlerUpdate | .hcReset | .findMatch
  | .huffBuild _ | .rleEncode | .freqClear | .freqSeed | .blkHeader _ | .emitLit | .emitMatch | .emitEob
  | .emitTerminator | .emitZheader | .emitTrailer | .tblRead _ => []

/-- Every element of the engine at its reset value (R391), with the given PREV, host memory and pin level; what
is not the engine's stays. -/
def resetTo (prev : Cells Word) (mem : Memory) (rst : Bool) (s : State) : State :=
  { State.reset with
    prev := prev, mem := mem, rst := rst, params := s.params, bus := s.bus, hostData := s.hostData
    draws := s.draws }

/-- rst is asserted while no command runs (R390): every PREV entry counts as unwritten again (R50). -/
def assertReset (s : State) : State := if s.rst then s else resetTo [] s.mem true s

/-- rst is released (R390, R391). -/
def releaseReset (s : State) : State := if s.rst then resetTo s.prev s.mem false s else s

/-- A running command, past its pre-checks, is abandoned by rst (R392): which of its PREV entries it had written,
their values, and the output bytes it may have written are drawn (log entry 9). -/
def abandonRunning (i : Instr) (s : State) : State :=
  let k := s.draws
  let prev := (prevTargets i s).filter (fun j => (Config.drawn k (.prevKept j)).getLsbD 0)
  let mem :=
    if writesOutput i then drawOutput k s.outBase (outputStart i s) (s.outCap.toNat - outputStart i s) s.mem
    else s.mem
  resetTo (prev.map (fun j => (j, Config.drawn k (.entry .prev j)))) mem true { s with draws := k + 1 }

/-- The engine takes the command: in every mode but BUSY, and while FAULTED only RESET_STATE (R46). -/
def accepts (i : Instr) (s : State) : Bool :=
  match i with
  | .resetState => s.readyForReset
  | .nop | .bound | .compress _ _ | .bwReset | .bwEmit | .bwPad | .adlerUpdate | .hcReset | .hcInsert
  | .findMatch | .huffBuild _ | .rleEncode | .freqClear | .freqSeed | .blkHeader _ | .emitLit | .emitMatch
  | .emitEob | .emitTerminator | .emitZheader | .emitTrailer | .tblRead _ | .tblWrite _ => s.ready

/-- A CMD write, and rst asserted before the command ends (R392). A word the engine does not take starts nothing, and
a command that fails a pre-check writes nothing (R12). -/
def abandonWrite (w : Word) (s : State) : State :=
  match decode w with
  | .ok i => if accepts i s && passesPreChecks i s then abandonRunning i s else assertReset s
  | .error _ => assertReset s

/-- One move of the host or of the rst pin. -/
def hostMove (op : HostOp) (s : State) : Host.Outcome State Fault Refusal :=
  match op with
  | .write32 addr v => hostWrite addr v s
  | .read32 addr => .next (hostRead addr s)
  | .writeNarrow _ _ => .next s
  | .readNarrow _ => .next (openRead s)
  | .memStore addr v => .next { s with mem := storeByte s.mem addr.toNat v }
  | .memLoad addr => .next { s with hostData := (memByte s.mem addr.toNat).setWidth 32 }
  | .rstAssert => .next (assertReset s)
  | .rstRelease => .next (releaseReset s)
  | .abandon w => .next (abandonWrite w s)

/-- Take the oldest pending move. With none pending the engine does nothing and keeps all its state (R376). -/
def machineStep (s : State) : Host.Outcome State Fault Refusal :=
  match s.bus with
  | [] => .next s
  | op :: rest => hostMove op { s with bus := rest }

/-- The move that presents a command word to the engine: a write of the CMD port (R33), at P_REG_BASE. -/
def presentCommand (w : Word) (s : State) : State := { s with bus := .write32 s.params.regBase w :: s.bus }

end Sys2Proof.Machine
end

