-- ==== Sys2Proof/Machine/Step.lean ====
section
/-! DEFINITION. One step of the machine: the host's oldest pending move (spec/00_scope.md rules R5, R13). -/

namespace Sys2Proof.Machine

/-- One step. The engine fetches no instructions (R97): a command runs when the host writes it to CMD. -/
def step (s : State) : Host.Outcome State Fault Refusal := machineStep s

/-- The state in which the host's next move is a CMD write of the word `w`, its bits from `nbits` on 0 (log
entry 1). -/
def State.withFetchWord (s : State) (nbits w : Nat) : State := presentCommand (word (w % 2 ^ nbits)) s

end Sys2Proof.Machine
end

