-- ==== Sys2Proof/Safety.lean ====
section
/-! DEFINITION. The terms claims are made in: how a command ends, the bits it appends, the invariants of a safe
run, and independent readings of the spec's derived notions (match length, chain, run decoding). -/

namespace Sys2Proof.Machine

/-! ### How a command ends -/

/-- STATUS after a completion (R362). -/
def okStatus (t : Status) : Status := { t with busy := false, done := true }

/-- STATUS after a fault (R361). -/
def faultStatus (c : Cause) : Status := { busy := false, done := false, fault := true, cause := c }

/-- The state a decode or pre-check fault leaves: only STATUS and FAULT_INFO change (R363). -/
def faulted (c : Cause) (info : Word) (s : State) : State := { s with status := faultStatus c, faultInfo := info }

/-- The machine goes on: no step of it ends in a model fault or a refusal. -/
def GoesOn (o : Host.Outcome State Fault Refusal) : Prop := ∃ t, o = .next t

/-- The condition of R83 that fails first. -/
def FailsRegion (s : State) (n : Word) : Prop :=
  (n = 1 ∧ Config.maxInLen < s.inLen.toNat) ∨
  (n = 2 ∧ s.inLen.toNat ≤ Config.maxInLen ∧ 2 ^ 32 < s.inBase.toNat + s.inLen.toNat) ∨
  (n = 3 ∧ s.inLen.toNat ≤ Config.maxInLen ∧ s.inBase.toNat + s.inLen.toNat ≤ 2 ^ 32 ∧
    2 ^ 32 < s.outBase.toNat + s.outCap.toNat) ∨
  (n = 4 ∧ s.inLen.toNat ≤ Config.maxInLen ∧ s.inBase.toNat + s.inLen.toNat ≤ 2 ^ 32 ∧
    s.outBase.toNat + s.outCap.toNat ≤ 2 ^ 32 ∧
    ∃ k j, k < s.inLen.toNat ∧ j < s.outCap.toNat ∧ s.inBase.toNat + k = s.outBase.toNat + j)

/-- The registers only the host writes (R37, R39, R40, R396), and what no command touches of the model's own. -/
def HostOwned (s t : State) : Prop :=
  t.ie = s.ie ∧ t.arg0 = s.arg0 ∧ t.arg1 = s.arg1 ∧ t.arg2 = s.arg2 ∧ t.inBase = s.inBase ∧ t.inLen = s.inLen ∧
  t.outBase = s.outBase ∧ t.outCap = s.outCap ∧ t.rst = s.rst ∧ t.params = s.params ∧ t.bus = s.bus ∧
  t.hostData = s.hostData

/-- An address of the output region (R82). -/
def InOutput (s : State) (a : Nat) : Prop := s.outBase.toNat ≤ a ∧ a < s.outBase.toNat + s.outCap.toNat

/-- The byte at position k of the input region, whatever IN_LEN is (R81). -/
def inputAt (s : State) (k : Nat) : Byte := memByte s.mem (s.inBase.toNat + k)

/-! ### The stream view (R147) -/

/-- The number whose bits are those of the fields, in append order, each field low bit first (R87). -/
def fieldsValue : List (Nat × Nat) → Nat
  | [] => 0
  | (code, n) :: rest => code % 2 ^ n + 2 ^ n * fieldsValue rest

/-- How many bits the fields have. -/
def fieldsWidth : List (Nat × Nat) → Nat
  | [] => 0
  | (_, n) :: rest => n + fieldsWidth rest

/-- The pending bits followed by the fields' bits, as one number. -/
def streamValue (s : State) (fields : List (Nat × Nat)) : Nat :=
  s.bitBuf.toNat + fieldsValue fields * 2 ^ s.bitCnt.toNat

/-- How many bytes the pending bits and the fields' bits complete. -/
def streamBytes (s : State) (fields : List (Nat × Nat)) : Nat := (s.bitCnt.toNat + fieldsWidth fields) / 8

/-- From s to t the bits of the fields were appended (R147): every complete byte is at its offset of the output,
the rest is pending, and no other byte of memory changed. -/
def Appended (s t : State) (fields : List (Nat × Nat)) : Prop :=
  t.outPos.toNat = s.outPos.toNat + streamBytes s fields ∧
  t.bitCnt.toNat = (s.bitCnt.toNat + fieldsWidth fields) % 8 ∧
  t.bitBuf.toNat = streamValue s fields / 2 ^ (8 * streamBytes s fields) ∧
  (∀ j, j < streamBytes s fields →
    memByte t.mem (s.outBase.toNat + s.outPos.toNat + j) = byte (streamValue s fields / 2 ^ (8 * j))) ∧
  (∀ a, a < s.outBase.toNat + s.outPos.toNat ∨ s.outBase.toNat + s.outPos.toNat + streamBytes s fields ≤ a →
    memByte t.mem a = memByte s.mem a)

/-- The accumulator holds at most seven bits, and none above BITCNT (R42, R43, R145). -/
def WriterLegal (s : State) : Prop := s.bitCnt.toNat ≤ 7 ∧ s.bitBuf.toNat < 2 ^ s.bitCnt.toNat

/-- Every byte the fields complete has an offset below OUT_CAP (R140). -/
def HasRoom (s : State) (fields : List (Nat × Nat)) : Prop :=
  0 < streamBytes s fields → s.outPos.toNat + streamBytes s fields ≤ s.outCap.toNat

/-- From s to t each listed literal/length symbol and each listed distance symbol was counted once, mod 2^32
(R262); a table nothing was counted in is the same. -/
def Counted (s t : State) (lits dists : List Nat) : Prop :=
  (∀ j, Cells.get 0 t.freqLit j = Cells.get 0 s.freqLit j + word (lits.count j)) ∧
  (∀ j, Cells.get 0 t.freqDist j = Cells.get 0 s.freqDist j + word (dists.count j)) ∧
  (lits = [] → t.freqLit = s.freqLit) ∧ (dists = [] → t.freqDist = s.freqDist)

/-- t is s after a completed command that appended the fields to the stream, counted the listed symbols and
changed nothing else. -/
def Emitted (s t : State) (fields : List (Nat × Nat)) (lits dists : List Nat) : Prop :=
  t = { s with
    status := okStatus s.status, mem := t.mem, outPos := t.outPos, bitBuf := t.bitBuf, bitCnt := t.bitCnt
    freqLit := t.freqLit, freqDist := t.freqDist } ∧
  Appended s t fields ∧ Counted s t lits dists

/-- What an OUT_OVERFLOW records, and leaves unchanged (R361, R364): the host's registers, the results, and every byte
of memory but those from OUTPOS-at-acceptance to OUT_CAP - 1. -/
def Overflowed (info : Word) (s t : State) : Prop :=
  t.status = faultStatus .outOverflow ∧ t.faultInfo = info ∧ t.res0 = s.res0 ∧ t.res1 = s.res1 ∧ HostOwned s t ∧
  ∀ a, a < s.outBase.toNat + s.outPos.toNat ∨ s.outBase.toNat + s.outCap.toNat ≤ a →
    memByte t.mem a = memByte s.mem a

/-- The command `i` in s, which passed its pre-checks, appends the fields and counts the symbols; or, where a
byte of them has no room, it raises OUT_OVERFLOW at the first offset without room (R140, R367). -/
def EmitsFields (i : Instr) (s : State) (fields : List (Nat × Nat)) (lits dists : List Nat) : Prop :=
  (HasRoom s fields → ∃ t, exec i s = .next t ∧ Emitted s t fields lits dists) ∧
  (¬HasRoom s fields → ∃ t, exec i s = .next t ∧
    Overflowed (word (max s.outPos.toNat s.outCap.toNat)) s t)

/-- The command `i` in s raises BAD_REGION with the number of the first condition of R83 that fails. -/
def FaultsOnRegion (i : Instr) (s : State) : Prop :=
  ∀ n, FailsRegion s n → exec i s = .next (faulted .badRegion n s)

/-- The fields BW_PAD appends (R146). -/
def padFields (s : State) : List (Nat × Nat) :=
  if s.bitCnt.toNat = 0 then [] else [(0, 8 - s.bitCnt.toNat)]

/-- The field a symbol's code makes. -/
def symbolField (a : Alphabet) (s : State) (sym : Nat) : Nat × Nat :=
  ((Cells.get 0 (alphabetCode a s) sym).toNat, (Cells.get 0 (alphabetLen a s) sym).toNat)

/-- The fields of a match token in wire order (R262). -/
def matchFields (s : State) (len dist : Nat) : List (Nat × Nat) :=
  let ls := lengthSlot len
  let ds := distSlot dist
  [symbolField .litLen s (257 + ls), (len - lengthBase.getD ls 0, lengthExtra.getD ls 0),
   symbolField .dist s ds, (dist - distBase.getD ds 0, distExtra.getD ds 0)]

/-- The fields of a code-length item (R266). -/
def itemFields (s : State) (item : Nat) : List (Nat × Nat) :=
  let sym := item % 32
  symbolField .preCode s sym ::
    (if sym = 16 then [(item / 32, 2)] else if sym = 17 then [(item / 32, 3)]
     else if sym = 18 then [(item / 32, 7)] else [])

/-- The fields of a dynamic block header with `hclen` pre-code lengths (R263, R266). -/
def headerFields (s : State) (bfinal : Bool) (hclen : Nat) : List (Nat × Nat) :=
  [(bfinal.toNat, 1), (2, 2), (29, 5), (29, 5), (hclen - 4, 4)] ++
  (List.range hclen).map (fun k => ((Cells.get 0 s.lenPre (preCodeOrder.getD k 0)).toNat, 3)) ++
  (List.range s.rleCount.toNat).flatMap (fun j => itemFields s (Cells.get 0 s.rleItem j).toNat)

/-- hclen as R267 defines it: at least 4, with no nonzero permuted length from there on, and least. -/
def IsHclen (s : State) (h : Nat) : Prop :=
  4 ≤ h ∧ h ≤ 19 ∧
  (∀ k, h ≤ k → k < 19 → Cells.get 0 s.lenPre (preCodeOrder.getD k 0) = 0) ∧
  (h = 4 ∨ Cells.get 0 s.lenPre (preCodeOrder.getD (h - 1) 0) ≠ 0)

/-! ### The match finder -/

/-- MatchLen(c, p, n) of R175. -/
def prefixLength (s : State) (c p : Nat) : Nat → Nat
  | 0 => 0
  | n + 1 => if inputAt s c = inputAt s p then 1 + prefixLength s (c + 1) (p + 1) n else 0

/-- n is MatchLen(c, p, max_len) as R175 words it: the largest common prefix, capped. -/
def IsMatchLen (s : State) (c p maxLen n : Nat) : Prop :=
  n ≤ maxLen ∧ (∀ k, k < n → inputAt s (c + k) = inputAt s (p + k)) ∧
  (n < maxLen → inputAt s (c + n) ≠ inputAt s (p + n))

/-- HASH4(p) (R170). -/
def bucketAt (s : State) (p : Nat) : Nat :=
  hashBytes s.params (inputAt s p) (inputAt s (p + 1)) (inputAt s (p + 2)) (inputAt s (p + 3))

/-- The candidates of a search at p, newest first and at most `n`, from c on (R171, R177), where every PREV entry
the walk needs is written. -/
def chainFrom (s : State) (p : Nat) : Nat → Word → List Nat
  | 0, _ => []
  | n + 1, c =>
    if validCandidate c p then
      c.toNat :: chainFrom s p n ((Cells.find s.prev (c.toNat % Config.win)).getD Config.nil)
    else []

/-- The best match over candidates: a strictly longer one of length 4 or more replaces the best so far (R177). -/
def bestOf (s : State) (p maxLen : Nat) (cands : List Nat) : Nat × Nat :=
  cands.foldl (fun best c =>
    let n := prefixLength s c p maxLen
    if 4 ≤ n ∧ best.1 < n then (n, p - c) else best) (0, 0)

/-! ### Huffman codes -/

/-- The length HUFF_BUILD left for a symbol. -/
def codeLen (a : Alphabet) (s : State) (sym : Nat) : Nat := (Cells.get 0 (alphabetLen a s) sym).toNat

/-- The code HUFF_BUILD left for a symbol. -/
def codeVal (a : Alphabet) (s : State) (sym : Nat) : Nat := (Cells.get 0 (alphabetCode a s) sym).toNat

/-! ### The Huffman tree as R205 and R206 word it -/

/-- The variables of BuildTree (R205): the next unused leaf, the next unused internal node, and the arrays. -/
structure TreeLoop where
  i      : Nat
  b      : Nat
  iw     : List Nat
  parent : List Nat
  deriving DecidableEq, Repr

/-- One of the two picks of merge `e`, on the sum so far: a leaf where it is no heavier than the next internal node
(R205). -/
def pickOnce (w : List Nat) (e : Nat) (x : Nat × TreeLoop) : Nat × TreeLoop :=
  let m := x.2
  if m.i < w.length ∧ (m.b = e ∨ w.getD m.i 0 ≤ m.iw.getD m.b 0) then
    (x.1 + w.getD m.i 0, { m with i := m.i + 1 })
  else (x.1 + m.iw.getD m.b 0, { m with b := m.b + 1, parent := m.parent ++ [e] })

/-- Merge `e` of BuildTree (R205). -/
def mergeOnce (w : List Nat) (m : TreeLoop) (e : Nat) : TreeLoop :=
  let x := pickOnce w e (pickOnce w e (0, m))
  { x.2 with iw := x.2.iw ++ [x.1] }

/-- parent[0 .. n-3] of BuildTree over the weights in sorted order (R205). -/
def treeParents (w : List Nat) : List Nat :=
  ((List.range (w.length - 1)).foldl (mergeOnce w) { i := 0, b := 0, iw := [], parent := [] }).parent

/-- Node `k` of LengthCounts, on the depths and the counts so far (R206). -/
def countOnce (maxLen : Nat) (parent : List Nat) (x : List Nat × List Nat) (k : Nat) : List Nat × List Nat :=
  let depth := x.1.getD (parent.getD k 0) 0 + 1
  let top := if maxLen ≤ depth then maxLen - 1 else depth
  let l := ((List.range (top + 1)).filter (fun j => x.2.getD j 0 ≠ 0)).getLastD 0
  let cnt := x.2.set l (x.2.getD l 0 - 1)
  (x.1.set k depth, cnt.set (l + 1) (cnt.getD (l + 1) 0 + 2))

/-- cnt[0 .. MAX] of LengthCounts for `n` leaves (R206): nodes n-3 down to 0 in turn. -/
def levelCounts (maxLen n : Nat) (parent : List Nat) : List Nat :=
  ((List.range (n - 2)).reverse.foldl (countOnce maxLen parent)
    (List.replicate (n - 1) 0, (List.replicate (maxLen + 1) 0).set 1 2)).2

/-! ### Run items and tables -/

/-- Decoding run items (R246): a plain item appends its length, symbol 16 repeats the last one. -/
def expandItems : Nat → List (Nat × Nat) → List Nat
  | _, [] => []
  | last, (sym, xb) :: rest =>
    if sym = 16 then List.replicate (xb + 3) last ++ expandItems last rest
    else sym :: expandItems sym rest

/-- The entry of a table as the host sees it (R48, R342): none where PREV holds no value (R50). -/
def tableEntry (t : TableId) (i : Nat) (s : State) : Option Word :=
  if t = .prev then Cells.find s.prev i else some (readTable t i s).1

/-- t is s with only STATUS, as a completion leaves it, and tables changed. -/
def OnlyTables (s t : State) : Prop :=
  t = { s with
    status := okStatus s.status, head := t.head, prev := t.prev, freqLit := t.freqLit, freqDist := t.freqDist
    freqPre := t.freqPre, lenLit := t.lenLit, lenDist := t.lenDist, lenPre := t.lenPre, codeLit := t.codeLit
    codeDist := t.codeDist, codePre := t.codePre, rleItem := t.rleItem, rleCount := t.rleCount }

/-- The input bytes, the length and the chip are those of another state (R320). -/
def SameInput (s s' : State) : Prop :=
  s.params = s'.params ∧ s.inLen = s'.inLen ∧ ∀ k, k < s.inLen.toNat → inputAt s k = inputAt s' k

/-- One token of the driver at POS, within its block: a literal of the byte at POS, or a match that copies bytes
really there (R262, R318). The fields are coded with the tables of s. -/
def TrueToken (s : State) (fields : List (Nat × Nat)) (lits dists : List Nat) (len : Nat) : Prop :=
  let p := s.driver.pos.toNat
  (len = 1 ∧ fields = [symbolField .litLen s (inputAt s p).toNat] ∧ lits = [(inputAt s p).toNat] ∧ dists = []) ∨
  ∃ dist, 4 ≤ len ∧ len ≤ 258 ∧ len ≤ s.driver.be.toNat - p ∧ 1 ≤ dist ∧ dist ≤ 32767 ∧ dist ≤ p ∧
    (∀ k, k < len → inputAt s (p - dist + k) = inputAt s (p + k)) ∧
    fields = matchFields s len dist ∧ lits = [257 + lengthSlot len] ∧ dists = [distSlot dist]

/-! ### The stream of a COMPRESS, read off the rules without a buffer (R302 to R316) -/

/-- A token of a block, less its end-of-block symbol (R262). -/
inductive Token where
  | lit (b : Byte)
  | copy (len dist : Nat)
  deriving DecidableEq, Repr

/-- FindMatch(p, depth, max_len) as the best match over the chain of p's bucket (R177). -/
def searchResult (s : State) (p depth maxLen : Nat) : Nat × Nat :=
  bestOf s p maxLen (chainFrom s p depth (Cells.get Config.nil s.head (bucketAt s p)))

/-- max_len of Step (R310). -/
def stepMaxLen (s : State) : Nat := min 258 (s.driver.be.toNat - s.driver.pos.toNat)

/-- nice of Step (R310, R311). -/
def stepNice (s : State) : Nat := min (s.params.niceLen.getD s.driver.lvl.toNat 0) (stepMaxLen s)

/-- The match Step finds at POS (R310). -/
def stepMatch (s : State) : Nat × Nat :=
  if 4 ≤ stepMaxLen s then searchResult s s.driver.pos.toNat (searchDepth s.driver.lvl.toNat) (stepMaxLen s) else (0, 0)

/-- The lazy probe runs at POS + 1 and finds a strictly longer match (R310, R311). -/
def probeIsLonger (s : State) : Bool :=
  let p := s.driver.pos.toNat
  let len := (stepMatch s).1
  lazyLevel s.driver.lvl.toNat && decide (4 ≤ len) && decide (len < stepNice s) &&
    decide (len < (searchResult s (p + 1) (searchDepth s.driver.lvl.toNat) (min (len + 1) (s.driver.be.toNat - p - 1))).1)

/-- The token Step emits at POS (R310 to R314). -/
def chosenToken (s : State) : Token :=
  if 4 ≤ (stepMatch s).1 ∧ probeIsLonger s = false then .copy (stepMatch s).1 (stepMatch s).2
  else .lit (inputAt s s.driver.pos.toNat)

/-- The fields of a token, coded with the tables of s (R262). -/
def tokenFields (s : State) : Token → List (Nat × Nat)
  | .lit b => [symbolField .litLen s b.toNat]
  | .copy len dist => matchFields s len dist

/-- The chains after InsertIfRoom(q) (R173, R316). -/
def inserted (q : Nat) (s : State) : State :=
  if q + 4 ≤ s.inLen.toNat then
    { s with
      prev := Cells.put s.prev (q % 32768) (Cells.get Config.nil s.head (bucketAt s q))
      head := Cells.set Config.nil s.head (bucketAt s q) (word q) }
  else s

/-- The positions Step inserts after a token at p (R313, R315): a literal's own; a match's first one where the level
skips and the match is at least nice long, else every position the match covers. -/
def insertions (s : State) (p : Nat) : Token → List Nat
  | .lit _ => [p]
  | .copy len _ =>
    if skipLevel s.driver.lvl.toNat = true ∧ stepNice s ≤ len then [p] else (List.range len).map (p + ·)

/-- The counts after a token (R262). -/
def countToken (s : State) : Token → State
  | .lit b => countLit b.toNat s
  | .copy len dist => countDist (distSlot dist) (countLit (257 + lengthSlot len) s)

/-- How many input bytes a token covers (R313, R314). -/
def Token.covers : Token → Nat
  | .lit _ => 1
  | .copy len _ => len

/-- The tables, the chains and POS after a token (R310). -/
def afterToken (s : State) (tok : Token) : State :=
  let p := s.driver.pos.toNat
  setPos (p + tok.covers) ((insertions s p tok).foldl (fun u q => inserted q u) (countToken s tok))

/-- The tokens from POS to BE, and the state after them; `fuel` bounds their number (R302). -/
def blockTokens : Nat → State → List Token × State
  | 0, s => ([], s)
  | fuel + 1, s =>
    if s.driver.pos.toNat < s.driver.be.toNat then
      let rest := blockTokens fuel (afterToken s (chosenToken s))
      (chosenToken s :: rest.1, rest.2)
    else ([], s)

/-- BlockStart without its header: the three builds and the run items (R305). -/
def startTables (s : State) : State :=
  buildCodes .preCode (runEncode (clearFreqs (buildCodes .dist (buildCodes .litLen s))))

/-- hclen as one past the last nonzero permuted length, and at least 4 (R267). -/
def hclenOf (s : State) : Nat :=
  ((List.range 19).filter (fun k => Cells.get 0 s.lenPre (preCodeOrder.getD k 0) ≠ 0)).foldl (fun m k => max m (k + 1)) 4

/-- A block of the input: the state its tables are in, and its tokens. -/
structure Block where
  tables : State
  tokens : List Token
  deriving DecidableEq, Repr

/-- The next block cut, its tables built, and POS at its start (R302, R304, R305). -/
def openBlock (s : State) : State := setPos s.driver.bs.toNat (startTables (cutBlock s))

/-- The tokens of an opened block, and the state after them. -/
def wholeBlock (b : State) : List Token × State := blockTokens (b.driver.be.toNat - b.driver.bs.toNat) b

/-- The block [BS, BE) and the state after it, its end-of-block symbol counted (R302). -/
def nextBlock (s : State) : Block × State :=
  ({ tables := openBlock s, tokens := (wholeBlock (openBlock s)).1 }, closeBlock (countLit 256 (wholeBlock (openBlock s)).2))

/-- The blocks from BS to IN_LEN, and the state after them; `fuel` bounds their number (R302). -/
def blocksFrom : Nat → State → List Block × State
  | 0, s => ([], s)
  | fuel + 1, s =>
    if s.driver.bs.toNat < s.inLen.toNat then
      let rest := blocksFrom fuel (nextBlock s).2
      ((nextBlock s).1 :: rest.1, rest.2)
    else ([], s)

/-- The fields of a block: its header, its tokens and its end-of-block symbol (R263, R302, R305). -/
def Block.fields (b : Block) : List (Nat × Nat) :=
  headerFields b.tables false (hclenOf b.tables) ++ b.tokens.flatMap (tokenFields b.tables) ++
    [symbolField .litLen b.tables 256]

/-- The whole input. -/
def inputBytesOf (s : State) : List Byte := (List.range s.inLen.toNat).map (inputAt s)

/-- The state Init leaves, less the output (R303). -/
def startState (level : BitVec 4) (container : Bool) (s : State) : State :=
  { seedFreqs (resetHead (resetWriter s)) with
    driver := { s.driver with lvl := level, cont := container, nblk := 0, bs := 0 }
    adler := if container then adlerStep 0x00000001 (inputBytesOf s) else s.adler }

/-- The blocks of a COMPRESS, and the state after the last one (R302). -/
def compressBlocks (level : BitVec 4) (container : Bool) (s : State) : List Block × State :=
  blocksFrom s.inLen.toNat (startState level container s)

/-- The four bytes of ADLER, most significant first (R302, R306). -/
def trailerFields (adler : Word) : List (Nat × Nat) :=
  [(adler.toNat / 2 ^ 24, 8), (adler.toNat / 2 ^ 16, 8), (adler.toNat / 2 ^ 8, 8), (adler.toNat, 8)]

/-- The fields of the whole stream (R302, R303, R305, R306): the zlib header, the blocks, the terminator, zero bits up
to a byte boundary, and the trailer. -/
def streamFields (level : BitVec 4) (container : Bool) (s : State) : List (Nat × Nat) :=
  let body := (if container then [(0x78, 8), (0x01, 8)] else []) ++
    (compressBlocks level container s).1.flatMap Block.fields ++ [(1, 1), (1, 2), (0, 7)]
  body ++ [(0, (8 - fieldsWidth body % 8) % 8)] ++
    if container then trailerFields (startState level container s).adler else []

/-- The byte count the rules give for the input (R302). -/
def streamLength (level : BitVec 4) (container : Bool) (s : State) : Nat := fieldsWidth (streamFields level container s) / 8

/-- What a match copies onto the output so far, one byte at a time (R175, R318). -/
def copyBytes (dist : Nat) : Nat → List Byte → List Byte
  | 0, out => out
  | n + 1, out => copyBytes dist n (out ++ [out.getD (out.length - dist) 0])

/-- What the tokens expand to after the output so far (R319). -/
def expandTokens : List Byte → List Token → List Byte
  | out, [] => out
  | out, .lit b :: rest => expandTokens (out ++ [b]) rest
  | out, .copy len dist :: rest => expandTokens (copyBytes dist len out) rest

/-- The PREV entry of every candidate a search at POS, or a lazy probe at POS + 1, can examine is written, as R58 says it
is inside a COMPRESS. -/
def ChainsWritten (s : State) : Prop :=
  ∀ q, q = s.driver.pos.toNat ∨ q = s.driver.pos.toNat + 1 → q + 4 ≤ s.driver.be.toNat →
    ∀ c ∈ chainFrom s q (searchDepth s.driver.lvl.toNat) (Cells.get Config.nil s.head (bucketAt s q)),
      (Cells.find s.prev (c % 32768)).isSome = true

/-- t is s after a COMPRESS that completes (R302, R321): the stream's bytes lie at the start of the output region, and
beside them only STATUS, the results, the bit writer, ADLER, the tables and the driver's own registers have changed. -/
def Compressed (level : BitVec 4) (container : Bool) (s t : State) : Prop :=
  let e := (compressBlocks level container s).2
  t = { s with
    status := okStatus s.status, res0 := word (streamLength level container s), res1 := e.driver.nblk
    outPos := word (streamLength level container s), bitBuf := 0, bitCnt := 0, adler := e.adler, head := e.head
    prev := e.prev, freqLit := e.freqLit, freqDist := e.freqDist, freqPre := e.freqPre, lenLit := e.lenLit
    lenDist := e.lenDist, lenPre := e.lenPre, codeLit := e.codeLit, codeDist := e.codeDist, codePre := e.codePre
    rleItem := e.rleItem, rleCount := e.rleCount, mem := t.mem, driver := t.driver } ∧
  (∀ j, j < streamLength level container s →
    memByte t.mem (s.outBase.toNat + j) = byte (fieldsValue (streamFields level container s) / 2 ^ (8 * j))) ∧
  ∀ a, a < s.outBase.toNat ∨ s.outBase.toNat + streamLength level container s ≤ a → memByte t.mem a = memByte s.mem a

/-! ### The launch premises of R394, under its names -/

/-- STATUS is 0x00000000 or 0x00000002, and the engine is not held in reset: it is IDLE, with no fault recorded and no
command in flight. -/
def P_clean (s : State) : Prop := (s.status.word = 0x00000000 ∨ s.status.word = 0x00000002) ∧ s.rst = false

/-- The region registers pass the region check of R83. -/
def P_regions (s : State) : Prop := ∀ n, ¬FailsRegion s n

/-- The input region holds the bytes B. A command is one step, in which the host writes nothing (log entries 7, 18). -/
def P_input (s : State) (B : List Byte) : Prop :=
  B.length = s.inLen.toNat ∧ ∀ k (h : k < B.length), inputAt s k = B[k]

/-- OUT_CAP is at least bound(IN_LEN) (R300). -/
def P_room (s : State) : Prop :=
  max (128 + s.inLen.toNat * 110 / 100) (128 + s.inLen.toNat + 5 * (s.inLen.toNat / 31744 + 1)) ≤ s.outCap.toNat

/-- OUT_CAP is at least the byte count the rules give for the input. P_room does not imply it (R322). -/
def P_fits (level : BitVec 4) (container : Bool) (s : State) : Prop := streamLength level container s ≤ s.outCap.toNat

/-- The word the host writes to CMD is COMPRESS's, with a level of 0 to 8. -/
def P_cmd (level : BitVec 4) (container : Bool) (w : Word) : Prop :=
  level.toNat ≤ 8 ∧ w.toNat = 3 + 256 * level.toNat + (if container then 4096 else 0)

/-- The parameters meet R7's constraints. No step changes them, so they are fixed for a run. -/
def P_params (s : State) : Prop := s.params.legal = true

/-! ### Invariants -/

/-- STATUS is one the engine shows between commands: BUSY is 0, DONE and FAULT are not both 1, and CAUSE is 0
exactly while FAULT is (R13, R34). -/
def StatusLegal (s : State) : Prop :=
  s.status.busy = false ∧ ¬(s.status.done = true ∧ s.status.fault = true) ∧
  (s.status.fault = true ↔ s.status.cause ≠ .none)

/-- Every table is canonical and within its size (R48). -/
structure TablesLegal (s : State) : Prop where
  head     : Cells.wf (hashSize s) Config.nil s.head
  prev     : Cells.wfSet Config.win s.prev
  freqLit  : Cells.wf 288 0 s.freqLit
  freqDist : Cells.wf 32 0 s.freqDist
  freqPre  : Cells.wf 19 0 s.freqPre
  lenLit   : Cells.wf 288 0 s.lenLit
  lenDist  : Cells.wf 32 0 s.lenDist
  lenPre   : Cells.wf 19 0 s.lenPre
  codeLit  : Cells.wf 288 0 s.codeLit
  codeDist : Cells.wf 32 0 s.codeDist
  codePre  : Cells.wf 19 0 s.codePre
  rleItem  : Cells.wf 316 0 s.rleItem

/-- RLE_COUNT counts at most 316 items, and every item's SYM is a pre-code symbol (R54, R55). -/
def ItemsLegal (s : State) : Prop :=
  s.rleCount.toNat ≤ 316 ∧ ∀ j, (Cells.get 0 s.rleItem j).toNat % 32 ≤ 18

/-- What every step keeps. An OUT_OVERFLOW leaves the bit writer and the tables' values open until RESET_STATE or rst
(R364, R145; log entry 5). -/
structure Inv (s : State) : Prop where
  mem    : Memory.wf s.mem
  status : StatusLegal s
  tables : TablesLegal s
  writer : s.status.cause ≠ .outOverflow → WriterLegal s
  items  : s.status.cause ≠ .outOverflow → ItemsLegal s

end Sys2Proof.Machine
end

