-- ==== Sys2Proof/Certificates/Slice0/Obligations.lean ====
section
/-! DEFINITION. The statements about sdefl-core, from the numbered rules of spec/. Each docstring names the rule it
formalises. A statement that a command completes gives its whole next state: `{ s with … }` is its frame. An empty
list as a table is the table whose every entry is its default (NIL in HEAD, 0 elsewhere). -/

open Sys2Proof Sys2Proof.Machine

/-! ### Encoding -/

/-- Decoding the word of any well-formed command, with any SEL and FLAG it admits, gives it back (R110, R116). -/
def Obligations.DecodeOfEncode : Prop := ∀ i : Instr, i.wellFormed = true → decode (encode i) = .ok i

/-- A word that decodes is the word of the command it decodes to, which is well-formed: no bit of the word is
ignored (R110, R114, R117). -/
def Obligations.DecodedWordIsItsEncoding : Prop :=
  ∀ (w : Word) (i : Instr), decode w = .ok i → i.wellFormed = true ∧ encode i = w

/-- Exactly the words the opcode map selects, with legal fields, decode (R114, R116, R117, R118). -/
def Obligations.LegalWordsAreTheOpcodeMaps : Prop :=
  ∀ w : Word,
    let opc := w.toNat % 256
    let sel := w.toNat / 256 % 16
    let flag := w.toNat / 4096 % 2
    (∃ i, decode w = .ok i) ↔
      w.toNat / 8192 = 0 ∧
      (opc = 0x03 ∨ (opc = 0x42 ∧ sel = 0) ∨ (opc = 0x30 ∧ sel ≤ 2 ∧ flag = 0) ∨
        ((opc = 0x60 ∨ opc = 0x61) ∧ sel ≤ 12 ∧ flag = 0) ∨
        (opc ∈ [0x00, 0x01, 0x02, 0x10, 0x11, 0x12, 0x18, 0x20, 0x21, 0x22, 0x31, 0x40, 0x41, 0x43, 0x44, 0x45, 0x46,
          0x47, 0x48] ∧ sel = 0 ∧ flag = 0))

/-- Words written out from R116 decode to the commands they stand for, or are refused for the check of R117 they
fail. -/
def Obligations.SampleWordsDecode : Prop :=
  decode 0x00001503#32 = .ok (.compress 5 true) ∧ decode 0x00000903#32 = .ok (.compress 9 false) ∧
  decode 0x00000011#32 = .ok .bwEmit ∧ decode 0x00000018#32 = .ok .adlerUpdate ∧
  decode 0x00000022#32 = .ok .findMatch ∧ decode 0x00000230#32 = .ok (.huffBuild 2) ∧
  decode 0x00000031#32 = .ok .rleEncode ∧ decode 0x00001042#32 = .ok (.blkHeader true) ∧
  decode 0x00000B61#32 = .ok (.tblWrite 11) ∧ decode 0x00002003#32 = .error .rsvdNotZero ∧
  decode 0x00000004#32 = .error .unknownOpcode ∧ decode 0x00000110#32 = .error .selNotZero ∧
  decode 0x00001010#32 = .error .flagNotZero ∧ decode 0x00000330#32 = .error .selIllegal

/-! ### A step -/

/-- A step whose oldest pending host move is a CMD write of a command's word runs that command; with no pending
move nothing changes. The queue of host moves is the model's own (log entry 1). -/
def Obligations.StepRunsTheDecodedCommand : Prop :=
  (∀ (s : State) (w : Word) (rest : List HostOp) (i : Instr), s.bus = .write32 s.params.regBase w :: rest →
    decode w = .ok i → step s = exec i { s with bus := rest }) ∧
  (∀ (s : State) (w : Word) (i : Instr), decode w = .ok i → step (s.withFetchWord 32 w.toNat) = exec i s) ∧
  (∀ s : State, s.bus = [] → step s = .next s)

/-- Accepting a word that is no command raises ILLEGAL_CMD with the word, and changes only STATUS and FAULT_INFO
(R117, R119, R363). -/
def Obligations.IllegalWordRaisesIllegalCmd : Prop :=
  ∀ (s : State) (w : Word) (rest : List HostOp), s.bus = .write32 s.params.regBase w :: rest → s.ready = true →
    (∀ i, decode w ≠ .ok i) → step s = .next (faulted .illegalCmd w { s with bus := rest })

/-! ### The register window -/

/-- What an aligned 32-bit read gives the host at each offset of the map (R32), the fields of STATUS (R34), the cause codes
(R360), and that reserved offsets read 0 and ignore writes (R45). -/
def Obligations.RegisterReadMap : Prop :=
  (∀ s : State, s.rst = false →
    (busRead 0x00 s).hostData = 0 ∧ (busRead 0x04 s).hostData = s.status.word ∧
    (busRead 0x08 s).hostData = (if s.ie then 1 else 0) ∧ (busRead 0x0C s).hostData = s.faultInfo ∧
    (busRead 0x10 s).hostData = s.arg0 ∧ (busRead 0x14 s).hostData = s.arg1 ∧ (busRead 0x18 s).hostData = s.arg2 ∧
    (busRead 0x1C s).hostData = s.res0 ∧ (busRead 0x20 s).hostData = s.res1 ∧
    (busRead 0x24 s).hostData = s.inBase ∧ (busRead 0x28 s).hostData = s.inLen ∧
    (busRead 0x2C s).hostData = s.outBase ∧ (busRead 0x30 s).hostData = s.outCap ∧
    (busRead 0x34 s).hostData = s.outPos ∧ (busRead 0x38 s).hostData = s.bitBuf ∧
    (busRead 0x3C s).hostData.toNat = s.bitCnt.toNat ∧ (busRead 0x40 s).hostData = s.adler ∧
    ∀ offset : BitVec 8, offset.toNat % 4 = 0 →
      busRead offset s = { s with hostData := (busRead offset s).hostData }) ∧
  (∀ t : Status, t.word.toNat =
    (if t.busy then 1 else 0) + (if t.done then 2 else 0) + (if t.fault then 4 else 0) + 256 * t.cause.code.toNat) ∧
  [Cause.none, .illegalCmd, .badLevel, .outTooSmall, .outOverflow, .badRegion, .bwCapacity, .huffFewSymbols,
    .huffRange, .badArg].map (fun c => c.code.toNat) = [0, 1, 2, 3, 4, 5, 6, 7, 8, 9] ∧
  ∀ (s : State) (offset : BitVec 8) (v : Word), s.rst = false → 0x44 ≤ offset.toNat → offset.toNat % 4 = 0 →
    busRead offset s = { s with hostData := 0 } ∧ busWrite offset v s = .next s

/-- Host register writes (R46): none takes effect while BUSY, a CMD write while FAULTED only if it is RESET_STATE,
the read/write registers take a write in every mode but BUSY, and read-only registers never do. -/
def Obligations.WritesFollowTheMode : Prop :=
  (∀ (s : State) (offset : BitVec 8) (v : Word), s.status.busy = true → busWrite offset v s = .next s) ∧
  (∀ (s : State) (v : Word), s.status.fault = true → decode v ≠ .ok .resetState → busWrite 0x00 v s = .next s) ∧
  (∀ (s : State) (v : Word), s.status.busy = false → s.rst = false →
    busWrite 0x08 v s = .next { s with ie := v.getLsbD 0 } ∧ busWrite 0x10 v s = .next { s with arg0 := v } ∧
    busWrite 0x14 v s = .next { s with arg1 := v } ∧ busWrite 0x18 v s = .next { s with arg2 := v } ∧
    busWrite 0x24 v s = .next { s with inBase := v } ∧ busWrite 0x28 v s = .next { s with inLen := v } ∧
    busWrite 0x2C v s = .next { s with outBase := v } ∧ busWrite 0x30 v s = .next { s with outCap := v } ∧
    busWrite 0x40 v s = .next { s with adler := v }) ∧
  (∀ (s : State) (offset : BitVec 8) (v : Word),
    offset ∈ [0x04#8, 0x0C#8, 0x1C#8, 0x20#8, 0x34#8, 0x38#8, 0x3C#8] → busWrite offset v s = .next s)

/-- The host's accesses by address (R31, R80, R92). The window is the 256 bytes from P_REG_BASE on, wherever the platform
puts it: a 32-bit access there is one of the register at its offset, and one at any other address is none of the engine's
(log entry 15). An access that is not an aligned 32-bit one changes no engine state: a write does nothing, and a read gives
the host a value the spec leaves open. A store to host memory changes the byte at its address and nothing else, and a load
gives the host the byte there. -/
def Obligations.HostAccessesByAddress : Prop :=
  (∀ (s : State) (offset : BitVec 8) (v : Word),
    hostMove (.write32 (s.params.regBase + offset.toNat) v) s = busWrite offset v s ∧
    hostMove (.read32 (s.params.regBase + offset.toNat)) s = .next (busRead offset s)) ∧
  (∀ (s : State) (addr : Nat) (v : Word), addr < s.params.regBase ∨ s.params.regBase + 256 ≤ addr →
    hostMove (.write32 addr v) s = .next s ∧
    ∃ x, hostMove (.read32 addr) s = .next { s with hostData := x, draws := s.draws + 1 }) ∧
  (∀ (s : State) (offset : BitVec 8) (v : Word), offset.toNat % 4 ≠ 0 → busWrite offset v s = .next s ∧
    ∃ x, busRead offset s = { s with hostData := x, draws := s.draws + 1 }) ∧
  (∀ (s : State) (addr : Nat) (v : Word), hostMove (.writeNarrow addr v) s = .next s ∧
    ∃ x, hostMove (.readNarrow addr) s = .next { s with hostData := x, draws := s.draws + 1 }) ∧
  ∀ (s : State) (addr : Word) (v : Byte),
    (∃ t, hostMove (.memStore addr v) s = .next t ∧ t = { s with mem := t.mem } ∧
      ∀ a, memByte t.mem a = if a = addr.toNat then v else memByte s.mem a) ∧
    ∃ t, hostMove (.memLoad addr) s = .next t ∧ t = { s with hostData := t.hostData } ∧
      t.hostData.toNat = (memByte s.mem addr.toNat).toNat

/-- A fault is sticky (R366): while FAULT is 1, a step keeps STATUS and FAULT_INFO unless it runs RESET_STATE or
the host moves the rst pin, and RESET_STATE ends the fault. -/
def Obligations.FaultIsSticky : Prop :=
  (∀ s t : State, s.status.fault = true → step s = .next t →
    (t.status = s.status ∧ t.faultInfo = s.faultInfo) ∨
    ∃ op rest, s.bus = op :: rest ∧
      ((∃ w, op = .write32 s.params.regBase w ∧ decode w = .ok .resetState) ∨ op = .rstAssert ∨ op = .rstRelease ∨
        ∃ w, op = .abandon w)) ∧
  (∀ s : State, s.status.fault = true → s.status.busy = false → s.rst = false →
    ∃ t, exec .resetState s = .next t ∧ t.faultInfo = 0 ∧
      t.status = { busy := false, done := true, fault := false, cause := .none })

/-- A command the engine takes ends completed or faulted (R13, R34, R361, R362), and then irq is CTRL.IE. In every state
irq is high exactly where CTRL.IE is 1 and DONE or FAULT is 1, so it is low once the host clears CTRL.IE (R47). -/
def Obligations.CommandEndsDoneOrFaulted : Prop :=
  (∀ (i : Instr) (s t : State), s.ready = true → StatusLegal s → exec i s = .next t →
    (t.status = { busy := false, done := true, fault := false, cause := .none } ∨
      ∃ c, c ≠ .none ∧ t.status = faultStatus c) ∧
    t.irq = s.ie) ∧
  ∀ s : State, s.irq = true ↔ s.ie = true ∧ (s.status.done = true ∨ s.status.fault = true)

/-! ### Reset -/

/-- The values after release of rst (R390, R391), whatever the engine held before; asserting it leaves host memory; while
it is asserted no register write takes effect, and a read changes no engine state (R390). The model's choices (log entries
8 and 9): PREV is unwritten already at assertion, release keeps the PREV entries the state holds, where R391 gives the
values at release, and the value of a read in between is drawn. -/
def Obligations.ResetPinAndValues : Prop :=
  (∀ s : State, s.rst = true →
    let t := releaseReset s
    t.mode = .idle ∧ t.status.word = 0 ∧ t.ie = false ∧ t.irq = false ∧ t.faultInfo = 0 ∧
    t.arg0 = 0 ∧ t.arg1 = 0 ∧ t.arg2 = 0 ∧ t.res0 = 0 ∧ t.res1 = 0 ∧
    t.inBase = 0 ∧ t.inLen = 0 ∧ t.outBase = 0 ∧ t.outCap = 0 ∧
    t.outPos = 0 ∧ t.bitBuf = 0 ∧ t.bitCnt = 0 ∧ t.adler = 0x00000001 ∧
    (∀ i, tableEntry .head i t = some 0xFFFFFFFF) ∧ t.prev = s.prev ∧
    (∀ x i, x ≠ TableId.head → x ≠ TableId.prev → tableEntry x i t = some 0) ∧
    t.mem = s.mem ∧ t.params = s.params ∧ t.rst = false) ∧
  (∀ s : State, s.rst = false →
    ∃ t, hostMove .rstAssert s = .next t ∧ t.rst = true ∧ t.prev = [] ∧ t.mem = s.mem) ∧
  (∀ (s : State) (offset : BitVec 8) (v : Word), s.rst = true → busWrite offset v s = .next s ∧
    ∃ x, busRead offset s = { s with hostData := x, draws := s.draws + 1 })

/-- rst asserted during a command (R392), here until its release: every register and every table but PREV is at
its reset value, only PREV entries the command may write count as written, and only output bytes it may have
written can differ; a command that fails a pre-check has written none (R12). The model's choices: one move abandons the
command, and any of the entries it may write may count as written (log entry 9); COMPRESS starts at OUTPOS 0 (log entry
6); the driver's registers are at the values of log entry 11 after release. -/
def Obligations.AbandonedCommand : Prop :=
  ∀ (s : State) (w : Word) (i : Instr), decode w = .ok i → accepts i s = true →
    ∃ t, hostMove (.abandon w) s = .next t ∧ t.rst = true ∧
      releaseReset t = { State.reset with
        prev := t.prev, mem := t.mem, params := s.params, bus := s.bus, hostData := s.hostData, draws := t.draws } ∧
      (passesPreChecks i s = false → t.prev = [] ∧ t.mem = s.mem) ∧
      (passesPreChecks i s = true →
        (∀ j, (Cells.find t.prev j).isSome = true →
          i = .hcInsert ∧ j = s.arg0.toNat % 32768 ∨ i = .tblWrite 1 ∧ j = s.arg0.toNat ∨
            (∃ level container, i = .compress level container) ∧ j < 32768 ∧ j + 4 ≤ s.inLen.toNat) ∧
        ∀ a, memByte t.mem a ≠ memByte s.mem a → writesOutput i = true ∧
          s.outBase.toNat + outputStart i s ≤ a ∧ a < s.outBase.toNat + s.outCap.toNat)

/-! ### Control commands -/

/-- NOP changes nothing but STATUS, where DONE becomes 1 (R340); while FAULTED it is ignored. -/
def Obligations.NopChangesOnlyStatus : Prop :=
  encode .nop = 0x00000000 ∧
  (∀ s : State, s.ready = true → exec .nop s = .next { s with status := okStatus s.status }) ∧
  ∀ s : State, s.status.fault = true → exec .nop s = .next s

/-- RESET_STATE (R341), in every mode but BUSY: the fault record, the results, the bit writer, ADLER and every table
but PREV are at their reset values, and everything else is unchanged. It is the only command with an effect while
FAULTED. That the driver's own registers are unchanged too is the model's choice (log entry 11): R341 and R391 give them
no value. -/
def Obligations.ResetStateEffect : Prop :=
  encode .resetState = 0x00000001 ∧
  (∀ (i : Instr) (s : State), s.status.fault = true → i ≠ .resetState → exec i s = .next s) ∧
  ∀ s : State, s.rst = false → s.status.busy = false →
    ∃ t, exec .resetState s = .next t ∧
      t = { s with
        status := { busy := false, done := true, fault := false, cause := .none }, faultInfo := 0
        res0 := 0, res1 := 0, outPos := 0, bitBuf := 0, bitCnt := 0, adler := 0x00000001, head := []
        freqLit := [], freqDist := [], freqPre := [], lenLit := [], lenDist := [], lenPre := []
        codeLit := [], codeDist := [], codePre := [], rleItem := [], rleCount := 0 } ∧
      (∀ i, tableEntry .head i t = some 0xFFFFFFFF) ∧
      ∀ x i, x ≠ TableId.head → x ≠ TableId.prev → tableEntry x i t = some 0

/-- TBL_READ (R342, R344): an index past the table faults; otherwise RES0 is the entry, widened with zeros. A PREV
entry that holds no value (R50) gives an open value: drawing it, rather than a model fault, is log entry 4. -/
def Obligations.TblReadGivesTheEntry : Prop :=
  ∀ (sel : BitVec 4) (x : TableId) (s : State), TableId.ofSel sel = some x → s.ready = true →
    let i := s.arg0.toNat
    (tableEntries s x ≤ i → exec (.tblRead sel) s = .next (faulted .badArg 0 s)) ∧
    (i < tableEntries s x → ∀ v, tableEntry x i s = some v →
      exec (.tblRead sel) s = .next { s with status := okStatus s.status, res0 := v }) ∧
    (i < tableEntries s x → tableEntry x i s = none →
      ∃ v, exec (.tblRead sel) s =
        .next { s with status := okStatus s.status, res0 := v, draws := s.draws + 1 })

/-- TBL_WRITE (R343, R344): an index past the table, then a value that does not fit the table, fault; otherwise the
entry holds the value, and every other entry of every table and everything else is unchanged. A table id of 13 or
more is no command. -/
def Obligations.TblWriteSetsTheEntry : Prop :=
  (∀ sel : BitVec 4, (encode (.tblWrite sel)).toNat = 0x61 + 256 * sel.toNat ∧
    (13 ≤ sel.toNat → ∀ i, decode (encode (.tblWrite sel)) ≠ .ok i)) ∧
  ∀ (sel : BitVec 4) (x : TableId) (s : State), TableId.ofSel sel = some x → s.ready = true →
    let i := s.arg0.toNat
    let v := s.arg1
    let fits := v.toNat < 2 ^ tableWidth x ∧ (x = .rleItem → v.toNat % 32 ≤ 18) ∧ (x = .rleCount → v.toNat ≤ 316)
    (tableEntries s x ≤ i → exec (.tblWrite sel) s = .next (faulted .badArg 0 s)) ∧
    (i < tableEntries s x → ¬fits → exec (.tblWrite sel) s = .next (faulted .badArg 1 s)) ∧
    (i < tableEntries s x → fits → ∃ t, exec (.tblWrite sel) s = .next t ∧ OnlyTables s t ∧
      tableEntry x i t = some v ∧
      ∀ y j, j < tableEntries s y → ¬(y = x ∧ j = i) → tableEntry y j t = tableEntry y j s)

/-- The table each SEL names (R48), the alphabet each SEL names and its tables, NUM and MAX (R200), the tables' limits
(R344), and that a SEL past them is ILLEGAL_CMD even where a command carries it (R118; log entry 13). -/
def Obligations.TableLimits : Prop :=
  (List.range 16).map (fun n => TableId.ofSel (BitVec.ofNat 4 n)) =
    [some .head, some .prev, some .freqLit, some .freqDist, some .freqPre, some .lenLit, some .lenDist, some .lenPre,
      some .codeLit, some .codeDist, some .codePre, some .rleItem, some .rleCount, none, none, none] ∧
  (List.range 16).map (fun n => Alphabet.ofSel (BitVec.ofNat 4 n)) =
    [some .litLen, some .dist, some .preCode] ++ List.replicate 13 none ∧
  (∀ s : State, [Alphabet.litLen, .dist, .preCode].map (fun a =>
      (alphabetFreq a s, alphabetLen a s, alphabetCode a s, alphabetSize a, alphabetNum a, alphabetMax a)) =
    [(s.freqLit, s.lenLit, s.codeLit, 288, 286, 14), (s.freqDist, s.lenDist, s.codeDist, 32, 30, 15),
      (s.freqPre, s.lenPre, s.codePre, 19, 19, 7)]) ∧
  (∀ s : State, [TableId.head, .prev, .freqLit, .freqDist, .freqPre, .lenLit, .lenDist, .lenPre, .codeLit, .codeDist,
      .codePre, .rleItem, .rleCount].map (fun x => (tableEntries s x, tableWidth x)) =
    [(2 ^ s.params.hashBits, 32), (32768, 32), (288, 32), (32, 32), (19, 32), (288, 4), (32, 4), (19, 4), (288, 16),
      (32, 16), (19, 16), (316, 12), (1, 9)]) ∧
  (∀ (sel : BitVec 4) (s : State), s.ready = true → 13 ≤ sel.toNat →
    exec (.tblRead sel) s = .next (faulted .illegalCmd (encode (.tblRead sel)) s) ∧
    exec (.tblWrite sel) s = .next (faulted .illegalCmd (encode (.tblWrite sel)) s)) ∧
  (∀ (sel : BitVec 4) (s : State), s.ready = true → 3 ≤ sel.toNat →
    exec (.huffBuild sel) s = .next (faulted .illegalCmd (encode (.huffBuild sel)) s))

/-! ### The bit writer -/

/-- BW_RESET (R142): the pending bits and the count of bytes are dropped, and nothing else changes. -/
def Obligations.BwResetEffect : Prop :=
  encode .bwReset = 0x00000010 ∧
  ∀ s : State, s.ready = true → exec .bwReset s =
    .next { s with status := okStatus s.status, bitBuf := 0, bitCnt := 0, outPos := 0 }

/-- BW_EMIT (R141, R143): after its pre-checks it appends the ARG1 low bits of ARG0 to the stream, each complete
byte going out low bit first, or raises OUT_OVERFLOW. -/
def Obligations.BwEmitAppendsTheBits : Prop :=
  encode .bwEmit = 0x00000011 ∧
  ∀ s : State, s.ready = true →
    FaultsOnRegion .bwEmit s ∧
    (regionsOk s = true → 32 < s.arg1.toNat ∨ 32 < s.bitCnt.toNat + s.arg1.toNat →
      exec .bwEmit s = .next (faulted .bwCapacity s.arg1 s)) ∧
    (regionsOk s = true → WriterLegal s → s.arg1.toNat ≤ 32 → s.bitCnt.toNat + s.arg1.toNat ≤ 32 →
      EmitsFields .bwEmit s [(s.arg0.toNat, s.arg1.toNat)] [] [])

/-- BW_PAD (R144, R146): a partial byte is filled with zero bits and goes out, and the accumulator is empty. -/
def Obligations.BwPadFillsTheByte : Prop :=
  encode .bwPad = 0x00000012 ∧
  ∀ s : State, s.ready = true →
    FaultsOnRegion .bwPad s ∧
    (regionsOk s = true → WriterLegal s → EmitsFields .bwPad s (padFields s) [] [] ∧
      ∀ t, exec .bwPad s = .next t → HasRoom s (padFields s) → t.bitCnt = 0 ∧ t.bitBuf = 0)

/-! ### The checksum -/

/-- ADLER_UPDATE (R161), with the closed form of R162: ADLER is continued over the bytes at ARG0 to
ARG0 + ARG1 - 1, a count of 0 leaves it as it is, and nothing else changes. Two updates over adjacent ranges equal one over
their union. -/
def Obligations.AdlerUpdateEffect : Prop :=
  encode .adlerUpdate = 0x00000018 ∧
  (∀ s : State, s.ready = true →
    let k := s.arg0.toNat
    let n := s.arg1.toNat
    let s1 := s.adler.toNat % 65536
    let s2 := s.adler.toNat / 65536
    let b := fun i => (inputAt s (k + i)).toNat
    FaultsOnRegion .adlerUpdate s ∧
    (regionsOk s = true → s.inLen.toNat < k → exec .adlerUpdate s = .next (faulted .badArg 0 s)) ∧
    (regionsOk s = true → k ≤ s.inLen.toNat → s.inLen.toNat < k + n →
      exec .adlerUpdate s = .next (faulted .badArg 1 s)) ∧
    (regionsOk s = true → k + n ≤ s.inLen.toNat →
      ∃ t, exec .adlerUpdate s = .next t ∧ t = { s with status := okStatus s.status, adler := t.adler } ∧
        (n = 0 → t.adler = s.adler) ∧
        (0 < n → t.adler.toNat =
          (s2 + n * s1 + ∑ i ∈ Finset.range n, (n - i) * b i) % 65521 * 65536 +
            (s1 + ∑ i ∈ Finset.range n, b i) % 65521))) ∧
  ∀ (s t : State) (m n : Word), s.ready = true → regionsOk s = true →
    s.arg0.toNat + m.toNat + n.toNat ≤ s.inLen.toNat →
    exec .adlerUpdate { s with arg1 := m } = .next t →
    ∃ u v, exec .adlerUpdate { s with arg0 := s.arg0 + m, arg1 := n, adler := t.adler } = .next u ∧
      exec .adlerUpdate { s with arg1 := m + n } = .next v ∧ u.adler = v.adler

/-! ### The match finder -/

/-- HC_RESET (R172): every HEAD entry is NIL, and nothing else changes. -/
def Obligations.HcResetEffect : Prop :=
  encode .hcReset = 0x00000020 ∧
  ∀ s : State, s.ready = true → ∃ t, exec .hcReset s = .next t ∧
    t = { s with status := okStatus s.status, head := [] } ∧ ∀ h, tableEntry .head h t = some 0xFFFFFFFF

/-- HC_INSERT (R173, R174): the position becomes the head of its bucket, its PREV entry is the old head, and nothing
else changes. -/
def Obligations.HcInsertEffect : Prop :=
  encode .hcInsert = 0x00000021 ∧
  ∀ s : State, s.ready = true →
    let p := s.arg0.toNat
    FaultsOnRegion .hcInsert s ∧
    (regionsOk s = true → s.inLen.toNat < 4 ∨ s.inLen.toNat - 4 < p →
      exec .hcInsert s = .next (faulted .badArg 0 s)) ∧
    (regionsOk s = true → p + 4 ≤ s.inLen.toNat →
      ∃ t, exec .hcInsert s = .next t ∧
        t = { s with status := okStatus s.status, head := t.head, prev := t.prev } ∧
        (∀ h, Cells.get Config.nil t.head h = if h = bucketAt s p then s.arg0 else Cells.get Config.nil s.head h) ∧
        (∀ j, Cells.find t.prev j =
          if j = p % 32768 then some (Cells.get Config.nil s.head (bucketAt s p)) else Cells.find s.prev j))

/-- The closed form of a candidate's examination (R175, R176): it is accepted exactly when its match length is at
least 4 and above the best so far, and the cheap reject fires only when it is not above the best. -/
def Obligations.ExamineIsMatchLen : Prop :=
  ∀ (s : State) (c p maxLen best m : Nat), regionsOk s = true → c < p → p + maxLen ≤ s.inLen.toNat → 4 ≤ maxLen →
    best < maxLen → IsMatchLen s c p maxLen m →
    examine s c p maxLen best = .ok (if 4 ≤ m ∧ best < m then some m else none) ∧
    (inputAt s (c + best) ≠ inputAt s (p + best) → m ≤ best)

/-- FIND_MATCH (R178, R179): after its pre-checks it completes; the result is no match or a true match within the
window, and beside the results only the count of open values can change (an unwritten PREV entry is drawn, log
entry 4). -/
def Obligations.FindMatchGivesATrueMatch : Prop :=
  encode .findMatch = 0x00000022 ∧
  ∀ s : State, s.ready = true →
    let p := s.arg0.toNat
    let maxLen := s.arg2.toNat
    FaultsOnRegion .findMatch s ∧
    (regionsOk s = true → s.inLen.toNat < 4 ∨ s.inLen.toNat - 4 < p →
      exec .findMatch s = .next (faulted .badArg 0 s)) ∧
    (regionsOk s = true → p + 4 ≤ s.inLen.toNat → s.arg1 = 0 → exec .findMatch s = .next (faulted .badArg 1 s)) ∧
    (regionsOk s = true → p + 4 ≤ s.inLen.toNat → s.arg1 ≠ 0 →
      maxLen < 4 ∨ 258 < maxLen ∨ s.inLen.toNat - p < maxLen → exec .findMatch s = .next (faulted .badArg 2 s)) ∧
    (regionsOk s = true → s.arg1 ≠ 0 → 4 ≤ maxLen → maxLen ≤ 258 → p + maxLen ≤ s.inLen.toNat →
      ∃ t, exec .findMatch s = .next t ∧
        t = { s with status := okStatus s.status, res0 := t.res0, res1 := t.res1, draws := t.draws } ∧
        ((t.res0 = 0 ∧ t.res1 = 0) ∨
          (4 ≤ t.res0.toNat ∧ t.res0.toNat ≤ maxLen ∧ 1 ≤ t.res1.toNat ∧ t.res1.toNat ≤ 32767 ∧ t.res1.toNat ≤ p ∧
            ∀ k, k < t.res0.toNat → inputAt s (p - t.res1.toNat + k) = inputAt s (p + k))))

/-- Where every PREV entry of the candidates it may examine is written, FIND_MATCH gives the best match over the
first ARG1 candidates of the chain, the newest of equally long ones, and draws nothing (R177, R179). -/
def Obligations.FindMatchIsBestOfChain : Prop :=
  ∀ s : State, s.ready = true → regionsOk s = true → s.arg1 ≠ 0 → 4 ≤ s.arg2.toNat → s.arg2.toNat ≤ 258 →
    s.arg0.toNat + s.arg2.toNat ≤ s.inLen.toNat →
    let p := s.arg0.toNat
    let chain := chainFrom s p s.arg1.toNat (Cells.get Config.nil s.head (bucketAt s p))
    (∀ c ∈ chain, (Cells.find s.prev (c % 32768)).isSome = true) →
    exec .findMatch s = .next { s with
      status := okStatus s.status, res0 := word (bestOf s p s.arg2.toNat chain).1
      res1 := word (bestOf s p s.arg2.toNat chain).2 }

/-! ### The Huffman builder -/

/-- HUFF_BUILD (R200, R201, R202, R211): a forced sum of 2^22 or more faults; otherwise the alphabet's LEN and CODE
tables hold the builder's lengths and codes for the NUM coded symbols and 0 above them, and nothing else changes. -/
def Obligations.HuffBuildEffect : Prop :=
  (∀ sel : BitVec 4, sel.toNat ≤ 2 → (encode (.huffBuild sel)).toNat = 0x30 + 256 * sel.toNat) ∧
  ∀ (sel : BitVec 4) (a : Alphabet) (s : State), Alphabet.ofSel sel = some a → s.ready = true →
    let f := (List.range (alphabetNum a)).map (fun x => max (Cells.get 0 (alphabetFreq a s) x).toNat 1)
    (2 ^ 22 ≤ f.sum → exec (.huffBuild sel) s = .next (faulted .huffRange (word (min f.sum (2 ^ 32 - 1))) s)) ∧
    (f.sum < 2 ^ 22 → ∃ t, exec (.huffBuild sel) s = .next t ∧
      { t with lenLit := s.lenLit, lenDist := s.lenDist, lenPre := s.lenPre, codeLit := s.codeLit
               codeDist := s.codeDist, codePre := s.codePre } = { s with status := okStatus s.status } ∧
      (∀ y, y ≠ a → alphabetLen y t = alphabetLen y s ∧ alphabetCode y t = alphabetCode y s) ∧
      (∀ x, x < alphabetNum a →
        Cells.get 0 (alphabetLen a t) x = BitVec.ofNat 4 ((huffLengths (alphabetMax a) f).getD x 0) ∧
        Cells.get 0 (alphabetCode a t) x = BitVec.ofNat 16 ((huffCodes (alphabetMax a) f).getD x 0)) ∧
      (∀ x, alphabetNum a ≤ x → codeLen a t x = 0 ∧ codeVal a t x = 0))

/-- After HUFF_BUILD every coded symbol has a length from 1 to MAX and a code within it (R53), and the Kraft sum is
exactly 1: the code is complete (R207, R212). -/
def Obligations.HuffCodeIsComplete : Prop :=
  ∀ (sel : BitVec 4) (a : Alphabet) (s t : State), Alphabet.ofSel sel = some a → s.ready = true →
    exec (.huffBuild sel) s = .next t → t.status.fault = false →
    (∀ x, x < alphabetNum a → 1 ≤ codeLen a t x ∧ codeLen a t x ≤ alphabetMax a ∧
      codeVal a t x < 2 ^ codeLen a t x) ∧
    ∑ x ∈ Finset.range (alphabetNum a), 2 ^ (alphabetMax a - codeLen a t x) = 2 ^ alphabetMax a

/-- The codes HUFF_BUILD leaves are canonical (R209, R212): before reversal a symbol's code is the first of its length
plus the number of lower symbols of that length, and the first codes follow from the counts of the lengths. No code
begins another in stream order, low bit first (R210, R212). -/
def Obligations.HuffCodeIsPrefixFree : Prop :=
  ∀ (sel : BitVec 4) (a : Alphabet) (s t : State), Alphabet.ofSel sel = some a → s.ready = true →
    exec (.huffBuild sel) s = .next t → t.status.fault = false →
    (∃ first : Nat → Nat, first 1 = 0 ∧
      (∀ l, 1 ≤ l → l < alphabetMax a → first (l + 1) =
        (first l + ((List.range (alphabetNum a)).filter (fun y => codeLen a t y = l)).length) * 2) ∧
      ∀ x, x < alphabetNum a → codeVal a t x = reverseBits (first (codeLen a t x) +
        ((List.range x).filter (fun y => codeLen a t y = codeLen a t x)).length) (codeLen a t x)) ∧
    ∀ x y, x < alphabetNum a → y < alphabetNum a → x ≠ y → codeLen a t x ≤ codeLen a t y →
      codeVal a t y % 2 ^ codeLen a t x ≠ codeVal a t x

/-- The builder's sort, tree, counts and lengths are those of the loops R204, R205, R206 and R208 write out: the order is
by frequency and then symbol, the parents are BuildTree's, the counts are LengthCounts's, and the symbols take the lengths
in that order, longest first. -/
def Obligations.HuffBuilderFollowsTheLoops : Prop :=
  ∀ (maxLen : Nat) (f : List Nat),
    let order := sortSymbols f
    let w := order.map Prod.fst
    let cnt := huffCounts maxLen f
    order.Perm (f.zip (List.range f.length)) ∧
    order.Pairwise (fun x y => x.1 < y.1 ∨ x.1 = y.1 ∧ x.2 < y.2) ∧
    buildTree (f.length - 1) 0 w [] = treeParents w ∧
    cnt = levelCounts maxLen f.length (treeParents w) ∧
    ∀ i, i < f.length → (huffLengths maxLen f).getD (order.map Prod.snd |>.getD i 0) 0 =
      ((List.range maxLen).reverse.flatMap (fun l => List.replicate (cnt.getD (l + 1) 0) (l + 1))).getD i 0

/-- A symbol with a higher forced frequency never has a longer code, nor has the higher of two symbols of equal
frequency (R204, R208, R212). -/
def Obligations.HuffLengthsFollowFrequencies : Prop :=
  ∀ (sel : BitVec 4) (a : Alphabet) (s t : State), Alphabet.ofSel sel = some a → s.ready = true →
    exec (.huffBuild sel) s = .next t → t.status.fault = false →
    let f := fun x => max (Cells.get 0 (alphabetFreq a s) x).toNat 1
    ∀ x y, x < alphabetNum a → y < alphabetNum a → (f x < f y ∨ (f x = f y ∧ x < y)) → codeLen a t y ≤ codeLen a t x

/-- Reverse(v, l): bit i of the result is bit l - 1 - i of v, and there are no bits at l and above (R210). -/
def Obligations.ReverseBitsMirrors : Prop :=
  ∀ v l : Nat, reverseBits v l < 2 ^ l ∧ ∀ i, i < l → (reverseBits v l).testBit i = v.testBit (l - 1 - i)

/-! ### The run encoder -/

/-- RLE_ENCODE (R240, R243, R245): RLE_ITEM holds the packed items of the 316 lengths, FREQ_PRE counts their
symbols, RLE_COUNT and RES0 are their number, between 1 and 316 (R244), and nothing else changes. -/
def Obligations.RleEncodeEffect : Prop :=
  encode .rleEncode = 0x00000031 ∧
  ∀ s : State, s.ready = true →
    let q := (List.range 286).map (fun k => (Cells.get 0 s.lenLit k).toNat) ++
      (List.range 30).map (fun k => (Cells.get 0 s.lenDist k).toNat)
    let items := encodeRuns q
    ∃ t, exec .rleEncode s = .next t ∧
      t = { s with status := okStatus s.status, freqPre := t.freqPre, rleItem := t.rleItem, rleCount := t.rleCount
                   res0 := t.res0 } ∧
      1 ≤ items.length ∧ items.length ≤ 316 ∧ t.rleCount.toNat = items.length ∧ t.res0.toNat = items.length ∧
      (∀ (j : Nat) (x : Nat × Nat), items[j]? = some x → (Cells.get 0 t.rleItem j).toNat = x.1 + 32 * x.2) ∧
      (∀ j, items.length ≤ j → j < 316 → Cells.get 0 t.rleItem j = Cells.get 0 s.rleItem j) ∧
      (∀ sym, sym < 19 → (Cells.get 0 t.freqPre sym).toNat = items.countP (fun x => x.1 = sym))

/-- A sequence is encoded run by run (R243), its runs are maximal and make it up, and a run is encoded as R242 says:
short runs as plain lengths; a run of 4 or more as one plain length, repeats of 6 while they last, then one repeat of 3 to
5 or one or two plain lengths. Expanding the items in order reproduces the sequence, and item 0 is never a repeat (R246). -/
def Obligations.RunsEncodeAndDecode : Prop :=
  (∀ q : List Nat, encodeRuns q = (maximalRuns q).flatMap (fun r => encodeRun r.1 r.2)) ∧
  (∀ q : List Nat, (maximalRuns q).flatMap (fun r => List.replicate r.2 r.1) = q ∧
    (∀ r ∈ maximalRuns q, 1 ≤ r.2) ∧ ((maximalRuns q).map Prod.fst).IsChain (· ≠ ·)) ∧
  (∀ v n : Nat, n < 4 → encodeRun v n = List.replicate n (v, 0)) ∧
  (∀ v n : Nat, 4 ≤ n →
    encodeRun v n = (v, 0) :: List.replicate ((n - 1) / 6) (16, 3) ++
      if 3 ≤ (n - 1) % 6 then [(16, (n - 1) % 6 - 3)] else List.replicate ((n - 1) % 6) (v, 0)) ∧
  ∀ q : List Nat, (∀ v ∈ q, v ≤ 15) →
    expandItems 0 (encodeRuns q) = q ∧ ∀ x, (encodeRuns q).head? = some x → x.1 ≠ 16

/-! ### The block encoder -/

/-- The wire tables of R260 and R261, written out; the slot of a length or distance is the one whose range holds it,
length 258 is in slot 28, the extra value fits the slot's extra bits, and DSlot has the closed form of R261. LEXT's 2, 3
and 4 at slots 15, 19 and 23 are the model's choice (log entry 21): R260's row prints 3, 4 and 5 there. -/
def Obligations.SlotsCoverTheRanges : Prop :=
  lengthBase = [3, 4, 5, 6, 7, 8, 9, 10, 11, 13, 15, 17, 19, 23, 27, 31, 35, 43, 51, 59, 67, 83, 99, 115, 131, 163, 195,
    227, 258] ∧
  lengthExtra = [0, 0, 0, 0, 0, 0, 0, 0, 1, 1, 1, 1, 2, 2, 2, 2, 3, 3, 3, 3, 4, 4, 4, 4, 5, 5, 5, 5, 0] ∧
  distBase = [1, 2, 3, 4, 5, 7, 9, 13, 17, 25, 33, 49, 65, 97, 129, 193, 257, 385, 513, 769, 1025, 1537, 2049, 3073, 4097,
    6145, 8193, 12289, 16385, 24577] ∧
  distExtra = [0, 0, 0, 0, 1, 1, 2, 2, 3, 3, 4, 4, 5, 5, 6, 6, 7, 7, 8, 8, 9, 9, 10, 10, 11, 11, 12, 12, 13, 13] ∧
  lengthSlot 258 = 28 ∧
  (∀ len, 3 ≤ len → len ≤ 258 →
    lengthSlot len ≤ 28 ∧ lengthBase.getD (lengthSlot len) 0 ≤ len ∧
    (lengthSlot len < 28 → len < lengthBase.getD (lengthSlot len + 1) 0) ∧
    len - lengthBase.getD (lengthSlot len) 0 < 2 ^ lengthExtra.getD (lengthSlot len) 0) ∧
  (∀ dist, 1 ≤ dist → dist ≤ 32768 →
    distSlot dist ≤ 29 ∧ distBase.getD (distSlot dist) 0 ≤ dist ∧
    (distSlot dist < 29 → dist < distBase.getD (distSlot dist + 1) 0) ∧
    dist - distBase.getD (distSlot dist) 0 < 2 ^ distExtra.getD (distSlot dist) 0 ∧
    (dist ≤ 4 → distSlot dist = dist - 1) ∧
    (5 ≤ dist → distSlot dist = 2 * Nat.log2 (dist - 1) + (dist - 1) / 2 ^ (Nat.log2 (dist - 1) - 1) % 2))

/-- FREQ_CLEAR (R264) leaves every FREQ_LIT and FREQ_DIST entry 0, FREQ_SEED (R265) the seed parameters, and
nothing else changes. -/
def Obligations.FrequencyCommands : Prop :=
  encode .freqClear = 0x00000040 ∧ encode .freqSeed = 0x00000041 ∧
  ∀ s : State, s.ready = true →
    (∃ t, exec .freqClear s = .next t ∧
      t = { s with status := okStatus s.status, freqLit := [], freqDist := [] } ∧
      ∀ i, tableEntry .freqLit i t = some 0 ∧ tableEntry .freqDist i t = some 0) ∧
    (∃ t, exec .freqSeed s = .next t ∧
      t = { s with status := okStatus s.status, freqLit := t.freqLit, freqDist := t.freqDist } ∧
      (∀ i, i < 288 → tableEntry .freqLit i t = some (word (s.params.seedLit.getD i 0))) ∧
      (∀ i, i < 32 → tableEntry .freqDist i t = some (word (s.params.seedDist.getD i 0))))

/-- BLK_HEADER (R263, R266, R267, R268): the header fields, the pre-code lengths in the order PERM, trimmed, and the
items. -/
def Obligations.BlkHeaderAppendsTheHeader : Prop :=
  preCodeOrder = [16, 17, 18, 0, 8, 7, 9, 6, 10, 5, 11, 4, 12, 3, 13, 2, 14, 1, 15] ∧
  encode (.blkHeader false) = 0x00000042 ∧ encode (.blkHeader true) = 0x00001042 ∧
  ∀ (s : State) (bfinal : Bool), s.ready = true →
    FaultsOnRegion (.blkHeader bfinal) s ∧
    ∀ h, IsHclen s h → regionsOk s = true → WriterLegal s →
      EmitsFields (.blkHeader bfinal) s (headerFields s bfinal h) [] []

/-- EMIT_LIT (R262, R269): the byte's code is appended and the byte counted. -/
def Obligations.EmitLitAppendsTheCode : Prop :=
  encode .emitLit = 0x00000043 ∧
  ∀ s : State, s.ready = true →
    FaultsOnRegion .emitLit s ∧
    (regionsOk s = true → 255 < s.arg0.toNat → exec .emitLit s = .next (faulted .badArg 0 s)) ∧
    (regionsOk s = true → WriterLegal s → s.arg0.toNat ≤ 255 →
      EmitsFields .emitLit s [symbolField .litLen s s.arg0.toNat] [s.arg0.toNat] [])

/-- EMIT_MATCH (R262, R270): the length code, its extra bits, the distance code and its extra bits are appended, and
both codes counted. How many extra bits lengths of slots 15, 19 and 23 have is the model's choice (log entry 21). -/
def Obligations.EmitMatchAppendsTheToken : Prop :=
  encode .emitMatch = 0x00000044 ∧
  ∀ s : State, s.ready = true →
    let len := s.arg0.toNat
    let dist := s.arg1.toNat
    FaultsOnRegion .emitMatch s ∧
    (regionsOk s = true → len < 3 ∨ 258 < len → exec .emitMatch s = .next (faulted .badArg 0 s)) ∧
    (regionsOk s = true → 3 ≤ len → len ≤ 258 → dist < 1 ∨ 32768 < dist →
      exec .emitMatch s = .next (faulted .badArg 1 s)) ∧
    (regionsOk s = true → WriterLegal s → 3 ≤ len → len ≤ 258 → 1 ≤ dist → dist ≤ 32768 →
      EmitsFields .emitMatch s (matchFields s len dist) [257 + lengthSlot len] [distSlot dist])

/-- EMIT_EOB (R262, R271): the code of symbol 256 is appended and counted. -/
def Obligations.EmitEobAppendsTheCode : Prop :=
  encode .emitEob = 0x00000045 ∧
  ∀ s : State, s.ready = true →
    FaultsOnRegion .emitEob s ∧
    (regionsOk s = true → WriterLegal s → EmitsFields .emitEob s [symbolField .litLen s 256] [256] [])

/-- EMIT_TERMINATOR (R272), EMIT_ZHEADER (R273) and EMIT_TRAILER (R274) append their fields and count nothing. -/
def Obligations.EmitFramingAppendsItsFields : Prop :=
  encode .emitTerminator = 0x00000046 ∧ encode .emitZheader = 0x00000047 ∧ encode .emitTrailer = 0x00000048 ∧
  ∀ s : State, s.ready = true →
    FaultsOnRegion .emitTerminator s ∧ FaultsOnRegion .emitZheader s ∧ FaultsOnRegion .emitTrailer s ∧
    (regionsOk s = true → WriterLegal s →
      EmitsFields .emitTerminator s [(1, 1), (1, 2), (0, 7)] [] [] ∧
      EmitsFields .emitZheader s [(0x78, 8), (0x01, 8)] [] [] ∧
      EmitsFields .emitTrailer s [(s.adler.toNat / 2 ^ 24, 8), (s.adler.toNat / 2 ^ 16, 8),
        (s.adler.toNat / 2 ^ 8, 8), (s.adler.toNat, 8)] [] [])

/-! ### The driver -/

/-- BOUND (R300, R301): RES0 is the bound, which fits 32 bits, and nothing else changes; above MAX_IN_LEN it
faults. -/
def Obligations.BoundGivesTheCapacity : Prop :=
  encode .bound = 0x00000002 ∧
  ∀ s : State, s.ready = true →
    let n := s.arg0.toNat
    (0x7FFFFFFF < n → exec .bound s = .next (faulted .badArg 0 s)) ∧
    (n ≤ 0x7FFFFFFF → ∃ t, exec .bound s = .next t ∧ t = { s with status := okStatus s.status, res0 := t.res0 } ∧
      t.res0.toNat = max (128 + n * 110 / 100) (128 + n + 5 * (n / 31744 + 1)))

/-- The pre-checks of COMPRESS in their order: BAD_LEVEL, BAD_REGION, OUT_TOO_SMALL (R302, R365, R367). -/
def Obligations.CompressPreChecks : Prop :=
  ∀ (level : BitVec 4) (container : Bool) (s : State), s.ready = true →
    let n := s.inLen.toNat
    let bound := max (128 + n * 110 / 100) (128 + n + 5 * (n / 31744 + 1))
    (8 < level.toNat → exec (.compress level container) s = .next (faulted .badLevel (word level.toNat) s)) ∧
    (level.toNat ≤ 8 → FaultsOnRegion (.compress level container) s) ∧
    (level.toNat ≤ 8 → regionsOk s = true → s.outCap.toNat < bound →
      exec (.compress level container) s = .next (faulted .outTooSmall (word bound) s))

/-- COMPRESS of the empty input (R307): the terminator and its padding, in the container where it is asked for. -/
def Obligations.CompressEmptyInput : Prop :=
  ∀ (level : BitVec 4) (container : Bool) (s : State), s.ready = true → level.toNat ≤ 8 → regionsOk s = true →
    s.inLen = 0 → 133 ≤ s.outCap.toNat →
    let stream : List Nat := if container then [0x78, 0x01, 0x03, 0x00, 0x00, 0x00, 0x00, 0x01] else [0x03, 0x00]
    ∃ t, exec (.compress level container) s = .next t ∧ t.status = okStatus s.status ∧
      t.res0 = word stream.length ∧ t.res1 = 0 ∧ t.outPos = word stream.length ∧ t.bitBuf = 0 ∧ t.bitCnt = 0 ∧
      (∀ j, j < stream.length → (memByte t.mem (s.outBase.toNat + j)).toNat = stream.getD j 0) ∧
      ∀ a, a < s.outBase.toNat ∨ s.outBase.toNat + stream.length ≤ a → memByte t.mem a = memByte s.mem a

/-- COMPRESS of any input on any chip (R302 to R306, R321, R322): where the stream the rules give for the input fits
OUT_CAP (the premise P_fits of R394) it completes, the stream's bytes are the output, and the end state is the whole of
R321; where it does not fit, the first byte past OUT_CAP raises OUT_OVERFLOW, which leaves unchanged what R364 says, the
output bytes below OUTPOS-at-acceptance among it (the model's reading of R364 for COMPRESS, log entry 6). The stream is the
appended fields of the zlib header, of each block (its header, the policy's tokens, its end-of-block symbol), the
terminator, the padding and the trailer (`streamFields`). LEXT is log entry 21's. -/
def Obligations.CompressCompletesWithRoom : Prop :=
  ∀ (level : BitVec 4) (container : Bool) (s : State), s.ready = true → P_params s → level.toNat ≤ 8 → P_regions s →
    P_room s →
    (P_fits level container s → ∃ t, exec (.compress level container) s = .next t ∧ Compressed level container s t) ∧
    (¬P_fits level container s → ∃ t, exec (.compress level container) s = .next t ∧ Overflowed s.outCap s t)

/-- The blocks of a stream are ceil(IN_LEN / P_BLK_MAX), which NBLK counts. Block k is P_BLK_MAX bytes long, but the last,
which ends at IN_LEN (R304), and its tokens expand to exactly the bytes from k * P_BLK_MAX to its end, after all the bytes
before them; the tokens of all blocks expand to the input (R318, R319). The stream never needs more than two bytes for an
input byte, 1500 for a block and 300, so P_fits of R394 holds wherever that much room is left; this bound is the model's
own, and R322 says that bound(n) is none. -/
def Obligations.StreamCoversTheInput : Prop :=
  ∀ (level : BitVec 4) (container : Bool) (s : State), P_params s → P_regions s → level.toNat ≤ 8 →
    let r := compressBlocks level container s
    let len := s.params.blkMax
    let blocks := (s.inLen.toNat + len - 1) / len
    r.1.length = blocks ∧ r.2.driver.nblk.toNat = blocks ∧
    (∀ k b, r.1[k]? = some b →
      b.tables.driver.bs.toNat = k * len ∧ b.tables.driver.be.toNat = min ((k + 1) * len) s.inLen.toNat ∧
      expandTokens ((inputBytesOf s).take (k * len)) b.tokens = (inputBytesOf s).take ((k + 1) * len)) ∧
    expandTokens [] (r.1.flatMap Block.tokens) = inputBytesOf s ∧
    streamLength level container s ≤ 2 * s.inLen.toNat + 1500 * blocks + 300

/-- The launch of one COMPRESS under the premises of R394, by a write of its word to CMD, and the end of the run (R395):
it completes with the stream written and the input given back by its tokens, or it faults where the stream does not fit.
LEXT is log entry 21's. -/
def Obligations.LaunchOfCompress : Prop :=
  ∀ (level : BitVec 4) (container : Bool) (s : State) (w : Word) (rest : List HostOp) (B : List Byte),
    P_clean s → P_regions s → P_input s B → P_room s → P_cmd level container w → P_params s →
    s.bus = .write32 s.params.regBase w :: rest →
    ∃ t, step s = .next t ∧ t.status.busy = false ∧ t.params = s.params ∧
      (P_fits level container s → t.status.word = 0x00000002 ∧ Compressed level container { s with bus := rest } t ∧
        expandTokens [] ((compressBlocks level container s).1.flatMap Block.tokens) = B) ∧
      (¬P_fits level container s → t.status.word = 0x00000404 ∧ t.faultInfo = s.outCap)

/-- A COMPRESS that completes has read no PREV entry that nothing had written: it draws no open value (R50, R58). That a
read of such an entry draws a value and advances the model's counter of draws is log entries 3 and 4. -/
def Obligations.CompressReadsNoUnwrittenPrev : Prop :=
  ∀ (level : BitVec 4) (container : Bool) (s t : State), s.ready = true → P_params s →
    exec (.compress level container) s = .next t → t.status.fault = false → t.draws = s.draws

/-- What a completed COMPRESS writes and returns, and its end state (R321), depend only on the input, the level, the
container flag and the parameters (R320): not on the buffers' places, on OUT_CAP, on PREV, or on anything else held before.
What the run does not write keeps its old value (R321): ADLER in raw mode, PREV entries nothing was inserted at, RLE_ITEM
entries no block filled, and, for the empty input, PREV, the code tables, RLE_ITEM, RLE_COUNT and FREQ_PRE. -/
def Obligations.CompressDependsOnlyOnTheInput : Prop :=
  ∀ (level : BitVec 4) (container : Bool) (s s' t t' : State), s.ready = true → s'.ready = true →
    P_params s → SameInput s s' →
    exec (.compress level container) s = .next t → exec (.compress level container) s' = .next t' →
    t.status.fault = false → t'.status.fault = false →
    t.res0 = t'.res0 ∧ t.res1 = t'.res1 ∧ t.outPos = t'.outPos ∧ t.bitBuf = t'.bitBuf ∧ t.bitCnt = t'.bitCnt ∧
    (∀ j, j < t.res0.toNat → memByte t.mem (s.outBase.toNat + j) = memByte t'.mem (s'.outBase.toNat + j)) ∧
    (if container then t.adler = t'.adler else t.adler = s.adler) ∧
    t.head = t'.head ∧ t.freqLit = t'.freqLit ∧ t.freqDist = t'.freqDist ∧
    (∀ i, Cells.find t.prev i = Cells.find t'.prev i ∨
      Cells.find t.prev i = Cells.find s.prev i ∧ Cells.find t'.prev i = Cells.find s'.prev i) ∧
    (∀ i, Cells.get 0 t.rleItem i = Cells.get 0 t'.rleItem i ∨
      Cells.get 0 t.rleItem i = Cells.get 0 s.rleItem i ∧ Cells.get 0 t'.rleItem i = Cells.get 0 s'.rleItem i) ∧
    (s.inLen ≠ 0 →
      (∀ i, i < t.rleCount.toNat → Cells.get 0 t.rleItem i = Cells.get 0 t'.rleItem i) ∧
      ∀ x i, x ≠ TableId.prev → x ≠ TableId.rleItem → tableEntry x i t = tableEntry x i t') ∧
    (s.inLen = 0 → ∀ x i, x ≠ TableId.head → x ≠ TableId.freqLit → x ≠ TableId.freqDist →
      tableEntry x i t = tableEntry x i s)

/-- One step of the driver's token loop (R310) emits a true token (R318) and moves POS past the bytes it covers,
within the block (R313, R314, R319). LEXT is log entry 21's. -/
def Obligations.DriverTokensAreTrue : Prop :=
  ∀ s t : State, regionsOk s = true → WriterLegal s → s.driver.pos.toNat < s.driver.be.toNat →
    s.driver.be.toNat ≤ s.inLen.toNat → tokenStep s = .ok t →
    ∃ fields lits dists len, TrueToken s fields lits dists len ∧ Appended s t fields ∧ Counted s t lits dists ∧
      1 ≤ len ∧ t.driver.pos.toNat = s.driver.pos.toNat + len ∧ t.driver.pos.toNat ≤ s.driver.be.toNat

/-- DEPTH, LAZY and SKIP of the nine levels are those of R308. One step of the token loop follows the policy of R310, R311,
R315 and R316, where the chains it walks are written (R58): its token is the best match of DEPTH candidates at POS, or a
literal where there is none, or where the level is lazy, the match is shorter than nice and the probe at POS + 1 finds a
longer one; the token is emitted and counted, the positions of R315 are inserted, POS moves on, and nothing else changes.
LEXT is log entry 21's. -/
def Obligations.StepFollowsThePolicy : Prop :=
  (List.range 9).map (fun l => (searchDepth l, lazyLevel l, skipLevel l)) =
    [(2, false, true), (4, false, true), (8, false, false), (16, false, false), (32, false, false), (64, true, false),
      (128, true, false), (256, true, false), (8192, true, false)] ∧
  ∀ s t : State, regionsOk s = true → WriterLegal s → s.driver.pos.toNat < s.driver.be.toNat →
    s.driver.be.toNat ≤ s.inLen.toNat → ChainsWritten s → tokenStep s = .ok t →
    Appended s t (tokenFields s (chosenToken s)) ∧
    t = { afterToken s (chosenToken s) with mem := t.mem, outPos := t.outPos, bitBuf := t.bitBuf, bitCnt := t.bitCnt }

/-! ### Every command, every step -/

/-- The pre-checks of R365 decide how a command the engine takes can end: where one fails, it faults, not with
OUT_OVERFLOW, and changes nothing but STATUS and FAULT_INFO (R12, R363); where all hold, it completes, or raises
OUT_OVERFLOW if it is one of the commands that write output. -/
def Obligations.PreChecksDecide : Prop :=
  ∀ (i : Instr) (s : State), s.ready = true → StatusLegal s →
    (passesPreChecks i s = false →
      ∃ c info, c ≠ .none ∧ c ≠ .outOverflow ∧ exec i s = .next (faulted c info s)) ∧
    (passesPreChecks i s = true → WriterLegal s → P_params s →
      ∃ t, exec i s = .next t ∧ (t.status = { busy := false, done := true, fault := false, cause := .none } ∨
        (t.status = faultStatus .outOverflow ∧ writesOutput i = true)))

/-- A decode or pre-check fault, that is every fault but OUT_OVERFLOW, changes nothing but STATUS and FAULT_INFO
(R363). -/
def Obligations.PreCheckFaultKeepsEverything : Prop :=
  ∀ (i : Instr) (s t : State), s.ready = true → exec i s = .next t → t.status.fault = true →
    t.status.cause ≠ .outOverflow → t = faulted t.status.cause t.faultInfo s

/-- What OUT_OVERFLOW leaves unchanged: every register and byte R364 does not name (R38). Of a COMPRESS that overflows R364
keeps the output bytes below the OUTPOS at acceptance, as of every other command (log entry 6). -/
def Obligations.OverflowLeavesTheRest : Prop :=
  ∀ (i : Instr) (s t : State), s.ready = true → exec i s = .next t → t.status.cause = .outOverflow →
    t.status.fault = true →
    writesOutput i = true ∧ Overflowed t.faultInfo s t

/-- A command changes no byte of host memory outside the output region, and none at all unless it is one of the
commands of R82 (R82, R85, R364). -/
def Obligations.OnlyTheOutputRegionIsWritten : Prop :=
  ∀ (i : Instr) (s t : State) (a : Nat), exec i s = .next t → memByte t.mem a ≠ memByte s.mem a →
    writesOutput i = true ∧ regionsOk s = true ∧ s.outBase.toNat + outputStart i s ≤ a ∧ InOutput s a

/-- No command writes CTRL, an ARG register or a region register (R37, R396), or the chip's parameters. -/
def Obligations.CommandsKeepHostRegisters : Prop := ∀ (i : Instr) (s t : State), exec i s = .next t → HostOwned s t

/-- No command and no step ends in a model fault or a refusal, in any state. The engine has no move that reads outside the
input region or reaches an address that does not exist (R80, R396), and the model's stops for one are never reached (log
entry 14). A read of a PREV entry nothing has written, for which R50 names a model fault first, draws a value instead (log
entry 4). -/
def Obligations.NothingStops : Prop := (∀ (i : Instr) (s : State), GoesOn (exec i s)) ∧ ∀ s : State, GoesOn (step s)

/-- Every step keeps the canonical form of memory and tables (the model's own, log entry 20), the sizes of the tables, a
STATUS of R34, and, but for the state an OUT_OVERFLOW leaves open (R364; log entry 5), the bounds of RLE_ITEM and RLE_COUNT
(R54, R55) and of the accumulator (R42, R43, R145). -/
def Obligations.StepKeepsInv : Prop := ∀ s t : State, Inv s → step s = .next t → Inv t

/-- The invariant holds at reset (R391). -/
def Obligations.InvAtReset : Prop := Inv State.reset
end

