-- ==== Sys2Proof/Laws/Cells.lean ====
section
/-! SUPPORT. The laws of tables and memory: a read after a write, and the canonical form every operation keeps. -/

namespace Sys2Proof.Laws

open Sys2Proof.Machine

variable {α : Type}

@[simp] theorem Cells.find_nil (i : Nat) : Cells.find ([] : Cells α) i = none := rfl

theorem Cells.find_cons (k : Nat) (x : α) (rest : Cells α) (i : Nat) :
    Cells.find ((k, x) :: rest) i = if k = i then some x else Cells.find rest i := rfl

@[simp] theorem Cells.get_nil (dflt : α) (i : Nat) : Cells.get dflt [] i = dflt := rfl

theorem Cells.find_drop (m : Cells α) (i j : Nat) :
    Cells.find (Cells.drop m i) j = if i = j then none else Cells.find m j := by
  induction m with
  | nil => simp [Cells.drop]
  | cons x rest ih =>
    obtain ⟨k, v⟩ := x
    simp only [Cells.drop, List.filter_cons, Cells.find_cons] at ih ⊢
    by_cases hk : k = i <;> by_cases hj : i = j <;> simp_all [Cells.find_cons]

theorem Cells.find_insert (m : Cells α) (i j : Nat) (v : α) (h : Cells.find m i = none) :
    Cells.find (Cells.insert i v m) j = if i = j then some v else Cells.find m j := by
  induction m with
  | nil => simp [Cells.insert, Cells.find_cons]
  | cons x rest ih =>
    obtain ⟨k, y⟩ := x
    simp only [Cells.find_cons] at h
    split at h
    · cases h
    · rename_i hk
      by_cases hlt : i < k
      · simp [Cells.insert, hlt, Cells.find_cons]
      · simp only [Cells.insert, hlt, if_false, Cells.find_cons, ih h]
        by_cases hj : k = j <;> by_cases hi : i = j <;> simp_all

/-- A read after a write with a written bit gives the value written, and every other index is as before. -/
theorem Cells.find_put (m : Cells α) (i j : Nat) (v : α) :
    Cells.find (Cells.put m i v) j = if i = j then some v else Cells.find m j := by
  rw [Cells.put, Cells.find_insert _ _ _ _ (by simp [Cells.find_drop]), Cells.find_drop]
  by_cases h : i = j <;> simp [h]

/-- A read after a write gives the value written, and every other index is as before. -/
theorem Cells.get_set [DecidableEq α] (dflt : α) (m : Cells α) (i j : Nat) (v : α) :
    Cells.get dflt (Cells.set dflt m i v) j = if i = j then v else Cells.get dflt m j := by
  unfold Cells.set Cells.get
  split
  · rw [Cells.find_drop]; by_cases h : i = j <;> simp_all
  · rw [Cells.find_put]; by_cases h : i = j <;> simp_all

@[simp] theorem Cells.get_set_same [DecidableEq α] (dflt : α) (m : Cells α) (i : Nat) (v : α) :
    Cells.get dflt (Cells.set dflt m i v) i = v := by simp [Cells.get_set]

theorem Cells.get_set_other [DecidableEq α] (dflt : α) (m : Cells α) {i j : Nat} (h : i ≠ j) (v : α) :
    Cells.get dflt (Cells.set dflt m i v) j = Cells.get dflt m j := by simp [Cells.get_set, h]

theorem Cells.find_filter_range [DecidableEq α] (dflt : α) (f : Nat → α) (n i : Nat) (xs : List Nat)
    (h : i ∈ xs ↔ i < n) :
    (Cells.find ((xs.map (fun j => (j, f j))).filter (fun x => x.2 ≠ dflt)) i).getD dflt =
      if i < n then f i else dflt := by
  have key : ∀ ys : List Nat,
      (Cells.find ((ys.map (fun j => (j, f j))).filter (fun x => x.2 ≠ dflt)) i).getD dflt =
        if i ∈ ys then f i else dflt := by
    intro ys
    induction ys with
    | nil => simp
    | cons y ys ih =>
      by_cases hy : f y = dflt
      · by_cases hi : i = y
        · subst hi; simp_all
        · simp_all
      · by_cases hi : y = i
        · subst hi; simp [hy, Cells.find_cons]
        · simp_all [Cells.find_cons, Ne.symm hi]
  rw [key]; simp only [h]

/-- Every entry of a tabulated table is the function's value, and there is none past its end. -/
theorem Cells.get_tabulate [DecidableEq α] (dflt : α) (n : Nat) (f : Nat → α) (i : Nat) :
    Cells.get dflt (Cells.tabulate dflt n f) i = if i < n then f i else dflt :=
  Cells.find_filter_range dflt f n i (List.range n) List.mem_range

theorem Cells.get_ofNats {w : Nat} (n : Nat) (xs : List Nat) (i : Nat) :
    Cells.get (0 : BitVec w) (Cells.ofNats n xs) i = if i < n then BitVec.ofNat w (xs.getD i 0) else 0 :=
  Cells.get_tabulate _ _ _ _

/-! ### The canonical form -/

theorem Cells.mem_drop {m : Cells α} {i : Nat} {x : Nat × α} : x ∈ Cells.drop m i ↔ x ∈ m ∧ x.1 ≠ i := by
  simp [Cells.drop]

theorem Cells.mem_insert {m : Cells α} {i : Nat} {v : α} {x : Nat × α} :
    x ∈ Cells.insert i v m ↔ x = (i, v) ∨ x ∈ m := by
  induction m with
  | nil => simp [Cells.insert]
  | cons y rest ih =>
    obtain ⟨k, z⟩ := y
    by_cases h : i < k
    · simp [Cells.insert, h]
    · simp only [Cells.insert, h, if_false, List.mem_cons, ih]; tauto

theorem Cells.pairwise_drop {m : Cells α} (i : Nat) (h : m.Pairwise (fun x y => x.1 < y.1)) :
    (Cells.drop m i).Pairwise (fun x y => x.1 < y.1) := h.filter _

theorem Cells.pairwise_insert {m : Cells α} (i : Nat) (v : α) (h : m.Pairwise (fun x y => x.1 < y.1))
    (hi : ∀ x ∈ m, x.1 ≠ i) : (Cells.insert i v m).Pairwise (fun x y => x.1 < y.1) := by
  induction m with
  | nil => simp [Cells.insert]
  | cons y rest ih =>
    obtain ⟨k, z⟩ := y
    rw [List.pairwise_cons] at h
    have hk : k ≠ i := hi (k, z) (by simp)
    by_cases hlt : i < k
    · simp only [Cells.insert, hlt, if_true, List.pairwise_cons, List.mem_cons]
      refine ⟨?_, h⟩
      rintro x (rfl | hx)
      · exact hlt
      · exact hlt.trans (h.1 x hx)
    · simp only [Cells.insert, hlt, if_false, List.pairwise_cons]
      refine ⟨fun x hx => ?_, ih h.2 (fun x hx => hi x (by simp [hx]))⟩
      rcases Cells.mem_insert.mp hx with rfl | hx
      · simp only; omega
      · exact h.1 x hx

theorem Cells.wfSet_put {size : Nat} {m : Cells α} {i : Nat} (v : α) (h : Cells.wfSet size m) (hi : i < size) :
    Cells.wfSet size (Cells.put m i v) := by
  refine ⟨Cells.pairwise_insert _ _ (Cells.pairwise_drop i h.1) (fun x hx => (Cells.mem_drop.mp hx).2), ?_⟩
  intro x hx
  rcases Cells.mem_insert.mp hx with rfl | hx
  · exact hi
  · exact h.2 x (Cells.mem_drop.mp hx).1

/-- A write within the size keeps the canonical form. -/
theorem Cells.wf_set [DecidableEq α] {size : Nat} {dflt : α} {m : Cells α} {i : Nat} (v : α)
    (h : Cells.wf size dflt m) (hi : i < size) : Cells.wf size dflt (Cells.set dflt m i v) := by
  unfold Cells.set
  split
  · exact ⟨Cells.pairwise_drop i h.1, fun x hx => h.2 x (Cells.mem_drop.mp hx).1⟩
  · rename_i hv
    have hp := Cells.wfSet_put v ⟨h.1, fun x hx => (h.2 x hx).1⟩ hi
    refine ⟨hp.1, fun x hx => ⟨hp.2 x hx, ?_⟩⟩
    rcases Cells.mem_insert.mp hx with rfl | hx
    · exact hv
    · exact (h.2 x (Cells.mem_drop.mp hx).1).2

theorem Cells.wf_tabulate [DecidableEq α] (dflt : α) (n : Nat) (f : Nat → α) :
    Cells.wf n dflt (Cells.tabulate dflt n f) := by
  constructor
  · refine List.Pairwise.filter _ ?_
    rw [List.pairwise_map]
    exact List.pairwise_lt_range
  · intro x hx
    simp only [Cells.tabulate, List.mem_filter, List.mem_map, List.mem_range] at hx
    obtain ⟨⟨i, hi, rfl⟩, hv⟩ := hx
    exact ⟨hi, by simpa using hv⟩

theorem Cells.wf_ofNats {w : Nat} (n : Nat) (xs : List Nat) :
    Cells.wf n (0 : BitVec w) (Cells.ofNats n xs) := Cells.wf_tabulate _ _ _

@[simp] theorem Cells.wf_nil (size : Nat) (dflt : α) : Cells.wf size dflt ([] : Cells α) :=
  ⟨List.Pairwise.nil, fun _ h => nomatch h⟩

/-- Two canonical tables with the same entries are the same list. -/
theorem Cells.eq_of_find {m m' : Cells α} (h : m.Pairwise (fun x y => x.1 < y.1))
    (h' : m'.Pairwise (fun x y => x.1 < y.1)) (e : ∀ i, Cells.find m i = Cells.find m' i) : m = m' := by
  have none_of_lt : ∀ (l : Cells α) (j : Nat), (∀ x ∈ l, j < x.1) → Cells.find l j = none := by
    intro l j hl
    induction l with
    | nil => rfl
    | cons x r ih =>
      obtain ⟨k, v⟩ := x
      have := hl (k, v) (by simp)
      rw [Cells.find_cons, if_neg (by simp only at this; omega), ih (fun x hx => hl x (by simp [hx]))]
  induction m generalizing m' with
  | nil =>
    cases m' with
    | nil => rfl
    | cons y r' => obtain ⟨k, v⟩ := y; have := e k; simp [Cells.find_cons] at this
  | cons x r ih =>
    obtain ⟨k, v⟩ := x
    cases m' with
    | nil => have := e k; simp [Cells.find_cons] at this
    | cons y r' =>
      obtain ⟨k', v'⟩ := y
      rw [List.pairwise_cons] at h h'
      have ek := e k
      have ek' := e k'
      simp only [Cells.find_cons, if_true] at ek ek'
      have hkk : k = k' := by
        by_contra hne
        rw [if_neg (Ne.symm hne)] at ek
        rw [if_neg hne] at ek'
        rcases Nat.lt_or_gt_of_ne hne with hlt | hgt
        · rw [none_of_lt r' k (fun z hz => hlt.trans (h'.1 z hz))] at ek; cases ek
        · rw [none_of_lt r k' (fun z hz => lt_trans hgt (h.1 z hz))] at ek'; cases ek'
      subst hkk
      simp only [if_true, Option.some.injEq] at ek
      subst ek
      congr 1
      refine ih h.2 h'.2 (fun i => ?_)
      have := e i
      simp only [Cells.find_cons] at this
      by_cases hi : k = i
      · subst hi
        rw [none_of_lt r k h.1, none_of_lt r' k h'.1]
      · simpa [hi] using this

/-! ### Host memory -/

/-- A stored byte reads back, and every other byte is as before. -/
theorem memByte_storeByte (m : Memory) (a b : Nat) (v : Byte) :
    memByte (storeByte m a v) b = if a = b then v else memByte m b := Cells.get_set _ _ _ _ _

/-- A store at an existing address keeps memory canonical. -/
theorem Memory.wf_storeByte {m : Memory} {a : Nat} (v : Byte) (h : Memory.wf m) (ha : a < Config.memSize) :
    Memory.wf (storeByte m a v) := Cells.wf_set v h ha

theorem Memory.wf_drawOutput (k : Nat) (base : Word) (start n : Nat) (m : Memory) (h : Memory.wf m) :
    Memory.wf (drawOutput k base start n m) := by
  induction n generalizing m with
  | zero => exact h
  | succ n ih => exact ih _ (Memory.wf_storeByte _ h (base + word (start + n)).isLt)

theorem Memory.wf_reset : Memory.wf State.reset.mem := Cells.wf_nil _ _

end Sys2Proof.Laws
end

