-- ==== Sys2Proof/Laws/State.lean ====
section
/-! SUPPORT. What each named update of the state does to each field, one lemma per field per update, so that no
proof unfolds a record update. -/

namespace Sys2Proof.Laws

open Sys2Proof.Machine

variable (s : State)

/-! ### accept -/

@[simp] theorem accept_status : (accept s).status = { s.status with busy := true, done := false } := rfl
@[simp] theorem accept_ie : (accept s).ie = s.ie := rfl
@[simp] theorem accept_faultInfo : (accept s).faultInfo = s.faultInfo := rfl
@[simp] theorem accept_arg0 : (accept s).arg0 = s.arg0 := rfl
@[simp] theorem accept_arg1 : (accept s).arg1 = s.arg1 := rfl
@[simp] theorem accept_arg2 : (accept s).arg2 = s.arg2 := rfl
@[simp] theorem accept_res0 : (accept s).res0 = s.res0 := rfl
@[simp] theorem accept_res1 : (accept s).res1 = s.res1 := rfl
@[simp] theorem accept_inBase : (accept s).inBase = s.inBase := rfl
@[simp] theorem accept_inLen : (accept s).inLen = s.inLen := rfl
@[simp] theorem accept_outBase : (accept s).outBase = s.outBase := rfl
@[simp] theorem accept_outCap : (accept s).outCap = s.outCap := rfl
@[simp] theorem accept_outPos : (accept s).outPos = s.outPos := rfl
@[simp] theorem accept_bitBuf : (accept s).bitBuf = s.bitBuf := rfl
@[simp] theorem accept_bitCnt : (accept s).bitCnt = s.bitCnt := rfl
@[simp] theorem accept_adler : (accept s).adler = s.adler := rfl
@[simp] theorem accept_head : (accept s).head = s.head := rfl
@[simp] theorem accept_prev : (accept s).prev = s.prev := rfl
@[simp] theorem accept_freqLit : (accept s).freqLit = s.freqLit := rfl
@[simp] theorem accept_freqDist : (accept s).freqDist = s.freqDist := rfl
@[simp] theorem accept_freqPre : (accept s).freqPre = s.freqPre := rfl
@[simp] theorem accept_lenLit : (accept s).lenLit = s.lenLit := rfl
@[simp] theorem accept_lenDist : (accept s).lenDist = s.lenDist := rfl
@[simp] theorem accept_lenPre : (accept s).lenPre = s.lenPre := rfl
@[simp] theorem accept_codeLit : (accept s).codeLit = s.codeLit := rfl
@[simp] theorem accept_codeDist : (accept s).codeDist = s.codeDist := rfl
@[simp] theorem accept_codePre : (accept s).codePre = s.codePre := rfl
@[simp] theorem accept_rleItem : (accept s).rleItem = s.rleItem := rfl
@[simp] theorem accept_rleCount : (accept s).rleCount = s.rleCount := rfl
@[simp] theorem accept_driver : (accept s).driver = s.driver := rfl
@[simp] theorem accept_rst : (accept s).rst = s.rst := rfl
@[simp] theorem accept_mem : (accept s).mem = s.mem := rfl
@[simp] theorem accept_params : (accept s).params = s.params := rfl
@[simp] theorem accept_bus : (accept s).bus = s.bus := rfl
@[simp] theorem accept_hostData : (accept s).hostData = s.hostData := rfl
@[simp] theorem accept_draws : (accept s).draws = s.draws := rfl

/-! ### complete -/

@[simp] theorem complete_status : (complete s).status = { s.status with busy := false, done := true } := rfl
@[simp] theorem complete_ie : (complete s).ie = s.ie := rfl
@[simp] theorem complete_faultInfo : (complete s).faultInfo = s.faultInfo := rfl
@[simp] theorem complete_arg0 : (complete s).arg0 = s.arg0 := rfl
@[simp] theorem complete_arg1 : (complete s).arg1 = s.arg1 := rfl
@[simp] theorem complete_arg2 : (complete s).arg2 = s.arg2 := rfl
@[simp] theorem complete_res0 : (complete s).res0 = s.res0 := rfl
@[simp] theorem complete_res1 : (complete s).res1 = s.res1 := rfl
@[simp] theorem complete_inBase : (complete s).inBase = s.inBase := rfl
@[simp] theorem complete_inLen : (complete s).inLen = s.inLen := rfl
@[simp] theorem complete_outBase : (complete s).outBase = s.outBase := rfl
@[simp] theorem complete_outCap : (complete s).outCap = s.outCap := rfl
@[simp] theorem complete_outPos : (complete s).outPos = s.outPos := rfl
@[simp] theorem complete_bitBuf : (complete s).bitBuf = s.bitBuf := rfl
@[simp] theorem complete_bitCnt : (complete s).bitCnt = s.bitCnt := rfl
@[simp] theorem complete_adler : (complete s).adler = s.adler := rfl
@[simp] theorem complete_head : (complete s).head = s.head := rfl
@[simp] theorem complete_prev : (complete s).prev = s.prev := rfl
@[simp] theorem complete_freqLit : (complete s).freqLit = s.freqLit := rfl
@[simp] theorem complete_freqDist : (complete s).freqDist = s.freqDist := rfl
@[simp] theorem complete_freqPre : (complete s).freqPre = s.freqPre := rfl
@[simp] theorem complete_lenLit : (complete s).lenLit = s.lenLit := rfl
@[simp] theorem complete_lenDist : (complete s).lenDist = s.lenDist := rfl
@[simp] theorem complete_lenPre : (complete s).lenPre = s.lenPre := rfl
@[simp] theorem complete_codeLit : (complete s).codeLit = s.codeLit := rfl
@[simp] theorem complete_codeDist : (complete s).codeDist = s.codeDist := rfl
@[simp] theorem complete_codePre : (complete s).codePre = s.codePre := rfl
@[simp] theorem complete_rleItem : (complete s).rleItem = s.rleItem := rfl
@[simp] theorem complete_rleCount : (complete s).rleCount = s.rleCount := rfl
@[simp] theorem complete_driver : (complete s).driver = s.driver := rfl
@[simp] theorem complete_rst : (complete s).rst = s.rst := rfl
@[simp] theorem complete_mem : (complete s).mem = s.mem := rfl
@[simp] theorem complete_params : (complete s).params = s.params := rfl
@[simp] theorem complete_bus : (complete s).bus = s.bus := rfl
@[simp] theorem complete_hostData : (complete s).hostData = s.hostData := rfl
@[simp] theorem complete_draws : (complete s).draws = s.draws := rfl

/-! ### takeFault -/

@[simp] theorem takeFault_status (c : Cause) (info : Word) : (takeFault c info s).status = { busy := false, done := false, fault := true, cause := c } := rfl
@[simp] theorem takeFault_ie (c : Cause) (info : Word) : (takeFault c info s).ie = s.ie := rfl
@[simp] theorem takeFault_faultInfo (c : Cause) (info : Word) : (takeFault c info s).faultInfo = info := rfl
@[simp] theorem takeFault_arg0 (c : Cause) (info : Word) : (takeFault c info s).arg0 = s.arg0 := rfl
@[simp] theorem takeFault_arg1 (c : Cause) (info : Word) : (takeFault c info s).arg1 = s.arg1 := rfl
@[simp] theorem takeFault_arg2 (c : Cause) (info : Word) : (takeFault c info s).arg2 = s.arg2 := rfl
@[simp] theorem takeFault_res0 (c : Cause) (info : Word) : (takeFault c info s).res0 = s.res0 := rfl
@[simp] theorem takeFault_res1 (c : Cause) (info : Word) : (takeFault c info s).res1 = s.res1 := rfl
@[simp] theorem takeFault_inBase (c : Cause) (info : Word) : (takeFault c info s).inBase = s.inBase := rfl
@[simp] theorem takeFault_inLen (c : Cause) (info : Word) : (takeFault c info s).inLen = s.inLen := rfl
@[simp] theorem takeFault_outBase (c : Cause) (info : Word) : (takeFault c info s).outBase = s.outBase := rfl
@[simp] theorem takeFault_outCap (c : Cause) (info : Word) : (takeFault c info s).outCap = s.outCap := rfl
@[simp] theorem takeFault_outPos (c : Cause) (info : Word) : (takeFault c info s).outPos = s.outPos := rfl
@[simp] theorem takeFault_bitBuf (c : Cause) (info : Word) : (takeFault c info s).bitBuf = s.bitBuf := rfl
@[simp] theorem takeFault_bitCnt (c : Cause) (info : Word) : (takeFault c info s).bitCnt = s.bitCnt := rfl
@[simp] theorem takeFault_adler (c : Cause) (info : Word) : (takeFault c info s).adler = s.adler := rfl
@[simp] theorem takeFault_head (c : Cause) (info : Word) : (takeFault c info s).head = s.head := rfl
@[simp] theorem takeFault_prev (c : Cause) (info : Word) : (takeFault c info s).prev = s.prev := rfl
@[simp] theorem takeFault_freqLit (c : Cause) (info : Word) : (takeFault c info s).freqLit = s.freqLit := rfl
@[simp] theorem takeFault_freqDist (c : Cause) (info : Word) : (takeFault c info s).freqDist = s.freqDist := rfl
@[simp] theorem takeFault_freqPre (c : Cause) (info : Word) : (takeFault c info s).freqPre = s.freqPre := rfl
@[simp] theorem takeFault_lenLit (c : Cause) (info : Word) : (takeFault c info s).lenLit = s.lenLit := rfl
@[simp] theorem takeFault_lenDist (c : Cause) (info : Word) : (takeFault c info s).lenDist = s.lenDist := rfl
@[simp] theorem takeFault_lenPre (c : Cause) (info : Word) : (takeFault c info s).lenPre = s.lenPre := rfl
@[simp] theorem takeFault_codeLit (c : Cause) (info : Word) : (takeFault c info s).codeLit = s.codeLit := rfl
@[simp] theorem takeFault_codeDist (c : Cause) (info : Word) : (takeFault c info s).codeDist = s.codeDist := rfl
@[simp] theorem takeFault_codePre (c : Cause) (info : Word) : (takeFault c info s).codePre = s.codePre := rfl
@[simp] theorem takeFault_rleItem (c : Cause) (info : Word) : (takeFault c info s).rleItem = s.rleItem := rfl
@[simp] theorem takeFault_rleCount (c : Cause) (info : Word) : (takeFault c info s).rleCount = s.rleCount := rfl
@[simp] theorem takeFault_driver (c : Cause) (info : Word) : (takeFault c info s).driver = s.driver := rfl
@[simp] theorem takeFault_rst (c : Cause) (info : Word) : (takeFault c info s).rst = s.rst := rfl
@[simp] theorem takeFault_mem (c : Cause) (info : Word) : (takeFault c info s).mem = s.mem := rfl
@[simp] theorem takeFault_params (c : Cause) (info : Word) : (takeFault c info s).params = s.params := rfl
@[simp] theorem takeFault_bus (c : Cause) (info : Word) : (takeFault c info s).bus = s.bus := rfl
@[simp] theorem takeFault_hostData (c : Cause) (info : Word) : (takeFault c info s).hostData = s.hostData := rfl
@[simp] theorem takeFault_draws (c : Cause) (info : Word) : (takeFault c info s).draws = s.draws := rfl

/-! ### clearFault -/

@[simp] theorem clearFault_status : (clearFault s).status = { s.status with fault := false, cause := .none } := rfl
@[simp] theorem clearFault_ie : (clearFault s).ie = s.ie := rfl
@[simp] theorem clearFault_faultInfo : (clearFault s).faultInfo = 0 := rfl
@[simp] theorem clearFault_arg0 : (clearFault s).arg0 = s.arg0 := rfl
@[simp] theorem clearFault_arg1 : (clearFault s).arg1 = s.arg1 := rfl
@[simp] theorem clearFault_arg2 : (clearFault s).arg2 = s.arg2 := rfl
@[simp] theorem clearFault_res0 : (clearFault s).res0 = s.res0 := rfl
@[simp] theorem clearFault_res1 : (clearFault s).res1 = s.res1 := rfl
@[simp] theorem clearFault_inBase : (clearFault s).inBase = s.inBase := rfl
@[simp] theorem clearFault_inLen : (clearFault s).inLen = s.inLen := rfl
@[simp] theorem clearFault_outBase : (clearFault s).outBase = s.outBase := rfl
@[simp] theorem clearFault_outCap : (clearFault s).outCap = s.outCap := rfl
@[simp] theorem clearFault_outPos : (clearFault s).outPos = s.outPos := rfl
@[simp] theorem clearFault_bitBuf : (clearFault s).bitBuf = s.bitBuf := rfl
@[simp] theorem clearFault_bitCnt : (clearFault s).bitCnt = s.bitCnt := rfl
@[simp] theorem clearFault_adler : (clearFault s).adler = s.adler := rfl
@[simp] theorem clearFault_head : (clearFault s).head = s.head := rfl
@[simp] theorem clearFault_prev : (clearFault s).prev = s.prev := rfl
@[simp] theorem clearFault_freqLit : (clearFault s).freqLit = s.freqLit := rfl
@[simp] theorem clearFault_freqDist : (clearFault s).freqDist = s.freqDist := rfl
@[simp] theorem clearFault_freqPre : (clearFault s).freqPre = s.freqPre := rfl
@[simp] theorem clearFault_lenLit : (clearFault s).lenLit = s.lenLit := rfl
@[simp] theorem clearFault_lenDist : (clearFault s).lenDist = s.lenDist := rfl
@[simp] theorem clearFault_lenPre : (clearFault s).lenPre = s.lenPre := rfl
@[simp] theorem clearFault_codeLit : (clearFault s).codeLit = s.codeLit := rfl
@[simp] theorem clearFault_codeDist : (clearFault s).codeDist = s.codeDist := rfl
@[simp] theorem clearFault_codePre : (clearFault s).codePre = s.codePre := rfl
@[simp] theorem clearFault_rleItem : (clearFault s).rleItem = s.rleItem := rfl
@[simp] theorem clearFault_rleCount : (clearFault s).rleCount = s.rleCount := rfl
@[simp] theorem clearFault_driver : (clearFault s).driver = s.driver := rfl
@[simp] theorem clearFault_rst : (clearFault s).rst = s.rst := rfl
@[simp] theorem clearFault_mem : (clearFault s).mem = s.mem := rfl
@[simp] theorem clearFault_params : (clearFault s).params = s.params := rfl
@[simp] theorem clearFault_bus : (clearFault s).bus = s.bus := rfl
@[simp] theorem clearFault_hostData : (clearFault s).hostData = s.hostData := rfl
@[simp] theorem clearFault_draws : (clearFault s).draws = s.draws := rfl

/-! ### resetWriter -/

@[simp] theorem resetWriter_status : (resetWriter s).status = s.status := rfl
@[simp] theorem resetWriter_ie : (resetWriter s).ie = s.ie := rfl
@[simp] theorem resetWriter_faultInfo : (resetWriter s).faultInfo = s.faultInfo := rfl
@[simp] theorem resetWriter_arg0 : (resetWriter s).arg0 = s.arg0 := rfl
@[simp] theorem resetWriter_arg1 : (resetWriter s).arg1 = s.arg1 := rfl
@[simp] theorem resetWriter_arg2 : (resetWriter s).arg2 = s.arg2 := rfl
@[simp] theorem resetWriter_res0 : (resetWriter s).res0 = s.res0 := rfl
@[simp] theorem resetWriter_res1 : (resetWriter s).res1 = s.res1 := rfl
@[simp] theorem resetWriter_inBase : (resetWriter s).inBase = s.inBase := rfl
@[simp] theorem resetWriter_inLen : (resetWriter s).inLen = s.inLen := rfl
@[simp] theorem resetWriter_outBase : (resetWriter s).outBase = s.outBase := rfl
@[simp] theorem resetWriter_outCap : (resetWriter s).outCap = s.outCap := rfl
@[simp] theorem resetWriter_outPos : (resetWriter s).outPos = 0 := rfl
@[simp] theorem resetWriter_bitBuf : (resetWriter s).bitBuf = 0 := rfl
@[simp] theorem resetWriter_bitCnt : (resetWriter s).bitCnt = 0 := rfl
@[simp] theorem resetWriter_adler : (resetWriter s).adler = s.adler := rfl
@[simp] theorem resetWriter_head : (resetWriter s).head = s.head := rfl
@[simp] theorem resetWriter_prev : (resetWriter s).prev = s.prev := rfl
@[simp] theorem resetWriter_freqLit : (resetWriter s).freqLit = s.freqLit := rfl
@[simp] theorem resetWriter_freqDist : (resetWriter s).freqDist = s.freqDist := rfl
@[simp] theorem resetWriter_freqPre : (resetWriter s).freqPre = s.freqPre := rfl
@[simp] theorem resetWriter_lenLit : (resetWriter s).lenLit = s.lenLit := rfl
@[simp] theorem resetWriter_lenDist : (resetWriter s).lenDist = s.lenDist := rfl
@[simp] theorem resetWriter_lenPre : (resetWriter s).lenPre = s.lenPre := rfl
@[simp] theorem resetWriter_codeLit : (resetWriter s).codeLit = s.codeLit := rfl
@[simp] theorem resetWriter_codeDist : (resetWriter s).codeDist = s.codeDist := rfl
@[simp] theorem resetWriter_codePre : (resetWriter s).codePre = s.codePre := rfl
@[simp] theorem resetWriter_rleItem : (resetWriter s).rleItem = s.rleItem := rfl
@[simp] theorem resetWriter_rleCount : (resetWriter s).rleCount = s.rleCount := rfl
@[simp] theorem resetWriter_driver : (resetWriter s).driver = s.driver := rfl
@[simp] theorem resetWriter_rst : (resetWriter s).rst = s.rst := rfl
@[simp] theorem resetWriter_mem : (resetWriter s).mem = s.mem := rfl
@[simp] theorem resetWriter_params : (resetWriter s).params = s.params := rfl
@[simp] theorem resetWriter_bus : (resetWriter s).bus = s.bus := rfl
@[simp] theorem resetWriter_hostData : (resetWriter s).hostData = s.hostData := rfl
@[simp] theorem resetWriter_draws : (resetWriter s).draws = s.draws := rfl

/-! ### resetHead -/

@[simp] theorem resetHead_status : (resetHead s).status = s.status := rfl
@[simp] theorem resetHead_ie : (resetHead s).ie = s.ie := rfl
@[simp] theorem resetHead_faultInfo : (resetHead s).faultInfo = s.faultInfo := rfl
@[simp] theorem resetHead_arg0 : (resetHead s).arg0 = s.arg0 := rfl
@[simp] theorem resetHead_arg1 : (resetHead s).arg1 = s.arg1 := rfl
@[simp] theorem resetHead_arg2 : (resetHead s).arg2 = s.arg2 := rfl
@[simp] theorem resetHead_res0 : (resetHead s).res0 = s.res0 := rfl
@[simp] theorem resetHead_res1 : (resetHead s).res1 = s.res1 := rfl
@[simp] theorem resetHead_inBase : (resetHead s).inBase = s.inBase := rfl
@[simp] theorem resetHead_inLen : (resetHead s).inLen = s.inLen := rfl
@[simp] theorem resetHead_outBase : (resetHead s).outBase = s.outBase := rfl
@[simp] theorem resetHead_outCap : (resetHead s).outCap = s.outCap := rfl
@[simp] theorem resetHead_outPos : (resetHead s).outPos = s.outPos := rfl
@[simp] theorem resetHead_bitBuf : (resetHead s).bitBuf = s.bitBuf := rfl
@[simp] theorem resetHead_bitCnt : (resetHead s).bitCnt = s.bitCnt := rfl
@[simp] theorem resetHead_adler : (resetHead s).adler = s.adler := rfl
@[simp] theorem resetHead_head : (resetHead s).head = [] := rfl
@[simp] theorem resetHead_prev : (resetHead s).prev = s.prev := rfl
@[simp] theorem resetHead_freqLit : (resetHead s).freqLit = s.freqLit := rfl
@[simp] theorem resetHead_freqDist : (resetHead s).freqDist = s.freqDist := rfl
@[simp] theorem resetHead_freqPre : (resetHead s).freqPre = s.freqPre := rfl
@[simp] theorem resetHead_lenLit : (resetHead s).lenLit = s.lenLit := rfl
@[simp] theorem resetHead_lenDist : (resetHead s).lenDist = s.lenDist := rfl
@[simp] theorem resetHead_lenPre : (resetHead s).lenPre = s.lenPre := rfl
@[simp] theorem resetHead_codeLit : (resetHead s).codeLit = s.codeLit := rfl
@[simp] theorem resetHead_codeDist : (resetHead s).codeDist = s.codeDist := rfl
@[simp] theorem resetHead_codePre : (resetHead s).codePre = s.codePre := rfl
@[simp] theorem resetHead_rleItem : (resetHead s).rleItem = s.rleItem := rfl
@[simp] theorem resetHead_rleCount : (resetHead s).rleCount = s.rleCount := rfl
@[simp] theorem resetHead_driver : (resetHead s).driver = s.driver := rfl
@[simp] theorem resetHead_rst : (resetHead s).rst = s.rst := rfl
@[simp] theorem resetHead_mem : (resetHead s).mem = s.mem := rfl
@[simp] theorem resetHead_params : (resetHead s).params = s.params := rfl
@[simp] theorem resetHead_bus : (resetHead s).bus = s.bus := rfl
@[simp] theorem resetHead_hostData : (resetHead s).hostData = s.hostData := rfl
@[simp] theorem resetHead_draws : (resetHead s).draws = s.draws := rfl

/-! ### clearFreqs -/

@[simp] theorem clearFreqs_status : (clearFreqs s).status = s.status := rfl
@[simp] theorem clearFreqs_ie : (clearFreqs s).ie = s.ie := rfl
@[simp] theorem clearFreqs_faultInfo : (clearFreqs s).faultInfo = s.faultInfo := rfl
@[simp] theorem clearFreqs_arg0 : (clearFreqs s).arg0 = s.arg0 := rfl
@[simp] theorem clearFreqs_arg1 : (clearFreqs s).arg1 = s.arg1 := rfl
@[simp] theorem clearFreqs_arg2 : (clearFreqs s).arg2 = s.arg2 := rfl
@[simp] theorem clearFreqs_res0 : (clearFreqs s).res0 = s.res0 := rfl
@[simp] theorem clearFreqs_res1 : (clearFreqs s).res1 = s.res1 := rfl
@[simp] theorem clearFreqs_inBase : (clearFreqs s).inBase = s.inBase := rfl
@[simp] theorem clearFreqs_inLen : (clearFreqs s).inLen = s.inLen := rfl
@[simp] theorem clearFreqs_outBase : (clearFreqs s).outBase = s.outBase := rfl
@[simp] theorem clearFreqs_outCap : (clearFreqs s).outCap = s.outCap := rfl
@[simp] theorem clearFreqs_outPos : (clearFreqs s).outPos = s.outPos := rfl
@[simp] theorem clearFreqs_bitBuf : (clearFreqs s).bitBuf = s.bitBuf := rfl
@[simp] theorem clearFreqs_bitCnt : (clearFreqs s).bitCnt = s.bitCnt := rfl
@[simp] theorem clearFreqs_adler : (clearFreqs s).adler = s.adler := rfl
@[simp] theorem clearFreqs_head : (clearFreqs s).head = s.head := rfl
@[simp] theorem clearFreqs_prev : (clearFreqs s).prev = s.prev := rfl
@[simp] theorem clearFreqs_freqLit : (clearFreqs s).freqLit = [] := rfl
@[simp] theorem clearFreqs_freqDist : (clearFreqs s).freqDist = [] := rfl
@[simp] theorem clearFreqs_freqPre : (clearFreqs s).freqPre = s.freqPre := rfl
@[simp] theorem clearFreqs_lenLit : (clearFreqs s).lenLit = s.lenLit := rfl
@[simp] theorem clearFreqs_lenDist : (clearFreqs s).lenDist = s.lenDist := rfl
@[simp] theorem clearFreqs_lenPre : (clearFreqs s).lenPre = s.lenPre := rfl
@[simp] theorem clearFreqs_codeLit : (clearFreqs s).codeLit = s.codeLit := rfl
@[simp] theorem clearFreqs_codeDist : (clearFreqs s).codeDist = s.codeDist := rfl
@[simp] theorem clearFreqs_codePre : (clearFreqs s).codePre = s.codePre := rfl
@[simp] theorem clearFreqs_rleItem : (clearFreqs s).rleItem = s.rleItem := rfl
@[simp] theorem clearFreqs_rleCount : (clearFreqs s).rleCount = s.rleCount := rfl
@[simp] theorem clearFreqs_driver : (clearFreqs s).driver = s.driver := rfl
@[simp] theorem clearFreqs_rst : (clearFreqs s).rst = s.rst := rfl
@[simp] theorem clearFreqs_mem : (clearFreqs s).mem = s.mem := rfl
@[simp] theorem clearFreqs_params : (clearFreqs s).params = s.params := rfl
@[simp] theorem clearFreqs_bus : (clearFreqs s).bus = s.bus := rfl
@[simp] theorem clearFreqs_hostData : (clearFreqs s).hostData = s.hostData := rfl
@[simp] theorem clearFreqs_draws : (clearFreqs s).draws = s.draws := rfl

/-! ### seedFreqs -/

@[simp] theorem seedFreqs_status : (seedFreqs s).status = s.status := rfl
@[simp] theorem seedFreqs_ie : (seedFreqs s).ie = s.ie := rfl
@[simp] theorem seedFreqs_faultInfo : (seedFreqs s).faultInfo = s.faultInfo := rfl
@[simp] theorem seedFreqs_arg0 : (seedFreqs s).arg0 = s.arg0 := rfl
@[simp] theorem seedFreqs_arg1 : (seedFreqs s).arg1 = s.arg1 := rfl
@[simp] theorem seedFreqs_arg2 : (seedFreqs s).arg2 = s.arg2 := rfl
@[simp] theorem seedFreqs_res0 : (seedFreqs s).res0 = s.res0 := rfl
@[simp] theorem seedFreqs_res1 : (seedFreqs s).res1 = s.res1 := rfl
@[simp] theorem seedFreqs_inBase : (seedFreqs s).inBase = s.inBase := rfl
@[simp] theorem seedFreqs_inLen : (seedFreqs s).inLen = s.inLen := rfl
@[simp] theorem seedFreqs_outBase : (seedFreqs s).outBase = s.outBase := rfl
@[simp] theorem seedFreqs_outCap : (seedFreqs s).outCap = s.outCap := rfl
@[simp] theorem seedFreqs_outPos : (seedFreqs s).outPos = s.outPos := rfl
@[simp] theorem seedFreqs_bitBuf : (seedFreqs s).bitBuf = s.bitBuf := rfl
@[simp] theorem seedFreqs_bitCnt : (seedFreqs s).bitCnt = s.bitCnt := rfl
@[simp] theorem seedFreqs_adler : (seedFreqs s).adler = s.adler := rfl
@[simp] theorem seedFreqs_head : (seedFreqs s).head = s.head := rfl
@[simp] theorem seedFreqs_prev : (seedFreqs s).prev = s.prev := rfl
@[simp] theorem seedFreqs_freqLit : (seedFreqs s).freqLit = Cells.ofNats 288 s.params.seedLit := rfl
@[simp] theorem seedFreqs_freqDist : (seedFreqs s).freqDist = Cells.ofNats 32 s.params.seedDist := rfl
@[simp] theorem seedFreqs_freqPre : (seedFreqs s).freqPre = s.freqPre := rfl
@[simp] theorem seedFreqs_lenLit : (seedFreqs s).lenLit = s.lenLit := rfl
@[simp] theorem seedFreqs_lenDist : (seedFreqs s).lenDist = s.lenDist := rfl
@[simp] theorem seedFreqs_lenPre : (seedFreqs s).lenPre = s.lenPre := rfl
@[simp] theorem seedFreqs_codeLit : (seedFreqs s).codeLit = s.codeLit := rfl
@[simp] theorem seedFreqs_codeDist : (seedFreqs s).codeDist = s.codeDist := rfl
@[simp] theorem seedFreqs_codePre : (seedFreqs s).codePre = s.codePre := rfl
@[simp] theorem seedFreqs_rleItem : (seedFreqs s).rleItem = s.rleItem := rfl
@[simp] theorem seedFreqs_rleCount : (seedFreqs s).rleCount = s.rleCount := rfl
@[simp] theorem seedFreqs_driver : (seedFreqs s).driver = s.driver := rfl
@[simp] theorem seedFreqs_rst : (seedFreqs s).rst = s.rst := rfl
@[simp] theorem seedFreqs_mem : (seedFreqs s).mem = s.mem := rfl
@[simp] theorem seedFreqs_params : (seedFreqs s).params = s.params := rfl
@[simp] theorem seedFreqs_bus : (seedFreqs s).bus = s.bus := rfl
@[simp] theorem seedFreqs_hostData : (seedFreqs s).hostData = s.hostData := rfl
@[simp] theorem seedFreqs_draws : (seedFreqs s).draws = s.draws := rfl

/-! ### countLit -/

@[simp] theorem countLit_status (sym : Nat) : (countLit sym s).status = s.status := rfl
@[simp] theorem countLit_ie (sym : Nat) : (countLit sym s).ie = s.ie := rfl
@[simp] theorem countLit_faultInfo (sym : Nat) : (countLit sym s).faultInfo = s.faultInfo := rfl
@[simp] theorem countLit_arg0 (sym : Nat) : (countLit sym s).arg0 = s.arg0 := rfl
@[simp] theorem countLit_arg1 (sym : Nat) : (countLit sym s).arg1 = s.arg1 := rfl
@[simp] theorem countLit_arg2 (sym : Nat) : (countLit sym s).arg2 = s.arg2 := rfl
@[simp] theorem countLit_res0 (sym : Nat) : (countLit sym s).res0 = s.res0 := rfl
@[simp] theorem countLit_res1 (sym : Nat) : (countLit sym s).res1 = s.res1 := rfl
@[simp] theorem countLit_inBase (sym : Nat) : (countLit sym s).inBase = s.inBase := rfl
@[simp] theorem countLit_inLen (sym : Nat) : (countLit sym s).inLen = s.inLen := rfl
@[simp] theorem countLit_outBase (sym : Nat) : (countLit sym s).outBase = s.outBase := rfl
@[simp] theorem countLit_outCap (sym : Nat) : (countLit sym s).outCap = s.outCap := rfl
@[simp] theorem countLit_outPos (sym : Nat) : (countLit sym s).outPos = s.outPos := rfl
@[simp] theorem countLit_bitBuf (sym : Nat) : (countLit sym s).bitBuf = s.bitBuf := rfl
@[simp] theorem countLit_bitCnt (sym : Nat) : (countLit sym s).bitCnt = s.bitCnt := rfl
@[simp] theorem countLit_adler (sym : Nat) : (countLit sym s).adler = s.adler := rfl
@[simp] theorem countLit_head (sym : Nat) : (countLit sym s).head = s.head := rfl
@[simp] theorem countLit_prev (sym : Nat) : (countLit sym s).prev = s.prev := rfl
@[simp] theorem countLit_freqLit (sym : Nat) : (countLit sym s).freqLit = Cells.set 0 s.freqLit sym (Cells.get 0 s.freqLit sym + 1) := rfl
@[simp] theorem countLit_freqDist (sym : Nat) : (countLit sym s).freqDist = s.freqDist := rfl
@[simp] theorem countLit_freqPre (sym : Nat) : (countLit sym s).freqPre = s.freqPre := rfl
@[simp] theorem countLit_lenLit (sym : Nat) : (countLit sym s).lenLit = s.lenLit := rfl
@[simp] theorem countLit_lenDist (sym : Nat) : (countLit sym s).lenDist = s.lenDist := rfl
@[simp] theorem countLit_lenPre (sym : Nat) : (countLit sym s).lenPre = s.lenPre := rfl
@[simp] theorem countLit_codeLit (sym : Nat) : (countLit sym s).codeLit = s.codeLit := rfl
@[simp] theorem countLit_codeDist (sym : Nat) : (countLit sym s).codeDist = s.codeDist := rfl
@[simp] theorem countLit_codePre (sym : Nat) : (countLit sym s).codePre = s.codePre := rfl
@[simp] theorem countLit_rleItem (sym : Nat) : (countLit sym s).rleItem = s.rleItem := rfl
@[simp] theorem countLit_rleCount (sym : Nat) : (countLit sym s).rleCount = s.rleCount := rfl
@[simp] theorem countLit_driver (sym : Nat) : (countLit sym s).driver = s.driver := rfl
@[simp] theorem countLit_rst (sym : Nat) : (countLit sym s).rst = s.rst := rfl
@[simp] theorem countLit_mem (sym : Nat) : (countLit sym s).mem = s.mem := rfl
@[simp] theorem countLit_params (sym : Nat) : (countLit sym s).params = s.params := rfl
@[simp] theorem countLit_bus (sym : Nat) : (countLit sym s).bus = s.bus := rfl
@[simp] theorem countLit_hostData (sym : Nat) : (countLit sym s).hostData = s.hostData := rfl
@[simp] theorem countLit_draws (sym : Nat) : (countLit sym s).draws = s.draws := rfl

/-! ### countDist -/

@[simp] theorem countDist_status (sym : Nat) : (countDist sym s).status = s.status := rfl
@[simp] theorem countDist_ie (sym : Nat) : (countDist sym s).ie = s.ie := rfl
@[simp] theorem countDist_faultInfo (sym : Nat) : (countDist sym s).faultInfo = s.faultInfo := rfl
@[simp] theorem countDist_arg0 (sym : Nat) : (countDist sym s).arg0 = s.arg0 := rfl
@[simp] theorem countDist_arg1 (sym : Nat) : (countDist sym s).arg1 = s.arg1 := rfl
@[simp] theorem countDist_arg2 (sym : Nat) : (countDist sym s).arg2 = s.arg2 := rfl
@[simp] theorem countDist_res0 (sym : Nat) : (countDist sym s).res0 = s.res0 := rfl
@[simp] theorem countDist_res1 (sym : Nat) : (countDist sym s).res1 = s.res1 := rfl
@[simp] theorem countDist_inBase (sym : Nat) : (countDist sym s).inBase = s.inBase := rfl
@[simp] theorem countDist_inLen (sym : Nat) : (countDist sym s).inLen = s.inLen := rfl
@[simp] theorem countDist_outBase (sym : Nat) : (countDist sym s).outBase = s.outBase := rfl
@[simp] theorem countDist_outCap (sym : Nat) : (countDist sym s).outCap = s.outCap := rfl
@[simp] theorem countDist_outPos (sym : Nat) : (countDist sym s).outPos = s.outPos := rfl
@[simp] theorem countDist_bitBuf (sym : Nat) : (countDist sym s).bitBuf = s.bitBuf := rfl
@[simp] theorem countDist_bitCnt (sym : Nat) : (countDist sym s).bitCnt = s.bitCnt := rfl
@[simp] theorem countDist_adler (sym : Nat) : (countDist sym s).adler = s.adler := rfl
@[simp] theorem countDist_head (sym : Nat) : (countDist sym s).head = s.head := rfl
@[simp] theorem countDist_prev (sym : Nat) : (countDist sym s).prev = s.prev := rfl
@[simp] theorem countDist_freqLit (sym : Nat) : (countDist sym s).freqLit = s.freqLit := rfl
@[simp] theorem countDist_freqDist (sym : Nat) : (countDist sym s).freqDist = Cells.set 0 s.freqDist sym (Cells.get 0 s.freqDist sym + 1) := rfl
@[simp] theorem countDist_freqPre (sym : Nat) : (countDist sym s).freqPre = s.freqPre := rfl
@[simp] theorem countDist_lenLit (sym : Nat) : (countDist sym s).lenLit = s.lenLit := rfl
@[simp] theorem countDist_lenDist (sym : Nat) : (countDist sym s).lenDist = s.lenDist := rfl
@[simp] theorem countDist_lenPre (sym : Nat) : (countDist sym s).lenPre = s.lenPre := rfl
@[simp] theorem countDist_codeLit (sym : Nat) : (countDist sym s).codeLit = s.codeLit := rfl
@[simp] theorem countDist_codeDist (sym : Nat) : (countDist sym s).codeDist = s.codeDist := rfl
@[simp] theorem countDist_codePre (sym : Nat) : (countDist sym s).codePre = s.codePre := rfl
@[simp] theorem countDist_rleItem (sym : Nat) : (countDist sym s).rleItem = s.rleItem := rfl
@[simp] theorem countDist_rleCount (sym : Nat) : (countDist sym s).rleCount = s.rleCount := rfl
@[simp] theorem countDist_driver (sym : Nat) : (countDist sym s).driver = s.driver := rfl
@[simp] theorem countDist_rst (sym : Nat) : (countDist sym s).rst = s.rst := rfl
@[simp] theorem countDist_mem (sym : Nat) : (countDist sym s).mem = s.mem := rfl
@[simp] theorem countDist_params (sym : Nat) : (countDist sym s).params = s.params := rfl
@[simp] theorem countDist_bus (sym : Nat) : (countDist sym s).bus = s.bus := rfl
@[simp] theorem countDist_hostData (sym : Nat) : (countDist sym s).hostData = s.hostData := rfl
@[simp] theorem countDist_draws (sym : Nat) : (countDist sym s).draws = s.draws := rfl

/-! ### enter -/

@[simp] theorem enter_status (d : DState) : (enter d s).status = s.status := rfl
@[simp] theorem enter_ie (d : DState) : (enter d s).ie = s.ie := rfl
@[simp] theorem enter_faultInfo (d : DState) : (enter d s).faultInfo = s.faultInfo := rfl
@[simp] theorem enter_arg0 (d : DState) : (enter d s).arg0 = s.arg0 := rfl
@[simp] theorem enter_arg1 (d : DState) : (enter d s).arg1 = s.arg1 := rfl
@[simp] theorem enter_arg2 (d : DState) : (enter d s).arg2 = s.arg2 := rfl
@[simp] theorem enter_res0 (d : DState) : (enter d s).res0 = s.res0 := rfl
@[simp] theorem enter_res1 (d : DState) : (enter d s).res1 = s.res1 := rfl
@[simp] theorem enter_inBase (d : DState) : (enter d s).inBase = s.inBase := rfl
@[simp] theorem enter_inLen (d : DState) : (enter d s).inLen = s.inLen := rfl
@[simp] theorem enter_outBase (d : DState) : (enter d s).outBase = s.outBase := rfl
@[simp] theorem enter_outCap (d : DState) : (enter d s).outCap = s.outCap := rfl
@[simp] theorem enter_outPos (d : DState) : (enter d s).outPos = s.outPos := rfl
@[simp] theorem enter_bitBuf (d : DState) : (enter d s).bitBuf = s.bitBuf := rfl
@[simp] theorem enter_bitCnt (d : DState) : (enter d s).bitCnt = s.bitCnt := rfl
@[simp] theorem enter_adler (d : DState) : (enter d s).adler = s.adler := rfl
@[simp] theorem enter_head (d : DState) : (enter d s).head = s.head := rfl
@[simp] theorem enter_prev (d : DState) : (enter d s).prev = s.prev := rfl
@[simp] theorem enter_freqLit (d : DState) : (enter d s).freqLit = s.freqLit := rfl
@[simp] theorem enter_freqDist (d : DState) : (enter d s).freqDist = s.freqDist := rfl
@[simp] theorem enter_freqPre (d : DState) : (enter d s).freqPre = s.freqPre := rfl
@[simp] theorem enter_lenLit (d : DState) : (enter d s).lenLit = s.lenLit := rfl
@[simp] theorem enter_lenDist (d : DState) : (enter d s).lenDist = s.lenDist := rfl
@[simp] theorem enter_lenPre (d : DState) : (enter d s).lenPre = s.lenPre := rfl
@[simp] theorem enter_codeLit (d : DState) : (enter d s).codeLit = s.codeLit := rfl
@[simp] theorem enter_codeDist (d : DState) : (enter d s).codeDist = s.codeDist := rfl
@[simp] theorem enter_codePre (d : DState) : (enter d s).codePre = s.codePre := rfl
@[simp] theorem enter_rleItem (d : DState) : (enter d s).rleItem = s.rleItem := rfl
@[simp] theorem enter_rleCount (d : DState) : (enter d s).rleCount = s.rleCount := rfl
@[simp] theorem enter_driver (d : DState) : (enter d s).driver = { s.driver with dstate := d } := rfl
@[simp] theorem enter_rst (d : DState) : (enter d s).rst = s.rst := rfl
@[simp] theorem enter_mem (d : DState) : (enter d s).mem = s.mem := rfl
@[simp] theorem enter_params (d : DState) : (enter d s).params = s.params := rfl
@[simp] theorem enter_bus (d : DState) : (enter d s).bus = s.bus := rfl
@[simp] theorem enter_hostData (d : DState) : (enter d s).hostData = s.hostData := rfl
@[simp] theorem enter_draws (d : DState) : (enter d s).draws = s.draws := rfl

/-! ### setPos -/

@[simp] theorem setPos_status (p : Nat) : (setPos p s).status = s.status := rfl
@[simp] theorem setPos_ie (p : Nat) : (setPos p s).ie = s.ie := rfl
@[simp] theorem setPos_faultInfo (p : Nat) : (setPos p s).faultInfo = s.faultInfo := rfl
@[simp] theorem setPos_arg0 (p : Nat) : (setPos p s).arg0 = s.arg0 := rfl
@[simp] theorem setPos_arg1 (p : Nat) : (setPos p s).arg1 = s.arg1 := rfl
@[simp] theorem setPos_arg2 (p : Nat) : (setPos p s).arg2 = s.arg2 := rfl
@[simp] theorem setPos_res0 (p : Nat) : (setPos p s).res0 = s.res0 := rfl
@[simp] theorem setPos_res1 (p : Nat) : (setPos p s).res1 = s.res1 := rfl
@[simp] theorem setPos_inBase (p : Nat) : (setPos p s).inBase = s.inBase := rfl
@[simp] theorem setPos_inLen (p : Nat) : (setPos p s).inLen = s.inLen := rfl
@[simp] theorem setPos_outBase (p : Nat) : (setPos p s).outBase = s.outBase := rfl
@[simp] theorem setPos_outCap (p : Nat) : (setPos p s).outCap = s.outCap := rfl
@[simp] theorem setPos_outPos (p : Nat) : (setPos p s).outPos = s.outPos := rfl
@[simp] theorem setPos_bitBuf (p : Nat) : (setPos p s).bitBuf = s.bitBuf := rfl
@[simp] theorem setPos_bitCnt (p : Nat) : (setPos p s).bitCnt = s.bitCnt := rfl
@[simp] theorem setPos_adler (p : Nat) : (setPos p s).adler = s.adler := rfl
@[simp] theorem setPos_head (p : Nat) : (setPos p s).head = s.head := rfl
@[simp] theorem setPos_prev (p : Nat) : (setPos p s).prev = s.prev := rfl
@[simp] theorem setPos_freqLit (p : Nat) : (setPos p s).freqLit = s.freqLit := rfl
@[simp] theorem setPos_freqDist (p : Nat) : (setPos p s).freqDist = s.freqDist := rfl
@[simp] theorem setPos_freqPre (p : Nat) : (setPos p s).freqPre = s.freqPre := rfl
@[simp] theorem setPos_lenLit (p : Nat) : (setPos p s).lenLit = s.lenLit := rfl
@[simp] theorem setPos_lenDist (p : Nat) : (setPos p s).lenDist = s.lenDist := rfl
@[simp] theorem setPos_lenPre (p : Nat) : (setPos p s).lenPre = s.lenPre := rfl
@[simp] theorem setPos_codeLit (p : Nat) : (setPos p s).codeLit = s.codeLit := rfl
@[simp] theorem setPos_codeDist (p : Nat) : (setPos p s).codeDist = s.codeDist := rfl
@[simp] theorem setPos_codePre (p : Nat) : (setPos p s).codePre = s.codePre := rfl
@[simp] theorem setPos_rleItem (p : Nat) : (setPos p s).rleItem = s.rleItem := rfl
@[simp] theorem setPos_rleCount (p : Nat) : (setPos p s).rleCount = s.rleCount := rfl
@[simp] theorem setPos_driver (p : Nat) : (setPos p s).driver = { s.driver with pos := word p } := rfl
@[simp] theorem setPos_rst (p : Nat) : (setPos p s).rst = s.rst := rfl
@[simp] theorem setPos_mem (p : Nat) : (setPos p s).mem = s.mem := rfl
@[simp] theorem setPos_params (p : Nat) : (setPos p s).params = s.params := rfl
@[simp] theorem setPos_bus (p : Nat) : (setPos p s).bus = s.bus := rfl
@[simp] theorem setPos_hostData (p : Nat) : (setPos p s).hostData = s.hostData := rfl
@[simp] theorem setPos_draws (p : Nat) : (setPos p s).draws = s.draws := rfl

/-! ### cutBlock -/

@[simp] theorem cutBlock_status : (cutBlock s).status = s.status := rfl
@[simp] theorem cutBlock_ie : (cutBlock s).ie = s.ie := rfl
@[simp] theorem cutBlock_faultInfo : (cutBlock s).faultInfo = s.faultInfo := rfl
@[simp] theorem cutBlock_arg0 : (cutBlock s).arg0 = s.arg0 := rfl
@[simp] theorem cutBlock_arg1 : (cutBlock s).arg1 = s.arg1 := rfl
@[simp] theorem cutBlock_arg2 : (cutBlock s).arg2 = s.arg2 := rfl
@[simp] theorem cutBlock_res0 : (cutBlock s).res0 = s.res0 := rfl
@[simp] theorem cutBlock_res1 : (cutBlock s).res1 = s.res1 := rfl
@[simp] theorem cutBlock_inBase : (cutBlock s).inBase = s.inBase := rfl
@[simp] theorem cutBlock_inLen : (cutBlock s).inLen = s.inLen := rfl
@[simp] theorem cutBlock_outBase : (cutBlock s).outBase = s.outBase := rfl
@[simp] theorem cutBlock_outCap : (cutBlock s).outCap = s.outCap := rfl
@[simp] theorem cutBlock_outPos : (cutBlock s).outPos = s.outPos := rfl
@[simp] theorem cutBlock_bitBuf : (cutBlock s).bitBuf = s.bitBuf := rfl
@[simp] theorem cutBlock_bitCnt : (cutBlock s).bitCnt = s.bitCnt := rfl
@[simp] theorem cutBlock_adler : (cutBlock s).adler = s.adler := rfl
@[simp] theorem cutBlock_head : (cutBlock s).head = s.head := rfl
@[simp] theorem cutBlock_prev : (cutBlock s).prev = s.prev := rfl
@[simp] theorem cutBlock_freqLit : (cutBlock s).freqLit = s.freqLit := rfl
@[simp] theorem cutBlock_freqDist : (cutBlock s).freqDist = s.freqDist := rfl
@[simp] theorem cutBlock_freqPre : (cutBlock s).freqPre = s.freqPre := rfl
@[simp] theorem cutBlock_lenLit : (cutBlock s).lenLit = s.lenLit := rfl
@[simp] theorem cutBlock_lenDist : (cutBlock s).lenDist = s.lenDist := rfl
@[simp] theorem cutBlock_lenPre : (cutBlock s).lenPre = s.lenPre := rfl
@[simp] theorem cutBlock_codeLit : (cutBlock s).codeLit = s.codeLit := rfl
@[simp] theorem cutBlock_codeDist : (cutBlock s).codeDist = s.codeDist := rfl
@[simp] theorem cutBlock_codePre : (cutBlock s).codePre = s.codePre := rfl
@[simp] theorem cutBlock_rleItem : (cutBlock s).rleItem = s.rleItem := rfl
@[simp] theorem cutBlock_rleCount : (cutBlock s).rleCount = s.rleCount := rfl
@[simp] theorem cutBlock_driver : (cutBlock s).driver = { s.driver with be := word (min (s.driver.bs.toNat + s.params.blkMax) s.inLen.toNat) } := rfl
@[simp] theorem cutBlock_rst : (cutBlock s).rst = s.rst := rfl
@[simp] theorem cutBlock_mem : (cutBlock s).mem = s.mem := rfl
@[simp] theorem cutBlock_params : (cutBlock s).params = s.params := rfl
@[simp] theorem cutBlock_bus : (cutBlock s).bus = s.bus := rfl
@[simp] theorem cutBlock_hostData : (cutBlock s).hostData = s.hostData := rfl
@[simp] theorem cutBlock_draws : (cutBlock s).draws = s.draws := rfl

/-! ### closeBlock -/

@[simp] theorem closeBlock_status : (closeBlock s).status = s.status := rfl
@[simp] theorem closeBlock_ie : (closeBlock s).ie = s.ie := rfl
@[simp] theorem closeBlock_faultInfo : (closeBlock s).faultInfo = s.faultInfo := rfl
@[simp] theorem closeBlock_arg0 : (closeBlock s).arg0 = s.arg0 := rfl
@[simp] theorem closeBlock_arg1 : (closeBlock s).arg1 = s.arg1 := rfl
@[simp] theorem closeBlock_arg2 : (closeBlock s).arg2 = s.arg2 := rfl
@[simp] theorem closeBlock_res0 : (closeBlock s).res0 = s.res0 := rfl
@[simp] theorem closeBlock_res1 : (closeBlock s).res1 = s.res1 := rfl
@[simp] theorem closeBlock_inBase : (closeBlock s).inBase = s.inBase := rfl
@[simp] theorem closeBlock_inLen : (closeBlock s).inLen = s.inLen := rfl
@[simp] theorem closeBlock_outBase : (closeBlock s).outBase = s.outBase := rfl
@[simp] theorem closeBlock_outCap : (closeBlock s).outCap = s.outCap := rfl
@[simp] theorem closeBlock_outPos : (closeBlock s).outPos = s.outPos := rfl
@[simp] theorem closeBlock_bitBuf : (closeBlock s).bitBuf = s.bitBuf := rfl
@[simp] theorem closeBlock_bitCnt : (closeBlock s).bitCnt = s.bitCnt := rfl
@[simp] theorem closeBlock_adler : (closeBlock s).adler = s.adler := rfl
@[simp] theorem closeBlock_head : (closeBlock s).head = s.head := rfl
@[simp] theorem closeBlock_prev : (closeBlock s).prev = s.prev := rfl
@[simp] theorem closeBlock_freqLit : (closeBlock s).freqLit = s.freqLit := rfl
@[simp] theorem closeBlock_freqDist : (closeBlock s).freqDist = s.freqDist := rfl
@[simp] theorem closeBlock_freqPre : (closeBlock s).freqPre = s.freqPre := rfl
@[simp] theorem closeBlock_lenLit : (closeBlock s).lenLit = s.lenLit := rfl
@[simp] theorem closeBlock_lenDist : (closeBlock s).lenDist = s.lenDist := rfl
@[simp] theorem closeBlock_lenPre : (closeBlock s).lenPre = s.lenPre := rfl
@[simp] theorem closeBlock_codeLit : (closeBlock s).codeLit = s.codeLit := rfl
@[simp] theorem closeBlock_codeDist : (closeBlock s).codeDist = s.codeDist := rfl
@[simp] theorem closeBlock_codePre : (closeBlock s).codePre = s.codePre := rfl
@[simp] theorem closeBlock_rleItem : (closeBlock s).rleItem = s.rleItem := rfl
@[simp] theorem closeBlock_rleCount : (closeBlock s).rleCount = s.rleCount := rfl
@[simp] theorem closeBlock_driver : (closeBlock s).driver = { s.driver with nblk := s.driver.nblk + 1, bs := s.driver.be } := rfl
@[simp] theorem closeBlock_rst : (closeBlock s).rst = s.rst := rfl
@[simp] theorem closeBlock_mem : (closeBlock s).mem = s.mem := rfl
@[simp] theorem closeBlock_params : (closeBlock s).params = s.params := rfl
@[simp] theorem closeBlock_bus : (closeBlock s).bus = s.bus := rfl
@[simp] theorem closeBlock_hostData : (closeBlock s).hostData = s.hostData := rfl
@[simp] theorem closeBlock_draws : (closeBlock s).draws = s.draws := rfl

/-! ### resetEngine -/

@[simp] theorem resetEngine_status : (resetEngine s).status = s.status := rfl
@[simp] theorem resetEngine_ie : (resetEngine s).ie = s.ie := rfl
@[simp] theorem resetEngine_faultInfo : (resetEngine s).faultInfo = s.faultInfo := rfl
@[simp] theorem resetEngine_arg0 : (resetEngine s).arg0 = s.arg0 := rfl
@[simp] theorem resetEngine_arg1 : (resetEngine s).arg1 = s.arg1 := rfl
@[simp] theorem resetEngine_arg2 : (resetEngine s).arg2 = s.arg2 := rfl
@[simp] theorem resetEngine_res0 : (resetEngine s).res0 = 0 := rfl
@[simp] theorem resetEngine_res1 : (resetEngine s).res1 = 0 := rfl
@[simp] theorem resetEngine_inBase : (resetEngine s).inBase = s.inBase := rfl
@[simp] theorem resetEngine_inLen : (resetEngine s).inLen = s.inLen := rfl
@[simp] theorem resetEngine_outBase : (resetEngine s).outBase = s.outBase := rfl
@[simp] theorem resetEngine_outCap : (resetEngine s).outCap = s.outCap := rfl
@[simp] theorem resetEngine_outPos : (resetEngine s).outPos = 0 := rfl
@[simp] theorem resetEngine_bitBuf : (resetEngine s).bitBuf = 0 := rfl
@[simp] theorem resetEngine_bitCnt : (resetEngine s).bitCnt = 0 := rfl
@[simp] theorem resetEngine_adler : (resetEngine s).adler = 0x00000001 := rfl
@[simp] theorem resetEngine_head : (resetEngine s).head = [] := rfl
@[simp] theorem resetEngine_prev : (resetEngine s).prev = s.prev := rfl
@[simp] theorem resetEngine_freqLit : (resetEngine s).freqLit = [] := rfl
@[simp] theorem resetEngine_freqDist : (resetEngine s).freqDist = [] := rfl
@[simp] theorem resetEngine_freqPre : (resetEngine s).freqPre = [] := rfl
@[simp] theorem resetEngine_lenLit : (resetEngine s).lenLit = [] := rfl
@[simp] theorem resetEngine_lenDist : (resetEngine s).lenDist = [] := rfl
@[simp] theorem resetEngine_lenPre : (resetEngine s).lenPre = [] := rfl
@[simp] theorem resetEngine_codeLit : (resetEngine s).codeLit = [] := rfl
@[simp] theorem resetEngine_codeDist : (resetEngine s).codeDist = [] := rfl
@[simp] theorem resetEngine_codePre : (resetEngine s).codePre = [] := rfl
@[simp] theorem resetEngine_rleItem : (resetEngine s).rleItem = [] := rfl
@[simp] theorem resetEngine_rleCount : (resetEngine s).rleCount = 0 := rfl
@[simp] theorem resetEngine_driver : (resetEngine s).driver = s.driver := rfl
@[simp] theorem resetEngine_rst : (resetEngine s).rst = s.rst := rfl
@[simp] theorem resetEngine_mem : (resetEngine s).mem = s.mem := rfl
@[simp] theorem resetEngine_params : (resetEngine s).params = s.params := rfl
@[simp] theorem resetEngine_bus : (resetEngine s).bus = s.bus := rfl
@[simp] theorem resetEngine_hostData : (resetEngine s).hostData = s.hostData := rfl
@[simp] theorem resetEngine_draws : (resetEngine s).draws = s.draws := rfl

end Sys2Proof.Laws
end

