-- ==== Sys2Proof/Laws/Ops.lean ====
section
/-! SUPPORT. What the shared operations do, said once: checks, the region check, reads of the input, and running a
command. -/

namespace Sys2Proof.Laws

open Sys2Proof.Machine

/-! ### Checks and sequencing -/

@[simp] theorem check_true (c : Cause) (info : Word) : check true c info = .ok () := rfl

@[simp] theorem check_false (c : Cause) (info : Word) : check false c info = .error (.raise c info) := rfl

theorem check_eq_ok {ok : Bool} {c : Cause} {info : Word} {u : Unit} :
    check ok c info = .ok u ↔ ok = true := by cases ok <;> simp [check]

@[simp] theorem bind_ok {α β : Type} (a : α) (f : α → Except Trap β) : (Except.ok a >>= f) = f a := rfl

@[simp] theorem bind_error {α β : Type} (e : Trap) (f : α → Except Trap β) : (Except.error e >>= f) = .error e := rfl

/-- A sequence that succeeds has a first part that succeeds. -/
theorem bind_eq_ok {α β : Type} {x : Except Trap α} {f : α → Except Trap β} {b : β} :
    (x >>= f) = .ok b ↔ ∃ a, x = .ok a ∧ f a = .ok b := by
  cases x <;> simp

/-- A sequence that fails fails in its first part or after it. -/
theorem bind_eq_error {α β : Type} {x : Except Trap α} {f : α → Except Trap β} {e : Trap} :
    (x >>= f) = .error e ↔ x = .error e ∨ ∃ a, x = .ok a ∧ f a = .error e := by
  cases x <;> simp

/-! ### The region check -/

@[simp] theorem regionsOk_accept (s : State) : regionsOk (accept s) = regionsOk s := rfl

@[simp] theorem regionCheck_accept (s : State) : regionCheck (accept s) = regionCheck s := rfl

/-- What regionsOk says, in numbers. -/
theorem regionsOk_iff {s : State} :
    regionsOk s = true ↔
      s.inLen.toNat ≤ 0x7FFFFFFF ∧ s.inBase.toNat + s.inLen.toNat ≤ 2 ^ 32 ∧
        s.outBase.toNat + s.outCap.toNat ≤ 2 ^ 32 ∧ regionsDisjoint s = true := by
  simp [regionsOk, and_assoc, Config.maxInLen, Config.memSize]

theorem regionsOk_in {s : State} (h : regionsOk s = true) : s.inBase.toNat + s.inLen.toNat ≤ 2 ^ 32 :=
  (regionsOk_iff.mp h).2.1

theorem regionsOk_out {s : State} (h : regionsOk s = true) : s.outBase.toNat + s.outCap.toNat ≤ 2 ^ 32 :=
  (regionsOk_iff.mp h).2.2.1

/-- The region check passes exactly where the four conditions hold. -/
theorem regionCheck_ok {s : State} : regionCheck s = .ok () ↔ regionsOk s = true := by
  simp only [regionCheck, bind_eq_ok, check_eq_ok, decide_eq_true_eq, regionsOk, Bool.and_eq_true, exists_and_left]
  simp [and_assoc]

/-- Two regions that are not disjoint share an address. -/
theorem regionsDisjoint_false {s : State} (h : regionsDisjoint s = false) :
    ∃ k j, k < s.inLen.toNat ∧ j < s.outCap.toNat ∧ s.inBase.toNat + k = s.outBase.toNat + j := by
  simp only [regionsDisjoint, Bool.or_eq_false_iff, decide_eq_false_iff_not, not_le] at h
  obtain ⟨⟨⟨hin, hout⟩, h1⟩, h2⟩ := h
  have hi : 0 < s.inLen.toNat := by
    rcases Nat.eq_zero_or_pos s.inLen.toNat with h | h
    · exact absurd (BitVec.eq_of_toNat_eq (by simpa using h)) hin
    · exact h
  have ho : 0 < s.outCap.toNat := by
    rcases Nat.eq_zero_or_pos s.outCap.toNat with h | h
    · exact absurd (BitVec.eq_of_toNat_eq (by simpa using h)) hout
    · exact h
  rcases Nat.le_total s.inBase.toNat s.outBase.toNat with hle | hle
  · exact ⟨s.outBase.toNat - s.inBase.toNat, 0, by omega, ho, by omega⟩
  · exact ⟨0, s.inBase.toNat - s.outBase.toNat, hi, by omega, by omega⟩

/-- Disjoint regions share no address. -/
theorem regionsDisjoint_spec {s : State} (h : regionsDisjoint s = true) {k j : Nat} (hk : k < s.inLen.toNat)
    (hj : j < s.outCap.toNat) : s.inBase.toNat + k ≠ s.outBase.toNat + j := by
  simp only [regionsDisjoint, Bool.or_eq_true, decide_eq_true_eq] at h
  rcases h with ((h | h) | h) | h
  · simp [h] at hk
  · simp [h] at hj
  · omega
  · omega

/-- The region check raises BAD_REGION with the number of the first condition that fails. -/
theorem regionCheck_fails {s : State} {n : Word} (h : FailsRegion s n) :
    regionCheck s = .error (.raise .badRegion n) := by
  rcases h with ⟨rfl, h1⟩ | ⟨rfl, h1, h2⟩ | ⟨rfl, h1, h2, h3⟩ | ⟨rfl, h1, h2, h3, k, j, hk, hj, he⟩
  · simp [regionCheck, check, Nat.not_le.mpr h1]
  · simp [regionCheck, check, h1, Nat.not_le.mpr h2]
  · simp [regionCheck, check, h1, h2, Nat.not_le.mpr h3]
  · have hd : regionsDisjoint s = false := by
      by_contra hc
      exact regionsDisjoint_spec (by simpa using hc) hk hj he
    simp [regionCheck, check, h1, h2, h3, hd]

/-- Where the region check does not pass, one of the four conditions is the first to fail. -/
theorem failsRegion_of_not {s : State} (h : regionsOk s = false) : ∃ n, FailsRegion s n := by
  by_cases h1 : s.inLen.toNat ≤ Config.maxInLen
  · by_cases h2 : s.inBase.toNat + s.inLen.toNat ≤ 2 ^ 32
    · by_cases h3 : s.outBase.toNat + s.outCap.toNat ≤ 2 ^ 32
      · have hd : regionsDisjoint s = false := by
          by_contra hc
          have := regionsOk_iff.mpr ⟨h1, h2, h3, by simpa using hc⟩
          simp [this] at h
        exact ⟨4, .inr (.inr (.inr ⟨rfl, h1, h2, h3, regionsDisjoint_false hd⟩))⟩
      · exact ⟨3, .inr (.inr (.inl ⟨rfl, h1, h2, by omega⟩))⟩
    · exact ⟨2, .inr (.inl ⟨rfl, h1, by omega⟩)⟩
  · exact ⟨1, .inl ⟨rfl, by omega⟩⟩

/-! ### Reads of the input -/

@[simp] theorem inputAt_accept (s : State) (k : Nat) : inputAt (accept s) k = inputAt s k := rfl

/-- A read inside the input region gives its byte. -/
theorem inputByte_ok {s : State} {k : Nat} (h : regionsOk s = true) (hk : k < s.inLen.toNat) :
    inputByte s k = .ok (inputAt s k) := by
  have := regionsOk_in h
  rw [inputByte, if_neg (by omega), if_neg (by simp only [Config.memSize]; omega)]
  rfl

/-- A run of reads inside the input region gives its bytes. -/
theorem inputBytes_ok {s : State} (h : regionsOk s = true) (n k : Nat) (hk : k + n ≤ s.inLen.toNat) :
    inputBytes s k n = .ok ((List.range n).map (fun i => inputAt s (k + i))) := by
  induction n generalizing k with
  | zero => rfl
  | succ n ih =>
    rw [inputBytes, inputByte_ok h (by omega), bind_ok, ih (k + 1) (by omega), bind_ok, List.range_succ_eq_map]
    simp [Function.comp_def, Nat.add_assoc, Nat.add_comm 1]

/-! ### Running a command -/

theorem runCommand_ready {body : State → Except Trap State} {s : State} (h : s.ready = true) :
    runCommand body s = finish (accept s) (body (accept s)) := by
  rw [runCommand, if_pos h]

theorem runCommand_ignored {body : State → Except Trap State} {s : State} (h : s.ready = false) :
    runCommand body s = .next s := by
  rw [runCommand, h]; simp

/-- A body that reaches its end completes the command. -/
theorem runCommand_completes {body : State → Except Trap State} {s t : State} (h : s.ready = true)
    (hb : body (accept s) = .ok t) : runCommand body s = .next (complete t) := by
  rw [runCommand_ready h, hb]; rfl

/-- A body that raises a decode or pre-check fault leaves everything but STATUS and FAULT_INFO. -/
theorem runCommand_faults {body : State → Except Trap State} {s : State} {c : Cause} {info : Word}
    (h : s.ready = true) (hb : body (accept s) = .error (.raise c info)) (hc : c ≠ .outOverflow) :
    runCommand body s = .next (faulted c info s) := by
  rw [runCommand_ready h, hb]; simp only [finish, if_neg hc]; rfl

/-- A body that raises OUT_OVERFLOW leaves the drawn state. -/
theorem runCommand_overflows {body : State → Except Trap State} {s : State} {info : Word}
    (h : s.ready = true) (hb : body (accept s) = .error (.raise .outOverflow info)) :
    runCommand body s = .next (takeFault .outOverflow info (drawAfterOverflow (accept s))) := by
  rw [runCommand_ready h, hb]; rfl

/-- Every way a command can end. -/
theorem runCommand_cases {body : State → Except Trap State} {s t : State}
    (h : runCommand body s = .next t) :
    (s.ready = false ∧ t = s) ∨
    (s.ready = true ∧ ∃ u, body (accept s) = .ok u ∧ t = complete u) ∨
    (s.ready = true ∧ ∃ c info, body (accept s) = .error (.raise c info) ∧ c ≠ .outOverflow ∧
      t = faulted c info s) ∨
    (s.ready = true ∧ ∃ info, body (accept s) = .error (.raise .outOverflow info) ∧
      t = takeFault .outOverflow info (drawAfterOverflow (accept s))) := by
  cases hr : s.ready with
  | false => rw [runCommand_ignored hr] at h; cases h; exact .inl ⟨rfl, rfl⟩
  | true =>
    refine .inr ?_
    rw [runCommand_ready hr] at h
    cases hb : body (accept s) with
    | ok u => rw [hb] at h; cases h; exact .inl ⟨rfl, u, rfl, rfl⟩
    | error e =>
      cases e with
      | stop f => rw [hb] at h; cases h
      | raise c info =>
        rw [hb] at h
        by_cases hc : c = .outOverflow
        · subst hc; cases h; exact .inr (.inr ⟨rfl, info, rfl, rfl⟩)
        · simp only [finish, if_neg hc] at h
          cases h
          exact .inr (.inl ⟨rfl, c, info, rfl, hc, rfl⟩)

/-- A command goes on unless its body stops the model. -/
theorem runCommand_goesOn {body : State → Except Trap State} {s : State}
    (h : s.ready = true → ∀ f, body (accept s) ≠ .error (.stop f)) : GoesOn (runCommand body s) := by
  cases hr : s.ready with
  | false => exact ⟨s, runCommand_ignored hr⟩
  | true =>
    rw [runCommand_ready hr]
    cases hb : body (accept s) with
    | ok u => exact ⟨_, rfl⟩
    | error e =>
      cases e with
      | stop f => exact absurd hb (h hr f)
      | raise c info => exact ⟨_, rfl⟩

/-- The status of an accepted command's completion is the accepted state's, with DONE set. -/
theorem complete_accept (s : State) : complete (accept s) = { s with status := okStatus s.status } := rfl

theorem ready_iff {s : State} :
    s.ready = true ↔ s.rst = false ∧ s.status.busy = false ∧ s.status.fault = false := by
  simp [State.ready, and_assoc]

/-! ### Memory after draws -/

theorem memByte_drawOutput (k : Nat) (base : Word) (start n : Nat) (m : Memory) (a : Nat)
    (ha : ∀ j, start ≤ j → j < start + n → (base + word j).toNat ≠ a) :
    memByte (drawOutput k base start n m) a = memByte m a := by
  induction n generalizing m with
  | zero => rfl
  | succ n ih =>
    rw [drawOutput, ih _ (fun j h1 h2 => ha j h1 (by omega)), memByte_storeByte,
      if_neg (ha (start + n) (by omega) (by omega))]

/-- An OUT_OVERFLOW draws no byte but those from OUTPOS to OUT_CAP - 1. -/
theorem memByte_drawAfterOverflow {s : State} (h : regionsOk s = true) (a : Nat)
    (ha : a < s.outBase.toNat + s.outPos.toNat ∨ s.outBase.toNat + s.outCap.toNat ≤ a) :
    memByte (drawAfterOverflow s).mem a = memByte s.mem a := by
  have hr := regionsOk_out h
  refine memByte_drawOutput _ _ _ _ _ _ (fun j h1 h2 => ?_)
  have hj : j < 2 ^ 32 := by omega
  rw [BitVec.toNat_add, BitVec.toNat_ofNat, Nat.mod_eq_of_lt hj, Nat.mod_eq_of_lt (by omega)]
  omega

end Sys2Proof.Laws
end

