-- ==== Sys2Proof/Laws/Bus.lean ====
section
/-! SUPPORT. What a register access at an address does, and which words the launch premises name. -/

namespace Sys2Proof.Laws

open Sys2Proof.Machine

/-! ### The window at P_REG_BASE -/

/-- An address in the window has its own offset. -/
@[simp] theorem windowOffset_at (offset : BitVec 8) (s : State) :
    windowOffset (s.params.regBase + offset.toNat) s = some offset := by
  have := offset.isLt
  rw [windowOffset, if_pos (by omega), Nat.add_sub_cancel_left, BitVec.ofNat_toNat, BitVec.setWidth_eq]

/-- CMD is the register at P_REG_BASE. -/
@[simp] theorem windowOffset_base (s : State) : windowOffset s.params.regBase s = some cmdOffset :=
  windowOffset_at 0 s

/-- The only address of CMD is P_REG_BASE. -/
theorem windowOffset_cmd {addr : Nat} {s : State} (h : windowOffset addr s = some cmdOffset) :
    addr = s.params.regBase := by
  unfold windowOffset at h
  split at h
  · rename_i hw
    have := congrArg BitVec.toNat (Option.some.inj h)
    rw [BitVec.toNat_ofNat, Nat.mod_eq_of_lt (by omega)] at this
    change _ = 0 at this
    omega
  · cases h

/-- Any other address is outside the window. -/
theorem windowOffset_outside {addr : Nat} {s : State}
    (h : addr < s.params.regBase ∨ s.params.regBase + 256 ≤ addr) : windowOffset addr s = none := by
  rw [windowOffset, if_neg (by omega)]

/-- A write at P_REG_BASE is a write of CMD. -/
theorem hostWrite_base (v : Word) (s : State) : hostWrite s.params.regBase v s = commandWrite v s := by
  simp [hostWrite, busWrite, aligned]

/-! ### The launch premises -/

/-- A clean engine takes any command. -/
theorem P_clean_ready {s : State} (h : P_clean s) : s.ready = true := by
  obtain ⟨hw, hr⟩ := h
  have : s.status.busy = false ∧ s.status.fault = false := by
    generalize s.status = t at hw
    obtain ⟨b, d, f, c⟩ := t
    revert hw
    cases b <;> cases d <;> cases f <;> cases c <;> decide
  exact ready_iff.mpr ⟨hr, this.1, this.2⟩

/-- The regions of P_regions are the ones the region check passes. -/
theorem P_regions_iff {s : State} : P_regions s ↔ regionsOk s = true := by
  constructor
  · intro h
    by_contra hc
    obtain ⟨n, hn⟩ := failsRegion_of_not (Bool.eq_false_iff.mpr hc)
    exact h n hn
  · intro h n hn
    have := regionCheck_fails hn
    rw [regionCheck_ok.mpr h] at this
    cases this

end Sys2Proof.Laws
end

