-- ==== Sys2Proof/Laws/Match.lean ====
section
/-! SUPPORT. The match finder: its reads stay in the input, its search changes nothing but the count of open values,
and a match it returns is true. -/

namespace Sys2Proof.Laws

open Sys2Proof.Machine

/-- The bucket of a position with four bytes left. -/
theorem hash4_ok {s : State} {p : Nat} (h : regionsOk s = true) (hp : p + 4 ≤ s.inLen.toNat) :
    hash4 s p = .ok (bucketAt s p) := by
  rw [hash4, inputByte_ok h (by omega), bind_ok, inputByte_ok h (by omega), bind_ok, inputByte_ok h (by omega),
    bind_ok, inputByte_ok h (by omega), bind_ok]
  rfl

/-- A bucket number is below HASH_SIZE, whatever the hash function (R7). -/
theorem hashBytes_lt (P : Params) (b0 b1 b2 b3 : Byte) : hashBytes P b0 b1 b2 b3 < 2 ^ P.hashBits := by
  unfold hashBytes
  split
  · rw [Nat.div_lt_iff_lt_mul (Nat.two_pow_pos _), ← Nat.pow_add]
    exact lt_of_lt_of_le (Nat.mod_lt _ (Nat.two_pow_pos _)) (Nat.pow_le_pow_right (by omega) (by omega))
  · exact Nat.mod_lt _ (Nat.two_pow_pos _)

theorem hash4_lt {s : State} {p h : Nat} (hh : hash4 s p = .ok h) : h < hashSize s := by
  simp only [hash4, bind_eq_ok] at hh
  obtain ⟨_, -, _, -, _, -, _, -, hh⟩ := hh
  cases hh
  exact hashBytes_lt _ _ _ _ _

/-- Insert(p) with four bytes left. -/
theorem insertPos_ok {s : State} {p : Nat} (h : regionsOk s = true) (hp : p + 4 ≤ s.inLen.toNat) :
    insertPos p s = .ok { s with
      prev := Cells.put s.prev (p % Config.win) (Cells.get Config.nil s.head (bucketAt s p))
      head := Cells.set Config.nil s.head (bucketAt s p) (word p) } := by
  rw [insertPos, hash4_ok h hp, bind_ok]

/-! ### Common prefixes -/

theorem matchLen_ok {s : State} (h : regionsOk s = true) (n c p : Nat) (hc : c + n ≤ s.inLen.toNat)
    (hp : p + n ≤ s.inLen.toNat) : matchLen s c p n = .ok (prefixLength s c p n) := by
  induction n generalizing c p with
  | zero => rfl
  | succ n ih =>
    rw [matchLen, inputByte_ok h (by omega), bind_ok, inputByte_ok h (by omega), bind_ok, prefixLength]
    split
    · rw [ih _ _ (by omega) (by omega), bind_ok, Nat.add_comm]
    · rfl

theorem prefixLength_le (s : State) (c p n : Nat) : prefixLength s c p n ≤ n := by
  induction n generalizing c p with
  | zero => simp [prefixLength]
  | succ n ih => rw [prefixLength]; split; · have := ih (c + 1) (p + 1); omega
                 · omega

/-- Below the common prefix the bytes agree. -/
theorem prefixLength_agree (s : State) (n c p k : Nat) (hk : k < prefixLength s c p n) :
    inputAt s (c + k) = inputAt s (p + k) := by
  induction n generalizing c p k with
  | zero => simp [prefixLength] at hk
  | succ n ih =>
    rw [prefixLength] at hk
    split at hk
    · rename_i he
      cases k with
      | zero => exact he
      | succ k =>
        have := ih (c + 1) (p + 1) k (by omega)
        rwa [show c + 1 + k = c + (k + 1) by omega, show p + 1 + k = p + (k + 1) by omega] at this
    · omega

/-- A common prefix shorter than the cap ends at a difference. -/
theorem prefixLength_differ (s : State) (n c p : Nat) (h : prefixLength s c p n < n) :
    inputAt s (c + prefixLength s c p n) ≠ inputAt s (p + prefixLength s c p n) := by
  induction n generalizing c p with
  | zero => omega
  | succ n ih =>
    rw [prefixLength] at h ⊢
    split at h
    · rename_i he
      rw [if_pos he]
      have := ih (c + 1) (p + 1) (by omega)
      rwa [show c + 1 + prefixLength s (c + 1) (p + 1) n = c + (1 + prefixLength s (c + 1) (p + 1) n) by omega,
        show p + 1 + prefixLength s (c + 1) (p + 1) n = p + (1 + prefixLength s (c + 1) (p + 1) n) by omega] at this
    · rename_i he; rw [if_neg he]; exact he

/-- The common prefix is R175's match length, and the only number that is. -/
theorem isMatchLen_iff {s : State} {c p maxLen n : Nat} :
    IsMatchLen s c p maxLen n ↔ n = prefixLength s c p maxLen := by
  constructor
  · rintro ⟨h1, h2, h3⟩
    have hle := prefixLength_le s c p maxLen
    rcases Nat.lt_trichotomy n (prefixLength s c p maxLen) with h | h | h
    · exact absurd (prefixLength_agree s maxLen c p n h) (h3 (by omega))
    · exact h
    · exact absurd (h2 _ h) (prefixLength_differ s maxLen c p (by omega))
  · rintro rfl
    exact ⟨prefixLength_le .., fun k => prefixLength_agree s maxLen c p k, prefixLength_differ s maxLen c p⟩

/-! ### The search -/

/-- A true match of the window at p (R179). -/
def TrueMatch (s : State) (p maxLen len off : Nat) : Prop :=
  4 ≤ len ∧ len ≤ maxLen ∧ 1 ≤ off ∧ off ≤ 32767 ∧ off ≤ p ∧
    ∀ k, k < len → inputAt s (p - off + k) = inputAt s (p + k)

/-- u is s but for the count of open values. -/
def DrawsOnly (s u : State) : Prop := u = { s with draws := u.draws }

theorem DrawsOnly.trans {s t u : State} (h1 : DrawsOnly s t) (h2 : DrawsOnly t u) : DrawsOnly s u := by
  unfold DrawsOnly at *; rw [h2, h1]

theorem readPrev_drawsOnly (i : Nat) (s : State) : DrawsOnly s (readPrev i s).2 := by
  unfold readPrev; split <;> rfl

/-- What a valid candidate is (R171). -/
theorem validCandidate_iff {c : Word} {p : Nat} :
    validCandidate c p = true ↔ c ≠ Config.nil ∧ c.toNat < p ∧ p < c.toNat + 32768 := by
  simp [validCandidate, Config.win, and_assoc]

/-- Examining a candidate reads only the input, and an accepted length is a longer common prefix of at least 4. -/
theorem examine_accepts {s : State} {c p maxLen best : Nat} (h : regionsOk s = true) (hc : c < p)
    (hp : p + maxLen ≤ s.inLen.toNat) (h4 : 4 ≤ maxLen) (hb : best < maxLen) :
    ∃ o, examine s c p maxLen best = .ok o ∧
      ∀ n, o = some n → 4 ≤ n ∧ n ≤ maxLen ∧ best < n ∧ ∀ k, k < n → inputAt s (c + k) = inputAt s (p + k) := by
  rw [examine, inputByte_ok h (by omega), bind_ok, inputByte_ok h (by omega), bind_ok]
  split
  · exact ⟨none, rfl, by simp⟩
  · rw [matchLen_ok h _ _ _ (by omega) (by omega), bind_ok]
    split
    · exact ⟨none, rfl, by simp⟩
    · rename_i h4'
      rw [not_not] at h4'
      rw [matchLen_ok h _ _ _ (by omega) (by omega), bind_ok]
      refine ⟨_, rfl, fun n hn => ?_⟩
      split at hn
      · cases hn
        have hle := prefixLength_le s (c + 4) (p + 4) (maxLen - 4)
        refine ⟨by omega, by omega, by omega, fun k hk => ?_⟩
        by_cases hk4 : k < 4
        · exact prefixLength_agree s 4 c p k (by omega)
        · have := prefixLength_agree s (maxLen - 4) (c + 4) (p + 4) (k - 4) (by omega)
          rwa [show c + 4 + (k - 4) = c + k by omega, show p + 4 + (k - 4) = p + k by omega] at this
      · cases hn

/-- The candidate loop ends, changes nothing but the count of open values, and its result is no match or a true
one. -/
theorem walkChain_spec {p maxLen : Nat} (h4 : 4 ≤ maxLen) (hops : Nat) (c : Word) (len off : Nat) (s : State)
    (h : regionsOk s = true) (hp : p + maxLen ≤ s.inLen.toNat) (hl : len < maxLen)
    (hi : (len, off) = (0, 0) ∨ TrueMatch s p maxLen len off) :
    ∃ r u, walkChain p maxLen hops c len off s = .ok (r, u) ∧ DrawsOnly s u ∧
      (r = (0, 0) ∨ TrueMatch s p maxLen r.1 r.2) := by
  induction hops generalizing c len off s with
  | zero => exact ⟨_, s, rfl, rfl, hi⟩
  | succ hops ih =>
    rw [walkChain]
    split
    · rename_i hv
      obtain ⟨-, hv1, hv2⟩ := validCandidate_iff.mp hv
      obtain ⟨o, ho, hacc⟩ := examine_accepts h hv1 hp h4 hl
      simp only [ho, bind_ok]
      -- the best so far, after this candidate
      have hb : ((match o with | some n => (n, p - c.toNat) | none => (len, off)) = (0, 0) ∨
          TrueMatch s p maxLen (match o with | some n => (n, p - c.toNat) | none => (len, off)).1
            (match o with | some n => (n, p - c.toNat) | none => (len, off)).2) := by
        cases o with
        | none => exact hi
        | some n =>
          obtain ⟨a1, a2, -, a4⟩ := hacc n rfl
          refine .inr (show TrueMatch s p maxLen n (p - c.toNat) from ?_)
          refine ⟨a1, a2, by omega, by omega, by omega, fun k hk => ?_⟩
          rw [show p - (p - c.toNat) = c.toNat by omega]
          exact a4 k hk
      split
      · exact ⟨_, s, rfl, rfl, hb⟩
      · rename_i hne
        split
        · exact ⟨_, s, rfl, rfl, hb⟩
        · have hd := readPrev_drawsOnly (c.toNat % Config.win) s
          generalize readPrev (c.toNat % Config.win) s = r at hd ⊢
          have hlt : (match o with | some n => (n, p - c.toNat) | none => (len, off)).1 < maxLen := by
            cases o with
            | none => exact hl
            | some n =>
              have := (hacc n rfl).2.1
              rcases Nat.lt_or_ge n maxLen with h' | h'
              · exact h'
              · exact absurd (by rw [show n = maxLen by omega]) hne
          have key := ih r.1 _ _ r.2 (by rw [hd]; exact h) (by rw [hd]; exact hp) hlt (by rw [hd]; exact hb)
          obtain ⟨x, u, hu, hdu, hx⟩ := key
          refine ⟨x, u, hu, hd.trans hdu, ?_⟩
          rw [hd] at hx
          exact hx
    · exact ⟨_, s, rfl, rfl, hi⟩

/-- FindMatch where R177 has its preconditions. -/
theorem findMatch_spec {p depth maxLen : Nat} {s : State} (h : regionsOk s = true) (h4 : 4 ≤ maxLen)
    (hp : p + maxLen ≤ s.inLen.toNat) :
    ∃ r u, findMatch p depth maxLen s = .ok (r, u) ∧ DrawsOnly s u ∧
      (r = (0, 0) ∨ TrueMatch s p maxLen r.1 r.2) := by
  rw [findMatch, hash4_ok h (by omega), bind_ok]
  exact walkChain_spec h4 _ _ _ _ _ h hp (by omega) (.inl rfl)

end Sys2Proof.Laws
end

