-- ==== Sys2Proof/Laws/Writer.lean ====
section
/-! SUPPORT. The bit writer: what OutByte, the flush loop and Emit do, and that a sequence of Emits appends its fields
to the stream, or raises OUT_OVERFLOW at the first byte without room. -/

namespace Sys2Proof.Laws

open Sys2Proof.Machine

/-! ### Flushing bytes -/

/-- Memory with the `n` low bytes of a number stored from an address on, the lowest first. -/
def storeBytes : Nat → Nat → Nat → Memory → Memory
  | 0, _, _, m => m
  | n + 1, addr, acc, m => storeBytes n (addr + 1) (acc / 2 ^ 8) (storeByte m addr (byte acc))

/-- The byte at an address after the store. -/
theorem memByte_storeBytes (n addr acc : Nat) (m : Memory) (a : Nat) :
    memByte (storeBytes n addr acc m) a =
      if addr ≤ a ∧ a < addr + n then byte (acc / 2 ^ (8 * (a - addr))) else memByte m a := by
  induction n generalizing addr acc m with
  | zero => rw [if_neg (by omega)]; rfl
  | succ n ih =>
    rw [storeBytes, ih, memByte_storeByte]
    by_cases h : addr = a
    · subst h; simp
    · by_cases h2 : addr + 1 ≤ a ∧ a < addr + 1 + n
      · have e : 8 * (a - addr) = 8 + 8 * (a - (addr + 1)) := by omega
        rw [if_pos h2, if_pos (by omega), Nat.div_div_eq_div_mul, ← Nat.pow_add, e]
      · rw [if_neg h2, if_neg h, if_neg (by omega)]

/-- Memory with bytes stored at existing addresses is canonical. -/
theorem wf_storeBytes (n addr acc : Nat) (m : Memory) (hm : Memory.wf m) (ha : addr + n ≤ 2 ^ 32) :
    Memory.wf (storeBytes n addr acc m) := by
  induction n generalizing addr acc m with
  | zero => exact hm
  | succ n ih => exact ih _ _ _ (Memory.wf_storeByte _ hm (by simp only [Config.memSize]; omega)) (by omega)

/-- OutByte with room for the byte. -/
theorem outByte_ok {v : Byte} {s : State} (h : s.outBase.toNat + s.outCap.toNat ≤ 2 ^ 32)
    (hr : s.outPos.toNat < s.outCap.toNat) :
    outByte v s = .ok { s with
      mem := storeByte s.mem (s.outBase.toNat + s.outPos.toNat) v, outPos := word (s.outPos.toNat + 1) } := by
  rw [outByte, decide_eq_true hr, check_true, bind_ok, memWrite,
    if_pos (by simp only [Config.memSize]; omega)]
  rfl

/-- OutByte with no room. -/
theorem outByte_full {v : Byte} {s : State} (hr : s.outCap.toNat ≤ s.outPos.toNat) :
    outByte v s = .error (.raise .outOverflow s.outPos) := by
  rw [outByte, decide_eq_false (by omega), check_false]; rfl

theorem word_toNat_of_lt {n : Nat} (h : n < 2 ^ 32) : (word n).toNat = n := by
  rw [BitVec.toNat_ofNat, Nat.mod_eq_of_lt h]

/-- The flush loop with room for its bytes. -/
theorem flushBytes_ok (n acc : Nat) (s : State) (h : s.outBase.toNat + s.outCap.toNat ≤ 2 ^ 32)
    (hr : s.outPos.toNat + n ≤ s.outCap.toNat) :
    flushBytes n acc s = .ok { s with
      mem := storeBytes n (s.outBase.toNat + s.outPos.toNat) acc s.mem, outPos := word (s.outPos.toNat + n) } := by
  induction n generalizing acc s with
  | zero => simp [flushBytes, storeBytes]
  | succ n ih =>
    have hp : (word (s.outPos.toNat + 1)).toNat = s.outPos.toNat + 1 := word_toNat_of_lt (by omega)
    rw [flushBytes, outByte_ok h (by omega), bind_ok, ih _ _ (by exact h) (by simp only [hp]; omega)]
    simp only [hp, storeBytes, Nat.add_assoc, Nat.add_comm 1 n]

/-- The flush loop without room for all its bytes. -/
theorem flushBytes_full (n acc : Nat) (s : State) (h : s.outBase.toNat + s.outCap.toNat ≤ 2 ^ 32) (hn : 0 < n)
    (hr : s.outCap.toNat < s.outPos.toNat + n) :
    flushBytes n acc s = .error (.raise .outOverflow (word (max s.outPos.toNat s.outCap.toNat))) := by
  induction n generalizing acc s with
  | zero => omega
  | succ n ih =>
    by_cases hf : s.outCap.toNat ≤ s.outPos.toNat
    · rw [flushBytes, outByte_full hf, bind_error, Nat.max_eq_left hf]
      simp [word]
    · have hp : (word (s.outPos.toNat + 1)).toNat = s.outPos.toNat + 1 := word_toNat_of_lt (by omega)
      rw [flushBytes, outByte_ok h (by omega), bind_ok]
      rw [ih _ _ (by exact h) (by omega) (by simp only [hp]; omega)]
      simp only [hp]
      rw [Nat.max_eq_right (by omega), Nat.max_eq_right (by omega)]

/-! ### Emit -/

/-- The writer after a number of `cnt` bits, pending bits included, went through it. -/
def flushed (acc cnt : Nat) (s : State) : State :=
  { s with
    mem := storeBytes (cnt / 8) (s.outBase.toNat + s.outPos.toNat) acc s.mem
    outPos := word (s.outPos.toNat + cnt / 8)
    bitBuf := word (acc / 2 ^ (8 * (cnt / 8)))
    bitCnt := BitVec.ofNat 6 (cnt % 8) }

/-- Emit with room for the bytes it completes. -/
theorem emit_ok {code n : Nat} {s : State} (h : s.outBase.toNat + s.outCap.toNat ≤ 2 ^ 32) (hn : n ≤ 32)
    (hf : s.bitCnt.toNat + n ≤ 32)
    (hr : 0 < (s.bitCnt.toNat + n) / 8 → s.outPos.toNat + (s.bitCnt.toNat + n) / 8 ≤ s.outCap.toNat) :
    emit code n s =
      .ok (flushed (s.bitBuf.toNat + code % 2 ^ n * 2 ^ s.bitCnt.toNat) (s.bitCnt.toNat + n) s) := by
  rw [emit, emitFits, decide_eq_true hn, decide_eq_true hf, Bool.and_self, check_true, bind_ok]
  rcases Nat.eq_zero_or_pos ((s.bitCnt.toNat + n) / 8) with h0 | h0
  · simp [h0, flushBytes, flushed, storeBytes]
  · simp only [flushBytes_ok _ _ _ h (hr h0), bind_ok, flushed]

/-- Emit without room for all the bytes it completes. -/
theorem emit_full {code n : Nat} {s : State} (h : s.outBase.toNat + s.outCap.toNat ≤ 2 ^ 32) (hn : n ≤ 32)
    (hf : s.bitCnt.toNat + n ≤ 32) (h0 : 0 < (s.bitCnt.toNat + n) / 8)
    (hr : s.outCap.toNat < s.outPos.toNat + (s.bitCnt.toNat + n) / 8) :
    emit code n s = .error (.raise .outOverflow (word (max s.outPos.toNat s.outCap.toNat))) := by
  rw [emit, emitFits, decide_eq_true hn, decide_eq_true hf, Bool.and_self, check_true, bind_ok]
  simp only [flushBytes_full _ _ _ h h0 hr, bind_error]

/-- t is s but for the bit writer and memory. -/
def WriterOnly (s t : State) : Prop :=
  t = { s with mem := t.mem, outPos := t.outPos, bitBuf := t.bitBuf, bitCnt := t.bitCnt }

theorem WriterOnly.refl (s : State) : WriterOnly s s := rfl

theorem WriterOnly.trans {s t u : State} (h1 : WriterOnly s t) (h2 : WriterOnly t u) : WriterOnly s u := by
  unfold WriterOnly at *; rw [h2, h1]

theorem outByte_frame {v : Byte} {s t : State} (h : outByte v s = .ok t) : WriterOnly s t := by
  simp only [outByte, memWrite, bind_eq_ok] at h
  obtain ⟨_, -, u, hu, h⟩ := h
  split at hu
  · cases hu; cases h; rfl
  · cases hu

theorem flushBytes_frame {n acc : Nat} {s t : State} (h : flushBytes n acc s = .ok t) : WriterOnly s t := by
  induction n generalizing acc s with
  | zero => cases h; rfl
  | succ n ih =>
    rw [flushBytes, bind_eq_ok] at h
    obtain ⟨u, hu, h⟩ := h
    exact (outByte_frame hu).trans (ih h)

/-- Whatever Emit does, it changes only memory, OUTPOS, BITBUF and BITCNT. -/
theorem emit_frame {code n : Nat} {s t : State} (h : emit code n s = .ok t) : WriterOnly s t := by
  simp only [emit, bind_eq_ok] at h
  obtain ⟨_, -, u, hu, h⟩ := h
  cases h
  have e := flushBytes_frame hu
  unfold WriterOnly at e ⊢
  rw [e]

/-! ### Sequences of Emits -/

/-- The Emits of a list of fields, in order. -/
def emitAll : List (Nat × Nat) → State → Except Trap State
  | [], s => .ok s
  | (code, n) :: rest, s => emit code n s >>= emitAll rest

@[simp] theorem emitAll_nil (s : State) : emitAll [] s = .ok s := rfl

theorem emitAll_cons (code n : Nat) (rest : List (Nat × Nat)) (s : State) :
    emitAll ((code, n) :: rest) s = emit code n s >>= emitAll rest := rfl

theorem emitAll_append (xs ys : List (Nat × Nat)) (s : State) :
    emitAll (xs ++ ys) s = emitAll xs s >>= emitAll ys := by
  induction xs generalizing s with
  | nil => rfl
  | cons x xs ih =>
    obtain ⟨c, n⟩ := x
    simp only [List.cons_append, emitAll_cons]
    cases emit c n s with
    | error e => rfl
    | ok t => exact ih t

theorem emitAll_frame {fields : List (Nat × Nat)} {s t : State} (h : emitAll fields s = .ok t) : WriterOnly s t := by
  induction fields generalizing s with
  | nil => cases h; exact .refl _
  | cons x xs ih =>
    obtain ⟨c, n⟩ := x
    rw [emitAll_cons, bind_eq_ok] at h
    obtain ⟨u, hu, h⟩ := h
    exact (emit_frame hu).trans (ih h)

theorem streamBytes_nil {s : State} (h : WriterLegal s) : streamBytes s [] = 0 := by
  simp only [streamBytes, fieldsWidth]; have := h.1; omega

/-- Nothing appended. -/
theorem Appended.nil {s : State} (h : WriterLegal s) : Appended s s [] := by
  have h0 := streamBytes_nil h
  have h1 := h.1
  refine ⟨by simp [h0], ?_, ?_, ?_, fun a _ => rfl⟩
  · simp only [fieldsWidth, Nat.add_zero]; omega
  · simp [h0, streamValue, fieldsValue]
  · intro j hj; omega

theorem flushed_appended {code n : Nat} {s : State} (hl : WriterLegal s)
    (hr : HasRoom s [(code, n)]) :
    let t := flushed (s.bitBuf.toNat + code % 2 ^ n * 2 ^ s.bitCnt.toNat) (s.bitCnt.toNat + n) s
    Appended s t [(code, n)] ∧ WriterLegal t := by
  intro t
  obtain ⟨hb, hv⟩ := hl
  have hsb : streamBytes s [(code, n)] = (s.bitCnt.toNat + n) / 8 := by simp [streamBytes, fieldsWidth]
  have hsv : streamValue s [(code, n)] = s.bitBuf.toNat + code % 2 ^ n * 2 ^ s.bitCnt.toNat := by
    simp [streamValue, fieldsValue]
  rw [HasRoom, hsb] at hr
  have hcap := s.outCap.isLt
  have hpos := s.outPos.isLt
  -- the number has as many bits as the count says
  have hlt : streamValue s [(code, n)] < 2 ^ (s.bitCnt.toNat + n) := by
    rw [hsv, Nat.pow_add]
    have hc : code % 2 ^ n < 2 ^ n := Nat.mod_lt _ (Nat.two_pow_pos _)
    calc _ < 2 ^ s.bitCnt.toNat + code % 2 ^ n * 2 ^ s.bitCnt.toNat := Nat.add_lt_add_right hv _
      _ = (code % 2 ^ n + 1) * 2 ^ s.bitCnt.toNat := by ring
      _ ≤ 2 ^ n * 2 ^ s.bitCnt.toNat := Nat.mul_le_mul_right _ hc
      _ = _ := Nat.mul_comm _ _
  have hdiv : streamValue s [(code, n)] / 2 ^ (8 * ((s.bitCnt.toNat + n) / 8)) < 2 ^ ((s.bitCnt.toNat + n) % 8) := by
    rw [Nat.div_lt_iff_lt_mul (Nat.two_pow_pos _), ← Nat.pow_add]
    calc _ < 2 ^ (s.bitCnt.toNat + n) := hlt
      _ = _ := by congr 1; omega
  have hbuf : t.bitBuf.toNat = streamValue s [(code, n)] / 2 ^ (8 * ((s.bitCnt.toNat + n) / 8)) := by
    show (word _).toNat = _
    rw [← hsv, word_toNat_of_lt]
    exact lt_of_lt_of_le hdiv (Nat.pow_le_pow_right (by omega) (by omega))
  have hcnt : t.bitCnt.toNat = (s.bitCnt.toNat + n) % 8 := by
    show (BitVec.ofNat 6 _).toNat = _
    rw [BitVec.toNat_ofNat, Nat.mod_eq_of_lt (by omega)]
  refine ⟨⟨?_, ?_, ?_, ?_, ?_⟩, ?_⟩
  · show (word _).toNat = _
    rw [hsb, word_toNat_of_lt]
    rcases Nat.eq_zero_or_pos ((s.bitCnt.toNat + n) / 8) with h0 | h0
    · omega
    · have := hr h0; omega
  · simpa [fieldsWidth] using hcnt
  · rw [hsb]; exact hbuf
  · intro j hj
    show memByte (storeBytes _ _ _ _) _ = _
    rw [memByte_storeBytes, if_pos (by omega), hsv]
    congr 3; omega
  · intro a ha
    show memByte (storeBytes _ _ _ _) _ = _
    rw [memByte_storeBytes, if_neg (by omega)]
  · refine ⟨by omega, ?_⟩
    rw [hbuf, hcnt]; exact hdiv

theorem streamBytes_cons {s u : State} {code n : Nat} {rest : List (Nat × Nat)}
    (hu : Appended s u [(code, n)]) :
    streamBytes s ((code, n) :: rest) = streamBytes s [(code, n)] + streamBytes u rest := by
  have hc := hu.2.1
  simp only [streamBytes, fieldsWidth, Nat.add_zero] at hc ⊢
  rw [hc]; omega

/-- The bits of a field and then of the rest. -/
theorem streamValue_cons {s u : State} {code n : Nat} {rest : List (Nat × Nat)}
    (hu : Appended s u [(code, n)]) :
    streamValue s ((code, n) :: rest) / 2 ^ (8 * streamBytes s [(code, n)]) = streamValue u rest := by
  obtain ⟨-, hc, hb, -, -⟩ := hu
  have e1 : streamValue s ((code, n) :: rest) =
      streamValue s [(code, n)] + fieldsValue rest * 2 ^ (s.bitCnt.toNat + n) := by
    simp only [streamValue, fieldsValue, Nat.mul_zero, Nat.add_zero, Nat.pow_add]; ring
  have e2 : s.bitCnt.toNat + n = 8 * streamBytes s [(code, n)] + u.bitCnt.toNat := by
    rw [hc]; simp only [streamBytes, fieldsWidth, Nat.add_zero]; omega
  rw [e1, e2, Nat.pow_add, show fieldsValue rest * (2 ^ (8 * streamBytes s [(code, n)]) * 2 ^ u.bitCnt.toNat) =
    2 ^ (8 * streamBytes s [(code, n)]) * (fieldsValue rest * 2 ^ u.bitCnt.toNat) by ring,
    Nat.add_mul_div_left _ _ (Nat.two_pow_pos _), ← hb]
  rfl

theorem byte_streamValue_cons {s : State} {code n j : Nat} {rest : List (Nat × Nat)}
    (hj : j < streamBytes s [(code, n)]) :
    byte (streamValue s ((code, n) :: rest) / 2 ^ (8 * j)) = byte (streamValue s [(code, n)] / 2 ^ (8 * j)) := by
  simp only [streamBytes, fieldsWidth, Nat.add_zero] at hj
  have e : streamValue s ((code, n) :: rest) = streamValue s [(code, n)] +
      2 ^ (8 * j) * (2 ^ 8 * (fieldsValue rest * 2 ^ (s.bitCnt.toNat + n - 8 * j - 8))) := by
    have : s.bitCnt.toNat + n = 8 * j + 8 + (s.bitCnt.toNat + n - 8 * j - 8) := by omega
    simp only [streamValue, fieldsValue, Nat.mul_zero, Nat.add_zero]
    generalize s.bitCnt.toNat + n - 8 * j - 8 = r at this ⊢
    calc _ = s.bitBuf.toNat + code % 2 ^ n * 2 ^ s.bitCnt.toNat + fieldsValue rest * 2 ^ (s.bitCnt.toNat + n) := by
          rw [Nat.pow_add]; ring
      _ = _ := by rw [this, Nat.pow_add, Nat.pow_add]; ring
  apply BitVec.eq_of_toNat_eq
  simp only [BitVec.toNat_ofNat]
  rw [e, Nat.add_mul_div_left _ _ (Nat.two_pow_pos _), Nat.add_mul_mod_self_left]

/-- Appending a field and then the rest appends both. -/
theorem Appended.cons {s u t : State} {code n : Nat} {rest : List (Nat × Nat)} (hu : Appended s u [(code, n)])
    (hf : WriterOnly s u) (ht : Appended u t rest) : Appended s t ((code, n) :: rest) := by
  have hb := streamBytes_cons (rest := rest) hu
  have hv := streamValue_cons (rest := rest) hu
  have hbase : u.outBase = s.outBase := by rw [hf]
  obtain ⟨t1, t2, t3, t4, t5⟩ := ht
  have hu' := hu
  obtain ⟨u1, u2, u3, u4, u5⟩ := hu
  simp only [hbase, u1] at t4 t5
  refine ⟨by rw [t1, u1, hb]; omega, ?_, ?_, ?_, ?_⟩
  · rw [t2, u2]; simp only [fieldsWidth, Nat.add_zero]; omega
  · rw [t3, hb, ← hv, Nat.div_div_eq_div_mul, ← Nat.pow_add, Nat.mul_add]
  · intro j hj
    by_cases hlt : j < streamBytes s [(code, n)]
    · rw [t5 _ (.inl (by omega)), u4 j hlt]; exact (byte_streamValue_cons hlt).symm
    · have := t4 (j - streamBytes s [(code, n)]) (by omega)
      rw [← hv, Nat.div_div_eq_div_mul, ← Nat.pow_add, ← Nat.mul_add,
        show streamBytes s [(code, n)] + (j - streamBytes s [(code, n)]) = j by omega] at this
      rw [← this]; congr 1; omega
  · intro a ha
    rw [t5 a (by omega), u5 a (by omega)]

/-- What a sequence of Emits does, from a legal accumulator and with fields of at most 25 bits: with room it appends
the fields and leaves a legal accumulator; without it raises OUT_OVERFLOW at the first offset without room. -/
theorem emitAll_spec {fields : List (Nat × Nat)} {s : State} (hl : WriterLegal s)
    (h : s.outBase.toNat + s.outCap.toNat ≤ 2 ^ 32) (hw : ∀ x ∈ fields, x.2 ≤ 25) :
    (HasRoom s fields → ∃ t, emitAll fields s = .ok t ∧ Appended s t fields ∧ WriterLegal t) ∧
    (¬HasRoom s fields →
      emitAll fields s = .error (.raise .outOverflow (word (max s.outPos.toNat s.outCap.toNat)))) := by
  induction fields generalizing s with
  | nil =>
    refine ⟨fun _ => ⟨s, rfl, Appended.nil hl, hl⟩, fun hn => absurd ?_ hn⟩
    intro h0; rw [streamBytes_nil hl] at h0; omega
  | cons x rest ih =>
    obtain ⟨code, n⟩ := x
    have hn : n ≤ 25 := hw (code, n) (by simp)
    have hb := hl.1
    have hsb : streamBytes s [(code, n)] = (s.bitCnt.toNat + n) / 8 := by simp [streamBytes, fieldsWidth]
    by_cases h1 : HasRoom s [(code, n)]
    · have e := emit_ok (code := code) (n := n) h (by omega) (by omega) (by rw [HasRoom, hsb] at h1; exact h1)
      have ha := flushed_appended hl h1
      generalize hu : flushed (s.bitBuf.toNat + code % 2 ^ n * 2 ^ s.bitCnt.toNat) (s.bitCnt.toNat + n) s = u at e ha
      have hf : WriterOnly s u := by rw [← hu]; rfl
      have hcap : u.outCap = s.outCap := by rw [hf]
      have hbase : u.outBase = s.outBase := by rw [hf]
      have hpos := ha.1.1
      have hcons := streamBytes_cons (rest := rest) ha.1
      have hih := ih ha.2 (by rw [hcap, hbase]; exact h) (fun y hy => hw y (by simp [hy]))
      rw [emitAll_cons, e, bind_ok]
      rw [HasRoom] at h1
      constructor
      · intro hr
        have hr' : HasRoom u rest := by
          rw [HasRoom] at hr ⊢; rw [hcap]; omega
        obtain ⟨t, ht, hat, hlt⟩ := hih.1 hr'
        exact ⟨t, ht, Appended.cons ha.1 hf hat, hlt⟩
      · intro hr
        have hr' : ¬HasRoom u rest := by
          rw [HasRoom] at hr ⊢; rw [hcap]; omega
        rw [hih.2 hr', hcap]
        rw [HasRoom, hcap] at hr'
        congr 3
        omega
    · have h1' := h1
      rw [HasRoom, hsb] at h1
      have e := emit_full (code := code) (n := n) h (by omega) (by omega) (by omega) (by omega)
      refine ⟨fun hr => absurd ?_ h1', fun _ => by rw [emitAll_cons, e, bind_error]⟩
      have : streamBytes s [(code, n)] ≤ streamBytes s ((code, n) :: rest) := by
        simp only [streamBytes, fieldsWidth]; omega
      rw [HasRoom] at hr ⊢; omega

end Sys2Proof.Laws
end

