-- ==== Sys2Proof/Laws/Tokens.lean ====
section
/-! SUPPORT. The emission primitives of the block encoder as sequences of Emits: which fields each appends. -/

namespace Sys2Proof.Laws

open Sys2Proof.Machine

/-! ### The tables a writer-only change keeps -/

theorem symbolField_writerOnly {s t : State} (h : WriterOnly s t) (a : Alphabet) (sym : Nat) :
    symbolField a t sym = symbolField a s sym := by
  rw [h]; cases a <;> rfl

theorem symbolField_width (a : Alphabet) (s : State) (sym : Nat) : (symbolField a s sym).2 ≤ 15 := by
  have := (Cells.get (0 : BitVec 4) (alphabetLen a s) sym).isLt
  simp only [symbolField]; omega

@[simp] theorem symbolField_accept (a : Alphabet) (s : State) (sym : Nat) :
    symbolField a (accept s) sym = symbolField a s sym := by cases a <;> rfl

theorem emitSymbol_eq (a : Alphabet) (sym : Nat) (s : State) :
    emitSymbol a sym s = emitAll [symbolField a s sym] s := by
  rw [emitSymbol, show [symbolField a s sym] = [((symbolField a s sym).1, (symbolField a s sym).2)] from rfl,
    emitAll_cons]
  simp only [symbolField]
  cases emit _ _ s <;> rfl

theorem emit_eq (code n : Nat) (s : State) : emit code n s = emitAll [(code, n)] s := by
  rw [emitAll_cons]; cases emit code n s <;> rfl

/-- A sequence of Emits and then one whose fields depend only on tables. -/
theorem emitAll_then {xs : List (Nat × Nat)} {s : State} {f : State → Except Trap State} {ys : List (Nat × Nat)}
    (h : ∀ t, WriterOnly s t → f t = emitAll ys t) : (emitAll xs s >>= f) = emitAll (xs ++ ys) s := by
  rw [emitAll_append]
  cases hx : emitAll xs s with
  | error e => rfl
  | ok t => exact h t (emitAll_frame hx)

/-! ### Tokens -/

theorem emitLiteral_eq (b : Nat) (s : State) :
    emitLiteral b s = emitAll [symbolField .litLen s b] s >>= fun t => .ok (countLit b t) := by
  rw [emitLiteral, emitSymbol_eq]

theorem emitEndOfBlock_eq (s : State) :
    emitEndOfBlock s = emitAll [symbolField .litLen s 256] s >>= fun t => .ok (countLit 256 t) := by
  rw [emitEndOfBlock, emitSymbol_eq]

theorem emitMatchToken_eq (len dist : Nat) (s : State) :
    emitMatchToken len dist s = emitAll (matchFields s len dist) s >>= fun t =>
      .ok (countDist (distSlot dist) (countLit (257 + lengthSlot len) t)) := by
  have key : ∀ g : State → Except Trap State,
      (do let s ← emitSymbol .litLen (257 + lengthSlot len) s
          let s ← emit (len - lengthBase.getD (lengthSlot len) 0) (lengthExtra.getD (lengthSlot len) 0) s
          let s ← emitSymbol .dist (distSlot dist) s
          let s ← emit (dist - distBase.getD (distSlot dist) 0) (distExtra.getD (distSlot dist) 0) s
          g s) = (emitAll (matchFields s len dist) s >>= g) := by
    intro g
    have e : matchFields s len dist = [symbolField .litLen s (257 + lengthSlot len)] ++
        [(len - lengthBase.getD (lengthSlot len) 0, lengthExtra.getD (lengthSlot len) 0)] ++
        [symbolField .dist s (distSlot dist)] ++
        [(dist - distBase.getD (distSlot dist) 0, distExtra.getD (distSlot dist) 0)] := rfl
    rw [emitSymbol_eq, e, emitAll_append, emitAll_append, emitAll_append]
    cases h1 : emitAll [symbolField .litLen s (257 + lengthSlot len)] s with
    | error _ => rfl
    | ok t =>
      simp only [bind_ok, emit_eq]
      cases h2 : emitAll [(len - lengthBase.getD (lengthSlot len) 0, lengthExtra.getD (lengthSlot len) 0)] t with
      | error _ => rfl
      | ok u =>
        have hw := (emitAll_frame h1).trans (emitAll_frame h2)
        simp only [bind_ok, emitSymbol_eq, symbolField_writerOnly hw]
        cases emitAll [symbolField .dist s (distSlot dist)] u <;> rfl
  exact key _

/-! ### Framing -/

theorem terminator_eq (s : State) : terminator s = emitAll [(1, 1), (1, 2), (0, 7)] s := by
  simp only [terminator, emitAll_cons]
  congr 1; funext t; congr 1; funext u
  exact emit_eq _ _ _

theorem zlibHeader_eq (s : State) : zlibHeader s = emitAll [(0x78, 8), (0x01, 8)] s := by
  simp only [zlibHeader, emitAll_cons]
  congr 1; funext t
  exact emit_eq _ _ _

theorem emitBigEndian_eq (v : Word) (s : State) :
    emitBigEndian v s = emitAll [(v.toNat / 2 ^ 24 % 2 ^ 8, 8), (v.toNat / 2 ^ 16 % 2 ^ 8, 8),
      (v.toNat / 2 ^ 8 % 2 ^ 8, 8), (v.toNat % 2 ^ 8, 8)] s := by
  simp only [emitBigEndian, emitAll_cons]
  congr 1; funext t; congr 1; funext u; congr 1; funext w
  exact emit_eq _ _ _

theorem pad_eq (s : State) : pad s = emitAll (padFields s) s := by
  rw [pad, padFields]; split
  · rfl
  · exact emit_eq _ _ _

/-! ### The block header -/

theorem permutedLength_writerOnly {s t : State} (h : WriterOnly s t) (k : Nat) :
    permutedLength t k = permutedLength s k := by rw [h]; rfl

theorem emitPreLengths_eq (n k : Nat) (s : State) :
    emitPreLengths k n s = emitAll ((List.range n).map (fun i => (permutedLength s (k + i), 3))) s := by
  induction n generalizing k s with
  | zero => rfl
  | succ n ih =>
    rw [emitPreLengths, List.range_succ_eq_map, List.map_cons, emitAll_cons]
    show emit (permutedLength s k) 3 s >>= _ = emit (permutedLength s k) 3 s >>= _
    cases h : emit (permutedLength s k) 3 s with
    | error e => rfl
    | ok t =>
      rw [bind_ok, bind_ok, ih]
      simp only [permutedLength_writerOnly (emit_frame h), List.map_map]
      congr 2; funext i; simp [Function.comp, Nat.add_assoc, Nat.add_comm 1]

theorem itemFields_writerOnly {s t : State} (h : WriterOnly s t) (item : Nat) :
    itemFields t item = itemFields s item := by
  simp only [itemFields, symbolField_writerOnly h]

theorem emitItem_eq (item : Nat) (s : State) : emitItem item s = emitAll (itemFields s item) s := by
  have key : ∀ extra : List (Nat × Nat),
      (∀ t, (if itemExtraBits (item % 32) = 0 then .ok t else emit (item / 32) (itemExtraBits (item % 32)) t) =
        emitAll extra t) →
      emitItem item s = emitAll (symbolField .preCode s (item % 32) :: extra) s := by
    intro extra h
    rw [emitItem, emitSymbol_eq, ← List.singleton_append]
    exact emitAll_then fun t _ => h t
  refine key _ (fun t => ?_)
  simp only [itemExtraBits]
  split
  · simp [emit_eq]
  · split
    · simp [emit_eq]
    · split <;> simp [emit_eq]

theorem emitItems_eq (n j : Nat) (s : State) :
    emitItems j n s =
      emitAll ((List.range n).flatMap (fun i => itemFields s (Cells.get 0 s.rleItem (j + i)).toNat)) s := by
  induction n generalizing j s with
  | zero => rfl
  | succ n ih =>
    rw [emitItems, emitItem_eq, List.range_succ_eq_map, List.flatMap_cons]
    refine emitAll_then fun t ht => ?_
    rw [ih, List.flatMap_map]
    have hr : t.rleItem = s.rleItem := by rw [ht]
    simp only [itemFields_writerOnly ht, hr]
    congr 2; funext i; simp [Nat.add_assoc, Nat.add_comm 1]

/-- The trimming loop gives the hclen of R267. -/
theorem trimHclen_spec (s : State) (n : Nat) (hn : n ≤ 15)
    (hz : ∀ k, 4 + n ≤ k → k < 19 → permutedLength s k = 0) :
    4 ≤ trimHclen s n ∧ trimHclen s n ≤ 4 + n ∧
      (∀ k, trimHclen s n ≤ k → k < 19 → permutedLength s k = 0) ∧
      (trimHclen s n = 4 ∨ permutedLength s (trimHclen s n - 1) ≠ 0) := by
  induction n with
  | zero => exact ⟨by simp [trimHclen], by simp [trimHclen], hz, .inl rfl⟩
  | succ n ih =>
    by_cases h : permutedLength s (4 + n) = 0
    · rw [trimHclen, if_pos h]
      have := ih (by omega) (fun k h1 h2 => by
        rcases Nat.eq_or_lt_of_le h1 with rfl | h3
        · exact h
        · exact hz k (by omega) h2)
      exact ⟨this.1, by omega, this.2.2⟩
    · rw [trimHclen, if_neg h]
      exact ⟨by omega, by omega, fun k h1 h2 => hz k (by omega) h2, .inr (by simpa using h)⟩

theorem headerHclen_isHclen (s : State) : IsHclen s (headerHclen s) := by
  have h := trimHclen_spec s 15 (by omega) (fun k h1 h2 => by omega)
  obtain ⟨h1, h2, h3, h4⟩ := h
  refine ⟨h1, by rw [headerHclen]; omega, fun k hk hk' => ?_, ?_⟩
  · exact BitVec.eq_of_toNat_eq (by simpa [permutedLength] using h3 k hk hk')
  · rcases h4 with h4 | h4
    · exact .inl h4
    · refine .inr (fun hc => h4 ?_)
      rw [headerHclen] at hc
      rw [permutedLength, hc]; rfl

/-- R267's conditions hold of one hclen only. -/
theorem isHclen_unique {s : State} {h h' : Nat} (a : IsHclen s h) (b : IsHclen s h') : h = h' := by
  obtain ⟨a1, a2, a3, a4⟩ := a
  obtain ⟨b1, b2, b3, b4⟩ := b
  rcases Nat.lt_trichotomy h h' with hl | he | hg
  · rcases b4 with b4 | b4
    · omega
    · exact absurd (a3 (h' - 1) (by omega) (by omega)) b4
  · exact he
  · rcases a4 with a4 | a4
    · omega
    · exact absurd (b3 (h - 1) (by omega) (by omega)) a4

theorem headerHclen_writerOnly {s t : State} (h : WriterOnly s t) : headerHclen t = headerHclen s := by
  have key : ∀ n, trimHclen t n = trimHclen s n := by
    intro n
    induction n with
    | zero => rfl
    | succ n ih => rw [trimHclen, trimHclen, ih, permutedLength_writerOnly h]
  exact key 15

theorem blockHeader_eq (bfinal : Bool) (s : State) :
    blockHeader bfinal s = emitAll (headerFields s bfinal (headerHclen s)) s := by
  have e : headerFields s bfinal (headerHclen s) =
      (((([(bfinal.toNat, 1)] ++ [(2, 2)]) ++ [(29, 5)]) ++ [(29, 5)]) ++ [(headerHclen s - 4, 4)]) ++
      ((List.range (headerHclen s)).map (fun k => (permutedLength s (0 + k), 3)) ++
        (List.range s.rleCount.toNat).flatMap (fun j => itemFields s (Cells.get 0 s.rleItem (0 + j)).toNat)) := by
    simp only [headerFields, permutedLength, Nat.zero_add, List.append_assoc]; rfl
  have last : ∀ t, WriterOnly s t →
      (do let t ← emitPreLengths 0 (headerHclen s) t
          emitItems 0 t.rleCount.toNat t) =
        emitAll ((List.range (headerHclen s)).map (fun k => (permutedLength s (0 + k), 3)) ++
          (List.range s.rleCount.toNat).flatMap (fun j => itemFields s (Cells.get 0 s.rleItem (0 + j)).toNat)) t := by
    intro t ht
    rw [emitPreLengths_eq]
    simp only [permutedLength_writerOnly ht]
    refine emitAll_then fun u hu => ?_
    have hw := ht.trans hu
    have hc : u.rleCount = s.rleCount := by rw [hw]
    have hi : u.rleItem = s.rleItem := by rw [hw]
    rw [emitItems_eq]
    simp only [itemFields_writerOnly hw, hc, hi]
  rw [e, emitAll_append]
  simp only [blockHeader, emitAll_append, emit_eq, Config.numLit, Config.numDist]
  cases h1 : emitAll [(bfinal.toNat, 1)] s with
  | error _ => rfl
  | ok t1 =>
  simp only [bind_ok]
  cases h2 : emitAll [(2, 2)] t1 with
  | error _ => rfl
  | ok t2 =>
  simp only [bind_ok]
  cases h3 : emitAll [(29, 5)] t2 with
  | error _ => rfl
  | ok t3 =>
  simp only [bind_ok]
  cases h4 : emitAll [(29, 5)] t3 with
  | error _ => rfl
  | ok t4 =>
  have hw := (((emitAll_frame h1).trans (emitAll_frame h2)).trans (emitAll_frame h3)).trans (emitAll_frame h4)
  simp only [bind_ok, headerHclen_writerOnly hw]
  cases h5 : emitAll [(headerHclen s - 4, 4)] t4 with
  | error _ => rfl
  | ok t5 => exact last t5 (hw.trans (emitAll_frame h5))

end Sys2Proof.Laws
end

