-- ==== Sys2Proof/Laws/Frame.lean ====
section
/-! SUPPORT. What the body of a command can change, and that it does not stop the model: one relation, kept by every
operation of every unit. -/

namespace Sys2Proof.Laws

open Sys2Proof.Machine

/-- t comes from s by work of the engine's units: host-owned registers, STATUS and the model's own fields but the
count of open values are the same, OUTPOS does not fall, and only output bytes from OUTPOS on can differ. -/
structure Work (s t : State) : Prop where
  frame : t = { s with
    mem := t.mem, outPos := t.outPos, bitBuf := t.bitBuf, bitCnt := t.bitCnt, adler := t.adler, res0 := t.res0
    res1 := t.res1, head := t.head, prev := t.prev, freqLit := t.freqLit, freqDist := t.freqDist
    freqPre := t.freqPre, lenLit := t.lenLit, lenDist := t.lenDist, lenPre := t.lenPre, codeLit := t.codeLit
    codeDist := t.codeDist, codePre := t.codePre, rleItem := t.rleItem, rleCount := t.rleCount, driver := t.driver
    draws := t.draws }
  pos : s.outPos.toNat ≤ t.outPos.toNat
  mem : ∀ a, memByte t.mem a ≠ memByte s.mem a →
    s.outBase.toNat + s.outPos.toNat ≤ a ∧ a < s.outBase.toNat + s.outCap.toNat

theorem Work.refl (s : State) : Work s s := ⟨rfl, le_refl _, fun _ h => absurd rfl h⟩

theorem Work.outBase {s t : State} (h : Work s t) : t.outBase = s.outBase := by rw [h.frame]
theorem Work.outCap {s t : State} (h : Work s t) : t.outCap = s.outCap := by rw [h.frame]
theorem Work.inBase {s t : State} (h : Work s t) : t.inBase = s.inBase := by rw [h.frame]
theorem Work.inLen {s t : State} (h : Work s t) : t.inLen = s.inLen := by rw [h.frame]
theorem Work.status {s t : State} (h : Work s t) : t.status = s.status := by rw [h.frame]
theorem Work.params {s t : State} (h : Work s t) : t.params = s.params := by rw [h.frame]

theorem Work.trans {s t u : State} (h1 : Work s t) (h2 : Work t u) : Work s u := by
  refine ⟨by rw [h2.frame, h1.frame], le_trans h1.pos h2.pos, fun a ha => ?_⟩
  by_cases hc : memByte t.mem a = memByte s.mem a
  · have h3 := h2.mem a (by rw [hc]; exact ha)
    rw [h1.outBase, h1.outCap] at h3
    have := h1.pos
    omega
  · exact h1.mem a hc

theorem Work.regionsOk {s t : State} (h : Work s t) (hr : regionsOk s = true) : regionsOk t = true := by
  rw [h.frame]; exact hr

theorem Work.hostOwned {s t : State} (h : Work s t) : HostOwned s t := by
  rw [h.frame]; simp [HostOwned]

/-- The engine never writes the input region (R83, R84). -/
theorem Work.inputAt {s t : State} (h : Work s t) (hr : Machine.regionsOk s = true) {k : Nat}
    (hk : k < s.inLen.toNat) : inputAt t k = inputAt s k := by
  rw [Machine.inputAt, Machine.inputAt, h.inBase]
  by_contra hc
  have h1 := h.mem _ hc
  refine regionsDisjoint_spec (regionsOk_iff.mp hr).2.2.2 hk
    (j := s.inBase.toNat + k - s.outBase.toNat) (by omega) (by omega)

/-- A change to tables, results, the driver or the count of open values only. -/
theorem Work.of_tables {s t : State} (h : t = { s with
    adler := t.adler, res0 := t.res0, res1 := t.res1, head := t.head, prev := t.prev, freqLit := t.freqLit
    freqDist := t.freqDist, freqPre := t.freqPre, lenLit := t.lenLit, lenDist := t.lenDist, lenPre := t.lenPre
    codeLit := t.codeLit, codeDist := t.codeDist, codePre := t.codePre, rleItem := t.rleItem
    rleCount := t.rleCount, driver := t.driver, draws := t.draws }) : Work s t := by
  refine ⟨by rw [h], ?_, ?_⟩
  · rw [h]
  · rw [h]; intro a ha; exact absurd rfl ha

/-- A computation raises only named faults of the engine: it does not stop the model. -/
def NoStop {α : Type} (x : Except Trap α) : Prop := ∀ e, x = .error e → ∃ c info, e = .raise c info ∧ c ≠ .none

theorem NoStop.ok {α : Type} (a : α) : NoStop (.ok a : Except Trap α) := fun _ h => nomatch h

theorem NoStop.check (b : Bool) {c : Cause} (info : Word) (hc : c ≠ .none) : NoStop (check b c info) := by
  intro e h; cases b with
  | true => cases h
  | false => cases h; exact ⟨_, _, rfl, hc⟩

theorem NoStop.bind {α β : Type} {x : Except Trap α} {f : α → Except Trap β} (hx : NoStop x)
    (hf : ∀ a, x = .ok a → NoStop (f a)) : NoStop (x >>= f) := by
  intro e h
  rcases bind_eq_error.mp h with h | ⟨a, ha, h⟩
  · exact hx e h
  · exact hf a ha e h

/-! ### The bit writer -/

theorem outByte_work {v : Byte} {s t : State} (h : outByte v s = .ok t) : Work s t ∧ t.driver = s.driver := by
  have hf := outByte_frame h
  simp only [outByte, memWrite, bind_eq_ok, check_eq_ok, decide_eq_true_eq] at h
  obtain ⟨_, hlt, u, hu, h⟩ := h
  split at hu
  · cases hu
    have hp : (word (s.outPos.toNat + 1)).toNat = s.outPos.toNat + 1 := by
      have := s.outCap.isLt
      exact word_toNat_of_lt (by omega)
    refine ⟨⟨?_, ?_, ?_⟩, by rw [hf]⟩
    · unfold WriterOnly at hf; rw [hf]
    · cases h; simp only [hp]; omega
    · cases h
      intro a ha
      simp only [memByte_storeByte] at ha
      split at ha
      · omega
      · exact absurd rfl ha
  · cases hu

theorem flushBytes_work {n acc : Nat} {s t : State} (h : flushBytes n acc s = .ok t) :
    Work s t ∧ t.driver = s.driver := by
  induction n generalizing acc s with
  | zero => cases h; exact ⟨.refl _, rfl⟩
  | succ n ih =>
    rw [flushBytes, bind_eq_ok] at h
    obtain ⟨u, hu, h⟩ := h
    exact ⟨(outByte_work hu).1.trans (ih h).1, (ih h).2.trans (outByte_work hu).2⟩

theorem emit_work {code n : Nat} {s t : State} (h : emit code n s = .ok t) : Work s t ∧ t.driver = s.driver := by
  have hf := emit_frame h
  simp only [emit, bind_eq_ok] at h
  obtain ⟨_, -, u, hu, h⟩ := h
  obtain ⟨hw, hd⟩ := flushBytes_work hu
  cases h
  refine ⟨⟨?_, hw.pos, hw.mem⟩, hd⟩
  unfold WriterOnly at hf
  rw [hf]

theorem emitAll_work {fields : List (Nat × Nat)} {s t : State} (h : emitAll fields s = .ok t) :
    Work s t ∧ t.driver = s.driver := by
  induction fields generalizing s with
  | nil => cases h; exact ⟨.refl _, rfl⟩
  | cons x xs ih =>
    obtain ⟨c, n⟩ := x
    rw [emitAll_cons, bind_eq_ok] at h
    obtain ⟨u, hu, h⟩ := h
    exact ⟨(emit_work hu).1.trans (ih h).1, (ih h).2.trans (emit_work hu).2⟩

theorem outByte_noStop {v : Byte} {s : State} (h : s.outBase.toNat + s.outCap.toNat ≤ 2 ^ 32) :
    NoStop (outByte v s) := by
  by_cases hr : s.outPos.toNat < s.outCap.toNat
  · rw [outByte_ok h hr]; exact .ok _
  · rw [outByte_full (by omega)]
    intro e he; cases he; exact ⟨_, _, rfl, by simp⟩

theorem flushBytes_noStop {n acc : Nat} {s : State} (h : s.outBase.toNat + s.outCap.toNat ≤ 2 ^ 32) :
    NoStop (flushBytes n acc s) := by
  induction n generalizing acc s with
  | zero => exact .ok _
  | succ n ih =>
    refine NoStop.bind (outByte_noStop h) fun t ht => ih ?_
    rw [(outByte_work ht).1.outBase, (outByte_work ht).1.outCap]; exact h

theorem emit_noStop {code n : Nat} {s : State} (h : s.outBase.toNat + s.outCap.toNat ≤ 2 ^ 32) :
    NoStop (emit code n s) := by
  refine NoStop.bind (NoStop.check _ _ (by simp)) fun _ _ => ?_
  exact NoStop.bind (flushBytes_noStop h) fun _ _ => .ok _

theorem emitAll_noStop {fields : List (Nat × Nat)} {s : State}
    (h : s.outBase.toNat + s.outCap.toNat ≤ 2 ^ 32) : NoStop (emitAll fields s) := by
  induction fields generalizing s with
  | nil => exact .ok _
  | cons x xs ih =>
    obtain ⟨c, n⟩ := x
    refine NoStop.bind (emit_noStop h) fun t ht => ih ?_
    rw [(emit_work ht).1.outBase, (emit_work ht).1.outCap]; exact h

/-! ### A part of a command: work that keeps the driver's registers and does not stop the model -/

/-- What a unit's operation on s does. -/
def UnitOp (s : State) (x : Except Trap State) : Prop :=
  (∀ t, x = .ok t → Work s t ∧ t.driver = s.driver) ∧ NoStop x

theorem UnitOp.ok {s t : State} (h : Work s t) (hd : t.driver = s.driver) : UnitOp s (.ok t) :=
  ⟨fun u hu => by cases hu; exact ⟨h, hd⟩, .ok _⟩

theorem UnitOp.bind {s : State} {x : Except Trap State} {f : State → Except Trap State} (hx : UnitOp s x)
    (hf : ∀ t, x = .ok t → Work s t → UnitOp t (f t)) : UnitOp s (x >>= f) := by
  refine ⟨fun u hu => ?_, NoStop.bind hx.2 fun t ht => (hf t ht (hx.1 t ht).1).2⟩
  obtain ⟨t, ht, hu⟩ := bind_eq_ok.mp hu
  obtain ⟨w1, d1⟩ := hx.1 t ht
  obtain ⟨w2, d2⟩ := (hf t ht w1).1 u hu
  exact ⟨w1.trans w2, d2.trans d1⟩

theorem emitAll_unit {fields : List (Nat × Nat)} {s : State} (h : regionsOk s = true) :
    UnitOp s (emitAll fields s) :=
  ⟨fun _ ht => emitAll_work ht, emitAll_noStop (regionsOk_out h)⟩

theorem terminator_unit {s : State} (h : regionsOk s = true) : UnitOp s (terminator s) := by
  rw [terminator_eq]; exact emitAll_unit h

theorem zlibHeader_unit {s : State} (h : regionsOk s = true) : UnitOp s (zlibHeader s) := by
  rw [zlibHeader_eq]; exact emitAll_unit h

theorem emitBigEndian_unit {v : Word} {s : State} (h : regionsOk s = true) : UnitOp s (emitBigEndian v s) := by
  rw [emitBigEndian_eq]; exact emitAll_unit h

theorem pad_unit {s : State} (h : regionsOk s = true) : UnitOp s (pad s) := by
  rw [pad_eq]; exact emitAll_unit h

theorem blockHeader_unit {b : Bool} {s : State} (h : regionsOk s = true) : UnitOp s (blockHeader b s) := by
  rw [blockHeader_eq]; exact emitAll_unit h

theorem emitLiteral_unit {b : Nat} {s : State} (h : regionsOk s = true) : UnitOp s (emitLiteral b s) := by
  rw [emitLiteral_eq]
  exact (emitAll_unit h).bind fun t _ _ => .ok (.of_tables rfl) rfl

theorem emitEndOfBlock_unit {s : State} (h : regionsOk s = true) : UnitOp s (emitEndOfBlock s) := by
  rw [emitEndOfBlock_eq]
  exact (emitAll_unit h).bind fun t _ _ => .ok (.of_tables rfl) rfl

theorem emitMatchToken_unit {len dist : Nat} {s : State} (h : regionsOk s = true) :
    UnitOp s (emitMatchToken len dist s) := by
  rw [emitMatchToken_eq]
  exact (emitAll_unit h).bind fun t _ _ => .ok (.of_tables rfl) rfl

theorem insertPos_unit {p : Nat} {s : State} (h : regionsOk s = true) (hp : p + 4 ≤ s.inLen.toNat) :
    UnitOp s (insertPos p s) := by
  rw [insertPos_ok h hp]; exact .ok (.of_tables rfl) rfl

/-- RunEncode writes FREQ_PRE, RLE_ITEM and RLE_COUNT only (R243). -/
theorem runEncode_frame (s : State) : runEncode s = { s with
    freqPre := (runEncode s).freqPre, rleItem := (runEncode s).rleItem, rleCount := (runEncode s).rleCount } := by
  unfold runEncode
  dsimp only

theorem runEncode_work (s : State) : Work s (runEncode s) ∧ (runEncode s).driver = s.driver := by
  have h := runEncode_frame s
  generalize runEncode s = t at h
  exact ⟨.of_tables (by rw [h]), by rw [h]⟩

theorem setCodes_work (a : Alphabet) (lens : Cells (BitVec 4)) (codes : Cells (BitVec 16)) (s : State) :
    Work s (setCodes a lens codes s) ∧ (setCodes a lens codes s).driver = s.driver := by
  cases a <;> exact ⟨.of_tables rfl, rfl⟩

theorem huffBuild_unit (a : Alphabet) (s : State) : UnitOp s (huffBuild a s) := by
  constructor
  · intro t ht
    simp only [huffBuild, bind_eq_ok] at ht
    obtain ⟨_, -, ht⟩ := ht
    cases ht
    exact setCodes_work _ _ _ _
  · refine NoStop.bind (NoStop.check _ _ (by simp)) fun _ _ => .ok _

theorem drawsOnly_work {s u : State} (h : DrawsOnly s u) : Work s u ∧ u.driver = s.driver := by
  unfold DrawsOnly at h
  exact ⟨.of_tables (by rw [h]), by rw [h]⟩

end Sys2Proof.Laws
end

