-- ==== Sys2Proof/Laws/Driver.lean ====
section
/-! SUPPORT. The compressor driver: each of its parts keeps the frame of `Work`, moves POS and BS as R302 says, and
does not stop the model. -/

namespace Sys2Proof.Laws

open Sys2Proof.Machine

/-! ### Insertions -/

theorem insertIfRoom_unit {q : Nat} {s : State} (h : regionsOk s = true) : UnitOp s (insertIfRoom q s) := by
  rw [insertIfRoom]
  split
  · rename_i hq; exact insertPos_unit h hq
  · exact .ok (.refl _) rfl

theorem insertRange_unit {q n : Nat} {s : State} (h : regionsOk s = true) : UnitOp s (insertRange q n s) := by
  induction n generalizing q s with
  | zero => exact .ok (.refl _) rfl
  | succ n ih => exact (insertIfRoom_unit h).bind fun t _ ht => ih (ht.regionsOk h)

theorem insertAfterMatch_unit {p len nice : Nat} {s : State} (h : regionsOk s = true) :
    UnitOp s (insertAfterMatch p len nice s) := by
  rw [insertAfterMatch]
  split
  · exact insertIfRoom_unit h
  · exact insertRange_unit h

/-! ### The search of a token -/

/-- The search at p, within the block: it draws only, and its match is true. -/
theorem searchAt_spec {p maxLen : Nat} {s : State} (h : regionsOk s = true) (hp : p + maxLen ≤ s.inLen.toNat) :
    ∃ r u, searchAt p maxLen s = .ok (r, u) ∧ DrawsOnly s u ∧
      (r = (0, 0) ∨ TrueMatch s p maxLen r.1 r.2) := by
  rw [searchAt]
  split
  · rename_i h4; exact findMatch_spec h h4 hp
  · exact ⟨_, s, rfl, rfl, .inl rfl⟩

/-- The lazy probe keeps the match or drops it. -/
theorem lazyProbe_spec {p nice : Nat} {m : Nat × Nat} {s : State} (h : regionsOk s = true)
    (hn : nice ≤ s.driver.be.toNat - p) (hbe : s.driver.be.toNat ≤ s.inLen.toNat) :
    ∃ r u, lazyProbe p nice m s = .ok (r, u) ∧ DrawsOnly s u ∧ (r = (0, 0) ∨ r = m) := by
  rw [lazyProbe]
  split
  · rename_i hc
    simp only [Bool.and_eq_true, decide_eq_true_eq] at hc
    obtain ⟨⟨-, h4⟩, hlt⟩ := hc
    obtain ⟨r, u, hr, hd, -⟩ := findMatch_spec (p := p + 1) (depth := searchDepth s.driver.lvl.toNat)
      (maxLen := min (m.1 + 1) (s.driver.be.toNat - p - 1)) (s := s) h (by omega) (by omega)
    rw [hr, bind_ok]
    refine ⟨_, u, rfl, hd, ?_⟩
    split
    · exact .inl rfl
    · exact .inr rfl
  · exact ⟨m, s, rfl, rfl, .inr rfl⟩

/-! ### One token -/

/-- What one step of the token loop does with the driver's registers: it moves POS on, within the block. -/
def TokenMoves (s t : State) : Prop :=
  Work s t ∧ t.driver = { s.driver with pos := t.driver.pos } ∧ s.driver.pos.toNat < t.driver.pos.toNat ∧
    t.driver.pos.toNat ≤ s.driver.be.toNat

theorem setPos_moves {s u : State} {p : Nat} (hw : Work s u) (hd : u.driver = s.driver)
    (h1 : s.driver.pos.toNat < p) (h2 : p ≤ s.driver.be.toNat) : TokenMoves s (setPos p u) := by
  have hp : (word p).toNat = p := word_toNat_of_lt (lt_of_le_of_lt h2 s.driver.be.isLt)
  refine ⟨hw.trans (.of_tables rfl), ?_, ?_, ?_⟩
  · simp [hd]
  · simpa [hp] using h1
  · simpa [hp] using h2

/-- One step of the token loop, at a position of the block. -/
theorem tokenStep_spec {s : State} (h : regionsOk s = true) (hlt : s.driver.pos.toNat < s.driver.be.toNat)
    (hbe : s.driver.be.toNat ≤ s.inLen.toNat) :
    (∀ t, tokenStep s = .ok t → TokenMoves s t) ∧ NoStop (tokenStep s) := by
  obtain ⟨m, u, hu, hdu, hm⟩ := searchAt_spec (p := s.driver.pos.toNat)
    (maxLen := min 258 (s.driver.be.toNat - s.driver.pos.toNat)) h (by omega)
  obtain ⟨hwu, hdr⟩ := drawsOnly_work hdu
  obtain ⟨k, v, hv, hdv, hk⟩ := lazyProbe_spec (p := s.driver.pos.toNat)
    (nice := min (s.params.niceLen.getD s.driver.lvl.toNat 0) (min 258 (s.driver.be.toNat - s.driver.pos.toNat)))
    (m := m) (hwu.regionsOk h) (by rw [hdr]; omega) (by rw [hdr, hwu.inLen]; exact hbe)
  obtain ⟨hwv, hdrv⟩ := drawsOnly_work hdv
  have hw := hwu.trans hwv
  have hd := hdrv.trans hdr
  have hrv := hw.regionsOk h
  have hinb : inputByte v s.driver.pos.toNat = .ok (inputAt v s.driver.pos.toNat) :=
    inputByte_ok hrv (by rw [hw.inLen]; omega)
  simp only [tokenStep, hu, hv, bind_ok]
  split
  · rename_i h4
    -- a match is kept: its length fits the block
    have hlen : k.1 ≤ s.driver.be.toNat - s.driver.pos.toNat := by
      rcases hk with rfl | rfl
      · simp at h4
      · rcases hm with rfl | hm
        · simp at h4
        · have := hm.2.1; omega
    have op : UnitOp v (emitMatchToken k.1 k.2 v >>= insertAfterMatch s.driver.pos.toNat k.1
        (min (s.params.niceLen.getD s.driver.lvl.toNat 0) (min 258 (s.driver.be.toNat - s.driver.pos.toNat)))) :=
      (emitMatchToken_unit hrv).bind fun t _ ht => insertAfterMatch_unit (ht.regionsOk hrv)
    constructor
    · intro t ht
      simp only [bind_eq_ok] at ht
      obtain ⟨x, hx, y, hy, ht⟩ := ht
      cases ht
      obtain ⟨w, d⟩ := op.1 y (bind_eq_ok.mpr ⟨x, hx, hy⟩)
      exact setPos_moves (hw.trans w) (d.trans hd) (by omega) (by omega)
    · refine NoStop.bind (emitMatchToken_unit hrv).2 fun x hx => ?_
      refine NoStop.bind (insertAfterMatch_unit (((emitMatchToken_unit hrv).1 x hx).1.regionsOk hrv)).2 fun _ _ => .ok _
  · have op : UnitOp v (emitLiteral (inputAt v s.driver.pos.toNat).toNat v >>= insertIfRoom s.driver.pos.toNat) :=
      (emitLiteral_unit hrv).bind fun t _ ht => insertIfRoom_unit (ht.regionsOk hrv)
    simp only [hinb, bind_ok]
    constructor
    · intro t ht
      simp only [bind_eq_ok] at ht
      obtain ⟨x, hx, y, hy, ht⟩ := ht
      cases ht
      obtain ⟨w, d⟩ := op.1 y (bind_eq_ok.mpr ⟨x, hx, hy⟩)
      exact setPos_moves (hw.trans w) (d.trans hd) (by omega) (by omega)
    · refine NoStop.bind (emitLiteral_unit hrv).2 fun x hx => ?_
      refine NoStop.bind (insertIfRoom_unit (((emitLiteral_unit hrv).1 x hx).1.regionsOk hrv)).2 fun _ _ => .ok _

/-- The token loop of a block: POS stays in the block, and reaches its end where the fuel is enough. -/
theorem tokenLoop_spec (fuel : Nat) {s : State} (h : regionsOk s = true)
    (hle : s.driver.pos.toNat ≤ s.driver.be.toNat) (hbe : s.driver.be.toNat ≤ s.inLen.toNat) :
    (∀ t, tokenLoop fuel s = .ok t → Work s t ∧ t.driver = { s.driver with pos := t.driver.pos } ∧
      t.driver.pos.toNat ≤ s.driver.be.toNat ∧
      (s.driver.be.toNat - s.driver.pos.toNat ≤ fuel → t.driver.pos.toNat = s.driver.be.toNat)) ∧
    NoStop (tokenLoop fuel s) := by
  induction fuel generalizing s with
  | zero =>
    refine ⟨fun t ht => ?_, .ok _⟩
    cases ht
    exact ⟨.refl _, rfl, hle, fun _ => by omega⟩
  | succ fuel ih =>
    rw [tokenLoop]
    split
    · rename_i hlt
      obtain ⟨hs, hn⟩ := tokenStep_spec h hlt hbe
      have next : ∀ u, tokenStep s = .ok u → regionsOk u = true ∧ u.driver.pos.toNat ≤ u.driver.be.toNat ∧
          u.driver.be.toNat ≤ u.inLen.toNat := by
        intro u hu
        obtain ⟨w, d, -, p⟩ := hs u hu
        have hbeq : u.driver.be = s.driver.be := by rw [d]
        exact ⟨w.regionsOk h, by rw [hbeq]; exact p, by rw [hbeq, w.inLen]; exact hbe⟩
      constructor
      · intro t ht
        obtain ⟨u, hu, ht⟩ := bind_eq_ok.mp ht
        obtain ⟨n1, n2, n3⟩ := next u hu
        obtain ⟨w, d, p1, p2⟩ := hs u hu
        obtain ⟨w', d', p', f'⟩ := (ih n1 n2 n3).1 t ht
        have hbeq : u.driver.be = s.driver.be := by rw [d]
        rw [hbeq] at p' f'
        exact ⟨w.trans w', by rw [d', d], p', fun hf => f' (by omega)⟩
      · exact NoStop.bind hn fun u hu => (ih (next u hu).1 (next u hu).2.1 (next u hu).2.2).2
    · refine ⟨fun t ht => ?_, .ok _⟩
      cases ht
      exact ⟨.refl _, rfl, hle, fun _ => by omega⟩

/-! ### Blocks -/

theorem blockStart_unit {s : State} (h : regionsOk s = true) : UnitOp s (blockStart s) := by
  refine (huffBuild_unit _ _).bind fun t _ ht => (huffBuild_unit _ _).bind fun u _ hu => ?_
  have hc : Work u (clearFreqs u) := .of_tables rfl
  have hr := runEncode_work (clearFreqs u)
  have hw := hc.trans hr.1
  have op : UnitOp (runEncode (clearFreqs u))
      (huffBuild .preCode (runEncode (clearFreqs u)) >>= blockHeader false) :=
    (huffBuild_unit _ _).bind fun v _ hv =>
      blockHeader_unit (hv.regionsOk (hw.regionsOk (hu.regionsOk (ht.regionsOk h))))
  refine ⟨fun v hv => ?_, op.2⟩
  obtain ⟨w, d⟩ := op.1 v hv
  exact ⟨hw.trans w, d.trans hr.2⟩

/-- The driver's registers a block leaves: BS at the block's end, one more block counted, and the level and the
container flag as they were. -/
def BlockMoves (s t : State) : Prop :=
  Work s t ∧ t.driver.lvl = s.driver.lvl ∧ t.driver.cont = s.driver.cont ∧ t.driver.dstate = s.driver.dstate ∧
    t.driver.bs.toNat = min (s.driver.bs.toNat + s.params.blkMax) s.inLen.toNat ∧
    t.driver.nblk = s.driver.nblk + 1

/-- One block of COMPRESS (R302), as the block loop runs it. -/
def blockRound (s : State) : Except Trap State := do
  let s ← blockStart (cutBlock s)
  let s := setPos s.driver.bs.toNat s
  let s ← tokenLoop (s.driver.be.toNat - s.driver.bs.toNat) s
  let s ← emitEndOfBlock s
  .ok (closeBlock s)

theorem blockLoop_succ (fuel : Nat) (s : State) :
    blockLoop (fuel + 1) s =
      if s.driver.bs.toNat < s.inLen.toNat then blockRound s >>= blockLoop fuel else .ok s := by
  rw [blockLoop, blockRound]
  split
  · cases blockStart (cutBlock s) with
    | error e => rfl
    | ok t =>
      simp only [bind_ok]
      cases tokenLoop _ (setPos t.driver.bs.toNat t) with
      | error e => rfl
      | ok u =>
        simp only [bind_ok]
        cases emitEndOfBlock u <;> rfl
  · rfl

theorem blockRound_spec {s : State} (h : regionsOk s = true) (hbs : s.driver.bs.toNat ≤ s.inLen.toNat) :
    (∀ t, blockRound s = .ok t → BlockMoves s t) ∧ NoStop (blockRound s) := by
  have hbe : (word (min (s.driver.bs.toNat + s.params.blkMax) s.inLen.toNat)).toNat =
      min (s.driver.bs.toNat + s.params.blkMax) s.inLen.toNat :=
    word_toNat_of_lt (lt_of_le_of_lt (Nat.min_le_right _ _) s.inLen.isLt)
  have hcut : Work s (cutBlock s) := .of_tables rfl
  have hstart := blockStart_unit (hcut.regionsOk h)
  -- what holds where the token loop starts
  have loop : ∀ u, blockStart (cutBlock s) = .ok u →
      Work s (setPos u.driver.bs.toNat u) ∧
      (setPos u.driver.bs.toNat u).driver =
        { s.driver with be := word (min (s.driver.bs.toNat + s.params.blkMax) s.inLen.toNat), pos := s.driver.bs } := by
    intro u hu
    obtain ⟨w, d⟩ := hstart.1 u hu
    refine ⟨(hcut.trans w).trans (.of_tables rfl), ?_⟩
    rw [setPos_driver, d]
    simp
  have tok : ∀ u, blockStart (cutBlock s) = .ok u → regionsOk (setPos u.driver.bs.toNat u) = true ∧
      (setPos u.driver.bs.toNat u).driver.pos.toNat ≤ (setPos u.driver.bs.toNat u).driver.be.toNat ∧
      (setPos u.driver.bs.toNat u).driver.be.toNat ≤ (setPos u.driver.bs.toNat u).inLen.toNat := by
    intro u hu
    obtain ⟨w, d⟩ := loop u hu
    refine ⟨w.regionsOk h, ?_, ?_⟩
    · rw [d, hbe]; simp only; omega
    · rw [d, w.inLen, hbe]; omega
  constructor
  · intro t ht
    simp only [blockRound, bind_eq_ok] at ht
    obtain ⟨u, hu, v, hv, x, hx, ht⟩ := ht
    cases ht
    obtain ⟨w, d⟩ := loop u hu
    obtain ⟨t1, t2, t3⟩ := tok u hu
    obtain ⟨w2, d2, -, -⟩ := (tokenLoop_spec _ t1 t2 t3).1 v hv
    have hrv := w2.regionsOk t1
    obtain ⟨w3, d3⟩ := (emitEndOfBlock_unit hrv).1 x hx
    refine ⟨((w.trans w2).trans w3).trans (.of_tables rfl), ?_⟩
    generalize v.driver.pos = q at d2
    rw [d] at d2
    simp only [closeBlock_driver, d3, d2, hbe, and_self]
  · refine NoStop.bind hstart.2 fun u hu => ?_
    obtain ⟨t1, t2, t3⟩ := tok u hu
    refine NoStop.bind (tokenLoop_spec _ t1 t2 t3).2 fun v hv => ?_
    have w2 := ((tokenLoop_spec _ t1 t2 t3).1 v hv).1
    exact NoStop.bind (emitEndOfBlock_unit (w2.regionsOk t1)).2 fun _ _ => .ok _

/-- The block loop: BS ends at IN_LEN where the fuel is enough and blocks are not empty. -/
theorem blockLoop_spec (fuel : Nat) {s : State} (h : regionsOk s = true) (hbs : s.driver.bs.toNat ≤ s.inLen.toNat) :
    (∀ t, blockLoop fuel s = .ok t → Work s t ∧ t.driver.lvl = s.driver.lvl ∧ t.driver.cont = s.driver.cont ∧
      t.driver.bs.toNat ≤ s.inLen.toNat ∧
      (1 ≤ s.params.blkMax → s.inLen.toNat - s.driver.bs.toNat ≤ fuel → t.driver.bs.toNat = s.inLen.toNat)) ∧
    NoStop (blockLoop fuel s) := by
  induction fuel generalizing s with
  | zero =>
    refine ⟨fun t ht => ?_, .ok _⟩
    cases ht
    exact ⟨.refl _, rfl, rfl, hbs, fun _ _ => by omega⟩
  | succ fuel ih =>
    rw [blockLoop_succ]
    split
    · obtain ⟨hs, hn⟩ := blockRound_spec h hbs
      have next : ∀ u, blockRound s = .ok u → regionsOk u = true ∧ u.driver.bs.toNat ≤ u.inLen.toNat := by
        intro u hu
        obtain ⟨w, -, -, -, p, -⟩ := hs u hu
        exact ⟨w.regionsOk h, by rw [p, w.inLen]; omega⟩
      constructor
      · intro t ht
        obtain ⟨u, hu, ht⟩ := bind_eq_ok.mp ht
        obtain ⟨w, l, c, -, p, -⟩ := hs u hu
        obtain ⟨w', l', c', p', f'⟩ := (ih (next u hu).1 (next u hu).2).1 t ht
        rw [w.inLen] at p' f'
        rw [w.params] at f'
        exact ⟨w.trans w', l'.trans l, c'.trans c, p', fun h1 hf => f' h1 (by omega)⟩
      · exact NoStop.bind hn fun u hu => (ih (next u hu).1 (next u hu).2).2
    · refine ⟨fun t ht => ?_, .ok _⟩
      cases ht
      exact ⟨.refl _, rfl, rfl, hbs, fun _ _ => by omega⟩

/-! ### A whole COMPRESS -/

theorem seedFreqs_work (s : State) : Work s (seedFreqs s) := by
  refine .of_tables ?_
  simp only [seedFreqs]

/-- The state Init sets up before the container's header (R303). -/
theorem initState_work (d : Driver) (s : State) :
    Work (resetWriter s) (seedFreqs (resetHead (resetWriter { s with driver := d }))) :=
  Work.trans (.of_tables rfl) (seedFreqs_work _)

theorem compressInit_spec {level : BitVec 4} {container : Bool} {s : State} (h : regionsOk s = true) :
    (∀ t, compressInit level container s = .ok t → Work (resetWriter s) t ∧ t.driver.lvl = level ∧
      t.driver.cont = container ∧ t.driver.nblk = 0) ∧ NoStop (compressInit level container s) := by
  have w := initState_work { s.driver with dstate := .header, lvl := level, cont := container, nblk := 0 } s
  have hd : (seedFreqs (resetHead (resetWriter { s with
      driver := { s.driver with dstate := .header, lvl := level, cont := container, nblk := 0 } }))).driver =
      { s.driver with dstate := .header, lvl := level, cont := container, nblk := 0 } := by
    rw [seedFreqs_driver, resetHead_driver, resetWriter_driver]
  simp only [compressInit]
  generalize seedFreqs (resetHead (resetWriter { s with
    driver := { s.driver with dstate := .header, lvl := level, cont := container, nblk := 0 } })) = u at w hd ⊢
  have hr := w.regionsOk h
  split
  · rw [inputBytes_ok hr _ _ (by omega), bind_ok]
    have wa : Work u { u with adler := adlerStep 0x00000001 ((List.range u.inLen.toNat).map (fun i => inputAt u (0 + i))) } :=
      .of_tables rfl
    have op := zlibHeader_unit (wa.regionsOk hr)
    refine ⟨fun t ht => ?_, op.2⟩
    obtain ⟨w', d'⟩ := op.1 t ht
    refine ⟨w.trans (wa.trans w'), ?_⟩
    rw [d']
    show u.driver.lvl = level ∧ u.driver.cont = container ∧ u.driver.nblk = 0
    rw [hd]
    exact ⟨rfl, rfl, rfl⟩
  · refine ⟨fun t ht => ?_, .ok _⟩
    cases ht
    refine ⟨w, ?_⟩
    rw [hd]
    exact ⟨rfl, rfl, rfl⟩

theorem compressTrailer_unit {s : State} (h : regionsOk s = true) :
    (∀ t, compressTrailer s = .ok t → Work s t) ∧ NoStop (compressTrailer s) := by
  rw [compressTrailer]
  split
  · have hw : Work s (enter .trailer s) := .of_tables rfl
    have op := emitBigEndian_unit (v := s.adler) (hw.regionsOk h)
    exact ⟨fun t ht => hw.trans (op.1 t ht).1, op.2⟩
  · exact ⟨fun t ht => by cases ht; exact .refl _, .ok _⟩

/-- A whole COMPRESS, its pre-checks passed: it works from a reset writer and does not stop the model. -/
theorem compressRun_spec {level : BitVec 4} {container : Bool} {s : State} (h : regionsOk s = true) :
    (∀ t, compressRun level container s = .ok t → Work (resetWriter s) t) ∧
    NoStop (compressRun level container s) := by
  have init := compressInit_spec (level := level) (container := container) h
  have blocks : ∀ u, compressInit level container s = .ok u →
      Work (resetWriter s) (enter .block { u with driver := { u.driver with bs := 0 } }) ∧
      ((∀ t, blockLoop (enter .block { u with driver := { u.driver with bs := 0 } }).inLen.toNat
        (enter .block { u with driver := { u.driver with bs := 0 } }) = .ok t → Work (resetWriter s) t) ∧
      NoStop (blockLoop (enter .block { u with driver := { u.driver with bs := 0 } }).inLen.toNat
        (enter .block { u with driver := { u.driver with bs := 0 } }))) := by
    intro u hu
    have w : Work (resetWriter s) (enter .block { u with driver := { u.driver with bs := 0 } }) :=
      (init.1 u hu).1.trans (.of_tables rfl)
    have l := blockLoop_spec (enter .block { u with driver := { u.driver with bs := 0 } }).inLen.toNat
      (w.regionsOk h) (by simp)
    exact ⟨w, fun t ht => w.trans (l.1 t ht).1, l.2⟩
  have enterWork : ∀ (d : DState) (u : State), Work (resetWriter s) u → Work (resetWriter s) (enter d u) :=
    fun d u w => w.trans (.of_tables rfl)
  constructor
  · intro t ht
    simp only [compressRun, bind_eq_ok] at ht
    obtain ⟨u, hu, v, hv, x, hx, y, hy, z, hz, ht⟩ := ht
    cases ht
    have w1 := enterWork .terminator v ((blocks u hu).2.1 v hv)
    have w2 := enterWork .padding x (w1.trans ((terminator_unit (w1.regionsOk h)).1 x hx).1)
    have w3 := w2.trans ((pad_unit (w2.regionsOk h)).1 y hy).1
    have w4 := w3.trans ((compressTrailer_unit (w3.regionsOk h)).1 z hz)
    exact w4.trans (.of_tables rfl)
  · refine NoStop.bind init.2 fun u hu => NoStop.bind (blocks u hu).2.2 fun v hv => ?_
    have w1 := enterWork .terminator v ((blocks u hu).2.1 v hv)
    refine NoStop.bind (terminator_unit (w1.regionsOk h)).2 fun x hx => ?_
    have w2 := enterWork .padding x (w1.trans ((terminator_unit (w1.regionsOk h)).1 x hx).1)
    refine NoStop.bind (pad_unit (w2.regionsOk h)).2 fun y hy => ?_
    have w3 := w2.trans ((pad_unit (w2.regionsOk h)).1 y hy).1
    exact NoStop.bind (compressTrailer_unit (w3.regionsOk h)).2 fun _ _ => .ok _

end Sys2Proof.Laws
end

