-- ==== Sys2Proof/Laws/Emitters.lean ====
section
/-! SUPPORT. What running an emitting command does, said once for all nine of them (R140, R364). -/

namespace Sys2Proof.Laws

open Sys2Proof.Machine

/-- A counting step changes nothing but FREQ_LIT and FREQ_DIST, and counts the listed symbols. -/
def Counts (g : State → State) (lits dists : List Nat) : Prop :=
  ∀ s, g s = { s with freqLit := (g s).freqLit, freqDist := (g s).freqDist } ∧ Counted s (g s) lits dists

theorem counts_none : Counts id [] [] := fun _ => ⟨rfl, by simp [Counted]⟩

theorem counts_lit (sym : Nat) : Counts (countLit sym) [sym] [] := fun s => by
  refine ⟨rfl, fun j => ?_, by simp, by simp, fun _ => rfl⟩
  simp only [countLit_freqLit, Cells.get_set]
  by_cases h : sym = j
  · subst h; simp
  · rw [if_neg h, List.count_singleton]; simp [h]

theorem counts_match (sym d : Nat) : Counts (fun s => countDist d (countLit sym s)) [sym] [d] := fun s => by
  refine ⟨rfl, fun j => ?_, fun j => ?_, by simp, by simp⟩
  · exact (counts_lit sym s).2.1 j
  · simp only [countDist_freqDist, countLit_freqDist, Cells.get_set]
    by_cases h : d = j
    · subst h; simp
    · rw [if_neg h, List.count_singleton]; simp [h]

/-- A failing region check is what an emitting command ends with. -/
theorem runEmitter_region {body : State → Except Trap State} {s : State} {n : Word} (h : s.ready = true)
    (hf : FailsRegion s n) : runEmitter body s = .next (faulted .badRegion n s) := by
  refine runCommand_faults h ?_ (by simp)
  simp only [regionCheck_accept, regionCheck_fails hf, bind_error]

/-- A command that, its checks passed, runs a sequence of Emits and then counts: with room it completes, without
room it overflows at the first offset without room. -/
theorem runEmitter_emits {i : Instr} {body : State → Except Trap State} {s : State} {fields : List (Nat × Nat)}
    {lits dists : List Nat} {g : State → State} (he : exec i s = runEmitter body s)
    (hb : body (accept s) = emitAll fields (accept s) >>= fun t => .ok (g t)) (hg : Counts g lits dists)
    (h : s.ready = true) (hr : regionsOk s = true) (hl : WriterLegal s) (hw : ∀ x ∈ fields, x.2 ≤ 25) :
    EmitsFields i s fields lits dists := by
  have spec := emitAll_spec (s := accept s) (fields := fields) hl (regionsOk_out hr) hw
  have hc : regionCheck (accept s) = .ok () := regionCheck_ok.mpr hr
  refine ⟨fun hroom => ?_, fun hroom => ?_⟩
  · obtain ⟨t, ht, hat, -⟩ := spec.1 hroom
    have hrun : runEmitter body s = .next (complete (g t)) :=
      runCommand_completes h (by simp only [hc, bind_ok, hb, ht])
    refine ⟨complete (g t), he.trans hrun, ?_, ?_, ?_⟩
    · have e1 := emitAll_frame ht
      have e2 := (hg t).1
      unfold WriterOnly at e1
      rw [e2, e1]
      rfl
    · have e2 := (hg t).1
      rw [e2]
      exact hat
    · have e1 := emitAll_frame ht
      unfold WriterOnly at e1
      have hcount := (hg t).2
      rw [e1] at hcount ⊢
      exact hcount
  · have hov := spec.2 hroom
    have hrun : runEmitter body s = .next (takeFault .outOverflow (word (max s.outPos.toNat s.outCap.toNat))
        (drawAfterOverflow (accept s))) :=
      runCommand_overflows h (by simp only [hc, bind_ok, hb, hov, bind_error]; rfl)
    refine ⟨_, he.trans hrun, rfl, rfl, rfl, rfl, by simp [HostOwned, drawAfterOverflow], fun a ha => ?_⟩
    exact memByte_drawAfterOverflow (s := accept s) hr _ ha

end Sys2Proof.Laws
end

