-- ==== Sys2Proof/Laws/Commands.lean ====
section
/-! SUPPORT. What any command can do, said once: how it can end, and what its end changes. -/

namespace Sys2Proof.Laws

open Sys2Proof.Machine

/-- What a completed body of the command i changes: no host-owned register, not STATUS, and of host memory only
output bytes that the command may write. -/
structure Did (i : Instr) (s t : State) : Prop where
  frame : t = { s with
    mem := t.mem, outPos := t.outPos, bitBuf := t.bitBuf, bitCnt := t.bitCnt, adler := t.adler, res0 := t.res0
    res1 := t.res1, head := t.head, prev := t.prev, freqLit := t.freqLit, freqDist := t.freqDist
    freqPre := t.freqPre, lenLit := t.lenLit, lenDist := t.lenDist, lenPre := t.lenPre, codeLit := t.codeLit
    codeDist := t.codeDist, codePre := t.codePre, rleItem := t.rleItem, rleCount := t.rleCount, driver := t.driver
    draws := t.draws }
  mem : ∀ a, memByte t.mem a ≠ memByte s.mem a → writesOutput i = true ∧ regionsOk s = true ∧
    s.outBase.toNat + outputStart i s ≤ a ∧ a < s.outBase.toNat + s.outCap.toNat

/-- A change that leaves memory and STATUS. -/
theorem Did.of_same {i : Instr} {s t : State} (h : t = { s with
    outPos := t.outPos, bitBuf := t.bitBuf, bitCnt := t.bitCnt, adler := t.adler, res0 := t.res0
    res1 := t.res1, head := t.head, prev := t.prev, freqLit := t.freqLit, freqDist := t.freqDist
    freqPre := t.freqPre, lenLit := t.lenLit, lenDist := t.lenDist, lenPre := t.lenPre, codeLit := t.codeLit
    codeDist := t.codeDist, codePre := t.codePre, rleItem := t.rleItem, rleCount := t.rleCount, driver := t.driver
    draws := t.draws }) : Did i s t :=
  ⟨by rw [h], by rw [h]; intro a ha; exact absurd rfl ha⟩

/-- What a body of the command i gives from the state s it was accepted in: an end, or a fault of the engine, which
is OUT_OVERFLOW only for a command that writes output and whose regions are legal. -/
structure BodyOf (i : Instr) (s : State) (x : Except Trap State) : Prop where
  done : ∀ t, x = .ok t → Did i s t
  noStop : NoStop x
  flow : ∀ info, x = .error (.raise .outOverflow info) → writesOutput i = true ∧ regionsOk s = true

theorem BodyOf.ok {i : Instr} {s t : State} (h : Did i s t) : BodyOf i s (.ok t) :=
  ⟨fun u hu => by cases hu; exact h, .ok _, fun _ h => nomatch h⟩

theorem BodyOf.check {i : Instr} {s : State} {b : Bool} {c : Cause} {info : Word} {f : Except Trap State}
    (hf : b = true → BodyOf i s f)
    (hc : c ≠ .none := by decide) (ho : c ≠ .outOverflow := by decide) :
    BodyOf i s (Machine.check b c info >>= fun _ => f) := by
  cases b with
  | true => exact hf rfl
  | false =>
    refine ⟨fun t h => (nomatch h), fun e h => ?_, fun info' h => ?_⟩
    · cases h; exact ⟨c, info, rfl, hc⟩
    · cases h; exact absurd rfl ho

theorem BodyOf.region {i : Instr} {s : State} {f : Except Trap State} (hf : regionsOk s = true → BodyOf i s f) :
    BodyOf i s (regionCheck s >>= fun _ => f) := by
  cases h : regionsOk s with
  | true => rw [regionCheck_ok.mpr h]; exact hf h
  | false =>
    obtain ⟨n, hn⟩ := failsRegion_of_not h
    rw [regionCheck_fails hn]
    refine ⟨fun t h => (nomatch h), fun e h => ?_, fun info h => nomatch h⟩
    cases h; exact ⟨_, _, rfl, by simp⟩

/-- The work of a command that writes output from OUTPOS on. -/
theorem BodyOf.unit {i : Instr} {s : State} {x : Except Trap State} (hw : writesOutput i = true)
    (hs : outputStart i s = s.outPos.toNat) (hr : regionsOk s = true) (hx : UnitOp s x) : BodyOf i s x := by
  refine ⟨fun t ht => ?_, hx.2, fun _ _ => ⟨hw, hr⟩⟩
  have w := (hx.1 t ht).1
  exact ⟨w.frame, fun a ha => ⟨hw, hr, by rw [hs]; exact (w.mem a ha).1, (w.mem a ha).2⟩⟩

/-- The command i runs a body of this kind. -/
def RunsBody (i : Instr) (s : State) : Prop :=
  ∃ body, exec i s = runCommand body s ∧ BodyOf i (accept s) (body (accept s))

theorem runsBody_illegal {i : Instr} {s : State} {w : Word}
    (h : exec i s = illegalCommand w s) : RunsBody i s := by
  refine ⟨_, h, ⟨fun t h => (nomatch h), fun e h => ?_, fun info h => nomatch h⟩⟩
  cases h; exact ⟨_, _, rfl, by simp⟩

theorem runsBody_emitter {i : Instr} {s : State} {body : State → Except Trap State}
    (h : exec i s = runEmitter body s)
    (hb : regionsOk (accept s) = true → BodyOf i (accept s) (body (accept s))) : RunsBody i s :=
  ⟨_, h, .region hb⟩

theorem readTable_did (i : Instr) (x : TableId) (k : Nat) (s : State) :
    Did i s { (readTable x k s).2 with res0 := (readTable x k s).1 } := by
  have h : DrawsOnly s (readTable x k s).2 := by
    cases x <;> first | exact rfl | exact readPrev_drawsOnly k s
  generalize (readTable x k s).1 = v
  generalize (readTable x k s).2 = u at h
  unfold DrawsOnly at h
  exact .of_same (by rw [h])

theorem setCodes_did (i : Instr) (a : Alphabet) (lens : Cells (BitVec 4)) (codes : Cells (BitVec 16)) (s : State) :
    Did i s (setCodes a lens codes s) := by
  cases a <;> exact .of_same rfl

theorem compress_did {level : BitVec 4} {container : Bool} {s : State} (hr : regionsOk s = true) :
    BodyOf (.compress level container) s (compressRun level container s) := by
  have h := compressRun_spec (level := level) (container := container) hr
  refine ⟨fun t ht => ?_, h.2, fun _ _ => ⟨rfl, hr⟩⟩
  have w := h.1 t ht
  refine ⟨by rw [w.frame]; rfl, fun a ha => ?_⟩
  have := w.mem a ha
  exact ⟨rfl, hr, this.1, this.2⟩

/-- Every command but RESET_STATE is accepted, runs a body and ends as the body does. -/
theorem exec_runsBody {i : Instr} (hi : i ≠ .resetState) (s : State) : RunsBody i s := by
  have hp : (accept s).outPos = s.outPos := rfl
  cases i with
  | resetState => exact absurd rfl hi
  | nop =>
    refine ⟨_, by rw [exec, execNop], ?_⟩
    exact .ok (.of_same rfl)
  | bound =>
    refine ⟨_, by rw [exec, execBound], ?_⟩
    exact .check fun _ => .ok (.of_same rfl)
  | compress level container =>
    refine ⟨_, by rw [exec, execCompress], ?_⟩
    exact .check fun _ => .region fun hr => .check fun _ =>
      compress_did hr
  | bwReset =>
    refine ⟨_, by rw [exec, execBwReset], ?_⟩
    exact .ok (.of_same rfl)
  | bwEmit =>
    refine runsBody_emitter (by rw [exec, execBwEmit]) fun hr => ?_
    exact .check fun _ =>
      .unit (x := emit _ _ _) rfl rfl hr (by rw [emit_eq]; exact emitAll_unit hr)
  | bwPad =>
    refine runsBody_emitter (by rw [exec, execBwPad]) fun hr => ?_
    exact .unit rfl rfl hr (pad_unit hr)
  | adlerUpdate =>
    refine ⟨_, by rw [exec, execAdlerUpdate], ?_⟩
    refine .region fun hr => .check fun h0 => .check fun h1 => ?_
    rw [inputBytes_ok hr _ _ (by simp only [decide_eq_true_eq] at h0 h1; omega), bind_ok]
    exact .ok (.of_same rfl)
  | hcReset =>
    refine ⟨_, by rw [exec, execHcReset], ?_⟩
    exact .ok (.of_same rfl)
  | hcInsert =>
    refine ⟨_, by rw [exec, execHcInsert], ?_⟩
    refine .region fun hr => .check fun h0 => ?_
    simp only [positionFits, Bool.and_eq_true, decide_eq_true_eq] at h0
    rw [insertPos_ok hr (by omega)]
    exact .ok (.of_same rfl)
  | findMatch =>
    refine ⟨_, by rw [exec, execFindMatch], ?_⟩
    refine .region fun hr => .check fun h0 => .check fun _ =>
      .check fun h2 => ?_
    simp only [positionFits, maxLenFits, Bool.and_eq_true, decide_eq_true_eq] at h0 h2
    obtain ⟨r, u, hru, hd, -⟩ := findMatch_spec (p := (accept s).arg0.toNat) (depth := (accept s).arg1.toNat)
      (maxLen := (accept s).arg2.toNat) hr (by omega) (by omega)
    rw [hru, bind_ok]
    unfold DrawsOnly at hd
    exact .ok (.of_same (by rw [hd]))
  | huffBuild sel =>
    cases ha : Alphabet.ofSel sel with
    | none => exact runsBody_illegal (w := encode (.huffBuild sel)) (by simp only [exec, execHuffBuild, ha])
    | some a =>
      refine ⟨huffBuild a, by rw [exec, execHuffBuild, ha], ?_⟩
      exact .check fun _ => .ok (setCodes_did _ _ _ _ _)
  | rleEncode =>
    refine ⟨_, by rw [exec, execRleEncode], ?_⟩
    refine .ok ?_
    have h := runEncode_frame (accept s)
    generalize runEncode (accept s) = t at h
    exact .of_same (by rw [h])
  | freqClear =>
    refine ⟨_, by rw [exec, execFreqClear], ?_⟩
    exact .ok (.of_same rfl)
  | freqSeed =>
    refine ⟨_, by rw [exec, execFreqSeed], ?_⟩
    refine .ok (.of_same ?_)
    unfold seedFreqs
    dsimp only
  | blkHeader bfinal =>
    refine runsBody_emitter (by rw [exec, execBlkHeader]) fun hr => ?_
    exact .unit rfl rfl hr (blockHeader_unit hr)
  | emitLit =>
    refine runsBody_emitter (by rw [exec, execEmitLit]) fun hr => ?_
    exact .check fun _ =>
      .unit rfl rfl hr (emitLiteral_unit hr)
  | emitMatch =>
    refine runsBody_emitter (by rw [exec, execEmitMatch]) fun hr => ?_
    exact .check fun _ =>
      .check fun _ => .unit rfl rfl hr (emitMatchToken_unit hr)
  | emitEob =>
    refine runsBody_emitter (by rw [exec, execEmitEob]) fun hr => ?_
    exact .unit rfl rfl hr (emitEndOfBlock_unit hr)
  | emitTerminator =>
    refine runsBody_emitter (by rw [exec, execEmitTerminator]) fun hr => ?_
    exact .unit rfl rfl hr (terminator_unit hr)
  | emitZheader =>
    refine runsBody_emitter (by rw [exec, execEmitZheader]) fun hr => ?_
    exact .unit rfl rfl hr (zlibHeader_unit hr)
  | emitTrailer =>
    refine runsBody_emitter (by rw [exec, execEmitTrailer]) fun hr => ?_
    exact .unit rfl rfl hr (emitBigEndian_unit hr)
  | tblRead sel =>
    cases hx : TableId.ofSel sel with
    | none => exact runsBody_illegal (w := encode (.tblRead sel)) (by simp only [exec, execTblRead, hx])
    | some x =>
      refine ⟨_, by rw [exec, execTblRead, hx], ?_⟩
      exact .check fun _ => .ok (readTable_did _ _ _ _)
  | tblWrite sel =>
    cases hx : TableId.ofSel sel with
    | none => exact runsBody_illegal (w := encode (.tblWrite sel)) (by simp only [exec, execTblWrite, hx])
    | some x =>
      refine ⟨_, by rw [exec, execTblWrite, hx], ?_⟩
      refine .check fun _ => .check fun _ => .ok ?_
      cases x <;> exact .of_same rfl

/-- Every way a command but RESET_STATE can end: ignored, completed, faulted with nothing changed, or overflowed. -/
theorem exec_cases {i : Instr} {s t : State} (hi : i ≠ .resetState) (h : exec i s = .next t) :
    (s.ready = false ∧ t = s) ∨
    (s.ready = true ∧ ∃ u, Did i (accept s) u ∧ t = complete u) ∨
    (s.ready = true ∧ ∃ c info, c ≠ .none ∧ c ≠ .outOverflow ∧ t = faulted c info s) ∨
    (s.ready = true ∧ writesOutput i = true ∧ regionsOk s = true ∧
      ∃ info, t = takeFault .outOverflow info (drawAfterOverflow (accept s))) := by
  obtain ⟨body, he, hb⟩ := exec_runsBody hi s
  rw [he] at h
  rcases runCommand_cases h with h | ⟨hr, u, hu, ht⟩ | ⟨hr, c, info, hf, hc, ht⟩ | ⟨hr, info, hf, ht⟩
  · exact .inl h
  · exact .inr (.inl ⟨hr, u, hb.done u hu, ht⟩)
  · obtain ⟨c', info', hcc, hn⟩ := hb.noStop _ hf
    cases hcc
    exact .inr (.inr (.inl ⟨hr, c, info, hn, hc, ht⟩))
  · obtain ⟨hw, hreg⟩ := hb.flow _ hf
    exact .inr (.inr (.inr ⟨hr, hw, hreg, info, ht⟩))

/-- MemWrite (R11) keeps the canonical form of host memory. -/
theorem memWrite_wf {addr : Nat} {v : Byte} {s t : State} (h : memWrite addr v s = .ok t)
    (hm : Memory.wf s.mem) :
    Memory.wf t.mem := by
  unfold memWrite at h
  split at h
  · rename_i ha; cases h; exact Memory.wf_storeByte v hm ha
  · cases h

end Sys2Proof.Laws
end

