-- ==== Sys2Proof/Laws/PerInstr.lean ====
section
/-! SUPPORT. The family RoundTrip: decoding the encoding of a command gives it back exactly where it is
well-formed, one lemma per constructor. -/

namespace Sys2Proof.Laws.RoundTrip

/-- A well-formed command's word decodes to it; the word of an ill-formed one is refused for its SEL. -/
def Statement (i : Instr) : Prop :=
  decode (encode i) = if i.wellFormed then .ok i else .error .selIllegal

theorem nop : Statement .nop := by unfold Statement; decide
theorem resetState : Statement .resetState := by unfold Statement; decide
theorem bound : Statement .bound := by unfold Statement; decide
theorem compress (level : BitVec 4) (container : Bool) : Statement (.compress level container) := by
  unfold Statement; revert level container; decide
theorem bwReset : Statement .bwReset := by unfold Statement; decide
theorem bwEmit : Statement .bwEmit := by unfold Statement; decide
theorem bwPad : Statement .bwPad := by unfold Statement; decide
theorem adlerUpdate : Statement .adlerUpdate := by unfold Statement; decide
theorem hcReset : Statement .hcReset := by unfold Statement; decide
theorem hcInsert : Statement .hcInsert := by unfold Statement; decide
theorem findMatch : Statement .findMatch := by unfold Statement; decide
theorem huffBuild (sel : BitVec 4) : Statement (.huffBuild sel) := by
  unfold Statement; revert sel; decide
theorem rleEncode : Statement .rleEncode := by unfold Statement; decide
theorem freqClear : Statement .freqClear := by unfold Statement; decide
theorem freqSeed : Statement .freqSeed := by unfold Statement; decide
theorem blkHeader (bfinal : Bool) : Statement (.blkHeader bfinal) := by
  unfold Statement; revert bfinal; decide
theorem emitLit : Statement .emitLit := by unfold Statement; decide
theorem emitMatch : Statement .emitMatch := by unfold Statement; decide
theorem emitEob : Statement .emitEob := by unfold Statement; decide
theorem emitTerminator : Statement .emitTerminator := by unfold Statement; decide
theorem emitZheader : Statement .emitZheader := by unfold Statement; decide
theorem emitTrailer : Statement .emitTrailer := by unfold Statement; decide
theorem tblRead (sel : BitVec 4) : Statement (.tblRead sel) := by
  unfold Statement; revert sel; decide
theorem tblWrite (sel : BitVec 4) : Statement (.tblWrite sel) := by
  unfold Statement; revert sel; decide

end Sys2Proof.Laws.RoundTrip
end

