-- ==== Sys2Proof/Laws/Stream.lean ====
section
/-! SUPPORT. What the bufferless reading of the driver (`streamFields`) leaves unchanged, and how many blocks and bits it
has. -/

namespace Sys2Proof.Laws

open Sys2Proof.Machine

/-- What the tokens of a block change: the chains, the counts and POS. -/
def TokensOnly (s u : State) : Prop :=
  u = { s with
    head := u.head, prev := u.prev, freqLit := u.freqLit, freqDist := u.freqDist
    driver := { s.driver with pos := u.driver.pos } }

theorem TokensOnly.refl (s : State) : TokensOnly s s := rfl

theorem TokensOnly.trans {s u v : State} (h : TokensOnly s u) (h' : TokensOnly u v) : TokensOnly s v := by
  unfold TokensOnly at *
  rw [h'] ; rw [h]

theorem inserted_tokensOnly (q : Nat) (s : State) : TokensOnly s (inserted q s) := by
  unfold inserted
  split
  · exact rfl
  · exact rfl

theorem insertAll_tokensOnly (qs : List Nat) (s : State) :
    TokensOnly s (qs.foldl (fun u q => inserted q u) s) := by
  induction qs generalizing s with
  | nil => exact rfl
  | cons q qs ih => exact (inserted_tokensOnly q s).trans (ih _)

theorem countToken_tokensOnly (s : State) (tok : Token) : TokensOnly s (countToken s tok) := by
  cases tok <;> exact rfl

theorem setPos_tokensOnly (p : Nat) (s : State) : TokensOnly s (setPos p s) := rfl

theorem afterToken_tokensOnly (s : State) (tok : Token) : TokensOnly s (afterToken s tok) :=
  ((countToken_tokensOnly s tok).trans (insertAll_tokensOnly _ _)).trans (setPos_tokensOnly _ _)

theorem blockTokens_tokensOnly (fuel : Nat) (s : State) : TokensOnly s (blockTokens fuel s).2 := by
  induction fuel generalizing s with
  | zero => exact rfl
  | succ n ih =>
    rw [blockTokens]
    split
    · exact (afterToken_tokensOnly s _).trans (ih _)
    · exact rfl

/-- What building a block's tables changes: the tables. -/
def CodesOnly (s u : State) : Prop :=
  u = { s with
    freqLit := u.freqLit, freqDist := u.freqDist, freqPre := u.freqPre, lenLit := u.lenLit, lenDist := u.lenDist
    lenPre := u.lenPre, codeLit := u.codeLit, codeDist := u.codeDist, codePre := u.codePre, rleItem := u.rleItem
    rleCount := u.rleCount }

theorem CodesOnly.trans {s u v : State} (h : CodesOnly s u) (h' : CodesOnly u v) : CodesOnly s v := by
  unfold CodesOnly at *
  rw [h'] ; rw [h]

theorem setCodes_codesOnly (a : Alphabet) (lens : Cells (BitVec 4)) (codes : Cells (BitVec 16)) (s : State) :
    CodesOnly s (setCodes a lens codes s) := by
  cases a <;> exact rfl

theorem buildCodes_codesOnly (a : Alphabet) (s : State) : CodesOnly s (buildCodes a s) := by
  unfold buildCodes
  exact setCodes_codesOnly _ _ _ _

theorem clearFreqs_codesOnly (s : State) : CodesOnly s (clearFreqs s) := rfl

theorem runEncode_codesOnly (s : State) : CodesOnly s (runEncode s) := by
  have h := runEncode_frame s
  generalize runEncode s = t at h
  unfold CodesOnly
  rw [h]

theorem startTables_codesOnly (s : State) : CodesOnly s (startTables s) := by
  unfold startTables
  refine CodesOnly.trans ?_ (buildCodes_codesOnly _ _)
  refine CodesOnly.trans ?_ (runEncode_codesOnly _)
  refine CodesOnly.trans ?_ (clearFreqs_codesOnly _)
  exact (buildCodes_codesOnly _ _).trans (buildCodes_codesOnly _ _)

/-- A block ends where it was cut, NBLK counts it, and nothing the next cut depends on changes. -/
theorem nextBlock_frame (s : State) :
    (nextBlock s).2.driver.bs = word (min (s.driver.bs.toNat + s.params.blkMax) s.inLen.toNat) ∧
    (nextBlock s).2.inLen = s.inLen ∧ (nextBlock s).2.params = s.params ∧
    (nextBlock s).2.driver.nblk = s.driver.nblk + 1 := by
  have hc := startTables_codesOnly (cutBlock s)
  have hu : TokensOnly (openBlock s) (wholeBlock (openBlock s)).2 := blockTokens_tokensOnly _ _
  unfold nextBlock
  unfold openBlock at hu ⊢
  dsimp only
  generalize startTables (cutBlock s) = c at hc hu ⊢
  generalize (wholeBlock (setPos s.driver.bs.toNat c)).2 = u at hu ⊢
  unfold CodesOnly at hc
  unfold TokensOnly at hu
  have hd : c.driver = (cutBlock s).driver := by rw [hc]
  have hi : c.inLen = s.inLen := by rw [hc]; rfl
  have hp : c.params = s.params := by rw [hc]; rfl
  have hbe : u.driver.be = c.driver.be := by rw [hu]; rfl
  have hn : u.driver.nblk = c.driver.nblk := by rw [hu]; rfl
  have hui : u.inLen = c.inLen := by rw [hu]; rfl
  have hup : u.params = c.params := by rw [hu]; rfl
  refine ⟨?_, hui.trans hi, hup.trans hp, ?_⟩
  · show u.driver.be = _
    rw [hbe, hd]
    rfl
  · show u.driver.nblk + 1 = _
    rw [hn, hd]
    rfl

/-- The blocks are as many as it takes to cover the rest of the input. -/
theorem blocksFrom_length (fuel : Nat) (s : State) (hb : 1 ≤ s.params.blkMax) (hp : s.driver.bs.toNat ≤ s.inLen.toNat)
    (hf : s.inLen.toNat - s.driver.bs.toNat ≤ fuel) :
    (blocksFrom fuel s).1.length = (s.inLen.toNat - s.driver.bs.toNat + s.params.blkMax - 1) / s.params.blkMax := by
  induction fuel generalizing s with
  | zero =>
    rw [blocksFrom, show s.inLen.toNat - s.driver.bs.toNat = 0 by omega, Nat.div_eq_of_lt (by omega)]
    rfl
  | succ n ih =>
    rw [blocksFrom]
    split
    · rename_i hlt
      obtain ⟨hbs, hin, hpar, -⟩ := nextBlock_frame s
      have hbs' : (nextBlock s).2.driver.bs.toNat = min (s.driver.bs.toNat + s.params.blkMax) s.inLen.toNat := by
        rw [hbs, BitVec.toNat_ofNat, Nat.mod_eq_of_lt (by have := s.inLen.isLt; omega)]
      rw [List.length_cons, ih _ (by rw [hpar]; exact hb) (by rw [hbs', hin]; omega) (by rw [hbs', hin]; omega),
        hbs', hin, hpar]
      rcases Nat.le_total (s.driver.bs.toNat + s.params.blkMax) s.inLen.toNat with h | h
      · rw [Nat.min_eq_left h, ← Nat.add_div_right _ (by omega)]
        congr 1; omega
      · rw [Nat.min_eq_right h, Nat.sub_self, Nat.div_eq_of_lt (by omega)]
        exact (Nat.div_eq_of_lt_le (by omega) (by omega)).symm
    · rw [show s.inLen.toNat - s.driver.bs.toNat = 0 by omega, Nat.div_eq_of_lt (by omega)]
      rfl

/-- The blocks of a whole input. -/
theorem compressBlocks_length (level : BitVec 4) (container : Bool) (s : State) (hb : 1 ≤ s.params.blkMax) :
    (compressBlocks level container s).1.length = (s.inLen.toNat + s.params.blkMax - 1) / s.params.blkMax := by
  have h := blocksFrom_length s.inLen.toNat (startState level container s) hb (Nat.zero_le _) (Nat.sub_le _ _)
  exact h

/-! ### Widths -/

theorem fieldsWidth_eq (fs : List (Nat × Nat)) : fieldsWidth fs = (fs.map Prod.snd).sum := by
  induction fs with
  | nil => rfl
  | cons f fs ih => rw [fieldsWidth, ih]; rfl

/-- A block has at least the 29 bits of its header that are always there. -/
theorem block_width_ge (b : Block) : 29 ≤ fieldsWidth b.fields := by
  have h4 : 4 ≤ hclenOf b.tables := by
    unfold hclenOf
    generalize List.filter _ _ = l
    have : ∀ (l : List Nat) (m : Nat), m ≤ l.foldl (fun m k => max m (k + 1)) m := by
      intro l
      induction l with
      | nil => exact fun m => Nat.le_refl m
      | cons k l ih => exact fun m => Nat.le_trans (Nat.le_max_left _ _) (ih _)
    exact this l 4
  rw [fieldsWidth_eq]
  simp only [Block.fields, headerFields, List.map_append, List.sum_append, List.map_map, Function.comp_def,
    List.map_cons, List.sum_cons, List.map_const', List.sum_replicate, List.length_range, smul_eq_mul]
  omega

/-- A stream is at least as long as its blocks' fixed bits. -/
theorem streamLength_ge (level : BitVec 4) (container : Bool) (s : State) (hb : 1 ≤ s.params.blkMax) :
    29 * ((s.inLen.toNat + s.params.blkMax - 1) / s.params.blkMax) / 8 ≤ streamLength level container s := by
  refine Nat.div_le_div_right ?_
  have hsum : ∀ bs : List Block, 29 * bs.length ≤ fieldsWidth (bs.flatMap Block.fields) := by
    intro bs
    induction bs with
    | nil => exact Nat.zero_le _
    | cons b bs ih =>
      have := block_width_ge b
      rw [List.flatMap_cons, fieldsWidth_eq, List.map_append, List.sum_append, ← fieldsWidth_eq, ← fieldsWidth_eq,
        List.length_cons]
      omega
  have := hsum (compressBlocks level container s).1
  rw [compressBlocks_length level container s hb] at this
  rw [streamFields, fieldsWidth_eq]
  rw [fieldsWidth_eq] at this
  simp only [List.map_append, List.sum_append]
  omega

end Sys2Proof.Laws
end

