-- ==== Sys2Proof/Tests/Slice0.lean ====
section
/-! SUPPORT. The author's tests: the well-formedness smoke test, one decoded word per command written out from
spec/30_encoding.md rule R116, the vectors of spec/95_test_vectors.md, and a witness for the hypotheses of every
statement that has any. -/

namespace Sys2Proof.Tests

open Sys2Proof Sys2Proof.Machine

-- Each kernel evaluation below would otherwise hold a thread of its own.
set_option Elab.async false

/-! ### Helpers -/

/-- The outcome is a next state that `p` accepts. -/
def ends (o : Host.Outcome State Fault Refusal) (p : State → Bool) : Bool :=
  match o with
  | .next t => p t
  | _ => false

theorem next_of_ends {o : Host.Outcome State Fault Refusal} {p : State → Bool} (h : ends o p = true) :
    ∃ t, o = .next t ∧ p t = true := by
  unfold ends at h
  split at h
  · exact ⟨_, rfl, h⟩
  · cases h

/-- The result of a unit of a command is a state that `p` accepts. -/
def yields (o : Except Trap State) (p : State → Bool) : Bool :=
  match o with
  | .ok t => p t
  | .error _ => false

theorem ok_of_yields {o : Except Trap State} {p : State → Bool} (h : yields o p = true) :
    ∃ t, o = .ok t ∧ p t = true := by
  unfold yields at h
  split at h
  · exact ⟨_, rfl, h⟩
  · cases h

/-- An idle engine with the given input at 0x1000 and an output buffer of the given size at 0x2000. -/
def idle (input : List Nat) (cap : Word) (a0 a1 a2 : Word) : State :=
  { State.reset with
    inBase := 0x1000, inLen := word input.length, outBase := 0x2000, outCap := cap, arg0 := a0, arg1 := a1, arg2 := a2
    mem := (List.range input.length).map (fun k => (0x1000 + k, byte (input.getD k 0))) }

/-- The same engine FAULTED. -/
def stuck (c : Cause) (info : Word) : State :=
  { State.reset with status := faultStatus c, faultInfo := info }

/-- The bytes of the output, from its first one on. -/
def written (n : Nat) (t : State) : List Nat := (List.range n).map (fun j => (memByte t.mem (0x2000 + j)).toNat)

/-- The writer holds these bits, this count and this position. -/
def writer (t : State) : Nat × Nat × Nat := (t.bitBuf.toNat, t.bitCnt.toNat, t.outPos.toNat)

/-- A fault with this STATUS word and information word. -/
def faultsWith (status info : Word) (t : State) : Bool := decide (t.status.word = status) && decide (t.faultInfo = info)

/-- "abc", "abcdeabcdfabcde" and "abcdXdzpzYabcd" (spec/95 sections 2.3 and 2.4). -/
def abc : List Nat := [0x61, 0x62, 0x63]
def chainInput : List Nat := [0x61, 0x62, 0x63, 0x64, 0x65, 0x61, 0x62, 0x63, 0x64, 0x66, 0x61, 0x62, 0x63, 0x64, 0x65]
def clashInput : List Nat := [0x61, 0x62, 0x63, 0x64, 0x58, 0x64, 0x7A, 0x70, 0x7A, 0x59, 0x61, 0x62, 0x63, 0x64]

/-- Bucket 22979 holds 5, then 0 (spec/95 section 2.4). -/
def chained (s : State) : State := { s with head := [(22979, 5)], prev := [(0, 0xFFFFFFFF), (5, 0)] }

/-- The first-block codes of 65, 256 and 269 and of distance 16 (spec/95 sections 2.5 and 2.7). -/
def coded (s : State) : State :=
  { s with
    lenLit := [(65, 8), (256, 7), (269, 7)], codeLit := [(65, 142), (269, 88)]
    lenDist := [(16, 5)], codeDist := [(16, 5)] }

/-! ### Well-formedness: an ill-formed term for each check -/

theorem test_wf_huff_build : (Instr.huffBuild 3).wellFormed = false := by decide
theorem test_wf_tbl_read : (Instr.tblRead 13).wellFormed = false := by decide
theorem test_wf_tbl_write : (Instr.tblWrite 13).wellFormed = false := by decide
theorem test_wf_level_is_no_check : (Instr.compress 15 true).wellFormed = true := by decide

/-! ### One word per command, bits RSVD, FLAG, SEL, OPC as R116 gives them -/

theorem test_decode_nop : decode 0b0000000000000000000_0_0000_00000000#32 = .ok .nop := by decide
theorem test_decode_reset_state : decode 0b0000000000000000000_0_0000_00000001#32 = .ok .resetState := by decide
theorem test_decode_bound : decode 0b0000000000000000000_0_0000_00000010#32 = .ok .bound := by decide
theorem test_decode_compress : decode 0b0000000000000000000_1_0101_00000011#32 = .ok (.compress 5 true) := by decide
theorem test_decode_bw_reset : decode 0b0000000000000000000_0_0000_00010000#32 = .ok .bwReset := by decide
theorem test_decode_bw_emit : decode 0b0000000000000000000_0_0000_00010001#32 = .ok .bwEmit := by decide
theorem test_decode_bw_pad : decode 0b0000000000000000000_0_0000_00010010#32 = .ok .bwPad := by decide
theorem test_decode_adler_update : decode 0b0000000000000000000_0_0000_00011000#32 = .ok .adlerUpdate := by decide
theorem test_decode_hc_reset : decode 0b0000000000000000000_0_0000_00100000#32 = .ok .hcReset := by decide
theorem test_decode_hc_insert : decode 0b0000000000000000000_0_0000_00100001#32 = .ok .hcInsert := by decide
theorem test_decode_find_match : decode 0b0000000000000000000_0_0000_00100010#32 = .ok .findMatch := by decide
theorem test_decode_huff_build : decode 0b0000000000000000000_0_0010_00110000#32 = .ok (.huffBuild 2) := by decide
theorem test_decode_rle_encode : decode 0b0000000000000000000_0_0000_00110001#32 = .ok .rleEncode := by decide
theorem test_decode_freq_clear : decode 0b0000000000000000000_0_0000_01000000#32 = .ok .freqClear := by decide
theorem test_decode_freq_seed : decode 0b0000000000000000000_0_0000_01000001#32 = .ok .freqSeed := by decide
theorem test_decode_blk_header : decode 0b0000000000000000000_1_0000_01000010#32 = .ok (.blkHeader true) := by decide
theorem test_decode_emit_lit : decode 0b0000000000000000000_0_0000_01000011#32 = .ok .emitLit := by decide
theorem test_decode_emit_match : decode 0b0000000000000000000_0_0000_01000100#32 = .ok .emitMatch := by decide
theorem test_decode_emit_eob : decode 0b0000000000000000000_0_0000_01000101#32 = .ok .emitEob := by decide
theorem test_decode_emit_terminator : decode 0b0000000000000000000_0_0000_01000110#32 = .ok .emitTerminator := by decide
theorem test_decode_emit_zheader : decode 0b0000000000000000000_0_0000_01000111#32 = .ok .emitZheader := by decide
theorem test_decode_emit_trailer : decode 0b0000000000000000000_0_0000_01001000#32 = .ok .emitTrailer := by decide
theorem test_decode_tbl_read : decode 0b0000000000000000000_0_1100_01100000#32 = .ok (.tblRead 12) := by decide
theorem test_decode_tbl_write : decode 0b0000000000000000000_0_0010_01100001#32 = .ok (.tblWrite 2) := by decide

/-- The refused words of spec/95 section 2.1. -/
theorem test_decode_refuses :
    [0x00002003#32, 0x00000330#32, 0x00000D60#32, 0x00001010#32, 0x00000110#32, 0x00000004#32, 0x00001030#32].map decode =
    [.error .rsvdNotZero, .error .selIllegal, .error .selIllegal, .error .flagNotZero, .error .selNotZero,
      .error .unknownOpcode, .error .flagNotZero] := by decide

theorem test_decode_table_word : decodeTableWord 32 0x00000903 = some (.compress 9 false) := by decide

/-! ### A step -/

/-- COMPRESS as the first command after reset: OUT_CAP = 0 is below bound(0) = 133 (spec/95 section 2.8). -/
theorem test_step_compress : ends (step (State.reset.withFetchWord 32 0x00000003)) (faultsWith 0x00000304 133) = true := by
  decide +kernel
theorem test_step_illegal :
    ends (step (State.reset.withFetchWord 32 0x00000330)) (faultsWith 0x00000104 0x00000330) = true := by decide +kernel
/-- A word other than RESET_STATE written while FAULTED has no effect (spec/95 section 2.10). -/
theorem test_step_while_faulted :
    ends (step ((stuck .outOverflow 7).withFetchWord 32 0x00002003)) (faultsWith 0x00000404 7) = true := by decide +kernel
theorem test_irq_low :
    [{ State.reset with ie := true }, { stuck .badArg 0 with ie := false }].map State.irq = [false, false] := by decide
theorem test_irq :
    ends (exec .nop { State.reset with ie := true }) (fun t => t.irq) = true := by decide +kernel

/-! ### The commands, from the vectors of spec/95 -/

theorem test_nop : ends (exec .nop State.reset) (fun t => decide (t.status.word = 0x00000002)) = true := by decide +kernel

theorem test_reset_state :
    ends (exec .resetState (chained (stuck .outOverflow 11128)))
      (fun t => faultsWith 0x00000002 0 t && decide (t.head = [] ∧ t.prev = [(0, 0xFFFFFFFF), (5, 0)])) = true := by
  decide +kernel

theorem test_bound : ends (exec .bound { State.reset with arg0 := 10000 }) (fun t => decide (t.res0 = 11128)) = true := by
  decide +kernel
theorem test_bound_too_long :
    ends (exec .bound { State.reset with arg0 := 0x80000000 }) (faultsWith 0x00000904 0) = true := by decide +kernel

theorem test_bw_reset :
    ends (exec .bwReset { State.reset with bitBuf := 0x13, bitCnt := 5, outPos := 7 })
      (fun t => decide (writer t = (0, 0, 0))) = true := by decide +kernel

/-- emit 0xABC, 12 after emit 1, 1. -/
theorem test_bw_emit :
    ends (exec .bwEmit { idle [] 8 0xABC 12 0 with bitBuf := 1, bitCnt := 1 })
      (fun t => decide (written 1 t = [0x79] ∧ writer t = (0x15, 5, 1))) = true := by decide +kernel
theorem test_bw_emit_capacity :
    ends (exec .bwEmit { idle [] 8 0 26 0 with bitBuf := 0x7F, bitCnt := 7 })
      (fun t => faultsWith 0x00000604 26 t && decide (writer t = (0x7F, 7, 0))) = true := by decide +kernel

theorem test_bw_pad :
    ends (exec .bwPad { idle [] 8 0 0 0 with bitBuf := 0xF, bitCnt := 4 })
      (fun t => decide (written 1 t = [0x0F] ∧ writer t = (0, 0, 1))) = true := by decide +kernel
theorem test_bw_pad_region :
    ends (exec .bwPad { State.reset with outBase := 0xFFFFFFFF, outCap := 2 }) (faultsWith 0x00000504 3) = true := by
  decide +kernel

theorem test_adler_update :
    ends (exec .adlerUpdate (idle abc 0 0 3 0)) (fun t => decide (t.adler = 0x024D0127)) = true := by decide +kernel
theorem test_adler_update_count : ends (exec .adlerUpdate (idle abc 0 1 3 0)) (faultsWith 0x00000904 1) = true := by
  decide +kernel

theorem test_hc_reset :
    ends (exec .hcReset { State.reset with head := [(22979, 5)], prev := [(5, 0)] })
      (fun t => decide (Cells.get Config.nil t.head 22979 = 0xFFFFFFFF ∧ t.prev = [(5, 0)])) = true := by decide +kernel

theorem test_hc_insert :
    ends (exec .hcInsert (idle clashInput 0 0 0 0))
      (fun t => decide (t.head = [(22979, 0)] ∧ t.prev = [(0, 0xFFFFFFFF)])) = true := by decide +kernel
theorem test_hc_insert_too_late : ends (exec .hcInsert (idle clashInput 0 11 0 0)) (faultsWith 0x00000904 0) = true := by
  decide +kernel

/-- Depth 1 examines only candidate 5. -/
theorem test_find_match_newest :
    ends (exec .findMatch (chained (idle chainInput 0 10 1 5))) (fun t => decide (t.res0 = 4 ∧ t.res1 = 5)) = true := by
  decide +kernel
/-- Candidate 5 is a collision, candidate 0 matches. -/
theorem test_find_match_collision :
    ends (exec .findMatch (chained (idle clashInput 0 10 2 4))) (fun t => decide (t.res0 = 4 ∧ t.res1 = 10)) = true := by
  decide +kernel

/-- The pre-code of the first block. -/
theorem test_huff_build :
    ends (exec (.huffBuild 2)
        { State.reset with freqPre := Cells.ofNats 19 [0, 0, 0, 0, 2, 1, 0, 1, 3, 1, 0, 0, 0, 0, 0, 0, 53, 0, 0] })
      (fun t => decide (
        (List.range 19).map (codeLen .preCode t) = [6, 6, 6, 6, 5, 6, 6, 5, 4, 5, 5, 5, 5, 5, 5, 5, 1, 5, 5] ∧
        (List.range 19).map (codeVal .preCode t) =
          [23, 55, 15, 47, 9, 31, 63, 25, 1, 5, 21, 13, 29, 3, 19, 11, 0, 27, 7])) = true := by decide +kernel
/-- A Fibonacci table: the tree is deeper than 7, so the repair of R206 runs. -/
theorem test_huff_build_repair :
    ends (exec (.huffBuild 2)
        { State.reset with
          freqPre := Cells.ofNats 19
            [1, 1, 2, 3, 5, 8, 13, 21, 34, 55, 89, 144, 233, 377, 610, 987, 1597, 2584, 4181] })
      (fun t => decide ((List.range 19).map (codeLen .preCode t) =
        [7, 7, 7, 7, 7, 7, 7, 7, 7, 7, 7, 7, 7, 7, 7, 7, 3, 2, 1])) = true := by decide +kernel

/-- The host-written lengths of spec/95 section 2.6: the run of nines crosses into LEN_DIST. -/
theorem test_rle_encode :
    ends (exec .rleEncode
        { State.reset with
          lenLit := Cells.ofNats 288 (List.replicate 11 5 ++ List.replicate 3 2 ++ List.replicate 4 7 ++
            List.replicate 268 9)
          lenDist := Cells.ofNats 32 (List.replicate 30 9) })
      (fun t => decide (t.res0 = 59 ∧ (List.range 3).map (fun j => (Cells.get 0 t.rleItem j).toNat) = [5, 112, 48])) =
      true := by decide +kernel
theorem test_encode_runs :
    [3, 4, 7, 8, 10].map (fun n => encodeRuns (List.replicate n 9)) =
    [[(9, 0), (9, 0), (9, 0)], [(9, 0), (16, 0)], [(9, 0), (16, 3)], [(9, 0), (16, 3), (9, 0)],
      [(9, 0), (16, 3), (16, 0)]] := by decide +kernel

theorem test_freq_clear :
    ends (exec .freqClear { State.reset with freqLit := [(65, 9)], freqPre := [(1, 2)] })
      (fun t => decide (t.freqLit = [] ∧ t.freqPre = [(1, 2)])) = true := by decide +kernel
theorem test_freq_seed :
    ends (exec .freqSeed State.reset)
      (fun t => decide ([143, 144, 256, 280].map (fun i => (Cells.get 0 t.freqLit i).toNat) = [2, 1, 4, 2])) = true := by
  decide +kernel

theorem test_blk_header :
    ends (exec (.blkHeader false) (idle [] 8 0 0 0))
      (fun t => decide (written 3 t = [0xEC, 0x1D, 0x00] ∧ writer t = (0, 5, 3))) = true := by decide +kernel
theorem test_blk_header_final :
    ends (exec (.blkHeader true) (idle [] 8 0 0 0)) (fun t => decide (written 3 t = [0xED, 0x1D, 0x00])) = true := by
  decide +kernel

/-- After the header of the first block (BITBUF 0x25, BITCNT 7) the literal leaves 0x47 (spec/95 program P4). -/
theorem test_emit_lit :
    ends (exec .emitLit { coded (idle [] 64 65 0 0) with bitBuf := 0x25, bitCnt := 7, outPos := 33 })
      (fun t => decide (memByte t.mem 0x2021 = 0x25 ∧ writer t = (0x47, 7, 34) ∧ t.freqLit = [(65, 1)])) = true := by
  decide +kernel
theorem test_emit_lit_range : ends (exec .emitLit (idle [] 64 256 0 0)) (faultsWith 0x00000904 0) = true := by
  decide +kernel

theorem test_emit_match :
    ends (exec .emitMatch (coded (idle [] 64 20 300 0)))
      (fun t => decide (written 2 t = [0xD8, 0xCA] ∧ writer t = (0xA, 5, 2) ∧ t.freqLit = [(269, 1)] ∧
        t.freqDist = [(16, 1)])) = true := by decide +kernel
theorem test_emit_match_range : ends (exec .emitMatch (idle [] 64 3 32769 0)) (faultsWith 0x00000904 1) = true := by
  decide +kernel

theorem test_emit_eob :
    ends (exec .emitEob { coded (idle [] 64 0 0 0) with bitBuf := 0x47, bitCnt := 7, outPos := 34 })
      (fun t => decide (memByte t.mem 0x2022 = 0x47 ∧ writer t = (0, 6, 35) ∧ t.freqLit = [(256, 1)])) = true := by
  decide +kernel

theorem test_emit_terminator :
    ends (exec .emitTerminator (idle [] 8 0 0 0)) (fun t => decide (written 1 t = [0x03] ∧ writer t = (0, 2, 1))) =
      true := by decide +kernel
theorem test_emit_zheader :
    ends (exec .emitZheader (idle [] 8 0 0 0)) (fun t => decide (written 2 t = [0x78, 0x01])) = true := by decide +kernel
theorem test_emit_trailer :
    ends (exec .emitTrailer { idle [] 8 0 0 0 with adler := 0x024D0127 })
      (fun t => decide (written 4 t = [0x02, 0x4D, 0x01, 0x27])) = true := by decide +kernel

theorem test_tbl_read : ends (exec (.tblRead 0) State.reset) (fun t => decide (t.res0 = 0xFFFFFFFF)) = true := by
  decide +kernel
theorem test_tbl_read_limit :
    ends (exec (.tblRead 0) { State.reset with arg0 := 32768 }) (faultsWith 0x00000904 0) = true := by decide +kernel
theorem test_tbl_write :
    ends (exec (.tblWrite 2) { State.reset with arg0 := 65, arg1 := 100 })
      (fun t => decide (t.freqLit = [(65, 100)])) = true := by decide +kernel
theorem test_tbl_write_item :
    ends (exec (.tblWrite 11) { State.reset with arg1 := 19 }) (faultsWith 0x00000904 1) = true := by decide +kernel

theorem test_compress_level :
    ends (exec (.compress 9 false) { State.reset with inLen := 0x80000000 }) (faultsWith 0x00000204 9) = true := by
  decide +kernel
theorem test_compress_empty :
    ends (exec (.compress 0 true) (idle [] 133 0 0 0))
      (fun t => decide (t.res0 = 8 ∧ written 8 t = [0x78, 0x01, 0x03, 0x00, 0x00, 0x00, 0x00, 0x01])) = true := by
  decide +kernel

/-! ### Reset and the host's moves -/

theorem test_reset_registers :
    [State.reset.status.word, State.reset.faultInfo, State.reset.outPos, State.reset.adler] = [0, 0, 0, 0x00000001] := by
  decide
theorem test_write_while_busy :
    ends (step { State.reset with
        status := { State.reset.status with busy := true }, bus := [.write32 0x10 5] }) (fun t => decide (t.arg0 = 0)) =
      true := by decide +kernel

/-! ### Witnesses: states and operands that meet the hypotheses of the statements

The hypotheses that many statements share come first: each condition of R83 failing first (`FaultsOnRegion`), and a
form with and without room for its bytes (`EmitsFields`). -/

/-- The four failing regions of spec/95 section 2.10. -/
def badRegion1 : State := { State.reset with inLen := 0x80000000 }
def badRegion2 : State := { State.reset with inBase := 0xFFFFFFF0, inLen := 0x20 }
def badRegion3 : State := { State.reset with outBase := 0xFFFFFFFF, outCap := 2 }
def badRegion4 : State := { State.reset with inBase := 0x1000, inLen := 16, outBase := 0x100F, outCap := 1 }

theorem witness_region_1 : badRegion1.ready = true ∧ FailsRegion badRegion1 1 := ⟨by decide, .inl (by decide)⟩
theorem witness_region_2 : badRegion2.ready = true ∧ FailsRegion badRegion2 2 := ⟨by decide, .inr (.inl (by decide))⟩
theorem witness_region_3 : badRegion3.ready = true ∧ FailsRegion badRegion3 3 :=
  ⟨by decide, .inr (.inr (.inl (by decide)))⟩
theorem witness_region_4 : badRegion4.ready = true ∧ FailsRegion badRegion4 4 :=
  ⟨by decide, .inr (.inr (.inr ⟨by decide, by decide, by decide, by decide, 15, 0, by decide, by decide, by decide⟩))⟩

/-- An emitter's premises with room for exactly the bytes of the fields, and with one byte too few. -/
def Fits (s : State) (fields : List (Nat × Nat)) : Prop :=
  s.ready = true ∧ regionsOk s = true ∧ WriterLegal s ∧ 0 < streamBytes s fields ∧ HasRoom s fields
def Short (s : State) (fields : List (Nat × Nat)) : Prop :=
  s.ready = true ∧ regionsOk s = true ∧ WriterLegal s ∧ ¬HasRoom s fields

theorem witness_BwEmitAppendsTheBits :
    Fits (idle [] 4 0x12345678 32 0) [(0x12345678, 32)] ∧ Short (idle [] 3 0x12345678 32 0) [(0x12345678, 32)] := by
  unfold Fits Short WriterLegal HasRoom
  decide +kernel
theorem witness_BwEmitAppendsTheBits_capacity :
    let s := { idle [] 4 0 26 0 with bitBuf := 0x7F, bitCnt := 7 }
    s.ready = true ∧ regionsOk s = true ∧ 32 < s.bitCnt.toNat + s.arg1.toNat := by decide +kernel
theorem witness_BwPadFillsTheByte :
    let s := { idle [] 1 0 0 0 with bitBuf := 0x7F, bitCnt := 7 }
    (Fits s (padFields s) ∧ ∃ t, exec .bwPad s = .next t) ∧ Short { s with outCap := 0 } (padFields s) := by
  refine ⟨⟨?_, ?_⟩, ?_⟩
  · unfold Fits WriterLegal HasRoom; decide +kernel
  · obtain ⟨t, h, -⟩ := next_of_ends (p := fun _ => true)
      (o := exec .bwPad { idle [] 1 0 0 0 with bitBuf := 0x7F, bitCnt := 7 }) (by decide +kernel)
    exact ⟨t, h⟩
  · unfold Short WriterLegal HasRoom; decide +kernel
theorem witness_BlkHeaderAppendsTheHeader :
    IsHclen (idle [] 3 0 0 0) 4 ∧ Fits (idle [] 3 0 0 0) (headerFields (idle [] 3 0 0 0) true 4) ∧
    Short (idle [] 2 0 0 0) (headerFields (idle [] 2 0 0 0) true 4) := by
  refine ⟨⟨by decide, by decide, fun k _ _ => rfl, .inl rfl⟩, ?_⟩
  unfold Fits Short WriterLegal HasRoom
  decide +kernel
/-- hclen = 19: the last permuted length, that of symbol 15, is not 0. -/
theorem witness_BlkHeaderAppendsTheHeader_whole : IsHclen { State.reset with lenPre := [(15, 7)] } 19 :=
  ⟨by decide, by decide, by omega, .inr (by decide)⟩
theorem witness_EmitLitAppendsTheCode :
    let s := { coded (idle [] 1 65 0 0) with bitBuf := 0x25, bitCnt := 7 }
    Fits s [symbolField .litLen s s.arg0.toNat] ∧ s.arg0.toNat ≤ 255 ∧
    Short { s with outCap := 0 } [symbolField .litLen s s.arg0.toNat] := by
  unfold Fits Short WriterLegal HasRoom
  decide +kernel
theorem witness_EmitLitAppendsTheCode_range :
    (idle [] 64 256 0 0).ready = true ∧ regionsOk (idle [] 64 256 0 0) = true ∧
    255 < (idle [] 64 256 0 0).arg0.toNat := by decide +kernel
theorem witness_EmitMatchAppendsTheToken :
    let s := coded (idle [] 2 20 300 0)
    Fits s (matchFields s s.arg0.toNat s.arg1.toNat) ∧ 3 ≤ s.arg0.toNat ∧ s.arg0.toNat ≤ 258 ∧ 1 ≤ s.arg1.toNat ∧
    s.arg1.toNat ≤ 32768 ∧ Short { s with outCap := 1 } (matchFields s s.arg0.toNat s.arg1.toNat) := by
  unfold Fits Short WriterLegal HasRoom
  decide +kernel
/-- Lengths 2 and 259, distances 0 and 32769, and the accepted ends 3, 258, 1 and 32768. -/
theorem witness_EmitMatchAppendsTheToken_range :
    [(2#32, 1#32), (259, 1), (3, 0), (258, 32769), (3, 1), (258, 32768)].all
      (fun a => (idle [] 64 a.1 a.2 0).ready && regionsOk (idle [] 64 a.1 a.2 0)) = true := by decide +kernel
theorem witness_EmitEobAppendsTheCode :
    let s := { coded (idle [] 1 0 0 0) with bitBuf := 1, bitCnt := 1 }
    Fits s [symbolField .litLen s 256] ∧ Short { s with outCap := 0 } [symbolField .litLen s 256] := by
  unfold Fits Short WriterLegal HasRoom
  decide +kernel
theorem witness_EmitFramingAppendsItsFields :
    (Fits (idle [] 1 0 0 0) [(1, 1), (1, 2), (0, 7)] ∧ Short (idle [] 0 0 0 0) [(1, 1), (1, 2), (0, 7)]) ∧
    (Fits (idle [] 2 0 0 0) [(0x78, 8), (0x01, 8)] ∧ Short (idle [] 1 0 0 0) [(0x78, 8), (0x01, 8)]) ∧
    (Fits (idle [] 4 0 0 0) [(0, 8), (0, 8), (0, 8), (1, 8)] ∧
      Short (idle [] 3 0 0 0) [(0, 8), (0, 8), (0, 8), (1, 8)]) := by
  unfold Fits Short WriterLegal HasRoom
  decide +kernel

/-! #### Encoding and the step -/

theorem witness_DecodeOfEncode :
    ∀ i ∈ [Instr.compress 15 true, .huffBuild 2, .tblRead 12, .tblWrite 12, .blkHeader true, .nop],
      i.wellFormed = true := by decide
theorem witness_DecodedWordIsItsEncoding : decode 0x00001F03#32 = .ok (.compress 15 true) := by decide
theorem witness_StepRunsTheDecodedCommand :
    (State.reset.withFetchWord 32 0x61).bus = .write32 0x00 0x61 :: [] ∧ decode 0x61#32 = .ok (.tblWrite 0) ∧
    State.reset.bus = [] := by decide
theorem witness_IllegalWordRaisesIllegalCmd :
    let s := State.reset.withFetchWord 32 0xFFFFFFFF
    s.bus = .write32 0x00 0xFFFFFFFF :: [] ∧ s.ready = true ∧ ∀ i, decode 0xFFFFFFFF#32 ≠ .ok i :=
  ⟨by decide, by decide, fun i h => by rw [show decode 0xFFFFFFFF#32 = .error .rsvdNotZero by decide] at h; cases h⟩

/-! #### The register window -/

theorem witness_RegisterReadMap : State.reset.rst = false ∧ (0xFC#8).toNat % 4 = 0 := by decide
theorem witness_RegisterReadMap_reserved :
    State.reset.rst = false ∧ [0x44#8, 0xFC].all (fun o => decide (0x44 ≤ o.toNat ∧ o.toNat % 4 = 0)) = true := by decide
theorem witness_WritesFollowTheMode :
    { State.reset with status := { State.reset.status with busy := true } }.status.busy = true ∧
    (stuck .badArg 0).status.fault = true ∧ decode 0x00000000#32 ≠ .ok .resetState ∧
    State.reset.status.busy = false ∧ State.reset.rst = false := by decide
/-- A window moved to 0xFE00, its two ends, and the addresses next to them (R31, D56). -/
theorem witness_HostAccessesByAddress :
    let s := { State.reset with params := { Params.reference with regBase := 0xFE00 } }
    windowOffset 0xFE00 s = some 0 ∧ windowOffset 0xFEFF s = some 0xFF ∧ 0xFDFF < s.params.regBase ∧
    s.params.regBase + 256 ≤ 0xFF00 := by decide
theorem test_write_moved_window :
    ends (step { State.reset with
        params := { Params.reference with regBase := 0xFE00 }, bus := [.write32 0xFE10 5] })
      (fun t => decide (t.arg0 = 5)) = true := by decide +kernel
theorem test_host_memory : ends (hostMove (.memStore 0xFFFFFFFF 7) State.reset)
    (fun t => decide (memByte t.mem 0xFFFFFFFF = 7)) = true := by decide +kernel
theorem witness_HostAccessesByAddress_unaligned : [0x01#8, 0x02, 0x41, 0xFF].all (fun o => decide (o.toNat % 4 ≠ 0)) = true := by decide
theorem witness_FaultIsSticky :
    ∃ t, (stuck .badArg 2).status.fault = true ∧ (stuck .badArg 2).status.busy = false ∧
      (stuck .badArg 2).rst = false ∧ step ((stuck .badArg 2).withFetchWord 32 0) = .next t := by
  obtain ⟨t, h, -⟩ := next_of_ends (o := step ((stuck .badArg 2).withFetchWord 32 0)) (p := fun _ => true)
    (by decide +kernel)
  exact ⟨t, by decide, by decide, by decide, h⟩
theorem witness_CommandEndsDoneOrFaulted :
    State.reset.ready = true ∧ StatusLegal State.reset ∧ ∃ t, exec (.huffBuild 15) State.reset = .next t := by
  obtain ⟨t, h, -⟩ := next_of_ends (o := exec (.huffBuild 15) State.reset) (p := fun _ => true) (by decide +kernel)
  exact ⟨by decide, by unfold StatusLegal; decide, t, h⟩

/-! #### Reset -/

theorem witness_ResetPinAndValues :
    (stuck .badArg 0).rst = false ∧ { stuck .badArg 0 with rst := true }.rst = true := by decide
/-- A COMPRESS that passes its pre-checks and one that fails, HC_INSERT either way, and RESET_STATE, which is accepted while
FAULTED too. -/
theorem witness_AbandonedCommand :
    decode 0x00000803#32 = .ok (.compress 8 false) ∧ decode 0x00000903#32 = .ok (.compress 9 false) ∧
    accepts (.compress 8 false) (idle abc 136 0 0 0) = true ∧ accepts (.compress 9 false) (idle abc 136 0 0 0) = true ∧
    passesPreChecks (.compress 8 false) (idle abc 136 0 0 0) = true ∧
    passesPreChecks (.compress 9 false) (idle abc 136 0 0 0) = false ∧
    decode 0x00000021#32 = .ok .hcInsert ∧ passesPreChecks .hcInsert (idle chainInput 0 11 0 0) = true ∧
    passesPreChecks .hcInsert (idle abc 0 0 0 0) = false ∧
    decode 0x00000001#32 = .ok .resetState ∧ accepts .resetState (stuck .badArg 0) = true := by decide +kernel
/-- HC_INSERT of a 3-byte input fails its pre-check, so abandoning it leaves no PREV entry written (R392, R12). -/
theorem test_abandon_failing :
    ends (hostMove (.abandon 0x21) (chained (idle abc 0 0 0 0))) (fun t => t.rst && decide (t.prev = [])) = true := by
  decide +kernel

/-! #### Control -/

theorem witness_NopChangesOnlyStatus : State.reset.ready = true ∧ (stuck .badArg 0).status.fault = true := by decide
theorem witness_ResetStateEffect :
    (stuck .badArg 0).rst = false ∧ (stuck .badArg 0).status.busy = false ∧ (stuck .badArg 0).status.fault = true := by
  decide
theorem witness_TblReadGivesTheEntry :
    TableId.ofSel 1 = some .prev ∧ TableId.ofSel 12 = some .rleCount ∧ State.reset.ready = true ∧
    (tableEntries State.reset .rleCount ≤ { State.reset with arg0 := 1 }.arg0.toNat) ∧
    State.reset.arg0.toNat < tableEntries State.reset .prev ∧ tableEntry .prev 0 State.reset = none ∧
    tableEntry .prev 0 (chained State.reset) = some 0xFFFFFFFF ∧ tableEntry .rleCount 0 State.reset = some 0 := by
  decide +kernel
/-- The last index and the largest legal value of RLE_ITEM and RLE_COUNT, and the first illegal ones. -/
theorem witness_TblWriteSetsTheEntry :
    TableId.ofSel 11 = some .rleItem ∧ TableId.ofSel 12 = some .rleCount ∧ State.reset.ready = true ∧
    (315 < tableEntries State.reset .rleItem ∧ 0xFF2 < 2 ^ tableWidth .rleItem ∧ 0xFF2 % 32 ≤ 18) ∧
    tableEntries State.reset .rleItem ≤ 316 ∧ ¬(0xFF3 % 32 ≤ 18) ∧
    (316 < 2 ^ tableWidth .rleCount ∧ 316 ≤ 316 ∧ ¬(317 ≤ 316)) := by decide +kernel
theorem witness_TableLimits : State.reset.ready = true ∧ 13 ≤ (13#4).toNat ∧ 3 ≤ (3#4).toNat := by decide
theorem witness_BwResetEffect : { State.reset with bitBuf := 0x13, bitCnt := 5 }.ready = true := by decide

/-! #### Checksum and match finder -/

theorem witness_AdlerUpdateEffect :
    (idle abc 0 0 3 0).ready = true ∧ regionsOk (idle abc 0 0 3 0) = true ∧ 0 + 3 ≤ (idle abc 0 0 3 0).inLen.toNat ∧
    (idle abc 0 4 0 0).inLen.toNat < (idle abc 0 4 0 0).arg0.toNat ∧
    (idle abc 0 3 1 0).arg0.toNat ≤ (idle abc 0 3 1 0).inLen.toNat ∧
    (idle abc 0 3 1 0).inLen.toNat < 3 + (idle abc 0 3 1 0).arg1.toNat := by decide +kernel
theorem witness_AdlerUpdateEffect_adjacent :
    let s := idle abc 0 0 0 0
    s.ready = true ∧ regionsOk s = true ∧ s.arg0.toNat + (1#32).toNat + (2#32).toNat ≤ s.inLen.toNat ∧
    ∃ t, exec .adlerUpdate { s with arg1 := 1 } = .next t := by
  obtain ⟨t, h, -⟩ := next_of_ends (o := exec .adlerUpdate { idle abc 0 0 0 0 with arg1 := 1 }) (p := fun _ => true)
    (by decide +kernel)
  exact ⟨by decide +kernel, by decide +kernel, by decide +kernel, t, h⟩
theorem witness_HcResetEffect : (chained State.reset).ready = true := by decide
/-- The last position with four bytes left, and the one after it. -/
theorem witness_HcInsertEffect :
    (idle clashInput 0 10 0 0).ready = true ∧ regionsOk (idle clashInput 0 10 0 0) = true ∧
    10 + 4 ≤ (idle clashInput 0 10 0 0).inLen.toNat ∧ (idle clashInput 0 11 0 0).inLen.toNat - 4 < 11 ∧
    (idle abc 0 0 0 0).inLen.toNat < 4 := by decide +kernel
theorem witness_ExamineIsMatchLen :
    let s := idle chainInput 0 0 0 0
    regionsOk s = true ∧ 5 < 10 ∧ 10 + 5 ≤ s.inLen.toNat ∧ 4 ≤ 5 ∧ 0 < 5 ∧ IsMatchLen s 5 10 5 4 ∧
    IsMatchLen s 0 10 5 5 ∧ inputAt s (5 + 4) ≠ inputAt s (10 + 4) := by
  unfold IsMatchLen
  decide +kernel
theorem witness_FindMatchGivesATrueMatch :
    let s := idle clashInput 0 10 1 4
    s.ready = true ∧ regionsOk s = true ∧ s.arg1 ≠ 0 ∧ 4 ≤ s.arg2.toNat ∧ s.arg2.toNat ≤ 258 ∧
    s.arg0.toNat + s.arg2.toNat ≤ s.inLen.toNat ∧
    s.inLen.toNat - (idle clashInput 0 11 1 4).arg0.toNat < 4 ∧ (idle clashInput 0 10 0 4).arg1 = 0 ∧
    (idle clashInput 0 10 1 3).arg2.toNat < 4 ∧ s.inLen.toNat - 10 < (idle clashInput 0 10 1 5).arg2.toNat := by
  decide +kernel
theorem witness_FindMatchIsBestOfChain :
    let s := chained (idle clashInput 0 10 2 4)
    s.ready = true ∧ regionsOk s = true ∧ s.arg1 ≠ 0 ∧ 4 ≤ s.arg2.toNat ∧ s.arg2.toNat ≤ 258 ∧
    s.arg0.toNat + s.arg2.toNat ≤ s.inLen.toNat ∧
    chainFrom s 10 2 (Cells.get Config.nil s.head (bucketAt s 10)) = [5, 0] ∧
    ∀ c ∈ chainFrom s 10 2 (Cells.get Config.nil s.head (bucketAt s 10)),
      (Cells.find s.prev (c % 32768)).isSome = true := by decide +kernel

/-! #### Huffman builder and run encoder -/

/-- The greatest accepted sum, 2^22 - 1, and the least refused one. -/
theorem witness_HuffBuildEffect :
    Alphabet.ofSel 2 = some .preCode ∧ State.reset.ready = true ∧
    forcedSum .preCode { State.reset with freqPre := [(0, 0x3FFFED)] } = 2 ^ 22 - 1 ∧
    forcedSum .preCode { State.reset with freqPre := [(0, 0x3FFFEE)] } = 2 ^ 22 := by decide +kernel
/-- A pre-code of nineteen equal frequencies: symbol 6 has a shorter code than symbol 0, and comes after it. -/
theorem witness_HuffCodes :
    Alphabet.ofSel 2 = some .preCode ∧ State.reset.ready = true ∧
    ∃ t, exec (.huffBuild 2) State.reset = .next t ∧ t.status.fault = false ∧
      codeLen .preCode t 6 ≤ codeLen .preCode t 0 := by
  obtain ⟨t, h, hp⟩ := next_of_ends (o := exec (.huffBuild 2) State.reset)
    (p := fun t => decide (t.status.fault = false ∧ codeLen .preCode t 6 ≤ codeLen .preCode t 0)) (by decide +kernel)
  exact ⟨by decide, by decide, t, h, (of_decide_eq_true hp).1, (of_decide_eq_true hp).2⟩
theorem witness_HuffCodeIsComplete :
    ∃ t, exec (.huffBuild 2) State.reset = .next t ∧ t.status.fault = false :=
  let ⟨t, h, hf, _⟩ := witness_HuffCodes.2.2
  ⟨t, h, hf⟩
theorem witness_HuffCodeIsPrefixFree :
    (6 < alphabetNum .preCode ∧ 0 < alphabetNum .preCode ∧ 6 ≠ 0) ∧
    ∃ t, exec (.huffBuild 2) State.reset = .next t ∧ t.status.fault = false ∧
      codeLen .preCode t 6 ≤ codeLen .preCode t 0 := ⟨by decide, witness_HuffCodes.2.2⟩
theorem witness_HuffBuilderFollowsTheLoops : 18 < (List.replicate 19 1).length := by decide
theorem witness_HuffLengthsFollowFrequencies :
    let f := fun x => max (Cells.get 0 (alphabetFreq .preCode State.reset) x).toNat 1
    f 0 = f 6 ∧ 0 < 6 ∧ ∃ t, exec (.huffBuild 2) State.reset = .next t ∧ t.status.fault = false :=
  ⟨by decide, by decide, witness_HuffCodeIsComplete⟩
theorem witness_ReverseBitsMirrors : 13 < 14 := by decide
theorem witness_RleEncodeEffect :
    let s := { State.reset with lenLit := [(0, 15)] }
    s.ready = true ∧ (encodeRuns (lengthSequence s))[0]? = some (15, 0) ∧
    (encodeRuns (lengthSequence s)).length ≤ 315 := by decide +kernel
theorem witness_RunsEncodeAndDecode : maximalRuns [3, 3, 3, 5, 3] = [(3, 3), (5, 1), (3, 1)] ∧ 3 < 4 ∧ 4 ≤ 4 := by decide
theorem witness_RunsEncodeAndDecode_items :
    (∀ v ∈ List.replicate 8 15, v ≤ 15) ∧ (encodeRuns (List.replicate 8 15)).head? = some (15, 0) := by decide +kernel

/-! #### Block encoder and driver -/

/-- The ends of the ranges, and the slots on either side of length 258. -/
theorem witness_SlotsCoverTheRanges :
    lengthSlot 3 = 0 ∧ lengthSlot 257 = 27 ∧ lengthSlot 258 = 28 ∧ distSlot 1 = 0 ∧ distSlot 4 = 3 ∧ distSlot 5 = 4 ∧
    distSlot 32768 = 29 := by decide
theorem witness_FrequencyCommands : State.reset.ready = true ∧ 287 < 288 ∧ 31 < 32 := by decide
theorem witness_BoundGivesTheCapacity :
    State.reset.ready = true ∧ (0x7FFFFFFF#32).toNat ≤ 0x7FFFFFFF ∧ 0x7FFFFFFF < (0x80000000#32).toNat := by decide
theorem witness_CompressPreChecks :
    (idle [] 132 0 0 0).ready = true ∧ 8 < (9#4).toNat ∧ (8#4).toNat ≤ 8 ∧ regionsOk (idle [] 132 0 0 0) = true ∧
    (idle [] 132 0 0 0).outCap.toNat < max (128 + 0 * 110 / 100) (128 + 0 + 5 * (0 / 31744 + 1)) := by decide +kernel
theorem witness_CompressEmptyInput :
    (idle [] 133 0 0 0).ready = true ∧ regionsOk (idle [] 133 0 0 0) = true ∧ (idle [] 133 0 0 0).inLen = 0 ∧
    133 ≤ (idle [] 133 0 0 0).outCap.toNat := by decide +kernel
/-- "A" with the least capacity COMPRESS accepts, bound(1) = 134, and the word of COMPRESS at level 0 pending. -/
def oneByte : State := { idle [0x41] 134 0 0 0 with bus := [.write32 0 0x00000003] }
/-- Sixty zero bytes in blocks of one byte, and OUT_CAP = bound(60) = 194: sixty headers do not fit. -/
def sixtyBlocks : State :=
  { idle [] 194 0 0 0 with
    params := { Params.reference with blkMax := 1 }, inLen := 60, bus := [.write32 0 0x00000003] }

/-- The stream of "A" at level 0, as spec/95 section 2.8 gives its 37 bytes. -/
theorem test_stream_one_byte :
    let fields := streamFields 0 false oneByte
    (List.range (fieldsWidth fields / 8)).map (fun j => (byte (fieldsValue fields / 2 ^ (8 * j))).toNat) =
      [0xec, 0xfd, 0xd3, 0x9a, 0xad, 0xeb, 0xb6, 0xae, 0xeb, 0x86, 0x6d, 0xdb, 0xb6, 0x6d, 0xdb, 0xb6, 0x6d, 0xdb, 0x66,
        0xb1, 0x6d, 0xdb, 0xb6, 0x6d, 0xdb, 0x36, 0x03, 0xd9, 0x36, 0x83, 0x9f, 0x6d, 0x23, 0x25, 0x47, 0xc0, 0x00] := by
  decide +kernel
theorem streamLength_oneByte : streamLength 0 false oneByte = 37 := by
  have h := congrArg List.length test_stream_one_byte
  rw [List.length_map, List.length_range] at h
  exact h
theorem sixtyBlocks_long : 194 < streamLength 0 false sixtyBlocks := by
  have h := Laws.streamLength_ge 0 false sixtyBlocks (by decide)
  have e : 29 * ((sixtyBlocks.inLen.toNat + sixtyBlocks.params.blkMax - 1) / sixtyBlocks.params.blkMax) / 8 = 217 := by
    decide +kernel
  omega

theorem launch_oneByte : P_clean oneByte ∧ P_regions oneByte ∧ P_input oneByte [0x41] ∧ P_room oneByte ∧
    P_params oneByte := by
  refine ⟨by unfold P_clean; decide, Laws.P_regions_iff.mpr (by decide +kernel), ⟨by decide, fun k h => ?_⟩,
    by unfold P_room; decide +kernel, by unfold P_params; decide +kernel⟩
  obtain rfl : k = 0 := Nat.lt_one_iff.mp h
  show inputAt oneByte 0 = 0x41
  decide +kernel
theorem launch_sixtyBlocks : P_clean sixtyBlocks ∧ P_regions sixtyBlocks ∧
    P_input sixtyBlocks (List.replicate 60 0) ∧ P_room sixtyBlocks ∧ P_params sixtyBlocks := by
  refine ⟨by unfold P_clean; decide, Laws.P_regions_iff.mpr (by decide +kernel), ⟨by decide, fun k h => ?_⟩,
    by unfold P_room; decide +kernel, by unfold P_params; decide +kernel⟩
  rw [List.getElem_replicate]
  exact rfl

theorem witness_CompressCompletesWithRoom :
    (oneByte.ready = true ∧ P_params oneByte ∧ P_regions oneByte ∧ P_room oneByte ∧ P_fits 0 false oneByte) ∧
    sixtyBlocks.ready = true ∧ P_params sixtyBlocks ∧ P_regions sixtyBlocks ∧ P_room sixtyBlocks ∧
    ¬P_fits 0 false sixtyBlocks := by
  obtain ⟨h1, h2, -, h4, h5⟩ := launch_oneByte
  obtain ⟨g1, g2, -, g4, g5⟩ := launch_sixtyBlocks
  refine ⟨⟨Laws.P_clean_ready h1, h5, h2, h4, ?_⟩, Laws.P_clean_ready g1, g5, g2, g4, ?_⟩
  · rw [P_fits, streamLength_oneByte]; decide
  · have := sixtyBlocks_long
    rw [P_fits]
    exact Nat.not_le.mpr this
theorem witness_StreamCoversTheInput : P_params oneByte ∧ P_regions oneByte ∧ (8#4).toNat ≤ 8 :=
  ⟨launch_oneByte.2.2.2.2, launch_oneByte.2.1, by decide⟩
/-- The first and the last of sixty blocks. -/
theorem witness_StreamCoversTheInput_blocks : (P_params sixtyBlocks ∧ P_regions sixtyBlocks ∧ (8#4).toNat ≤ 8) ∧
    ∀ k ∈ [0, 59], ∃ b, (compressBlocks 8 true sixtyBlocks).1[k]? = some b := by
  refine ⟨⟨launch_sixtyBlocks.2.2.2.2, launch_sixtyBlocks.2.1, by decide⟩, fun k hk => ⟨_, List.getElem?_eq_getElem ?_⟩⟩
  have e : (sixtyBlocks.inLen.toNat + sixtyBlocks.params.blkMax - 1) / sixtyBlocks.params.blkMax = 60 := by decide +kernel
  rw [Laws.compressBlocks_length 8 true sixtyBlocks (by decide), e]
  revert k
  decide
/-- COMPRESS at level 0 written to CMD of either engine: one stream fits and the other does not. -/
theorem witness_LaunchOfCompress :
    P_cmd 0 false 0x00000003 ∧ P_cmd 8 true 0x00001803 ∧
    (oneByte.bus = .write32 oneByte.params.regBase 0x00000003 :: [] ∧ P_clean oneByte ∧ P_regions oneByte ∧
      P_input oneByte [0x41] ∧ P_room oneByte ∧ P_params oneByte ∧ P_fits 0 false oneByte) ∧
    sixtyBlocks.bus = .write32 sixtyBlocks.params.regBase 0x00000003 :: [] ∧ P_clean sixtyBlocks ∧
      P_regions sixtyBlocks ∧ P_input sixtyBlocks (List.replicate 60 0) ∧ P_room sixtyBlocks ∧ P_params sixtyBlocks ∧
      ¬P_fits 0 false sixtyBlocks := by
  obtain ⟨⟨-, -, -, -, hf⟩, -, -, -, -, hn⟩ := witness_CompressCompletesWithRoom
  obtain ⟨h1, h2, h3, h4, h5⟩ := launch_oneByte
  obtain ⟨g1, g2, g3, g4, g5⟩ := launch_sixtyBlocks
  exact ⟨by unfold P_cmd; decide, by unfold P_cmd; decide, ⟨by decide, h1, h2, h3, h4, h5, hf⟩, by decide, g1, g2, g3,
    g4, g5, hn⟩

/-- "A" at level 0 (spec/95 section 2.8): 37 bytes, one block. It is also the run the next two witnesses take. -/
theorem test_compress_one_byte :
    ends (exec (.compress 0 false) (idle [0x41] 1802 0 0 0))
      (fun t => !t.status.fault && decide (t.res0 = 37) && decide (t.res1 = 1)) = true := by decide +kernel
theorem witness_CompressReadsNoUnwrittenPrev :
    (idle [0x41] 1802 0 0 0).ready = true ∧ P_params (idle [0x41] 1802 0 0 0) ∧
    ∃ t, exec (.compress 0 false) (idle [0x41] 1802 0 0 0) = .next t ∧ t.status.fault = false := by
  obtain ⟨t, h, hp⟩ := next_of_ends test_compress_one_byte
  simp only [Bool.and_eq_true, Bool.not_eq_true'] at hp
  exact ⟨by decide +kernel, by unfold P_params; decide +kernel, t, h, hp.1.1⟩
/-- A run with input against itself, and two runs from states that differ. -/
theorem witness_CompressDependsOnlyOnTheInput :
    SameInput (idle [0x41] 1802 0 0 0) (idle [0x41] 1802 0 0 0) ∧ (idle [0x41] 1802 0 0 0).inLen ≠ 0 ∧
    SameInput (idle [] 133 0 0 0) { chained (idle [] 200 1 2 3) with outBase := 0x8000 } ∧
    ∃ t t', exec (.compress 8 true) (idle [] 133 0 0 0) = .next t ∧
      exec (.compress 8 true) { chained (idle [] 200 1 2 3) with outBase := 0x8000 } = .next t' ∧
      t.status.fault = false ∧ t'.status.fault = false := by
  obtain ⟨t, h, hp⟩ := next_of_ends (o := exec (.compress 8 true) (idle [] 133 0 0 0))
    (p := fun t => decide (t.status.fault = false)) (by decide +kernel)
  obtain ⟨t', h', hp'⟩ := next_of_ends
    (o := exec (.compress 8 true) { chained (idle [] 200 1 2 3) with outBase := 0x8000 })
    (p := fun t => decide (t.status.fault = false)) (by decide +kernel)
  exact ⟨⟨rfl, rfl, fun _ _ => rfl⟩, by decide, ⟨rfl, rfl, fun k hk => absurd hk (Nat.not_lt_zero k)⟩, t, t', h, h',
    of_decide_eq_true hp, of_decide_eq_true hp'⟩

/-- A block of eight equal bytes, with position 0 in its chain, at position 1. -/
def midBlock : State :=
  { idle (List.replicate 8 0x41) 8 0 0 0 with
    head := [(29533, 0)], prev := [(0, 0xFFFFFFFF)]
    driver := { Driver.initial with dstate := .block, pos := 1, be := 8 } }
theorem test_token_match : yields (tokenStep midBlock) (fun t => decide (t.driver.pos = 8 ∧ t.freqLit = [(261, 1)])) = true := by
  decide +kernel
theorem test_token_literal :
    yields (tokenStep { midBlock with head := [] }) (fun t => decide (t.driver.pos = 2 ∧ t.freqLit = [(65, 1)])) = true := by
  decide +kernel
theorem witness_DriverTokensAreTrue :
    regionsOk midBlock = true ∧ WriterLegal midBlock ∧ midBlock.driver.pos.toNat < midBlock.driver.be.toNat ∧
    midBlock.driver.be.toNat ≤ midBlock.inLen.toNat ∧ ∃ t, tokenStep midBlock = .ok t := by
  obtain ⟨t, h, -⟩ := ok_of_yields test_token_match
  exact ⟨by decide +kernel, by unfold WriterLegal; decide, by decide, by decide, t, h⟩

theorem witness_StepFollowsThePolicy :
    regionsOk midBlock = true ∧ WriterLegal midBlock ∧ midBlock.driver.pos.toNat < midBlock.driver.be.toNat ∧
    midBlock.driver.be.toNat ≤ midBlock.inLen.toNat ∧ ChainsWritten midBlock ∧ chosenToken midBlock = .copy 7 1 ∧
    ∃ t, tokenStep midBlock = .ok t := by
  obtain ⟨h1, h2, h3, h4, h5⟩ := witness_DriverTokensAreTrue
  refine ⟨h1, h2, h3, h4, ?_, by decide +kernel, h5⟩
  rintro q (rfl | rfl) - <;> decide +kernel

/-! #### Every command -/

/-- A command that fails a pre-check, and one past them with a legal writer and parameters. -/
theorem witness_PreChecksDecide :
    State.reset.ready = true ∧ StatusLegal State.reset ∧ passesPreChecks (.huffBuild 3) State.reset = false ∧
    passesPreChecks .bwEmit State.reset = true ∧ WriterLegal State.reset ∧ P_params State.reset := by
  unfold StatusLegal WriterLegal P_params
  decide +kernel

theorem witness_PreCheckFaultKeepsEverything :
    State.reset.ready = true ∧ ∃ t, exec (.tblRead 15) State.reset = .next t ∧ t.status.fault = true ∧
      t.status.cause ≠ .outOverflow := by
  obtain ⟨t, h, hp⟩ := next_of_ends (o := exec (.tblRead 15) State.reset)
    (p := fun t => decide (t.status.fault = true ∧ t.status.cause ≠ .outOverflow)) (by decide +kernel)
  exact ⟨by decide, t, h, of_decide_eq_true hp⟩
theorem witness_OverflowLeavesTheRest :
    (idle [] 0 0x41 8 0).ready = true ∧ ∃ t, exec .bwEmit (idle [] 0 0x41 8 0) = .next t ∧
      t.status.cause = .outOverflow ∧ t.status.fault = true := by
  obtain ⟨t, h, hp⟩ := next_of_ends (o := exec .bwEmit (idle [] 0 0x41 8 0))
    (p := fun t => decide (t.status.cause = .outOverflow ∧ t.status.fault = true)) (by decide +kernel)
  exact ⟨by decide, t, h, of_decide_eq_true hp⟩
theorem witness_OnlyTheOutputRegionIsWritten :
    ∃ t, exec .bwEmit (idle [] 1 0x41 8 0) = .next t ∧
      memByte t.mem 0x2000 ≠ memByte (idle [] 1 0x41 8 0).mem 0x2000 := by
  obtain ⟨t, h, hp⟩ := next_of_ends (o := exec .bwEmit (idle [] 1 0x41 8 0))
    (p := fun t => decide (memByte t.mem 0x2000 ≠ memByte (idle [] 1 0x41 8 0).mem 0x2000)) (by decide +kernel)
  exact ⟨t, h, of_decide_eq_true hp⟩
theorem witness_CommandsKeepHostRegisters : ∃ t, exec .nop { State.reset with arg0 := 7 } = .next t := ⟨_, rfl⟩
/-- A writer with five bits pending and a chain in memory's input, whose next move is a BW_EMIT. -/
def midStream : State :=
  { chained (idle chainInput 16 0x41 8 0) with bitBuf := 0x13, bitCnt := 5, bus := [.write32 0 0x11] }
theorem witness_StepKeepsInv : Inv midStream ∧ ∃ t, step midStream = .next t := by
  obtain ⟨t, h, -⟩ := next_of_ends (o := step midStream) (p := fun _ => true) (by decide +kernel)
  refine ⟨⟨by decide +kernel, by unfold StatusLegal; decide, ?_, fun _ => by unfold WriterLegal; decide,
    fun _ => ⟨by decide, fun j => by rw [show Cells.get 0 midStream.rleItem j = 0 from rfl]; decide⟩⟩, t, h⟩
  constructor <;> decide +kernel
/-- After an OUT_OVERFLOW the invariant says nothing of the writer and the items. -/
theorem witness_StepKeepsInv_overflow :
    let s := { stuck .outOverflow 0 with bitCnt := 63, rleCount := 511 }
    Inv s ∧ step s = .next s := by
  refine ⟨⟨by decide +kernel, by unfold StatusLegal; decide, ?_, fun h => absurd rfl h, fun h => absurd rfl h⟩, rfl⟩
  constructor <;> decide +kernel

end Sys2Proof.Tests
end

section
/-! SUPPORT. The statements of spec/00_scope.md: a step takes the oldest host move, a command ends completed or faulted, and
what rst leaves of a command it abandons. -/

namespace Sys2Proof.Proofs

open Sys2Proof Sys2Proof.Machine Sys2Proof.Laws

/-! ### A step takes the oldest host move -/

theorem step_of_bus_nil {s : State} (h : s.bus = []) : step s = .next s := by
  simp only [step, machineStep, h]

theorem step_of_bus_cons {s : State} {op : HostOp} {rest : List HostOp} (h : s.bus = op :: rest) :
    step s = hostMove op { s with bus := rest } := by
  simp only [step, machineStep, h]

/-- A CMD write of a word that decodes runs its command. -/
theorem hostMove_write_cmd {s : State} {w : Word} {i : Instr} (h : decode w = .ok i) :
    hostMove (.write32 s.params.regBase w) s = exec i s := by
  rw [hostMove, hostWrite_base, commandWrite, h]

/-- The step on a queue whose oldest move is a CMD write of a command's word. -/
theorem step_write_cmd {s : State} {w : Word} {rest : List HostOp} {i : Instr}
    (hb : s.bus = .write32 s.params.regBase w :: rest) (h : decode w = .ok i) :
    step s = exec i { s with bus := rest } :=
  (step_of_bus_cons hb).trans (hostMove_write_cmd (s := { s with bus := rest }) h)

/-- A whole command word is the word presented. -/
theorem withFetchWord_toNat (s : State) (w : Word) : s.withFetchWord 32 w.toNat = presentCommand w s := by
  rw [State.withFetchWord, Nat.mod_eq_of_lt w.isLt, word, BitVec.ofNat_toNat, BitVec.setWidth_eq]

/-- Settles O5: the step takes the move off the queue, and a write at P_REG_BASE is a CMD write, which decodes its word. -/
theorem stepRunsTheDecodedCommand : Obligations.StepRunsTheDecodedCommand := by
  unfold Obligations.StepRunsTheDecodedCommand
  refine ⟨fun s w rest i hb h => step_write_cmd hb h, fun s w i h => ?_, fun s => step_of_bus_nil⟩
  rw [withFetchWord_toNat]
  exact step_write_cmd (s := presentCommand w s) (rest := s.bus) rfl h

/-! ### How a command ends -/

/-- STATUS after a completion, from an engine that takes the command with a legal STATUS: no fault was recorded. -/
theorem okStatus_of_ready {s : State} (hr : s.ready = true) (hl : StatusLegal s) :
    okStatus s.status = { busy := false, done := true, fault := false, cause := .none } := by
  obtain ⟨-, -, hf⟩ := ready_iff.mp hr
  obtain ⟨-, -, hc⟩ := hl
  have hcause : s.status.cause = .none := by simpa [hf] using hc
  rw [okStatus, hf, hcause]

theorem did_status {i : Instr} {s t : State} (h : Did i s t) : t.status = s.status := by rw [h.frame]

theorem did_ie {i : Instr} {s t : State} (h : Did i s t) : t.ie = s.ie := by rw [h.frame]

/-- What a ready engine's RESET_STATE does. -/
theorem execResetState_ready {s : State} (hr : s.ready = true) :
    exec .resetState s = .next (complete (resetEngine (clearFault (accept s)))) := by
  obtain ⟨hrst, hbusy, -⟩ := ready_iff.mp hr
  rw [exec, execResetState, State.readyForReset, hrst, hbusy]
  rfl

/-- A command the engine takes ends completed, or FAULTED with a cause, and CTRL.IE is as it was (R361, R362). -/
theorem exec_ends {i : Instr} {s t : State} (hr : s.ready = true) (hl : StatusLegal s) (h : exec i s = .next t) :
    (t.status = { busy := false, done := true, fault := false, cause := .none } ∨
      ∃ c, c ≠ .none ∧ t.status = faultStatus c) ∧ t.ie = s.ie := by
  by_cases hi : i = .resetState
  · subst hi
    rw [execResetState_ready hr] at h
    cases h
    exact ⟨.inl rfl, rfl⟩
  · rcases exec_cases hi h with ⟨hn, -⟩ | ⟨-, u, hu, rfl⟩ | ⟨-, c, info, hc, -, rfl⟩ | ⟨-, -, -, info, rfl⟩
    · simp [hr] at hn
    · refine ⟨.inl ?_, (complete_ie u).trans (did_ie (s := accept s) hu)⟩
      rw [complete_status, did_status hu]
      exact okStatus_of_ready (s := s) hr hl
    · exact ⟨.inr ⟨c, hc, rfl⟩, rfl⟩
    · exact ⟨.inr ⟨.outOverflow, by decide, rfl⟩, rfl⟩

/-- irq is high exactly where CTRL.IE is 1 and DONE or FAULT is (R47). -/
theorem irq_iff (s : State) : s.irq = true ↔ s.ie = true ∧ (s.status.done = true ∨ s.status.fault = true) := by
  simp [State.irq]

/-- Settles O11: a command's end sets DONE or FAULT, so irq is CTRL.IE, which no command changes. -/
theorem commandEndsDoneOrFaulted : Obligations.CommandEndsDoneOrFaulted := by
  unfold Obligations.CommandEndsDoneOrFaulted
  refine ⟨fun i s t hr hl h => ?_, irq_iff⟩
  obtain ⟨hend, hie⟩ := exec_ends hr hl h
  refine ⟨hend, ?_⟩
  rcases hend with hd | ⟨c, -, hf⟩
  · simp [State.irq, hd, hie]
  · simp [State.irq, hf, hie, faultStatus]

/-! ### A command abandoned by rst -/

/-- An engine that takes a command is not held in reset. -/
theorem rst_of_accepts {i : Instr} {s : State} (h : accepts i s = true) : s.rst = false := by
  cases i <;> simp_all [accepts, State.ready, State.readyForReset]

/-- What the move that abandons a command does (R12, R392). -/
theorem hostMove_abandon {s : State} {w : Word} {i : Instr} (h : decode w = .ok i) (ha : accepts i s = true) :
    hostMove (.abandon w) s =
      .next (if passesPreChecks i s then abandonRunning i s else resetTo [] s.mem true s) := by
  rw [hostMove, abandonWrite, h, assertReset, rst_of_accepts ha]
  simp only [ha, Bool.true_and, Bool.false_eq_true, if_false]

/-- Only a listed index has an entry. -/
theorem mem_of_find_isSome {α : Type} {m : Cells α} {j : Nat} (h : (Cells.find m j).isSome = true) :
    ∃ v, (j, v) ∈ m := by
  induction m with
  | nil => simp at h
  | cons x rest ih =>
    obtain ⟨k, v⟩ := x
    rw [Cells.find_cons] at h
    split at h
    · rename_i hk
      exact ⟨v, by simp [hk]⟩
    · obtain ⟨v', hv'⟩ := ih h
      exact ⟨v', List.mem_cons_of_mem _ hv'⟩

/-- Only the PREV entries the command may write count as written once it is abandoned (R50). -/
theorem abandonRunning_prev {i : Instr} {s : State} {j : Nat}
    (h : (Cells.find (abandonRunning i s).prev j).isSome = true) : j ∈ prevTargets i s := by
  obtain ⟨v, hv⟩ := mem_of_find_isSome h
  obtain ⟨k, hk, he⟩ := List.mem_map.mp hv
  cases he
  exact (List.mem_filter.mp hk).1

/-- The PREV entries a command may write, one by one (R173, R316, R343). -/
theorem mem_prevTargets {i : Instr} {s : State} {j : Nat} (h : j ∈ prevTargets i s) :
    i = .hcInsert ∧ j = s.arg0.toNat % 32768 ∨ i = .tblWrite 1 ∧ j = s.arg0.toNat ∨
      (∃ level container, i = .compress level container) ∧ j < 32768 ∧ j + 4 ≤ s.inLen.toNat := by
  cases i with
  | compress level container =>
    simp only [prevTargets, Config.win, List.mem_range] at h
    exact .inr (.inr ⟨⟨level, container, rfl⟩, by omega, by omega⟩)
  | hcInsert => exact .inl ⟨rfl, List.mem_singleton.mp h⟩
  | tblWrite sel =>
    rw [prevTargets] at h
    split at h
    · rename_i hsel
      exact .inr (.inl ⟨by rw [hsel], List.mem_singleton.mp h⟩)
    · cases h
  | _ => cases h

/-- A command that writes output passes its pre-checks only with legal regions (R83, R365). -/
theorem regionsOk_of_passes {i : Instr} {s : State} (hw : writesOutput i = true) (hp : passesPreChecks i s = true) :
    regionsOk s = true := by
  cases i <;> simp_all [writesOutput, passesPreChecks]

/-- The bytes drawn from an offset of the output region on lie in the region from there on. -/
theorem drawOutput_within {s : State} (h : regionsOk s = true) (k start : Nat) (a : Nat)
    (ha : memByte (drawOutput k s.outBase start (s.outCap.toNat - start) s.mem) a ≠ memByte s.mem a) :
    s.outBase.toNat + start ≤ a ∧ a < s.outBase.toNat + s.outCap.toNat := by
  have hr := regionsOk_out h
  by_contra hc
  refine ha (memByte_drawOutput _ _ _ _ _ _ fun j h1 h2 => ?_)
  rw [BitVec.toNat_add, word_toNat_of_lt (by omega), Nat.mod_eq_of_lt (by omega)]
  omega

/-- Only output bytes the command may have written differ once it is abandoned (R392). -/
theorem abandonRunning_mem {i : Instr} {s : State} {a : Nat} (hp : passesPreChecks i s = true)
    (ha : memByte (abandonRunning i s).mem a ≠ memByte s.mem a) :
    writesOutput i = true ∧ s.outBase.toNat + outputStart i s ≤ a ∧ a < s.outBase.toNat + s.outCap.toNat := by
  have hm : (abandonRunning i s).mem = if writesOutput i then
      drawOutput s.draws s.outBase (outputStart i s) (s.outCap.toNat - outputStart i s) s.mem else s.mem := rfl
  rw [hm] at ha
  split at ha
  · rename_i hw
    exact ⟨hw, drawOutput_within (regionsOk_of_passes hw hp) _ _ _ ha⟩
  · exact absurd rfl ha

/-- Settles O13: past its pre-checks the command leaves drawn PREV entries and output bytes, before them nothing, and the
release finds every other element at its reset value. -/
theorem abandonedCommand : Obligations.AbandonedCommand := by
  unfold Obligations.AbandonedCommand
  intro s w i hd ha
  refine ⟨_, hostMove_abandon hd ha, ?_⟩
  cases hp : passesPreChecks i s with
  | true =>
    exact ⟨rfl, rfl, nofun, fun _ => ⟨fun j hj => mem_prevTargets (abandonRunning_prev hj),
      fun a h => abandonRunning_mem hp h⟩⟩
  | false => exact ⟨rfl, rfl, fun _ => ⟨rfl, rfl⟩, nofun⟩

end Sys2Proof.Proofs
end

section
/-! SUPPORT. A COMPRESS past its pre-checks raises no fault but OUT_OVERFLOW (R148, R202): the accumulator stays legal, every
field is narrow, and a block counts too few symbols to reach the builder's limit. -/

namespace Sys2Proof.Proofs

open Sys2Proof Sys2Proof.Machine Sys2Proof.Laws

/-! ### The sum the builder checks (R202) -/

theorem getD_le {l : List Nat} {b : Nat} (h : ∀ x ∈ l, x ≤ b) (i : Nat) : l.getD i 0 ≤ b := by
  rcases Nat.lt_or_ge i l.length with hi | hi
  · rw [List.getD_eq_getElem l 0 hi]
    exact h _ (List.getElem_mem hi)
  · rw [List.getD_eq_default _ _ hi]
    exact Nat.zero_le b

/-- The forced sum of a table, as a sum over its coded symbols (R203). -/
theorem forcedFreqs_sum (m : Cells Word) (n : Nat) :
    (forcedFreqs m n).sum = ∑ x ∈ Finset.range n, max (Cells.get 0 m x).toNat 1 := rfl

/-- The forced sum of a table whose entries are bounded. -/
theorem forcedFreqs_sum_le {m : Cells Word} {n b : Nat} (h1 : 1 ≤ b) (h : ∀ x, x < n → (Cells.get 0 m x).toNat ≤ b) :
    (forcedFreqs m n).sum ≤ n * b := by
  rw [forcedFreqs_sum]
  calc _ ≤ ∑ _x ∈ Finset.range n, b :=
        Finset.sum_le_sum fun x hx => Nat.max_le.mpr ⟨h x (Finset.mem_range.mp hx), h1⟩
    _ = n * b := by simp

/-- The forced sum of a cleared table is the number of its coded symbols. -/
theorem forcedFreqs_sum_nil (n : Nat) : (forcedFreqs [] n).sum = n := by
  simp [forcedFreqs_sum]

/-- One count more raises the forced sum by at most 1, wrap or no wrap (R262). -/
theorem forcedFreqs_sum_count (m : Cells Word) (sym n : Nat) :
    (forcedFreqs (Cells.set 0 m sym (Cells.get 0 m sym + 1)) n).sum ≤ (forcedFreqs m n).sum + 1 := by
  have entry : ∀ x, max (Cells.get 0 (Cells.set 0 m sym (Cells.get 0 m sym + 1)) x).toNat 1 ≤
      max (Cells.get 0 m x).toNat 1 + if sym = x then 1 else 0 := by
    intro x
    rw [Cells.get_set]
    split
    · rename_i hx
      have := Nat.mod_le ((Cells.get 0 m x).toNat + 1) (2 ^ 32)
      rw [hx, BitVec.toNat_add]
      change max (((Cells.get 0 m x).toNat + 1) % 2 ^ 32) 1 ≤ _
      omega
    · exact Nat.le_refl _
  have one : ∑ x ∈ Finset.range n, (if sym = x then 1 else 0) ≤ 1 := by
    rw [Finset.sum_ite_eq]
    split <;> omega
  rw [forcedFreqs_sum, forcedFreqs_sum]
  have := Finset.sum_le_sum fun x (_ : x ∈ Finset.range n) => entry x
  rw [Finset.sum_add_distrib] at this
  omega

/-- The forced sum depends on the alphabet's frequency table only. -/
theorem forcedSum_congr {a : Alphabet} {s t : State} (h : alphabetFreq a t = alphabetFreq a s) :
    forcedSum a t = forcedSum a s := by
  rw [forcedSum, h, forcedSum]

theorem alphabetFreq_writerOnly {s t : State} (h : WriterOnly s t) (a : Alphabet) :
    alphabetFreq a t = alphabetFreq a s := by
  rw [h]; cases a <;> rfl

theorem forcedSum_countLit (a : Alphabet) (sym : Nat) (s : State) :
    forcedSum a (countLit sym s) ≤ forcedSum a s + 1 := by
  cases a with
  | litLen => exact forcedFreqs_sum_count s.freqLit sym _
  | dist => rw [forcedSum_congr (s := s) rfl]; exact Nat.le_succ _
  | preCode => rw [forcedSum_congr (s := s) rfl]; exact Nat.le_succ _

theorem forcedSum_countMatch (a : Alphabet) (sym d : Nat) (s : State) :
    forcedSum a (countDist d (countLit sym s)) ≤ forcedSum a s + 1 := by
  cases a with
  | litLen => exact forcedFreqs_sum_count s.freqLit sym _
  | dist => exact forcedFreqs_sum_count s.freqDist d _
  | preCode => rw [forcedSum_congr (s := s) rfl]; exact Nat.le_succ _

/-- Building an alphabet's codes keeps every frequency. -/
theorem alphabetFreq_buildCodes (a b : Alphabet) (s : State) :
    alphabetFreq a (buildCodes b s) = alphabetFreq a s := by
  have keeps : ∀ lens codes, alphabetFreq a (setCodes b lens codes s) = alphabetFreq a s := by
    intro lens codes
    cases a <;> cases b <;> rfl
  exact keeps _ _

/-! ### The run items are no more than the lengths they encode (R244) -/

theorem encodeRepeats_length_le (v fuel rem : Nat) : (encodeRepeats v fuel rem).length ≤ rem := by
  induction fuel generalizing rem with
  | zero => exact Nat.zero_le _
  | succ fuel ih =>
    rw [encodeRepeats]
    split
    · have := ih (rem - min rem 6)
      rw [List.length_cons]
      omega
    · rw [List.length_replicate]

theorem encodeRun_length_le (v run : Nat) : (encodeRun v run).length ≤ run := by
  rw [encodeRun]
  split
  · have := encodeRepeats_length_le v run (run - 1)
    rw [List.length_cons]
    omega
  · rw [List.length_replicate]

/-- The maximal runs are as long together as the sequence. -/
theorem maximalRuns_sum (q : List Nat) : ((maximalRuns q).map Prod.snd).sum = q.length := by
  induction q with
  | nil => rfl
  | cons v vs ih =>
    rw [maximalRuns, List.length_cons, ← ih]
    cases maximalRuns vs with
    | nil => rfl
    | cons r rest =>
      dsimp only
      split <;> simp only [List.map_cons, List.sum_cons] <;> omega

theorem encodeRuns_length_le (q : List Nat) : (encodeRuns q).length ≤ q.length := by
  rw [encodeRuns, List.length_flatMap, ← maximalRuns_sum q]
  exact List.sum_le_sum fun r _ => encodeRun_length_le r.1 r.2

theorem lengthSequence_length (s : State) : (lengthSequence s).length = 316 := by
  simp [lengthSequence, Config.numLit, Config.numDist]

/-- Counting the symbols below `n` of a list of items counts no item twice. -/
theorem sum_countP_le_length (items : List (Nat × Nat)) (n : Nat) :
    ∑ sym ∈ Finset.range n, items.countP (fun x => x.1 = sym) ≤ items.length := by
  induction items with
  | nil => simp
  | cons y ys ih =>
    simp only [List.countP_cons, decide_eq_true_eq, Finset.sum_add_distrib, List.length_cons, Finset.sum_ite_eq]
    split <;> omega

/-- FREQ_PRE after RunEncode counts the items' symbols (R243). -/
theorem freqPre_runEncode (s : State) {sym : Nat} (h : sym < 19) :
    Cells.get 0 (runEncode s).freqPre sym = word ((encodeRuns (lengthSequence s)).countP (fun x => x.1 = sym)) := by
  simp only [runEncode, Cells.get_ofNats, if_pos h]
  rw [List.getD_eq_getElem _ _ (by simpa using h), List.getElem_map, List.getElem_range]

/-- After RunEncode the pre-code's forced sum is far below the builder's limit (R202, R243). -/
theorem forcedSum_preCode_runEncode (s : State) : forcedSum .preCode (runEncode s) ≤ 316 + 19 := by
  have entry : ∀ sym ∈ Finset.range 19, max (Cells.get 0 (runEncode s).freqPre sym).toNat 1 ≤
      (encodeRuns (lengthSequence s)).countP (fun x => x.1 = sym) + 1 := by
    intro sym hs
    rw [freqPre_runEncode s (Finset.mem_range.mp hs), BitVec.toNat_ofNat]
    have := Nat.mod_le ((encodeRuns (lengthSequence s)).countP (fun x => x.1 = sym)) (2 ^ 32)
    omega
  calc forcedSum .preCode (runEncode s)
      = ∑ sym ∈ Finset.range 19, max (Cells.get 0 (runEncode s).freqPre sym).toNat 1 := forcedFreqs_sum _ _
    _ ≤ ∑ sym ∈ Finset.range 19, ((encodeRuns (lengthSequence s)).countP (fun x => x.1 = sym) + 1) :=
        Finset.sum_le_sum entry
    _ = ∑ sym ∈ Finset.range 19, (encodeRuns (lengthSequence s)).countP (fun x => x.1 = sym) + 19 := by
        simp [Finset.sum_add_distrib]
    _ ≤ (encodeRuns (lengthSequence s)).length + 19 := Nat.add_le_add_right (sum_countP_le_length _ _) _
    _ ≤ 316 + 19 := Nat.add_le_add_right (lengthSequence_length s ▸ encodeRuns_length_le _) _

/-! ### Field widths -/

theorem matchFields_width (s : State) (len dist : Nat) : ∀ x ∈ matchFields s len dist, x.2 ≤ 25 := by
  have hl := getD_le (l := lengthExtra) (b := 5) (by decide) (lengthSlot len)
  have hd := getD_le (l := distExtra) (b := 13) (by decide) (distSlot dist)
  have h1 := symbolField_width .litLen s (257 + lengthSlot len)
  have h2 := symbolField_width .dist s (distSlot dist)
  simp only [matchFields, List.forall_mem_cons, List.not_mem_nil, false_implies, implies_true, and_true]
  omega

theorem itemFields_width (s : State) (item : Nat) : ∀ x ∈ itemFields s item, x.2 ≤ 25 := by
  have h := symbolField_width .preCode s (item % 32)
  simp only [itemFields, List.mem_cons]
  rintro x (rfl | hx)
  · omega
  · split_ifs at hx <;> simp_all

theorem headerFields_width (s : State) (bfinal : Bool) (hclen : Nat) :
    ∀ x ∈ headerFields s bfinal hclen, x.2 ≤ 25 := by
  intro x hx
  simp only [headerFields, List.mem_append, List.mem_map, List.mem_flatMap] at hx
  rcases hx with (hx | ⟨k, -, rfl⟩) | ⟨j, -, hx⟩
  · revert x; simp
  · show 3 ≤ 25; omega
  · exact itemFields_width _ _ x hx

theorem padFields_width (s : State) : ∀ x ∈ padFields s, x.2 ≤ 25 := by
  simp only [padFields]
  split <;> simp; omega

theorem symbolField_narrow (a : Alphabet) (s : State) (sym : Nat) : ∀ x ∈ [symbolField a s sym], x.2 ≤ 25 := by
  have := symbolField_width a s sym
  simp only [List.mem_singleton]
  rintro x rfl
  omega

/-! ### Work that ends well or overflows -/

/-- A computation reaches a state of Q, or raises OUT_OVERFLOW. -/
def EndsIn (x : Except Trap State) (Q : State → Prop) : Prop :=
  (∃ t, x = .ok t ∧ Q t) ∨ ∃ info, x = .error (.raise .outOverflow info)

theorem EndsIn.ok {t : State} {Q : State → Prop} (h : Q t) : EndsIn (.ok t) Q := .inl ⟨t, rfl, h⟩

theorem EndsIn.mono {x : Except Trap State} {Q R : State → Prop} (h : EndsIn x Q) (hQ : ∀ t, x = .ok t → Q t → R t) :
    EndsIn x R :=
  h.imp (fun ⟨t, ht, hq⟩ => ⟨t, ht, hQ t ht hq⟩) id

theorem EndsIn.bind {x : Except Trap State} {f : State → Except Trap State} {Q R : State → Prop} (h : EndsIn x Q)
    (hf : ∀ t, x = .ok t → Q t → EndsIn (f t) R) : EndsIn (x >>= f) R := by
  rcases h with ⟨t, rfl, hq⟩ | ⟨info, rfl⟩
  · exact hf t rfl hq
  · exact .inr ⟨info, rfl⟩

/-- Emits of narrow fields from a legal accumulator never exceed its capacity (R148). -/
theorem emitAll_endsIn {fields : List (Nat × Nat)} {s : State} (hr : regionsOk s = true) (hl : WriterLegal s)
    (hw : ∀ x ∈ fields, x.2 ≤ 25) : EndsIn (emitAll fields s) (fun t => WriterOnly s t ∧ WriterLegal t) := by
  obtain ⟨hroom, hfull⟩ := emitAll_spec hl (regionsOk_out hr) hw
  by_cases h : HasRoom s fields
  · obtain ⟨t, ht, -, hlt⟩ := hroom h
    exact .inl ⟨t, ht, emitAll_frame ht, hlt⟩
  · exact .inr ⟨_, hfull h⟩

/-- An Emit whose bits fit the accumulator. -/
theorem emit_endsIn {code n : Nat} {s : State} (hr : regionsOk s = true) (hf : emitFits n s = true) :
    EndsIn (emit code n s) (WriterOnly s) := by
  simp only [emitFits, Bool.and_eq_true, decide_eq_true_eq] at hf
  obtain ⟨hn, hcnt⟩ := hf
  have hout := regionsOk_out hr
  by_cases hroom : 0 < (s.bitCnt.toNat + n) / 8 → s.outPos.toNat + (s.bitCnt.toNat + n) / 8 ≤ s.outCap.toNat
  · have h := emit_ok (code := code) hout hn hcnt hroom
    exact .inl ⟨_, h, emit_frame h⟩
  · exact .inr ⟨_, emit_full hout hn hcnt (by omega) (by omega)⟩

/-- From s to t the units worked, left a legal accumulator, and counted at most n symbols of each alphabet. -/
structure Tally (n : Nat) (s t : State) : Prop where
  work   : Work s t
  writer : WriterLegal t
  sums   : ∀ a, forcedSum a t ≤ forcedSum a s + n

theorem Tally.trans {m n : Nat} {s t u : State} (h1 : Tally m s t) (h2 : Tally n t u) : Tally (m + n) s u := by
  refine ⟨h1.work.trans h2.work, h2.writer, fun a => ?_⟩
  have := h1.sums a
  have := h2.sums a
  omega

theorem Tally.mono {m n : Nat} {s t : State} (h : Tally m s t) (hmn : m ≤ n) : Tally n s t :=
  ⟨h.work, h.writer, fun a => (h.sums a).trans (Nat.add_le_add_left hmn _)⟩

/-- Changes to the chains, the driver's registers and the count of open values count no symbol. -/
theorem Tally.of_chains {s t : State} (hl : WriterLegal s)
    (h : t = { s with head := t.head, prev := t.prev, driver := t.driver, draws := t.draws }) : Tally 0 s t := by
  have freqs : ∀ a, alphabetFreq a t = alphabetFreq a s := fun a => by rw [h]; cases a <;> rfl
  exact ⟨.of_tables (by rw [h]), by rw [h]; exact hl, fun a => (forcedSum_congr (freqs a)).le⟩

/-- Emits, and then a count of at most one symbol of each alphabet. -/
theorem emitAll_tally {fields : List (Nat × Nat)} {s : State} {g : State → State} (hr : regionsOk s = true)
    (hl : WriterLegal s) (hw : ∀ x ∈ fields, x.2 ≤ 25) (hg : ∀ t, WriterLegal t → Tally 1 t (g t)) :
    EndsIn (emitAll fields s >>= fun t => .ok (g t)) (Tally 1 s) := by
  refine (emitAll_endsIn hr hl hw).bind fun t ht ⟨hf, hlt⟩ => .ok ?_
  have emitted : Tally 0 s t :=
    ⟨(emitAll_work ht).1, hlt, fun a => (forcedSum_congr (alphabetFreq_writerOnly hf a)).le⟩
  exact (emitted.trans (hg t hlt)).mono (by omega)

theorem countLit_tally (sym : Nat) {s : State} (hl : WriterLegal s) : Tally 1 s (countLit sym s) :=
  ⟨.of_tables rfl, hl, fun a => forcedSum_countLit a sym s⟩

theorem countMatch_tally (sym d : Nat) {s : State} (hl : WriterLegal s) :
    Tally 1 s (countDist d (countLit sym s)) :=
  ⟨.of_tables rfl, hl, fun a => forcedSum_countMatch a sym d s⟩

theorem emitLiteral_tally {b : Nat} {s : State} (hr : regionsOk s = true) (hl : WriterLegal s) :
    EndsIn (emitLiteral b s) (Tally 1 s) := by
  rw [emitLiteral_eq]
  exact emitAll_tally hr hl (symbolField_narrow _ _ _) fun _ => countLit_tally b

theorem emitEndOfBlock_tally {s : State} (hr : regionsOk s = true) (hl : WriterLegal s) :
    EndsIn (emitEndOfBlock s) (Tally 1 s) := by
  rw [emitEndOfBlock_eq]
  exact emitAll_tally hr hl (symbolField_narrow _ _ _) fun _ => countLit_tally 256

theorem emitMatchToken_tally {len dist : Nat} {s : State} (hr : regionsOk s = true) (hl : WriterLegal s) :
    EndsIn (emitMatchToken len dist s) (Tally 1 s) := by
  rw [emitMatchToken_eq]
  exact emitAll_tally hr hl (matchFields_width _ _ _) fun _ => countMatch_tally _ _

/-! ### Insertions -/

/-- Operations that always succeed and count nothing. -/
def Quiet (s : State) (x : Except Trap State) : Prop := ∃ t, x = .ok t ∧ Tally 0 s t

theorem insertIfRoom_quiet (q : Nat) {s : State} (hr : regionsOk s = true) (hl : WriterLegal s) :
    Quiet s (insertIfRoom q s) := by
  rw [insertIfRoom]
  split
  · rename_i hq
    exact ⟨_, insertPos_ok hr hq, .of_chains hl rfl⟩
  · exact ⟨s, rfl, .of_chains hl rfl⟩

theorem insertRange_quiet (q n : Nat) {s : State} (hr : regionsOk s = true) (hl : WriterLegal s) :
    Quiet s (insertRange q n s) := by
  induction n generalizing q s with
  | zero => exact ⟨s, rfl, .of_chains hl rfl⟩
  | succ n ih =>
    obtain ⟨t, ht, h1⟩ := insertIfRoom_quiet q hr hl
    obtain ⟨u, hu, h2⟩ := ih (q + 1) (h1.work.regionsOk hr) h1.writer
    exact ⟨u, by rw [insertRange, ht, bind_ok, hu], h1.trans h2⟩

theorem insertAfterMatch_quiet (p len nice : Nat) {s : State} (hr : regionsOk s = true) (hl : WriterLegal s) :
    Quiet s (insertAfterMatch p len nice s) := by
  rw [insertAfterMatch]
  split
  · exact insertIfRoom_quiet p hr hl
  · exact insertRange_quiet p len hr hl

/-- A token, its insertions and the move of POS. -/
theorem token_tally {p : Nat} {s : State} {x : Except Trap State} {ins : State → Except Trap State}
    (hr : regionsOk s = true) (hx : EndsIn x (Tally 1 s))
    (hins : ∀ t, regionsOk t = true → WriterLegal t → Quiet t (ins t)) :
    EndsIn (do let t ← x; let t ← ins t; .ok (setPos p t)) (Tally 1 s) := by
  refine hx.bind fun t _ h1 => ?_
  obtain ⟨u, hu, h2⟩ := hins t (h1.work.regionsOk hr) h1.writer
  rw [hu, bind_ok]
  exact .ok ((h1.trans h2).trans (.of_chains h2.writer rfl))

/-! ### The token loop -/

/-- One step of the token loop counts at most one symbol of each alphabet (R262, R310). -/
theorem tokenStep_tally {s : State} (hr : regionsOk s = true) (hl : WriterLegal s)
    (hlt : s.driver.pos.toNat < s.driver.be.toNat) (hbe : s.driver.be.toNat ≤ s.inLen.toNat) :
    EndsIn (tokenStep s) (Tally 1 s) := by
  obtain ⟨m, u, hu, hdu, -⟩ := searchAt_spec (p := s.driver.pos.toNat)
    (maxLen := min 258 (s.driver.be.toNat - s.driver.pos.toNat)) hr (by omega)
  obtain ⟨hwu, hdr⟩ := drawsOnly_work hdu
  obtain ⟨k, v, hv, hdv, -⟩ := lazyProbe_spec (p := s.driver.pos.toNat)
    (nice := min (s.params.niceLen.getD s.driver.lvl.toNat 0) (min 258 (s.driver.be.toNat - s.driver.pos.toNat)))
    (m := m) (hwu.regionsOk hr) (by rw [hdr]; omega) (by rw [hdr, hwu.inLen]; exact hbe)
  have found : Tally 0 s v := .of_chains hl (by rw [hdu.trans hdv])
  have hrv := found.work.regionsOk hr
  simp only [tokenStep, hu, hv, bind_ok]
  refine EndsIn.mono (Q := Tally 1 v) ?_ fun t _ ht => (found.trans ht).mono (by omega)
  split
  · exact token_tally hrv (emitMatchToken_tally hrv found.writer) fun t => insertAfterMatch_quiet _ _ _
  · rw [inputByte_ok hrv (by rw [found.work.inLen]; omega), bind_ok]
    exact token_tally hrv (emitLiteral_tally hrv found.writer) fun t => insertIfRoom_quiet _

/-- The token loop counts no more symbols of an alphabet than there are bytes from POS to BE. -/
theorem tokenLoop_tally (fuel : Nat) {s : State} (hr : regionsOk s = true) (hl : WriterLegal s)
    (hbe : s.driver.be.toNat ≤ s.inLen.toNat) :
    EndsIn (tokenLoop fuel s) (Tally (s.driver.be.toNat - s.driver.pos.toNat) s) := by
  have done : ∀ {s : State} {n : Nat}, WriterLegal s → EndsIn (.ok s) (Tally n s) :=
    fun hl => .ok ((Tally.of_chains hl rfl).mono (Nat.zero_le _))
  induction fuel generalizing s with
  | zero => exact done hl
  | succ fuel ih =>
    rw [tokenLoop]
    split
    · rename_i hlt
      refine (tokenStep_tally hr hl hlt hbe).bind fun u hu h1 => ?_
      obtain ⟨-, hd, hpos, hle⟩ := (tokenStep_spec hr hlt hbe).1 u hu
      have hbeq : u.driver.be = s.driver.be := by rw [hd]
      refine (ih (h1.work.regionsOk hr) h1.writer (by rw [hbeq, h1.work.inLen]; exact hbe)).mono fun t _ h2 => ?_
      rw [hbeq] at h2
      exact (h1.trans h2).mono (by omega)
    · exact done hl

/-! ### Blocks -/

/-- The alphabets a block is built for before its first token have sums the builder takes (R202, R305). -/
def BuildersFit (s : State) : Prop := ∀ a, a ≠ Alphabet.preCode → forcedSum a s < 2 ^ 22

theorem huffBuild_ok {a : Alphabet} {s : State} (h : forcedSum a s < 2 ^ 22) :
    huffBuild a s = .ok (buildCodes a s) := by
  rw [huffBuild, decide_eq_true h, check_true, bind_ok]

/-- BlockStart builds the tables and emits the header from them (R305). -/
theorem blockStart_eq {s : State} (h : BuildersFit s) : blockStart s = blockHeader false (startTables s) := by
  have hdist : forcedSum .dist (buildCodes .litLen s) < 2 ^ 22 := by
    rw [forcedSum_congr (alphabetFreq_buildCodes _ _ s)]
    exact h .dist (by decide)
  have hpre : ∀ u, forcedSum .preCode (runEncode u) < 2 ^ 22 :=
    fun u => lt_of_le_of_lt (forcedSum_preCode_runEncode u) (by decide)
  simp only [blockStart, huffBuild_ok (h .litLen (by decide)), huffBuild_ok hdist, huffBuild_ok (hpre _), bind_ok,
    startTables]

/-- RunEncode counts in FREQ_PRE only (R243). -/
theorem alphabetFreq_runEncode {a : Alphabet} (ha : a ≠ .preCode) (s : State) :
    alphabetFreq a (runEncode s) = alphabetFreq a s := by
  rw [runEncode_frame]
  cases a with
  | preCode => exact absurd rfl ha
  | _ => simp only [alphabetFreq]

/-- A block starts counting from cleared frequencies (R305). -/
theorem alphabetFreq_startTables {a : Alphabet} (ha : a ≠ .preCode) (s : State) :
    alphabetFreq a (startTables s) = [] := by
  rw [startTables, alphabetFreq_buildCodes, alphabetFreq_runEncode ha]
  cases a with
  | preCode => exact absurd rfl ha
  | _ => rfl

theorem codesOnly_work {s t : State} (h : CodesOnly s t) : Work s t ∧ (WriterLegal s → WriterLegal t) := by
  unfold CodesOnly at h
  exact ⟨.of_tables (by rw [h]), by rw [h]; exact id⟩

theorem blockHeader_endsIn {bfinal : Bool} {s : State} (hr : regionsOk s = true) (hl : WriterLegal s) :
    EndsIn (blockHeader bfinal s) (fun t => WriterOnly s t ∧ WriterLegal t) := by
  rw [blockHeader_eq]
  exact emitAll_endsIn hr hl (headerFields_width _ _ _)

/-- BlockStart leaves frequencies that count nothing yet: each forced sum is the number of coded symbols. -/
theorem blockStart_endsIn {s : State} (hr : regionsOk s = true) (hl : WriterLegal s) (hb : BuildersFit s) :
    EndsIn (blockStart s)
      (fun t => WriterLegal t ∧ ∀ a, a ≠ Alphabet.preCode → forcedSum a t = alphabetNum a) := by
  obtain ⟨hw, hwl⟩ := codesOnly_work (startTables_codesOnly s)
  rw [blockStart_eq hb]
  refine (blockHeader_endsIn (hw.regionsOk hr) (hwl hl)).mono fun t _ ⟨hf, hlt⟩ => ⟨hlt, fun a ha => ?_⟩
  rw [forcedSum, alphabetFreq_writerOnly hf, alphabetFreq_startTables ha, forcedFreqs_sum_nil]

theorem alphabetNum_le (a : Alphabet) : alphabetNum a ≤ 286 := by
  cases a <;> decide

/-- A block of at most 2^21 bytes leaves sums the builder can take for the next one. -/
theorem blockRound_endsIn {s : State} (hr : regionsOk s = true) (hl : WriterLegal s) (hb : BuildersFit s)
    (hmax : s.params.blkMax ≤ 2 ^ 21) :
    EndsIn (blockRound s) (fun t => WriterLegal t ∧ BuildersFit t) := by
  have hcut : Work s (cutBlock s) := .of_tables rfl
  have hbe : (cutBlock s).driver.be.toNat = min (s.driver.bs.toNat + s.params.blkMax) s.inLen.toNat :=
    word_toNat_of_lt (lt_of_le_of_lt (Nat.min_le_right _ _) s.inLen.isLt)
  refine (blockStart_endsIn (hcut.regionsOk hr) hl hb).bind fun u hu ⟨hlu, hcleared⟩ => ?_
  obtain ⟨hwu, hdu⟩ := (blockStart_unit (hcut.regionsOk hr)).1 u hu
  have placed : Tally 0 u (setPos u.driver.bs.toNat u) := .of_chains hlu rfl
  have hru := placed.work.regionsOk (hwu.regionsOk (hcut.regionsOk hr))
  have hbeu : (setPos u.driver.bs.toNat u).driver.be.toNat = min (s.driver.bs.toNat + s.params.blkMax) s.inLen.toNat := by
    rw [setPos_driver, hdu, ← hbe]
  have hposu : (setPos u.driver.bs.toNat u).driver.pos.toNat = s.driver.bs.toNat := by
    rw [setPos_driver, hdu]; simp
  refine (tokenLoop_tally _ hru placed.writer ?_).bind fun v _ tokens => ?_
  · rw [hbeu, placed.work.inLen, hwu.inLen, hcut.inLen]
    exact Nat.min_le_right _ _
  refine (emitEndOfBlock_tally (tokens.work.regionsOk hru) tokens.writer).bind fun x _ eob => .ok ?_
  have all := ((placed.trans tokens).trans eob).trans (.of_chains (t := closeBlock x) eob.writer rfl)
  rw [hbeu, hposu] at all
  refine ⟨all.writer, fun a ha => ?_⟩
  have := all.sums a
  have := hcleared a ha
  have := alphabetNum_le a
  omega

/-- The block loop keeps the accumulator legal and never meets a sum the builder refuses. -/
theorem blockLoop_endsIn (fuel : Nat) {s : State} (hr : regionsOk s = true) (hl : WriterLegal s) (hb : BuildersFit s)
    (hmax : s.params.blkMax ≤ 2 ^ 21) (hbs : s.driver.bs.toNat ≤ s.inLen.toNat) :
    EndsIn (blockLoop fuel s) WriterLegal := by
  induction fuel generalizing s with
  | zero => exact .ok hl
  | succ fuel ih =>
    rw [blockLoop_succ]
    split
    · refine (blockRound_endsIn hr hl hb hmax).bind fun u hu ⟨hlu, hbu⟩ => ?_
      obtain ⟨w, -, -, -, hbsu, -⟩ := (blockRound_spec hr hbs).1 u hu
      exact ih (w.regionsOk hr) hlu hbu (by rw [w.params]; exact hmax) (by rw [hbsu, w.inLen]; omega)
    · exact .ok hl

/-! ### A whole COMPRESS -/

/-- What R7 says of the block size and the seeds. -/
theorem legal_params {P : Params} (h : P.legal = true) :
    P.blkMax ≤ 2 ^ 21 ∧ (∀ n ∈ P.seedLit, n ≤ 4096) ∧ ∀ n ∈ P.seedDist, n ≤ 4096 := by
  simp only [Params.legal, Bool.and_eq_true, List.all_eq_true, decide_eq_true_eq] at h
  obtain ⟨⟨⟨⟨⟨⟨⟨-, -, hblk⟩, -⟩, -⟩, -⟩, hlit⟩, -⟩, hdist⟩ := h
  exact ⟨hblk, hlit, hdist⟩

/-- The forced sum of a seeded table. -/
theorem forcedFreqs_seed_le {size n : Nat} {seed : List Nat} (h : ∀ x ∈ seed, x ≤ 4096) :
    (forcedFreqs (Cells.ofNats size seed) n).sum ≤ n * 4096 := by
  refine forcedFreqs_sum_le (by decide) fun x _ => ?_
  rw [Cells.get_ofNats]
  split
  · rw [BitVec.toNat_ofNat]
    exact (Nat.mod_le _ _).trans (getD_le h x)
  · exact Nat.zero_le _

/-- The seeds of a legal chip can be built (R7, R202). -/
theorem seedFreqs_buildersFit {s : State} (h : P_params s) : BuildersFit (seedFreqs s) := by
  obtain ⟨-, hlit, hdist⟩ := legal_params h
  intro a ha
  cases a with
  | litLen => exact lt_of_le_of_lt (forcedFreqs_seed_le (n := 286) hlit) (by decide)
  | dist => exact lt_of_le_of_lt (forcedFreqs_seed_le (n := 30) hdist) (by decide)
  | preCode => exact absurd rfl ha

theorem buildersFit_writerOnly {s t : State} (h : WriterOnly s t) (hb : BuildersFit s) : BuildersFit t := by
  intro a ha
  rw [forcedSum_congr (alphabetFreq_writerOnly h a)]
  exact hb a ha

theorem writerLegal_of_empty {s : State} (hc : s.bitCnt = 0) (hb : s.bitBuf = 0) : WriterLegal s := by
  simp [WriterLegal, hc, hb]

theorem terminator_endsIn {s : State} (hr : regionsOk s = true) (hl : WriterLegal s) :
    EndsIn (terminator s) (fun t => WriterOnly s t ∧ WriterLegal t) := by
  rw [terminator_eq]; exact emitAll_endsIn hr hl (by simp)

theorem pad_endsIn {s : State} (hr : regionsOk s = true) (hl : WriterLegal s) :
    EndsIn (pad s) (fun t => WriterOnly s t ∧ WriterLegal t) := by
  rw [pad_eq]; exact emitAll_endsIn hr hl (padFields_width s)

theorem emitBigEndian_endsIn {v : Word} {s : State} (hr : regionsOk s = true) (hl : WriterLegal s) :
    EndsIn (emitBigEndian v s) (fun t => WriterOnly s t ∧ WriterLegal t) := by
  rw [emitBigEndian_eq]; exact emitAll_endsIn hr hl (by simp)

theorem zlibHeader_endsIn {s : State} (hr : regionsOk s = true) (hl : WriterLegal s) :
    EndsIn (zlibHeader s) (fun t => WriterOnly s t ∧ WriterLegal t) := by
  rw [zlibHeader_eq]; exact emitAll_endsIn hr hl (by simp)

/-- Init starts from an empty accumulator and the seeds (R303). -/
theorem compressInit_endsIn {level : BitVec 4} {container : Bool} {s : State} (hr : regionsOk s = true)
    (hp : P_params s) :
    EndsIn (compressInit level container s) (fun t => WriterLegal t ∧ BuildersFit t) := by
  have hb : ∀ d a, BuildersFit { seedFreqs (resetHead (resetWriter { s with driver := d })) with adler := a } :=
    fun d _ => seedFreqs_buildersFit (s := resetHead (resetWriter { s with driver := d })) hp
  rw [compressInit]
  split
  · dsimp only
    rw [inputBytes_ok (by exact hr) _ _ (by simp), bind_ok]
    exact (zlibHeader_endsIn (by exact hr) (writerLegal_of_empty rfl rfl)).mono fun t _ ⟨hf, hlt⟩ =>
      ⟨hlt, buildersFit_writerOnly hf (hb _ _)⟩
  · exact .ok ⟨writerLegal_of_empty rfl rfl, hb _ s.adler⟩

theorem compressTrailer_endsIn {s : State} (hr : regionsOk s = true) (hl : WriterLegal s) :
    EndsIn (compressTrailer s) WriterLegal := by
  rw [compressTrailer]
  split
  · exact (emitBigEndian_endsIn (s := enter .trailer s) hr hl).mono fun t _ h => h.2
  · exact .ok hl

theorem writerOnly_regionsOk {s t : State} (h : WriterOnly s t) (hr : regionsOk s = true) : regionsOk t = true := by
  rw [h]; exact hr

/-- A COMPRESS past its pre-checks, on a chip of R7, completes or raises OUT_OVERFLOW. -/
theorem compressRun_endsIn {level : BitVec 4} {container : Bool} {s : State} (hr : regionsOk s = true)
    (hp : P_params s) : EndsIn (compressRun level container s) WriterLegal := by
  rw [compressRun]
  refine (compressInit_endsIn hr hp).bind fun u hu ⟨hlu, hbu⟩ => ?_
  have wu := ((compressInit_spec hr).1 u hu).1
  have hru : regionsOk (enter .block { u with driver := { u.driver with bs := 0 } }) = true := wu.regionsOk hr
  have hpu : u.params = s.params := wu.params
  refine (blockLoop_endsIn _ hru hlu hbu (by rw [enter_params, hpu]; exact (legal_params hp).1)
    (Nat.zero_le _)).bind fun v hv hlv => ?_
  have hrv : regionsOk v = true := (((blockLoop_spec _ hru (Nat.zero_le _)).1 v hv).1).regionsOk hru
  refine (terminator_endsIn (s := enter .terminator v) hrv hlv).bind fun x _ ⟨hx, hlx⟩ => ?_
  have hrx : regionsOk x = true := writerOnly_regionsOk hx hrv
  refine (pad_endsIn (s := enter .padding x) hrx hlx).bind fun y _ ⟨hy, hly⟩ => ?_
  refine (compressTrailer_endsIn (writerOnly_regionsOk hy hrx) hly).bind fun z _ hlz => .ok hlz

end Sys2Proof.Proofs
end

section
/-! SUPPORT. The pre-checks of R365 decide how a command ends: each command's body is its checks in order, and past them
work that completes, or overflows where it writes output. -/

namespace Sys2Proof.Proofs

open Sys2Proof Sys2Proof.Machine Sys2Proof.Laws

/-- The body x of a command, in the state s it was accepted in, ends as its pre-checks' answer b decides; only a command
that writes output (w) can overflow past them. -/
structure Decided (b w : Bool) (s : State) (x : Except Trap State) : Prop where
  fails : b = false → ∃ c info, c ≠ .none ∧ c ≠ .outOverflow ∧ x = .error (.raise c info)
  ends  : b = true → WriterLegal s → P_params s →
    (∃ t, x = .ok t) ∨ w = true ∧ ∃ info, x = .error (.raise .outOverflow info)

/-- A command that a check refuses. -/
theorem Decided.fault {w : Bool} {s : State} {c : Cause} {info : Word} (hc : c ≠ .none) (ho : c ≠ .outOverflow) :
    Decided false w s (.error (.raise c info)) :=
  ⟨fun _ => ⟨c, info, hc, ho, rfl⟩, nofun⟩

/-- A pre-check with others after it. -/
theorem Decided.check {b w ok : Bool} {s : State} {c : Cause} {info : Word} {f : Except Trap State}
    (hf : ok = true → Decided b w s f) (hc : c ≠ .none := by decide) (ho : c ≠ .outOverflow := by decide) :
    Decided (ok && b) w s (Machine.check ok c info >>= fun _ => f) := by
  cases ok with
  | true => exact hf rfl
  | false => exact .fault hc ho

/-- The last pre-check. -/
theorem Decided.last {w ok : Bool} {s : State} {c : Cause} {info : Word} {f : Except Trap State}
    (hf : ok = true → Decided true w s f) (hc : c ≠ .none := by decide) (ho : c ≠ .outOverflow := by decide) :
    Decided ok w s (Machine.check ok c info >>= fun _ => f) := by
  have h := Decided.check (info := info) hf hc ho
  rwa [Bool.and_true] at h

/-- The region check with others after it. -/
theorem Decided.region {b w : Bool} {s : State} {f : Except Trap State}
    (hf : regionsOk s = true → Decided b w s f) :
    Decided (regionsOk s && b) w s (regionCheck s >>= fun _ => f) := by
  cases h : regionsOk s with
  | true => rw [regionCheck_ok.mpr h]; exact hf h
  | false =>
    obtain ⟨n, hn⟩ := failsRegion_of_not h
    rw [regionCheck_fails hn]
    exact .fault (by decide) (by decide)

/-- Past its pre-checks the command completes. -/
theorem Decided.ok {w : Bool} {s t : State} : Decided true w s (.ok t) := ⟨nofun, fun _ _ _ => .inl ⟨t, rfl⟩⟩

/-- Past its pre-checks the command, one that writes output, completes or overflows. -/
theorem Decided.emits {s : State} {x : Except Trap State} {Q : State → Prop}
    (hx : WriterLegal s → P_params s → EndsIn x Q) : Decided true true s x :=
  ⟨nofun, fun _ hl hP => (hx hl hP).imp (fun ⟨t, ht, _⟩ => ⟨t, ht⟩) fun h => ⟨rfl, h⟩⟩

/-- The outcome o is that of a body the answer b of its pre-checks decides. -/
def DecidedRun (b w : Bool) (s : State) (o : Host.Outcome State Fault Refusal) : Prop :=
  ∃ body, o = runCommand body s ∧ Decided b w (accept s) (body (accept s))

theorem DecidedRun.run {b w : Bool} {s : State} {body : State → Except Trap State}
    (h : Decided b w (accept s) (body (accept s))) : DecidedRun b w s (runCommand body s) := ⟨body, rfl, h⟩

/-- A command whose only pre-check is the region check, and which then emits. -/
theorem DecidedRun.emitter {s : State} {body : State → Except Trap State} {Q : State → Prop}
    (hx : regionsOk (accept s) = true → WriterLegal (accept s) → EndsIn (body (accept s)) Q) :
    DecidedRun (regionsOk (accept s)) true s (runEmitter body s) := by
  rw [← Bool.and_true (regionsOk (accept s))]
  exact .run (.region fun hr => .emits fun hl _ => hx hr hl)

/-- A word or SEL that is no command (R118; log entry 13). -/
theorem DecidedRun.illegal {w : Bool} {s : State} {cmd : Word} : DecidedRun false w s (illegalCommand cmd s) :=
  .run (.fault (by decide) (by decide))

/-- Every command but RESET_STATE is decided by its pre-checks. -/
theorem exec_decided {i : Instr} (hi : i ≠ .resetState) (s : State) :
    DecidedRun (passesPreChecks i (accept s)) (writesOutput i) s (exec i s) := by
  cases i with
  | resetState => exact absurd rfl hi
  | nop => exact .run (body := fun a => .ok a) .ok
  | bwReset => exact .run (body := fun a => .ok (resetWriter a)) .ok
  | hcReset => exact .run (body := fun a => .ok (resetHead a)) .ok
  | freqClear => exact .run (body := fun a => .ok (clearFreqs a)) .ok
  | freqSeed => exact .run (body := fun a => .ok (seedFreqs a)) .ok
  | rleEncode =>
    simp only [passesPreChecks, exec, execRleEncode]
    exact .run .ok
  | bound =>
    simp only [passesPreChecks, exec, execBound]
    exact .run (.last fun _ => .ok)
  | compress level container =>
    simp only [passesPreChecks, Bool.and_assoc, exec, execCompress]
    exact .run (.check fun _ => .region fun hr => .last fun _ => .emits fun _ hP => compressRun_endsIn hr hP)
  | bwEmit =>
    simp only [passesPreChecks, exec, execBwEmit, runEmitter]
    exact .run (.region fun hr => .last fun hfit => .emits fun _ _ => emit_endsIn hr hfit)
  | bwPad => exact .emitter pad_endsIn
  | adlerUpdate =>
    simp only [passesPreChecks, Bool.and_assoc, exec, execAdlerUpdate]
    refine .run (.region fun hr => .check fun h0 => .last fun h1 => ?_)
    rw [decide_eq_true_eq] at h0 h1
    rw [inputBytes_ok hr _ _ (by omega)]
    exact .ok
  | hcInsert =>
    simp only [passesPreChecks, exec, execHcInsert]
    refine .run (.region fun hr => .last fun hfit => ?_)
    simp only [positionFits, Bool.and_eq_true, decide_eq_true_eq] at hfit
    rw [insertPos_ok hr (by omega)]
    exact .ok
  | findMatch =>
    simp only [passesPreChecks, Bool.and_assoc, exec, execFindMatch]
    refine .run (.region fun hr => .check fun hfit => .check fun _ => .last fun hmax => ?_)
    simp only [positionFits, maxLenFits, Bool.and_eq_true, decide_eq_true_eq] at hfit hmax
    obtain ⟨r, u, hru, -, -⟩ := findMatch_spec (p := (accept s).arg0.toNat) (depth := (accept s).arg1.toNat)
      (maxLen := (accept s).arg2.toNat) hr (by omega) (by omega)
    rw [hru]
    exact .ok
  | huffBuild sel =>
    simp only [passesPreChecks, exec, execHuffBuild]
    cases Alphabet.ofSel sel with
    | none => exact .illegal
    | some a => exact .run (body := huffBuild a) (.last fun _ => .ok)
  | blkHeader bfinal => exact .emitter blockHeader_endsIn
  | emitLit =>
    simp only [passesPreChecks, exec, execEmitLit, runEmitter]
    exact .run (.region fun hr => .last fun _ => .emits fun hl _ => emitLiteral_tally hr hl)
  | emitMatch =>
    simp only [passesPreChecks, Bool.and_assoc, exec, execEmitMatch, runEmitter]
    exact .run (.region fun hr => .check fun _ => .last fun _ => .emits fun hl _ => emitMatchToken_tally hr hl)
  | emitEob => exact .emitter emitEndOfBlock_tally
  | emitTerminator => exact .emitter terminator_endsIn
  | emitZheader => exact .emitter zlibHeader_endsIn
  | emitTrailer => exact .emitter (body := fun a => emitBigEndian a.adler a) emitBigEndian_endsIn
  | tblRead sel =>
    simp only [passesPreChecks, exec, execTblRead]
    cases TableId.ofSel sel with
    | none => exact .illegal
    | some x => exact .run (.last fun _ => .ok)
  | tblWrite sel =>
    simp only [passesPreChecks, exec, execTblWrite]
    cases TableId.ofSel sel with
    | none => exact .illegal
    | some x => exact .run (.check fun _ => .last fun _ => .ok)

/-- Accepting the command changes none of what its pre-checks ask (R33, R365). -/
theorem passesPreChecks_accept (i : Instr) (s : State) : passesPreChecks i (accept s) = passesPreChecks i s := by
  have hf : ∀ a, forcedSum a (accept s) = forcedSum a s := fun a => forcedSum_congr (by cases a <;> rfl)
  have ht : ∀ x, tableEntries (accept s) x = tableEntries s x := fun x => by cases x <;> rfl
  cases i with
  | huffBuild sel => simp only [passesPreChecks, hf]
  | tblRead sel => simp only [passesPreChecks, ht, accept_arg0]
  | tblWrite sel => simp only [passesPreChecks, ht, accept_arg0, accept_arg1]
  | _ => rfl

/-- A command the engine takes, where a pre-check fails (R12, R363). -/
theorem exec_fails {i : Instr} {s : State} (hr : s.ready = true) (hp : passesPreChecks i s = false) :
    ∃ c info, c ≠ .none ∧ c ≠ .outOverflow ∧ exec i s = .next (faulted c info s) := by
  have hi : i ≠ .resetState := by rintro rfl; cases hp
  obtain ⟨body, he, hd⟩ := exec_decided hi s
  obtain ⟨c, info, hc, ho, hx⟩ := hd.fails (by rw [passesPreChecks_accept, hp])
  exact ⟨c, info, hc, ho, he.trans (runCommand_faults hr hx ho)⟩

/-- A command the engine takes, where its pre-checks all hold: it reaches its end, or overflows (R364, R365). -/
theorem exec_passes {i : Instr} {s : State} (hr : s.ready = true) (hp : passesPreChecks i s = true)
    (hl : WriterLegal s) (hP : P_params s) :
    ∃ t, exec i s = .next t ∧ (t.status.done = true ∨ t.status = faultStatus .outOverflow ∧ writesOutput i = true) := by
  by_cases hi : i = .resetState
  · subst hi
    exact ⟨_, execResetState_ready hr, .inl rfl⟩
  · obtain ⟨body, he, hd⟩ := exec_decided hi s
    rcases hd.ends (by rw [passesPreChecks_accept, hp]) hl hP with ⟨t, ht⟩ | ⟨hw, info, hx⟩
    · exact ⟨_, he.trans (runCommand_completes hr ht), .inl rfl⟩
    · exact ⟨_, he.trans (runCommand_overflows hr hx), .inr ⟨rfl, hw⟩⟩

/-- Settles O53: every body is its row of R365 in order, and what follows the checks raises OUT_OVERFLOW at most. -/
theorem preChecksDecide : Obligations.PreChecksDecide := by
  unfold Obligations.PreChecksDecide
  refine fun i s hr hl => ⟨exec_fails hr, fun hp hw hP => ?_⟩
  obtain ⟨t, ht, hend⟩ := exec_passes hr hp hw hP
  refine ⟨t, ht, hend.imp_left fun hdone => ?_⟩
  rcases (exec_ends hr hl ht).1 with hok | ⟨c, -, hf⟩
  · exact hok
  · rw [hf] at hdone
    cases hdone

end Sys2Proof.Proofs
end

section
/-! SUPPORT. The invariant of every step: the canonical form of memory and tables, a legal STATUS, and, but for the state an
OUT_OVERFLOW leaves open, a legal accumulator and legal run items. -/

namespace Sys2Proof.Proofs

open Sys2Proof Sys2Proof.Machine Sys2Proof.Laws

/-! ### What the units keep while a command runs -/

/-- `Inv` less STATUS: what holds of memory, the tables, the accumulator and the run items in every state of a command's
run. -/
structure UnitsLegal (s : State) : Prop where
  mem    : Memory.wf s.mem
  tables : TablesLegal s
  writer : WriterLegal s
  items  : ItemsLegal s

/-- The tables depend on nothing else but HASH_SIZE. -/
theorem tablesLegal_of_frame {s t : State} (h : TablesLegal s) (e : t = { s with
    status := t.status, ie := t.ie, faultInfo := t.faultInfo, arg0 := t.arg0, arg1 := t.arg1, arg2 := t.arg2
    res0 := t.res0, res1 := t.res1, inBase := t.inBase, inLen := t.inLen, outBase := t.outBase, outCap := t.outCap
    outPos := t.outPos, bitBuf := t.bitBuf, bitCnt := t.bitCnt, adler := t.adler, rleCount := t.rleCount
    driver := t.driver, rst := t.rst, mem := t.mem, bus := t.bus, hostData := t.hostData, draws := t.draws }) :
    TablesLegal t := by
  rw [e]
  exact ⟨h.head, h.prev, h.freqLit, h.freqDist, h.freqPre, h.lenLit, h.lenDist, h.lenPre, h.codeLit, h.codeDist,
    h.codePre, h.rleItem⟩

/-- A change outside memory, the tables and the accumulator. -/
theorem UnitsLegal.of_frame {s t : State} (h : UnitsLegal s) (e : t = { s with
    status := t.status, faultInfo := t.faultInfo, res0 := t.res0, res1 := t.res1, outPos := t.outPos
    adler := t.adler, driver := t.driver, draws := t.draws }) : UnitsLegal t :=
  ⟨by rw [e]; exact h.mem, tablesLegal_of_frame h.tables (by rw [e]), by rw [e]; exact h.writer,
    by rw [e]; exact h.items⟩

theorem accept_legal {s : State} (h : UnitsLegal s) : UnitsLegal (accept s) := h.of_frame rfl

/-- A change of the bit writer and memory. -/
theorem UnitsLegal.of_writer {s t : State} (h : UnitsLegal s) (e : WriterOnly s t) (hm : Memory.wf t.mem)
    (hw : WriterLegal t) : UnitsLegal t :=
  ⟨hm, tablesLegal_of_frame h.tables (by rw [e]), hw, by rw [e]; exact h.items⟩

/-- Where a computation ends in a state, it ends in a legal one. -/
def Lands (x : Except Trap State) : Prop := ∀ t, x = .ok t → UnitsLegal t

theorem Lands.ok {t : State} (h : UnitsLegal t) : Lands (.ok t) := fun _ hu => by cases hu; exact h

theorem Lands.error (e : Trap) : Lands (.error e) := fun _ h => by cases h

theorem Lands.bind {x : Except Trap State} {f : State → Except Trap State} (hx : Lands x)
    (hf : ∀ t, UnitsLegal t → Lands (f t)) : Lands (x >>= f) := by
  intro u hu
  obtain ⟨t, ht, hu⟩ := bind_eq_ok.mp hu
  exact hf t (hx t ht) u hu

/-- A part that reads, checks or searches, and what follows it. -/
theorem Lands.after {α : Type} {x : Except Trap α} {f : α → Except Trap State}
    (hf : ∀ a, x = .ok a → Lands (f a)) : Lands (x >>= f) := by
  intro u hu
  obtain ⟨a, ha, hu⟩ := bind_eq_ok.mp hu
  exact hf a ha u hu

theorem Lands.check {b : Bool} {c : Cause} {info : Word} {f : Except Trap State} (hf : b = true → Lands f) :
    Lands (Machine.check b c info >>= fun _ => f) :=
  .after fun _ hu => hf (check_eq_ok.mp hu)

/-! ### The bit writer -/

theorem outByte_wf {v : Byte} {s t : State} (h : outByte v s = .ok t) (hm : Memory.wf s.mem) : Memory.wf t.mem := by
  simp only [outByte, bind_eq_ok] at h
  obtain ⟨_, -, u, hu, h⟩ := h
  have hmem := memWrite_wf hu hm
  cases h
  exact hmem

theorem flushBytes_wf {n acc : Nat} {s t : State} (h : flushBytes n acc s = .ok t) (hm : Memory.wf s.mem) :
    Memory.wf t.mem := by
  induction n generalizing acc s with
  | zero => cases h; exact hm
  | succ n ih =>
    rw [flushBytes, bind_eq_ok] at h
    obtain ⟨u, hu, h⟩ := h
    exact ih h (outByte_wf hu hm)

/-- What Emit leaves in the accumulator, wherever its complete bytes go (R141). -/
theorem emit_accumulator {code n : Nat} {s t : State} (h : emit code n s = .ok t) :
    s.bitCnt.toNat + n ≤ 32 ∧
    t.bitBuf = (flushed (s.bitBuf.toNat + code % 2 ^ n * 2 ^ s.bitCnt.toNat) (s.bitCnt.toNat + n) s).bitBuf ∧
    t.bitCnt = (flushed (s.bitBuf.toNat + code % 2 ^ n * 2 ^ s.bitCnt.toNat) (s.bitCnt.toNat + n) s).bitCnt := by
  simp only [emit, bind_eq_ok, check_eq_ok, emitFits, Bool.and_eq_true, decide_eq_true_eq] at h
  obtain ⟨_, ⟨-, hcnt⟩, u, -, h⟩ := h
  cases h
  exact ⟨hcnt, rfl, rfl⟩

/-- The accumulator an Emit leaves is legal: it does not depend on the room its bytes have, so it is that of an Emit with
room. -/
theorem flushed_writerLegal {code n : Nat} {s : State} (hl : WriterLegal s) (hn : s.bitCnt.toNat + n ≤ 32) :
    WriterLegal (flushed (s.bitBuf.toNat + code % 2 ^ n * 2 ^ s.bitCnt.toNat) (s.bitCnt.toNat + n) s) := by
  have room : HasRoom { s with outPos := 0, outCap := 4 } [(code, n)] := by
    intro _
    show 0 + (s.bitCnt.toNat + (n + 0)) / 8 ≤ 4
    omega
  exact (flushed_appended (s := { s with outPos := 0, outCap := 4 }) hl room).2

theorem emit_lands {code n : Nat} {s : State} (h : UnitsLegal s) : Lands (emit code n s) := by
  intro t ht
  obtain ⟨hcnt, hbuf, hleft⟩ := emit_accumulator ht
  have hmem : Memory.wf t.mem := by
    simp only [emit, bind_eq_ok] at ht
    obtain ⟨_, -, u, hu, ht⟩ := ht
    have hflushed := flushBytes_wf hu h.mem
    cases ht
    exact hflushed
  refine h.of_writer (emit_frame ht) hmem ?_
  rw [WriterLegal, hbuf, hleft]
  exact flushed_writerLegal h.writer hcnt

theorem emitAll_lands {fields : List (Nat × Nat)} {s : State} (h : UnitsLegal s) : Lands (emitAll fields s) := by
  induction fields generalizing s with
  | nil => exact .ok h
  | cons x xs ih => exact (emit_lands h).bind fun t ht => ih ht

theorem pad_lands {s : State} (h : UnitsLegal s) : Lands (pad s) := by
  rw [pad_eq]; exact emitAll_lands h

theorem terminator_lands {s : State} (h : UnitsLegal s) : Lands (terminator s) := by
  rw [terminator_eq]; exact emitAll_lands h

theorem zlibHeader_lands {s : State} (h : UnitsLegal s) : Lands (zlibHeader s) := by
  rw [zlibHeader_eq]; exact emitAll_lands h

theorem emitBigEndian_lands {v : Word} {s : State} (h : UnitsLegal s) : Lands (emitBigEndian v s) := by
  rw [emitBigEndian_eq]; exact emitAll_lands h

theorem blockHeader_lands {bfinal : Bool} {s : State} (h : UnitsLegal s) : Lands (blockHeader bfinal s) := by
  rw [blockHeader_eq]; exact emitAll_lands h

/-! ### Tokens -/

theorem slotBelow_le (base : List Nat) (x k : Nat) : slotBelow base x k ≤ k := by
  induction k with
  | zero => exact Nat.le_refl 0
  | succ k ih =>
    rw [slotBelow]
    split
    · exact Nat.le_refl _
    · exact Nat.le_succ_of_le ih

theorem countLit_legal {sym : Nat} {s : State} (h : UnitsLegal s) (hsym : sym < 288) : UnitsLegal (countLit sym s) :=
  { h with tables := { h.tables with freqLit := Cells.wf_set _ h.tables.freqLit hsym } }

theorem countDist_legal {sym : Nat} {s : State} (h : UnitsLegal s) (hsym : sym < 32) : UnitsLegal (countDist sym s) :=
  { h with tables := { h.tables with freqDist := Cells.wf_set _ h.tables.freqDist hsym } }

theorem emitLiteral_lands {b : Nat} {s : State} (h : UnitsLegal s) (hb : b < 288) : Lands (emitLiteral b s) := by
  rw [emitLiteral_eq]
  exact (emitAll_lands h).bind fun t ht => .ok (countLit_legal ht hb)

theorem emitEndOfBlock_lands {s : State} (h : UnitsLegal s) : Lands (emitEndOfBlock s) := by
  rw [emitEndOfBlock_eq]
  exact (emitAll_lands h).bind fun t ht => .ok (countLit_legal ht (by decide))

theorem emitMatchToken_lands {len dist : Nat} {s : State} (h : UnitsLegal s) : Lands (emitMatchToken len dist s) := by
  have hlen : lengthSlot len ≤ 28 := slotBelow_le _ _ _
  have hdist : distSlot dist ≤ 29 := slotBelow_le _ _ _
  rw [emitMatchToken_eq]
  exact (emitAll_lands h).bind fun t ht => .ok (countDist_legal (countLit_legal ht (by omega)) (by omega))

/-! ### The match finder -/

theorem insertPos_lands {p : Nat} {s : State} (h : UnitsLegal s) : Lands (insertPos p s) := by
  refine .after fun b hb => .ok { h with tables := { h.tables with
    head := Cells.wf_set _ h.tables.head (hash4_lt hb)
    prev := Cells.wfSet_put _ h.tables.prev (Nat.mod_lt _ (by decide)) } }

/-- The candidate loop changes nothing but the count of open values, wherever it reads. -/
theorem walkChain_drawsOnly {p maxLen hops : Nat} {c : Word} {len off : Nat} {s : State} {r : (Nat × Nat) × State}
    (h : walkChain p maxLen hops c len off s = .ok r) : DrawsOnly s r.2 := by
  induction hops generalizing c len off s with
  | zero => cases h; rfl
  | succ hops ih =>
    rw [walkChain] at h
    split at h
    · obtain ⟨found, -, h⟩ := bind_eq_ok.mp h
      dsimp only at h
      split at h
      · cases h; rfl
      · split at h
        · cases h; rfl
        · exact (readPrev_drawsOnly _ s).trans (ih h)
    · cases h; rfl

theorem findMatch_drawsOnly {p depth maxLen : Nat} {s : State} {r : (Nat × Nat) × State}
    (h : findMatch p depth maxLen s = .ok r) : DrawsOnly s r.2 := by
  obtain ⟨b, -, h⟩ := bind_eq_ok.mp h
  exact walkChain_drawsOnly h

theorem searchAt_drawsOnly {p maxLen : Nat} {s : State} {r : (Nat × Nat) × State}
    (h : searchAt p maxLen s = .ok r) : DrawsOnly s r.2 := by
  rw [searchAt] at h
  split at h
  · exact findMatch_drawsOnly h
  · cases h; rfl

theorem lazyProbe_drawsOnly {p nice : Nat} {m : Nat × Nat} {s : State} {r : (Nat × Nat) × State}
    (h : lazyProbe p nice m s = .ok r) : DrawsOnly s r.2 := by
  rw [lazyProbe] at h
  split at h
  · obtain ⟨q, hq, h⟩ := bind_eq_ok.mp h
    have hdraws := findMatch_drawsOnly hq
    cases h
    exact hdraws
  · cases h; rfl

theorem UnitsLegal.of_draws {s t : State} (h : UnitsLegal s) (e : DrawsOnly s t) : UnitsLegal t :=
  h.of_frame (by rw [e])

/-! ### The builder and the run encoder -/

theorem setCodes_legal {a : Alphabet} {lens : Cells (BitVec 4)} {codes : Cells (BitVec 16)} {s : State}
    (h : UnitsLegal s) (hl : Cells.wf (alphabetSize a) 0 lens) (hc : Cells.wf (alphabetSize a) 0 codes) :
    UnitsLegal (setCodes a lens codes s) := by
  cases a with
  | litLen => exact { h with tables := { h.tables with lenLit := hl, codeLit := hc } }
  | dist => exact { h with tables := { h.tables with lenDist := hl, codeDist := hc } }
  | preCode => exact { h with tables := { h.tables with lenPre := hl, codePre := hc } }

theorem buildCodes_legal (a : Alphabet) {s : State} (h : UnitsLegal s) : UnitsLegal (buildCodes a s) := by
  rw [buildCodes]
  exact setCodes_legal h (Cells.wf_ofNats _ _) (Cells.wf_ofNats _ _)

theorem huffBuild_lands (a : Alphabet) {s : State} (h : UnitsLegal s) : Lands (huffBuild a s) :=
  .check fun _ => .ok (buildCodes_legal a h)

theorem encodeRepeats_symbol {v fuel rem : Nat} : ∀ x ∈ encodeRepeats v fuel rem, x.1 = 16 ∨ x.1 = v := by
  induction fuel generalizing rem with
  | zero => exact nofun
  | succ fuel ih =>
    rw [encodeRepeats]
    split
    · exact List.forall_mem_cons.mpr ⟨.inl rfl, ih⟩
    · rintro x hx
      rw [List.eq_of_mem_replicate hx]
      exact .inr rfl

theorem encodeRun_symbol {v run : Nat} : ∀ x ∈ encodeRun v run, x.1 = 16 ∨ x.1 = v := by
  rw [encodeRun]
  split
  · exact List.forall_mem_cons.mpr ⟨.inr rfl, encodeRepeats_symbol⟩
  · rintro x hx
    rw [List.eq_of_mem_replicate hx]
    exact .inr rfl

theorem maximalRuns_value {q : List Nat} : ∀ r ∈ maximalRuns q, r.1 ∈ q := by
  induction q with
  | nil => exact nofun
  | cons v vs ih =>
    rw [maximalRuns]
    revert ih
    cases maximalRuns vs with
    | nil => simp
    | cons r rest =>
      intro ih
      obtain ⟨hr, hrest⟩ := List.forall_mem_cons.mp ih
      dsimp only
      split
      · exact List.forall_mem_cons.mpr ⟨.tail _ hr, fun x hx => .tail _ (hrest x hx)⟩
      · exact List.forall_mem_cons.mpr ⟨.head _, fun x hx => .tail _ (ih x hx)⟩

/-- An item's symbol is 16, the repeat, or a length of the sequence (R242, R243). -/
theorem encodeRuns_symbol {q : List Nat} {x : Nat × Nat} (h : x ∈ encodeRuns q) : x.1 = 16 ∨ x.1 ∈ q := by
  obtain ⟨r, hr, hx⟩ := List.mem_flatMap.mp h
  rcases encodeRun_symbol x hx with h16 | hv
  · exact .inl h16
  · exact .inr (hv ▸ maximalRuns_value r hr)

theorem lengthSequence_le {s : State} : ∀ v ∈ lengthSequence s, v ≤ 15 := by
  simp only [lengthSequence, List.mem_append, List.mem_map]
  rintro v (⟨k, -, rfl⟩ | ⟨k, -, rfl⟩)
  · exact Nat.le_of_lt_succ (Cells.get 0 s.lenLit k).isLt
  · exact Nat.le_of_lt_succ (Cells.get 0 s.lenDist k).isLt

/-- The packed form of an item keeps its symbol in the low five bits (R241). -/
theorem packItem_symbol (x : Nat × Nat) (h : x.1 ≤ 16) : (BitVec.ofNat 12 (packItem x)).toNat % 32 ≤ 18 := by
  rw [BitVec.toNat_ofNat, packItem]
  omega

theorem rleCount_runEncode (s : State) :
    (runEncode s).rleCount = BitVec.ofNat 9 (encodeRuns (lengthSequence s)).length := by
  simp only [runEncode]

/-- An entry RunEncode writes (R243). -/
theorem rleItem_runEncode_written {s : State} {j : Nat} {x : Nat × Nat} (hj : j < 316)
    (hx : (encodeRuns (lengthSequence s))[j]? = some x) :
    Cells.get 0 (runEncode s).rleItem j = BitVec.ofNat 12 (packItem x) := by
  simp only [runEncode, Cells.get_tabulate, if_pos hj, hx]

/-- An entry RunEncode keeps (R245). -/
theorem rleItem_runEncode_kept {s : State} {j : Nat} (hj : j < 316)
    (hx : (encodeRuns (lengthSequence s))[j]? = none) :
    Cells.get 0 (runEncode s).rleItem j = Cells.get 0 s.rleItem j := by
  simp only [runEncode, Cells.get_tabulate, if_pos hj, hx]

theorem runEncode_wf (s : State) :
    Cells.wf 19 0 (runEncode s).freqPre ∧ Cells.wf 316 0 (runEncode s).rleItem := by
  simp only [runEncode]
  exact ⟨Cells.wf_ofNats _ _, Cells.wf_tabulate _ _ _⟩

/-- RunEncode leaves legal items: those it writes, and the old ones past them (R54, R55, R243, R245). -/
theorem runEncode_items {s : State} (h : ItemsLegal s) : ItemsLegal (runEncode s) := by
  constructor
  · rw [rleCount_runEncode, BitVec.toNat_ofNat]
    exact (Nat.mod_le _ _).trans (lengthSequence_length s ▸ encodeRuns_length_le (lengthSequence s))
  · intro j
    rcases Nat.lt_or_ge j 316 with hj | hj
    · cases hx : (encodeRuns (lengthSequence s))[j]? with
      | none => rw [rleItem_runEncode_kept hj hx]; exact h.2 j
      | some x =>
        rw [rleItem_runEncode_written hj hx]
        refine packItem_symbol x ?_
        rcases encodeRuns_symbol (List.mem_of_getElem? hx) with h16 | hq
        · omega
        · have := lengthSequence_le _ hq
          omega
    · simp only [runEncode, Cells.get_tabulate, if_neg (Nat.not_lt.mpr hj)]
      decide

theorem runEncode_legal {s : State} (h : UnitsLegal s) : UnitsLegal (runEncode s) := by
  have e := runEncode_frame s
  have hitems := runEncode_items h.items
  obtain ⟨hpre, hitem⟩ := runEncode_wf s
  generalize runEncode s = t at e hitems hpre hitem
  rw [e] at hitems ⊢
  exact ⟨h.mem, { h.tables with freqPre := hpre, rleItem := hitem }, h.writer, hitems⟩

theorem clearFreqs_legal {s : State} (h : UnitsLegal s) : UnitsLegal (clearFreqs s) :=
  { h with tables := { h.tables with freqLit := Cells.wf_nil _ _, freqDist := Cells.wf_nil _ _ } }

theorem seedFreqs_legal {s : State} (h : UnitsLegal s) : UnitsLegal (seedFreqs s) :=
  { h with tables := { h.tables with freqLit := Cells.wf_ofNats _ _, freqDist := Cells.wf_ofNats _ _ } }

theorem resetHead_legal {s : State} (h : UnitsLegal s) : UnitsLegal (resetHead s) :=
  { h with tables := { h.tables with head := Cells.wf_nil _ _ } }

theorem resetWriter_legal {s : State} (h : UnitsLegal s) : UnitsLegal (resetWriter s) :=
  h.of_writer rfl h.mem (writerLegal_of_empty rfl rfl)

/-! ### The driver -/

theorem insertIfRoom_lands {q : Nat} {s : State} (h : UnitsLegal s) : Lands (insertIfRoom q s) := by
  rw [insertIfRoom]
  split
  · exact insertPos_lands h
  · exact .ok h

theorem insertRange_lands {q n : Nat} {s : State} (h : UnitsLegal s) : Lands (insertRange q n s) := by
  induction n generalizing q s with
  | zero => exact .ok h
  | succ n ih => exact (insertIfRoom_lands h).bind fun t ht => ih ht

theorem insertAfterMatch_lands {p len nice : Nat} {s : State} (h : UnitsLegal s) :
    Lands (insertAfterMatch p len nice s) := by
  rw [insertAfterMatch]
  split
  · exact insertIfRoom_lands h
  · exact insertRange_lands h

theorem tokenStep_lands {s : State} (h : UnitsLegal s) : Lands (tokenStep s) := by
  refine .after fun found hfound => .after fun kept hkept => ?_
  have hk := (h.of_draws (searchAt_drawsOnly hfound)).of_draws (lazyProbe_drawsOnly hkept)
  split
  · exact (emitMatchToken_lands hk).bind fun t ht => (insertAfterMatch_lands ht).bind fun u hu => .ok (hu.of_frame rfl)
  · refine .after fun b _ => (emitLiteral_lands hk (by have := b.isLt; omega)).bind fun t ht => ?_
    exact (insertIfRoom_lands ht).bind fun u hu => .ok (hu.of_frame rfl)

theorem tokenLoop_lands (fuel : Nat) {s : State} (h : UnitsLegal s) : Lands (tokenLoop fuel s) := by
  induction fuel generalizing s with
  | zero => exact .ok h
  | succ fuel ih =>
    rw [tokenLoop]
    split
    · exact (tokenStep_lands h).bind fun t ht => ih ht
    · exact .ok h

theorem blockStart_lands {s : State} (h : UnitsLegal s) : Lands (blockStart s) :=
  (huffBuild_lands _ h).bind fun _ ht => (huffBuild_lands _ ht).bind fun _ hu =>
    (huffBuild_lands _ (runEncode_legal (clearFreqs_legal hu))).bind fun _ hv => blockHeader_lands hv

theorem blockRound_lands {s : State} (h : UnitsLegal s) : Lands (blockRound s) :=
  (blockStart_lands (s := cutBlock s) (h.of_frame rfl)).bind fun _ hu =>
    (tokenLoop_lands _ (hu.of_frame rfl)).bind fun _ hv =>
      (emitEndOfBlock_lands hv).bind fun _ hx => .ok (hx.of_frame rfl)

theorem blockLoop_lands (fuel : Nat) {s : State} (h : UnitsLegal s) : Lands (blockLoop fuel s) := by
  induction fuel generalizing s with
  | zero => exact .ok h
  | succ fuel ih =>
    rw [blockLoop_succ]
    split
    · exact (blockRound_lands h).bind fun t ht => ih ht
    · exact .ok h

theorem compressInit_lands {level : BitVec 4} {container : Bool} {s : State} (h : UnitsLegal s) :
    Lands (compressInit level container s) := by
  have start : ∀ d, UnitsLegal (seedFreqs (resetHead (resetWriter { s with driver := d }))) := fun d =>
    seedFreqs_legal (resetHead_legal (resetWriter_legal (h.of_frame rfl)))
  rw [compressInit]
  split
  · exact .after fun bs _ => zlibHeader_lands ((start _).of_frame rfl)
  · exact .ok (start _)

theorem compressTrailer_lands {s : State} (h : UnitsLegal s) : Lands (compressTrailer s) := by
  rw [compressTrailer]
  split
  · exact emitBigEndian_lands (h.of_frame rfl)
  · exact .ok h

theorem compressRun_lands {level : BitVec 4} {container : Bool} {s : State} (h : UnitsLegal s) :
    Lands (compressRun level container s) :=
  (compressInit_lands h).bind fun _ hu => (blockLoop_lands _ (hu.of_frame rfl)).bind fun v hv =>
    (terminator_lands (s := enter .terminator v) (hv.of_frame rfl)).bind fun x hx =>
      (pad_lands (s := enter .padding x) (hx.of_frame rfl)).bind fun _ hy =>
        (compressTrailer_lands hy).bind fun _ hz => .ok (hz.of_frame rfl)

/-! ### Commands -/

/-- Of the tables TBL_WRITE can write, RLE_ITEM and RLE_COUNT take only values within their bounds (R343, R344). -/
theorem writeTable_items {x : TableId} {i : Nat} {v : Word} {s : State} (h : ItemsLegal s)
    (hv : tableAccepts x v = true) : ItemsLegal (writeTable x i v s) := by
  simp only [tableAccepts, Bool.and_eq_true, decide_eq_true_eq] at hv
  obtain ⟨-, hbound⟩ := hv
  cases x with
  | rleItem =>
    rw [decide_eq_true_eq] at hbound
    refine ⟨h.1, fun j => ?_⟩
    rw [writeTable, Cells.get_set]
    split
    · rw [BitVec.toNat_setWidth, Nat.mod_mod_of_dvd _ (by decide)]
      exact hbound
    · exact h.2 j
  | rleCount =>
    rw [decide_eq_true_eq] at hbound
    refine ⟨?_, h.2⟩
    rw [writeTable, BitVec.toNat_setWidth]
    exact (Nat.mod_le _ _).trans hbound
  | _ => exact h

/-- A write below a table's size keeps every table canonical (R343, R344). -/
theorem writeTable_tables {x : TableId} {i : Nat} {v : Word} {s : State} (h : TablesLegal s)
    (hi : i < tableEntries s x) : TablesLegal (writeTable x i v s) := by
  cases x with
  | head => exact { h with head := Cells.wf_set _ h.head hi }
  | prev => exact { h with prev := Cells.wfSet_put _ h.prev hi }
  | freqLit => exact { h with freqLit := Cells.wf_set _ h.freqLit hi }
  | freqDist => exact { h with freqDist := Cells.wf_set _ h.freqDist hi }
  | freqPre => exact { h with freqPre := Cells.wf_set _ h.freqPre hi }
  | lenLit => exact { h with lenLit := Cells.wf_set _ h.lenLit hi }
  | lenDist => exact { h with lenDist := Cells.wf_set _ h.lenDist hi }
  | lenPre => exact { h with lenPre := Cells.wf_set _ h.lenPre hi }
  | codeLit => exact { h with codeLit := Cells.wf_set _ h.codeLit hi }
  | codeDist => exact { h with codeDist := Cells.wf_set _ h.codeDist hi }
  | codePre => exact { h with codePre := Cells.wf_set _ h.codePre hi }
  | rleItem => exact { h with rleItem := Cells.wf_set _ h.rleItem hi }
  | rleCount => exact { h with }

theorem writeTable_legal {x : TableId} {i : Nat} {v : Word} {s : State} (h : UnitsLegal s)
    (hi : i < tableEntries s x) (hv : tableAccepts x v = true) : UnitsLegal (writeTable x i v s) := by
  have hmem : Memory.wf (writeTable x i v s).mem := by cases x <;> exact h.mem
  have hwriter : WriterLegal (writeTable x i v s) := by cases x <;> exact h.writer
  exact ⟨hmem, writeTable_tables h.tables hi, hwriter, writeTable_items h.items hv⟩

theorem readTable_drawsOnly (x : TableId) (i : Nat) (s : State) : DrawsOnly s (readTable x i s).2 := by
  cases x with
  | prev => exact readPrev_drawsOnly i s
  | _ => exact rfl

/-- The outcome of a command whose body, from legal units, leaves legal units where it completes. -/
def RunLands (s : State) (o : Host.Outcome State Fault Refusal) : Prop :=
  ∃ body, o = runCommand body s ∧ (UnitsLegal (accept s) → Lands (body (accept s)))

theorem RunLands.run {s : State} {body : State → Except Trap State}
    (h : UnitsLegal (accept s) → Lands (body (accept s))) : RunLands s (runCommand body s) := ⟨body, rfl, h⟩

theorem RunLands.emitter {s : State} {body : State → Except Trap State}
    (h : UnitsLegal (accept s) → Lands (body (accept s))) : RunLands s (runEmitter body s) :=
  .run fun hu => .after fun _ _ => h hu

theorem RunLands.illegal {s : State} {w : Word} : RunLands s (illegalCommand w s) :=
  .run fun _ => .error _

/-- Every command but RESET_STATE leaves legal units where it completes. -/
theorem exec_lands {i : Instr} (hi : i ≠ .resetState) (s : State) : RunLands s (exec i s) := by
  cases i with
  | resetState => exact absurd rfl hi
  | nop =>
    rw [exec, execNop]
    exact .run .ok
  | bound =>
    rw [exec, execBound]
    exact .run fun h => .check fun _ => .ok (h.of_frame rfl)
  | compress level container =>
    rw [exec, execCompress]
    exact .run fun h => .check fun _ => .after fun _ _ => .check fun _ => compressRun_lands h
  | bwReset =>
    rw [exec, execBwReset]
    exact .run fun h => .ok (resetWriter_legal h)
  | bwEmit =>
    rw [exec, execBwEmit]
    exact .emitter fun h => .check fun _ => emit_lands h
  | bwPad =>
    rw [exec, execBwPad]
    exact .emitter pad_lands
  | adlerUpdate =>
    rw [exec, execAdlerUpdate]
    exact .run fun h => .after fun _ _ => .check fun _ => .check fun _ => .after fun bs _ => .ok (h.of_frame rfl)
  | hcReset =>
    rw [exec, execHcReset]
    exact .run fun h => .ok (resetHead_legal h)
  | hcInsert =>
    rw [exec, execHcInsert]
    exact .run fun h => .after fun _ _ => .check fun _ => insertPos_lands h
  | findMatch =>
    rw [exec, execFindMatch]
    exact .run fun h => .after fun _ _ => .check fun _ => .check fun _ => .check fun _ => .after fun r hr =>
      .ok ((h.of_draws (findMatch_drawsOnly hr)).of_frame rfl)
  | huffBuild sel =>
    rw [exec, execHuffBuild]
    cases Alphabet.ofSel sel with
    | none => exact .illegal
    | some a => exact .run (huffBuild_lands a)
  | rleEncode =>
    rw [exec, execRleEncode]
    exact .run fun h => .ok ((runEncode_legal h).of_frame rfl)
  | freqClear =>
    rw [exec, execFreqClear]
    exact .run fun h => .ok (clearFreqs_legal h)
  | freqSeed =>
    rw [exec, execFreqSeed]
    exact .run fun h => .ok (seedFreqs_legal h)
  | blkHeader bfinal =>
    rw [exec, execBlkHeader]
    exact .emitter blockHeader_lands
  | emitLit =>
    rw [exec, execEmitLit]
    exact .emitter fun h => .check fun hb => emitLiteral_lands h (by rw [decide_eq_true_eq] at hb; omega)
  | emitMatch =>
    rw [exec, execEmitMatch]
    exact .emitter fun h => .check fun _ => .check fun _ => emitMatchToken_lands h
  | emitEob =>
    rw [exec, execEmitEob]
    exact .emitter emitEndOfBlock_lands
  | emitTerminator =>
    rw [exec, execEmitTerminator]
    exact .emitter terminator_lands
  | emitZheader =>
    rw [exec, execEmitZheader]
    exact .emitter zlibHeader_lands
  | emitTrailer =>
    rw [exec, execEmitTrailer]
    exact .emitter emitBigEndian_lands
  | tblRead sel =>
    rw [exec, execTblRead]
    cases TableId.ofSel sel with
    | none => exact .illegal
    | some x => exact .run fun h => .check fun _ => .ok ((h.of_draws (readTable_drawsOnly x _ _)).of_frame rfl)
  | tblWrite sel =>
    rw [exec, execTblWrite]
    cases TableId.ofSel sel with
    | none => exact .illegal
    | some x =>
      exact .run fun h => .check fun hi => .check fun hv => .ok (writeTable_legal h (of_decide_eq_true hi) hv)

/-! ### The invariant after a command -/

/-- An engine that takes a command has no OUT_OVERFLOW recorded, so all its units are legal. -/
theorem units_of_ready {s : State} (h : Inv s) (hr : s.ready = true) : UnitsLegal s := by
  obtain ⟨-, -, hfault⟩ := ready_iff.mp hr
  have hcause : s.status.cause ≠ .outOverflow := by
    intro hc
    have := h.status.2.2.mpr (by rw [hc]; decide)
    rw [hfault] at this
    cases this
  exact ⟨h.mem, h.tables, h.writer hcause, h.items hcause⟩

theorem UnitsLegal.inv {s : State} (h : UnitsLegal s) (hs : StatusLegal s) : Inv s :=
  ⟨h.mem, hs, h.tables, fun _ => h.writer, fun _ => h.items⟩

theorem faultStatus_legal {s : State} {c : Cause} (h : s.status = faultStatus c) (hc : c ≠ .none) : StatusLegal s := by
  rw [StatusLegal, h]
  exact ⟨rfl, by simp [faultStatus], by simp [faultStatus, hc]⟩

theorem completed_legal {s : State}
    (h : s.status = { busy := false, done := true, fault := false, cause := .none }) : StatusLegal s := by
  rw [StatusLegal, h]
  simp

/-- A table listed at rising indices. -/
theorem wfSet_listed {α : Type} {size : Nat} {is : List Nat} (f : Nat → α) (hr : is.Pairwise (· < ·))
    (hs : ∀ i ∈ is, i < size) : Cells.wfSet size (is.map fun i => (i, f i)) := by
  refine ⟨List.pairwise_map.mpr hr, fun x hx => ?_⟩
  obtain ⟨i, hi, rfl⟩ := List.mem_map.mp hx
  exact hs i hi

theorem drawTable_wf {w : Nat} (k : Nat) (t : TableId) (dflt : BitVec w) (n : Nat) :
    Cells.wf n dflt (drawTable k t dflt n) := Cells.wf_tabulate _ _ _

theorem drawAfterOverflow_prev (s : State) : (drawAfterOverflow s).prev =
    (List.range Config.win).map fun i => (i, Config.drawn s.draws (.entry .prev i)) := by
  simp only [drawAfterOverflow]

/-- What an OUT_OVERFLOW draws is canonical and within the tables' sizes (R364; log entry 5). -/
theorem overflow_inv {s : State} {info : Word} (h : Memory.wf s.mem) :
    Inv (takeFault .outOverflow info (drawAfterOverflow s)) where
  mem := Memory.wf_drawOutput _ _ _ _ _ h
  status := faultStatus_legal rfl (by decide)
  tables :=
    { head := drawTable_wf _ _ _ _
      prev := by
        rw [takeFault_prev, drawAfterOverflow_prev]
        exact wfSet_listed _ List.pairwise_lt_range fun _ => List.mem_range.mp
      freqLit := drawTable_wf _ _ _ _
      freqDist := drawTable_wf _ _ _ _
      freqPre := drawTable_wf _ _ _ _
      lenLit := drawTable_wf _ _ _ _
      lenDist := drawTable_wf _ _ _ _
      lenPre := drawTable_wf _ _ _ _
      codeLit := drawTable_wf _ _ _ _
      codeDist := drawTable_wf _ _ _ _
      codePre := drawTable_wf _ _ _ _
      rleItem := drawTable_wf _ _ _ _ }
  writer := absurd rfl
  items := absurd rfl

theorem wf_of_nil {α : Type} {size : Nat} {dflt : α} {m : Cells α} (h : m = []) : Cells.wf size dflt m := by
  rw [h]; exact Cells.wf_nil _ _

/-- Tables all at their reset values but PREV (R341, R391). -/
theorem resetTables_legal {s : State} (hp : Cells.wfSet Config.win s.prev) (h : s.head = [] ∧ s.freqLit = [] ∧
    s.freqDist = [] ∧ s.freqPre = [] ∧ s.lenLit = [] ∧ s.lenDist = [] ∧ s.lenPre = [] ∧ s.codeLit = [] ∧
    s.codeDist = [] ∧ s.codePre = [] ∧ s.rleItem = []) : TablesLegal s := by
  obtain ⟨h1, h2, h3, h4, h5, h6, h7, h8, h9, h10, h11⟩ := h
  exact ⟨wf_of_nil h1, hp, wf_of_nil h2, wf_of_nil h3, wf_of_nil h4, wf_of_nil h5, wf_of_nil h6, wf_of_nil h7,
    wf_of_nil h8, wf_of_nil h9, wf_of_nil h10, wf_of_nil h11⟩

theorem resetItems_legal {s : State} (hc : s.rleCount = 0) (hi : s.rleItem = []) : ItemsLegal s := by
  simp [ItemsLegal, hc, hi]

/-- RESET_STATE leaves the engine's reset values, and PREV and memory as they were (R341). -/
theorem execResetState_inv {s t : State} (h : Inv s) (ht : exec .resetState s = .next t) : Inv t := by
  rw [exec, execResetState] at ht
  split at ht
  · cases ht
    refine UnitsLegal.inv ⟨h.mem, resetTables_legal h.tables.prev ?_, ?_, ?_⟩ (completed_legal rfl)
    · exact ⟨rfl, rfl, rfl, rfl, rfl, rfl, rfl, rfl, rfl, rfl, rfl⟩
    · exact writerLegal_of_empty rfl rfl
    · exact resetItems_legal rfl rfl
  · cases ht
    exact h

theorem exec_statusLegal {i : Instr} {s t : State} (hr : s.ready = true) (h : StatusLegal s)
    (ht : exec i s = .next t) : StatusLegal t := by
  rcases (exec_ends hr h ht).1 with hok | ⟨c, hc, hf⟩
  · exact completed_legal hok
  · exact faultStatus_legal hf hc

/-- A command keeps the invariant, however it ends. -/
theorem exec_inv {i : Instr} {s t : State} (h : Inv s) (ht : exec i s = .next t) : Inv t := by
  by_cases hi : i = .resetState
  · subst hi
    exact execResetState_inv h ht
  obtain ⟨body, he, hlands⟩ := exec_lands hi s
  rcases runCommand_cases (he ▸ ht) with ⟨-, rfl⟩ | ⟨hr, u, hu, rfl⟩ | ⟨hr, c, info, -, -, rfl⟩ | ⟨-, info, -, rfl⟩
  · exact h
  · have hlegal := hlands (accept_legal (units_of_ready h hr)) u hu
    exact (hlegal.of_frame rfl).inv (exec_statusLegal hr h.status ht)
  · exact ((units_of_ready h hr).of_frame rfl).inv (exec_statusLegal hr h.status ht)
  · exact overflow_inv h.mem

/-- A word that is no command keeps the invariant (R119). -/
theorem illegalCommand_inv {w : Word} {s t : State} (h : Inv s) (ht : illegalCommand w s = .next t) : Inv t := by
  rcases runCommand_cases ht with ⟨-, rfl⟩ | ⟨-, u, hu, -⟩ | ⟨hr, c, info, hc, -, rfl⟩ | ⟨-, info, -, rfl⟩
  · exact h
  · cases hu
  · cases hc
    exact ((units_of_ready h hr).of_frame rfl).inv (faultStatus_legal rfl (by decide))
  · exact overflow_inv h.mem

/-! ### The invariant after a move of the host or of the rst pin -/

/-- A change of the host's own registers, and of what is the model's own. -/
theorem inv_of_host {s t : State} (h : Inv s) (e : t = { s with
    ie := t.ie, arg0 := t.arg0, arg1 := t.arg1, arg2 := t.arg2, inBase := t.inBase, inLen := t.inLen
    outBase := t.outBase, outCap := t.outCap, adler := t.adler, bus := t.bus, hostData := t.hostData
    draws := t.draws }) : Inv t := by
  have htables := tablesLegal_of_frame (t := t) h.tables (by rw [e])
  rw [e] at htables ⊢
  exact ⟨h.mem, h.status, htables, h.writer, h.items⟩

theorem writeRegister_inv (offset : BitVec 8) (v : Word) {s : State} (h : Inv s) : Inv (writeRegister offset v s) := by
  unfold writeRegister
  split
  case h_10 => exact h
  all_goals exact inv_of_host h rfl

theorem hostWrite_inv {addr : Nat} {v : Word} {s t : State} (h : Inv s) (ht : hostWrite addr v s = .next t) : Inv t := by
  unfold hostWrite busWrite commandWrite at ht
  split at ht
  · split at ht
    · split at ht
      · split at ht
        · exact exec_inv h ht
        · exact illegalCommand_inv h ht
      · split at ht
        · cases ht; exact writeRegister_inv _ v h
        · cases ht; exact h
    · cases ht; exact h
  · cases ht; exact h

theorem openRead_inv {s : State} (h : Inv s) : Inv (openRead s) := inv_of_host h rfl

theorem hostRead_inv (addr : Nat) {s : State} (h : Inv s) : Inv (hostRead addr s) := by
  unfold hostRead busRead
  split
  · split
    · exact inv_of_host h rfl
    · exact openRead_inv h
  · exact openRead_inv h

/-- Reset values, with a legal PREV and memory (R391). -/
theorem resetTo_inv {prev : Cells Word} {mem : Memory} {rst : Bool} {s : State} (hp : Cells.wfSet Config.win prev)
    (hm : Memory.wf mem) : Inv (resetTo prev mem rst s) := by
  refine UnitsLegal.inv ⟨hm, resetTables_legal hp ?_, ?_, ?_⟩ ?_
  · exact ⟨rfl, rfl, rfl, rfl, rfl, rfl, rfl, rfl, rfl, rfl, rfl⟩
  · exact writerLegal_of_empty rfl rfl
  · exact resetItems_legal rfl rfl
  · simp [StatusLegal, resetTo, State.reset, Status.initial]

theorem assertReset_inv {s : State} (h : Inv s) : Inv (assertReset s) := by
  rw [assertReset]
  split
  · exact h
  · exact resetTo_inv ⟨List.Pairwise.nil, nofun⟩ h.mem

theorem releaseReset_inv {s : State} (h : Inv s) : Inv (releaseReset s) := by
  rw [releaseReset]
  split
  · exact resetTo_inv h.tables.prev h.mem
  · exact h

theorem prevTargets_rising (i : Instr) (s : State) : (prevTargets i s).Pairwise (· < ·) := by
  cases i with
  | compress level container => exact List.pairwise_lt_range
  | hcInsert => exact List.pairwise_singleton _ _
  | tblWrite sel =>
    rw [prevTargets]
    split
    · exact List.pairwise_singleton _ _
    · exact .nil
  | _ => exact .nil

/-- The PREV entries a command past its pre-checks may write exist (R173, R316, R343). -/
theorem prevTargets_lt {i : Instr} {s : State} (hp : passesPreChecks i s = true) :
    ∀ j ∈ prevTargets i s, j < Config.win := by
  intro j hj
  rcases mem_prevTargets hj with ⟨-, rfl⟩ | ⟨rfl, rfl⟩ | ⟨-, hlt, -⟩
  · exact Nat.mod_lt _ (by decide)
  · have hsel : TableId.ofSel 1 = some .prev := by decide
    simp only [passesPreChecks, hsel, Bool.and_eq_true, decide_eq_true_eq] at hp
    exact hp.1
  · exact hlt

theorem abandonRunning_inv {i : Instr} {s : State} (h : Inv s) (hp : passesPreChecks i s = true) :
    Inv (abandonRunning i s) := by
  unfold abandonRunning
  refine resetTo_inv (wfSet_listed _ ((prevTargets_rising i s).filter _) fun j hj => ?_) ?_
  · exact prevTargets_lt hp j (List.mem_of_mem_filter hj)
  · split
    · exact Memory.wf_drawOutput _ _ _ _ _ h.mem
    · exact h.mem

theorem abandonWrite_inv (w : Word) {s : State} (h : Inv s) : Inv (abandonWrite w s) := by
  unfold abandonWrite
  split
  · split
    · rename_i hc
      exact abandonRunning_inv h (Bool.and_eq_true .. ▸ hc).2
    · exact assertReset_inv h
  · exact assertReset_inv h

theorem hostMove_inv {op : HostOp} {s t : State} (h : Inv s) (ht : hostMove op s = .next t) : Inv t := by
  cases op with
  | write32 addr v => exact hostWrite_inv h ht
  | read32 addr => cases ht; exact hostRead_inv addr h
  | writeNarrow addr v => cases ht; exact h
  | readNarrow addr => cases ht; exact openRead_inv h
  | memStore addr v =>
    cases ht
    exact { h with mem := Memory.wf_storeByte v h.mem addr.isLt, tables := tablesLegal_of_frame h.tables rfl }
  | memLoad addr => cases ht; exact inv_of_host h rfl
  | rstAssert => cases ht; exact assertReset_inv h
  | rstRelease => cases ht; exact releaseReset_inv h
  | abandon w => cases ht; exact abandonWrite_inv w h

/-- Settles O59: every command's body leaves legal units where it completes, a fault changes only STATUS and FAULT_INFO or
draws canonical tables, and every other move of the host writes reset values or host registers. -/
theorem stepKeepsInv : Obligations.StepKeepsInv := by
  unfold Obligations.StepKeepsInv
  intro s t h ht
  cases hb : s.bus with
  | nil => rw [step_of_bus_nil hb] at ht; cases ht; exact h
  | cons op rest =>
    rw [step_of_bus_cons hb] at ht
    exact hostMove_inv (inv_of_host (t := { s with bus := rest }) h rfl) ht

end Sys2Proof.Proofs
end

section
/-! SUPPORT. The register window and the host's moves, and what every command leaves unchanged (R31 to R46, R364). -/

namespace Sys2Proof.Proofs

open Sys2Proof Sys2Proof.Machine Sys2Proof.Laws

/-! ### What commands leave unchanged -/

theorem did_hostOwned {i : Instr} {s t : State} (h : Did i s t) : HostOwned s t := by
  rw [h.frame]; simp [HostOwned]

theorem overflow_hostOwned (info : Word) (s : State) :
    HostOwned s (takeFault .outOverflow info (drawAfterOverflow s)) := by
  simp [HostOwned, drawAfterOverflow]

theorem hostOwned_refl (s : State) : HostOwned s s := by simp [HostOwned]

theorem execResetState_hostOwned {s t : State} (h : exec .resetState s = .next t) : HostOwned s t := by
  rw [exec, execResetState] at h
  split at h
  · cases h; simp [HostOwned]
  · cases h; exact hostOwned_refl s

/-- Settles O57: RESET_STATE clears none of them, and every other command ends in one of the ways of `exec_cases`. -/
theorem commandsKeepHostRegisters : Obligations.CommandsKeepHostRegisters := by
  unfold Obligations.CommandsKeepHostRegisters
  intro i s t h
  by_cases hi : i = .resetState
  · subst hi
    exact execResetState_hostOwned h
  · rcases exec_cases hi h with ⟨-, rfl⟩ | ⟨-, u, hu, rfl⟩ | ⟨-, c, info, -, -, rfl⟩ | ⟨-, -, -, info, rfl⟩
    · exact hostOwned_refl t
    · have howned := did_hostOwned hu
      exact howned
    · simp [HostOwned, faulted]
    · exact overflow_hostOwned info (accept s)

/-- A ready engine whose command ends with OUT_OVERFLOW recorded: the command writes output, its regions are legal, and
the state is drawn (R364). -/
theorem exec_overflowed {i : Instr} {s t : State} (hr : s.ready = true) (h : exec i s = .next t)
    (hc : t.status.cause = .outOverflow) (hf : t.status.fault = true) :
    writesOutput i = true ∧ regionsOk s = true ∧
      ∃ info, t = takeFault .outOverflow info (drawAfterOverflow (accept s)) := by
  obtain ⟨-, -, hnone⟩ := ready_iff.mp hr
  have hi : i ≠ .resetState := by
    rintro rfl
    rw [execResetState_ready hr] at h
    cases h
    cases hf
  rcases exec_cases hi h with ⟨hn, -⟩ | ⟨-, u, hu, rfl⟩ | ⟨-, c, info, -, hne, rfl⟩ | ⟨-, hw, hreg, hdrawn⟩
  · rw [hr] at hn
    cases hn
  · rw [complete_status, did_status hu, accept_status] at hf
    rw [hnone] at hf
    cases hf
  · exact absurd hc hne
  · exact ⟨hw, hreg, hdrawn⟩

/-- Settles O55: only an emitting command overflows, its regions are legal then, and the drawn bytes lie from
OUTPOS-at-acceptance to OUT_CAP - 1. -/
theorem overflowLeavesTheRest : Obligations.OverflowLeavesTheRest := by
  unfold Obligations.OverflowLeavesTheRest
  intro i s t hr h hc hf
  obtain ⟨hw, hreg, info, rfl⟩ := exec_overflowed hr h hc hf
  exact ⟨hw, rfl, rfl, rfl, rfl, overflow_hostOwned info (accept s),
    fun a ha => memByte_drawAfterOverflow (s := accept s) hreg a ha⟩

/-! ### Reads of the window -/

/-- An aligned read of the window, rst not asserted. -/
theorem busRead_aligned {offset : BitVec 8} {s : State} (hrst : s.rst = false) (ha : offset.toNat % 4 = 0) :
    busRead offset s = { s with hostData := readRegister offset s } := by
  rw [busRead, aligned, decide_eq_true ha, hrst]
  rfl

/-- Concatenation in numbers. -/
theorem toNat_append_add {m n : Nat} (x : BitVec m) (y : BitVec n) : (x ++ y).toNat = x.toNat * 2 ^ n + y.toNat := by
  rw [BitVec.toNat_append, ← Nat.shiftLeft_add_eq_or_of_lt y.isLt, Nat.shiftLeft_eq]

/-- The status word's fields (R34). -/
theorem statusWord_toNat (t : Status) : t.word.toNat =
    (if t.busy then 1 else 0) + (if t.done then 2 else 0) + (if t.fault then 4 else 0) + 256 * t.cause.code.toNat := by
  have bit : ∀ b : Bool, (BitVec.ofBool b).toNat = if b then 1 else 0 := by decide
  simp only [Status.word, toNat_append_add, bit]
  split_ifs <;> simp <;> omega

/-- No register lies from offset 0x44 on (R45). -/
theorem readRegister_reserved {offset : BitVec 8} (h : 0x44 ≤ offset.toNat) (s : State) : readRegister offset s = 0 := by
  unfold readRegister
  split
  case h_17 => rfl
  all_goals omega

theorem writeRegister_reserved {offset : BitVec 8} (h : 0x44 ≤ offset.toNat) (v : Word) (s : State) :
    writeRegister offset v s = s := by
  unfold writeRegister
  split
  case h_10 => rfl
  all_goals omega

/-! ### Writes of the window -/

/-- A write of a register other than CMD. -/
theorem busWrite_register {offset : BitVec 8} {v : Word} {s : State} (ha : offset.toNat % 4 = 0)
    (hc : offset ≠ cmdOffset) :
    busWrite offset v s = if writable s then .next (writeRegister offset v s) else .next s := by
  rw [busWrite, aligned, decide_eq_true ha, if_pos rfl, if_neg hc]

/-- A write at an offset that takes none has no effect. -/
theorem busWrite_readOnly {offset : BitVec 8} {v : Word} {s : State} (ha : offset.toNat % 4 = 0)
    (hc : offset ≠ cmdOffset) (h : writeRegister offset v s = s) : busWrite offset v s = .next s := by
  rw [busWrite_register ha hc, h, ite_self]

/-- A command other than RESET_STATE is ignored where the engine is not ready (R46). -/
theorem exec_ignored {i : Instr} {s : State} (hi : i ≠ .resetState) (h : s.ready = false) : exec i s = .next s := by
  obtain ⟨body, he, -⟩ := exec_runsBody hi s
  rw [he, runCommand_ignored h]

/-- A CMD write of anything but RESET_STATE is ignored where the engine is not ready (R46). -/
theorem commandWrite_ignored {w : Word} {s : State} (hw : decode w ≠ .ok .resetState) (h : s.ready = false) :
    commandWrite w s = .next s := by
  rw [commandWrite]
  split
  · rename_i i hi
    exact exec_ignored (by rintro rfl; exact hw hi) h
  · exact runCommand_ignored h

/-- While BUSY even RESET_STATE is ignored (R46). -/
theorem commandWrite_busy {w : Word} {s : State} (h : s.status.busy = true) : commandWrite w s = .next s := by
  by_cases hw : decode w = .ok .resetState
  · rw [commandWrite, hw]
    simp [exec, execResetState, State.readyForReset, h]
  · exact commandWrite_ignored hw (by simp [State.ready, h])

theorem busWrite_busy {offset : BitVec 8} {v : Word} {s : State} (h : s.status.busy = true) :
    busWrite offset v s = .next s := by
  rw [busWrite, commandWrite_busy h, writable, h]
  simp

theorem busWrite_unaligned {offset : BitVec 8} {v : Word} {s : State} (h : offset.toNat % 4 ≠ 0) :
    busWrite offset v s = .next s := by
  rw [busWrite, aligned, decide_eq_false h]
  rfl

theorem busRead_unaligned {offset : BitVec 8} {s : State} (h : offset.toNat % 4 ≠ 0) :
    busRead offset s = openRead s := by
  rw [busRead, aligned, decide_eq_false h]
  rfl

/-- Settles O7: each offset selects its register, and none from 0x44 on does. -/
theorem registerReadMap : Obligations.RegisterReadMap := by
  unfold Obligations.RegisterReadMap
  refine ⟨fun s hrst => ?_, statusWord_toNat, by decide, fun s offset v hrst hoff ha => ?_⟩
  · have read : ∀ offset : BitVec 8, offset.toNat % 4 = 0 → (busRead offset s).hostData = readRegister offset s :=
      fun offset ha => by rw [busRead_aligned hrst ha]
    refine ⟨read 0x00 rfl, read 0x04 rfl, ?_, read 0x0C rfl, read 0x10 rfl, read 0x14 rfl, read 0x18 rfl, read 0x1C rfl,
      read 0x20 rfl, read 0x24 rfl, read 0x28 rfl, read 0x2C rfl, read 0x30 rfl, read 0x34 rfl, read 0x38 rfl, ?_,
      read 0x40 rfl, fun offset ha => by rw [busRead_aligned hrst ha]⟩
    · rw [read 0x08 rfl]
      show (BitVec.ofBool s.ie).setWidth 32 = _
      cases s.ie <;> rfl
    · rw [read 0x3C rfl]
      show (s.bitCnt.setWidth 32).toNat = _
      rw [BitVec.toNat_setWidth, Nat.mod_eq_of_lt (by omega)]
  · refine ⟨by rw [busRead_aligned hrst ha, readRegister_reserved hoff], ?_⟩
    exact busWrite_readOnly ha (by rintro rfl; cases hoff) (writeRegister_reserved hoff v s)

/-- Settles O8: a CMD write meets the command's own check, and any other write needs an engine that is not BUSY and a
register the host may write. -/
theorem writesFollowTheMode : Obligations.WritesFollowTheMode := by
  unfold Obligations.WritesFollowTheMode
  refine ⟨fun s offset v h => busWrite_busy h, fun s v h hw => ?_, fun s v hb hrst => ?_, fun s offset v h => ?_⟩
  · exact commandWrite_ignored hw (by simp [State.ready, h])
  · have write : ∀ offset : BitVec 8, offset.toNat % 4 = 0 → offset ≠ cmdOffset →
        busWrite offset v s = .next (writeRegister offset v s) := fun offset ha hc => by
      rw [busWrite_register ha hc, writable, hb, hrst]
      rfl
    exact ⟨write 0x08 rfl (by decide), write 0x10 rfl (by decide), write 0x14 rfl (by decide),
      write 0x18 rfl (by decide), write 0x24 rfl (by decide), write 0x28 rfl (by decide), write 0x2C rfl (by decide),
      write 0x30 rfl (by decide), write 0x40 rfl (by decide)⟩
  · simp only [List.mem_cons, List.not_mem_nil, or_false] at h
    rcases h with rfl | rfl | rfl | rfl | rfl | rfl | rfl <;> exact busWrite_readOnly rfl (by decide) rfl

/-! ### Accesses by address -/

/-- Settles O9: the window gives each of its addresses its offset, and a store writes the one byte at its address. -/
theorem hostAccessesByAddress : Obligations.HostAccessesByAddress := by
  unfold Obligations.HostAccessesByAddress
  refine ⟨fun s offset v => ?_, fun s addr v h => ?_, fun s offset v h => ?_, fun s addr v => ?_, fun s addr v => ?_⟩
  · simp only [hostMove, hostWrite, hostRead, windowOffset_at, and_self]
  · have hnone := windowOffset_outside h
    exact ⟨by simp only [hostMove, hostWrite, hnone], _, by simp only [hostMove, hostRead, hnone]; rfl⟩
  · exact ⟨busWrite_unaligned h, _, busRead_unaligned h⟩
  · exact ⟨rfl, _, rfl⟩
  · refine ⟨⟨_, rfl, rfl, fun a => ?_⟩, _, rfl, rfl, ?_⟩
    · rw [memByte_storeByte]
      simp only [eq_comm]
    · show ((memByte s.mem addr.toNat).setWidth 32).toNat = _
      rw [BitVec.toNat_setWidth, Nat.mod_eq_of_lt (by omega)]

/-! ### The selectors -/

theorem tableOfSel_none {sel : BitVec 4} (h : 13 ≤ sel.toNat) : TableId.ofSel sel = none := by
  revert sel; decide

theorem alphabetOfSel_none {sel : BitVec 4} (h : 3 ≤ sel.toNat) : Alphabet.ofSel sel = none := by
  revert sel; decide

theorem illegalCommand_ready {w : Word} {s : State} (h : s.ready = true) :
    illegalCommand w s = .next (faulted .illegalCmd w s) :=
  runCommand_faults h rfl (by decide)

/-- Settles O18: the selectors and limits are read off their definitions, and a SEL that names nothing is an illegal
command. -/
theorem tableLimits : Obligations.TableLimits := by
  unfold Obligations.TableLimits
  refine ⟨by decide, by decide, fun s => rfl, fun s => rfl, fun sel s hr hsel => ⟨?_, ?_⟩, fun sel s hr hsel => ?_⟩
  · rw [exec, execTblRead, tableOfSel_none hsel]
    exact illegalCommand_ready hr
  · rw [exec, execTblWrite, tableOfSel_none hsel]
    exact illegalCommand_ready hr
  · rw [exec, execHuffBuild, alphabetOfSel_none hsel]
    exact illegalCommand_ready hr

end Sys2Proof.Proofs
end

section
/-! SUPPORT. The chains of a COMPRESS hold only positions it has inserted, so its searches read only PREV entries it has
written and draw nothing (R50, R58). -/

namespace Sys2Proof.Proofs

open Sys2Proof Sys2Proof.Machine Sys2Proof.Laws

/-! ### Chains over the inserted positions -/

/-- The link c ends its chain or leads to a position of S. -/
def LeadsInto (S : Set Nat) (c : Word) : Prop := c = Config.nil ∨ c.toNat ∈ S

/-- The chains of s hold only positions of S, all below q, and the entry of each is written while it is still within the
window of q. -/
structure ChainsOver (S : Set Nat) (q : Nat) (s : State) : Prop where
  below : ∀ x ∈ S, x < q
  head  : ∀ h, LeadsInto S (Cells.get Config.nil s.head h)
  prev  : ∀ x ∈ S, q ≤ x + Config.win → ∃ v, Cells.find s.prev (x % Config.win) = some v ∧ LeadsInto S v

theorem ChainsOver.mono {S : Set Nat} {q q' : Nat} {s : State} (h : ChainsOver S q s) (hq : q ≤ q') :
    ChainsOver S q' s :=
  ⟨fun x hx => (h.below x hx).trans_le hq, h.head, fun x hx hw => h.prev x hx (hq.trans hw)⟩

/-- An insertion puts its position at the head of its chain, and overwrites no entry still within the window (R173). -/
theorem ChainsOver.after_insert {S : Set Nat} {q p b : Nat} {s : State} (h : ChainsOver S q s) (hq : q ≤ p)
    (hp : p < 2 ^ 32) : ChainsOver (insert p S) (p + 1) { s with
      prev := Cells.put s.prev (p % Config.win) (Cells.get Config.nil s.head b)
      head := Cells.set Config.nil s.head b (word p) } := by
  have grow : ∀ {c : Word}, LeadsInto S c → LeadsInto (insert p S) c := fun hc => hc.imp_right (Set.mem_insert_of_mem p)
  refine ⟨fun x hx => ?_, fun k => ?_, fun x hx hw => ?_⟩
  · rcases Set.mem_insert_iff.mp hx with rfl | hx
    · exact Nat.lt_succ_self _
    · have := h.below x hx
      omega
  · rw [Cells.get_set]
    split
    · exact .inr (by rw [word_toNat_of_lt hp]; exact Set.mem_insert p S)
    · exact grow (h.head k)
  · rw [Cells.find_put]
    rcases Set.mem_insert_iff.mp hx with rfl | hx
    · exact ⟨_, if_pos rfl, grow (h.head b)⟩
    · have hlt := h.below x hx
      have hslot : p % Config.win ≠ x % Config.win := by simp only [Config.win] at hw ⊢; omega
      obtain ⟨v, hv, hl⟩ := h.prev x hx (by omega)
      exact ⟨v, (if_neg hslot).trans hv, grow hl⟩

/-- A read of a written entry draws nothing (R50). -/
theorem readPrev_written {i : Nat} {v : Word} {s : State} (h : Cells.find s.prev i = some v) :
    readPrev i s = (v, s) := by
  rw [readPrev, h]

/-- A walk at p over such chains leaves the state as it is (R58, R177). -/
theorem walkChain_same {S : Set Nat} {q p maxLen hops len off : Nat} {c : Word} {s : State} {r : (Nat × Nat) × State}
    (h : ChainsOver S q s) (hq : q ≤ p + 1) (hc : LeadsInto S c) (hr : walkChain p maxLen hops c len off s = .ok r) :
    r.2 = s := by
  induction hops generalizing c len off with
  | zero => cases hr; rfl
  | succ hops ih =>
    rw [walkChain] at hr
    split at hr
    · rename_i hv
      obtain ⟨hnil, hlt, hwin⟩ := validCandidate_iff.mp hv
      obtain ⟨v, hfind, hnext⟩ := h.prev c.toNat (hc.resolve_left hnil) (by simp only [Config.win]; omega)
      obtain ⟨found, -, hr⟩ := bind_eq_ok.mp hr
      simp only [readPrev_written hfind] at hr
      split at hr
      · cases hr; rfl
      · split at hr
        · cases hr; rfl
        · exact ih hnext hr
    · cases hr; rfl

/-! ### Runs that draw nothing -/

/-- d open values were drawn so far, and the chains hold only inserted positions, all below q. -/
def Chained (d q : Nat) (s : State) : Prop := s.draws = d ∧ ∃ S, ChainsOver S q s

theorem Chained.mono {d q q' : Nat} {s : State} (h : Chained d q s) (hq : q ≤ q') : Chained d q' s :=
  ⟨h.1, h.2.imp fun _ hS => hS.mono hq⟩

/-- t has the chains and the count of open values of s. -/
def SameChains (s t : State) : Prop := t.head = s.head ∧ t.prev = s.prev ∧ t.draws = s.draws

theorem Chained.of_same {d q : Nat} {s t : State} (h : Chained d q s) (e : SameChains s t) : Chained d q t := by
  obtain ⟨hhead, hprev, hdraws⟩ := e
  obtain ⟨hd, S, hS⟩ := h
  exact ⟨hdraws.trans hd, S, hS.below, by rw [hhead]; exact hS.head, by rw [hprev]; exact hS.prev⟩

theorem sameChains_writerOnly {s t : State} (h : WriterOnly s t) : SameChains s t := by
  rw [h]; exact ⟨rfl, rfl, rfl⟩

theorem sameChains_codesOnly {s t : State} (h : CodesOnly s t) : SameChains s t := by
  rw [h]; exact ⟨rfl, rfl, rfl⟩

/-- Emits and then a count of symbols. -/
theorem sameChains_emitAll {fields : List (Nat × Nat)} {s t : State} {g : State → State}
    (hg : ∀ u, SameChains u (g u)) (h : (emitAll fields s >>= fun u => .ok (g u)) = .ok t) : SameChains s t := by
  obtain ⟨u, hu, ht⟩ := bind_eq_ok.mp h
  cases ht
  obtain ⟨h1, h2, h3⟩ := sameChains_writerOnly (emitAll_frame hu)
  obtain ⟨g1, g2, g3⟩ := hg u
  exact ⟨g1.trans h1, g2.trans h2, g3.trans h3⟩

theorem emitLiteral_sameChains {b : Nat} {s t : State} (h : emitLiteral b s = .ok t) : SameChains s t := by
  rw [emitLiteral_eq] at h
  exact sameChains_emitAll (g := countLit b) (fun _ => ⟨rfl, rfl, rfl⟩) h

theorem emitMatchToken_sameChains {len dist : Nat} {s t : State} (h : emitMatchToken len dist s = .ok t) :
    SameChains s t := by
  rw [emitMatchToken_eq] at h
  exact sameChains_emitAll (g := fun u => countDist (distSlot dist) (countLit (257 + lengthSlot len) u))
    (fun _ => ⟨rfl, rfl, rfl⟩) h

theorem emitEndOfBlock_sameChains {s t : State} (h : emitEndOfBlock s = .ok t) : SameChains s t := by
  rw [emitEndOfBlock_eq] at h
  exact sameChains_emitAll (g := countLit 256) (fun _ => ⟨rfl, rfl, rfl⟩) h

/-! ### One token -/

theorem insertIfRoom_chained {d q p : Nat} {s t : State} (hr : regionsOk s = true) (h : Chained d q s) (hq : q ≤ p)
    (ht : insertIfRoom p s = .ok t) : Chained d (p + 1) t := by
  rw [insertIfRoom] at ht
  split at ht
  · rename_i hroom
    rw [insertPos_ok hr hroom] at ht
    cases ht
    obtain ⟨hd, S, hS⟩ := h
    exact ⟨hd, _, hS.after_insert hq (by omega)⟩
  · cases ht
    exact h.mono (by omega)

theorem insertRange_chained {d q n : Nat} {s t : State} (hr : regionsOk s = true) (h : Chained d q s)
    (ht : insertRange q n s = .ok t) : Chained d (q + n) t := by
  induction n generalizing q s with
  | zero => cases ht; exact h
  | succ n ih =>
    obtain ⟨u, hu, ht⟩ := bind_eq_ok.mp ht
    have hru := ((insertIfRoom_unit hr).1 u hu).1.regionsOk hr
    exact (ih hru (insertIfRoom_chained hr h (Nat.le_refl q) hu) ht).mono (by omega)

theorem insertAfterMatch_chained {d p len nice : Nat} {s t : State} (hr : regionsOk s = true) (h : Chained d p s)
    (hlen : 1 ≤ len) (ht : insertAfterMatch p len nice s = .ok t) : Chained d (p + len) t := by
  rw [insertAfterMatch] at ht
  split at ht
  · exact (insertIfRoom_chained hr h (Nat.le_refl p) ht).mono (by omega)
  · exact insertRange_chained hr h ht

theorem findMatch_same {d q p depth maxLen : Nat} {s : State} {r : (Nat × Nat) × State} (h : Chained d q s)
    (hq : q ≤ p + 1) (hr : findMatch p depth maxLen s = .ok r) : r.2 = s := by
  obtain ⟨-, S, hS⟩ := h
  obtain ⟨b, -, hr⟩ := bind_eq_ok.mp hr
  exact walkChain_same hS hq (hS.head b) hr

theorem searchAt_same {d p maxLen : Nat} {s : State} {r : (Nat × Nat) × State} (h : Chained d p s)
    (hr : searchAt p maxLen s = .ok r) : r.2 = s := by
  rw [searchAt] at hr
  split at hr
  · exact findMatch_same h (Nat.le_succ p) hr
  · cases hr; rfl

theorem lazyProbe_same {d p nice : Nat} {m : Nat × Nat} {s : State} {r : (Nat × Nat) × State} (h : Chained d p s)
    (hr : lazyProbe p nice m s = .ok r) : r.2 = s := by
  rw [lazyProbe] at hr
  split at hr
  · obtain ⟨x, hx, hr⟩ := bind_eq_ok.mp hr
    have hsame := findMatch_same h (by omega) hx
    cases hr
    exact hsame
  · cases hr; rfl

theorem setPos_chained {d p : Nat} {s : State} (h : Chained d p s) (hp : p < 2 ^ 32) :
    Chained d (setPos p s).driver.pos.toNat (setPos p s) := by
  rw [setPos_driver, word_toNat_of_lt hp]
  exact h.of_same ⟨rfl, rfl, rfl⟩

/-- A token searches chains below POS, and inserts no position it does not cover (R310, R315). -/
theorem tokenStep_chained {d : Nat} {s t : State} (hr : regionsOk s = true)
    (hlt : s.driver.pos.toNat < s.driver.be.toNat) (hbe : s.driver.be.toNat ≤ s.inLen.toNat)
    (h : Chained d s.driver.pos.toNat s) (ht : tokenStep s = .ok t) : Chained d t.driver.pos.toNat t := by
  have hlim := s.driver.be.isLt
  obtain ⟨m, u, hu, -, hm⟩ := searchAt_spec (p := s.driver.pos.toNat)
    (maxLen := min 258 (s.driver.be.toNat - s.driver.pos.toNat)) hr (by omega)
  obtain rfl : u = s := searchAt_same h hu
  obtain ⟨k, v, hv, -, hk⟩ := lazyProbe_spec (p := u.driver.pos.toNat)
    (nice := min (u.params.niceLen.getD u.driver.lvl.toNat 0) (min 258 (u.driver.be.toNat - u.driver.pos.toNat)))
    (m := m) hr (by omega) hbe
  obtain rfl : v = u := lazyProbe_same h hv
  simp only [tokenStep, hu, hv, bind_ok] at ht
  split at ht
  · rename_i h4
    have hlen : k.1 ≤ v.driver.be.toNat - v.driver.pos.toNat := by
      rcases hk with rfl | rfl
      · simp at h4
      · rcases hm with rfl | ⟨-, hle, -⟩
        · simp at h4
        · omega
    obtain ⟨x, hx, ht⟩ := bind_eq_ok.mp ht
    obtain ⟨y, hy, ht⟩ := bind_eq_ok.mp ht
    cases ht
    have hrx := ((emitMatchToken_unit hr).1 x hx).1.regionsOk hr
    exact setPos_chained (insertAfterMatch_chained hrx (h.of_same (emitMatchToken_sameChains hx)) (by omega) hy)
      (by omega)
  · obtain ⟨b, -, ht⟩ := bind_eq_ok.mp ht
    obtain ⟨x, hx, ht⟩ := bind_eq_ok.mp ht
    obtain ⟨y, hy, ht⟩ := bind_eq_ok.mp ht
    cases ht
    have hrx := ((emitLiteral_unit hr).1 x hx).1.regionsOk hr
    exact setPos_chained (insertIfRoom_chained hrx (h.of_same (emitLiteral_sameChains hx)) (Nat.le_refl _) hy)
      (by omega)

theorem tokenLoop_chained {d : Nat} (fuel : Nat) {s t : State} (hr : regionsOk s = true)
    (hbe : s.driver.be.toNat ≤ s.inLen.toNat) (h : Chained d s.driver.pos.toNat s) (ht : tokenLoop fuel s = .ok t) :
    Chained d t.driver.pos.toNat t := by
  induction fuel generalizing s with
  | zero => cases ht; exact h
  | succ fuel ih =>
    rw [tokenLoop] at ht
    split at ht
    · rename_i hlt
      obtain ⟨u, hu, ht⟩ := bind_eq_ok.mp ht
      obtain ⟨hw, hd, -, -⟩ := (tokenStep_spec hr hlt hbe).1 u hu
      have hbeu : u.driver.be = s.driver.be := by rw [hd]
      exact ih (hw.regionsOk hr) (by rw [hbeu, hw.inLen]; exact hbe) (tokenStep_chained hr hlt hbe h hu) ht
    · cases ht; exact h

/-! ### Blocks -/

theorem huffBuild_eq_ok {a : Alphabet} {s t : State} (h : huffBuild a s = .ok t) : t = buildCodes a s := by
  obtain ⟨_, -, h⟩ := bind_eq_ok.mp h
  exact (Except.ok.inj h).symm

/-- Where BlockStart completes, it has built the tables and emitted the header from them (R305). -/
theorem blockStart_eq_ok {s t : State} (h : blockStart s = .ok t) : blockHeader false (startTables s) = .ok t := by
  obtain ⟨x, hx, h⟩ := bind_eq_ok.mp h
  obtain ⟨y, hy, h⟩ := bind_eq_ok.mp h
  obtain ⟨z, hz, h⟩ := bind_eq_ok.mp h
  rw [huffBuild_eq_ok hz, huffBuild_eq_ok hy, huffBuild_eq_ok hx] at h
  exact h

theorem blockStart_sameChains {s t : State} (h : blockStart s = .ok t) : SameChains s t := by
  have hheader := blockStart_eq_ok h
  rw [blockHeader_eq] at hheader
  obtain ⟨h1, h2, h3⟩ := sameChains_codesOnly (startTables_codesOnly s)
  obtain ⟨g1, g2, g3⟩ := sameChains_writerOnly (emitAll_frame hheader)
  exact ⟨g1.trans h1, g2.trans h2, g3.trans h3⟩

/-- A block searches and inserts only below its end, where the next block starts (R302). -/
theorem blockRound_chained {d : Nat} {s t : State} (hr : regionsOk s = true) (hbs : s.driver.bs.toNat ≤ s.inLen.toNat)
    (h : Chained d s.driver.bs.toNat s) (ht : blockRound s = .ok t) : Chained d t.driver.bs.toNat t := by
  obtain ⟨u, hu, ht⟩ := bind_eq_ok.mp ht
  obtain ⟨v, hv, ht⟩ := bind_eq_ok.mp ht
  obtain ⟨x, hx, ht⟩ := bind_eq_ok.mp ht
  cases ht
  have hcut : Work s (cutBlock s) := .of_tables rfl
  obtain ⟨hwu, hdu⟩ := (blockStart_unit (hcut.regionsOk hr)).1 u hu
  have hru : regionsOk (setPos u.driver.bs.toNat u) = true := hwu.regionsOk (hcut.regionsOk hr)
  have hcutAt : u.driver.be.toNat = min (s.driver.bs.toNat + s.params.blkMax) s.inLen.toNat := by
    rw [hdu, cutBlock_driver, word_toNat_of_lt (lt_of_le_of_lt (Nat.min_le_right _ _) s.inLen.isLt)]
  have hbe : (setPos u.driver.bs.toNat u).driver.be.toNat ≤ (setPos u.driver.bs.toNat u).inLen.toNat := by
    simp only [setPos_driver, setPos_inLen, hcutAt, hwu.inLen, cutBlock_inLen]
    exact Nat.min_le_right _ _
  have hpos : (setPos u.driver.bs.toNat u).driver.pos.toNat ≤ (setPos u.driver.bs.toNat u).driver.be.toNat := by
    simp only [setPos_driver, word_toNat_of_lt u.driver.bs.isLt, hcutAt]
    rw [hdu]
    exact Nat.le_min.mpr ⟨Nat.le_add_right _ _, hbs⟩
  have hstart : Chained d u.driver.bs.toNat u := by
    rw [hdu]
    exact (h.of_same (t := cutBlock s) ⟨rfl, rfl, rfl⟩).of_same (blockStart_sameChains hu)
  have htokens := tokenLoop_chained _ hru hbe (setPos_chained hstart u.driver.bs.isLt) hv
  obtain ⟨hwv, hdv, hle, -⟩ := (tokenLoop_spec _ hru hpos hbe).1 v hv
  have hdx := ((emitEndOfBlock_unit (hwv.regionsOk hru)).1 x hx).2
  have hend : Chained d v.driver.be.toNat v := htokens.mono (by rw [hdv]; exact hle)
  rw [← hdx] at hend
  exact (hend.of_same (emitEndOfBlock_sameChains hx)).of_same ⟨rfl, rfl, rfl⟩

theorem blockLoop_chained {d : Nat} (fuel : Nat) {s t : State} (hr : regionsOk s = true)
    (hbs : s.driver.bs.toNat ≤ s.inLen.toNat) (h : Chained d s.driver.bs.toNat s) (ht : blockLoop fuel s = .ok t) :
    t.draws = d := by
  induction fuel generalizing s with
  | zero => cases ht; exact h.1
  | succ fuel ih =>
    rw [blockLoop_succ] at ht
    split at ht
    · obtain ⟨u, hu, ht⟩ := bind_eq_ok.mp ht
      obtain ⟨hw, -, -, -, hbsu, -⟩ := (blockRound_spec hr hbs).1 u hu
      exact ih (hw.regionsOk hr) (by rw [hbsu, hw.inLen]; omega) (blockRound_chained hr hbs h hu) ht
    · cases ht; exact h.1

/-! ### A whole COMPRESS -/

theorem writerOnly_draws {s t : State} (h : WriterOnly s t) : t.draws = s.draws := by rw [h]

/-- Init empties every chain (R303). -/
theorem compressInit_chained {level : BitVec 4} {container : Bool} {s t : State}
    (ht : compressInit level container s = .ok t) : Chained s.draws 0 t := by
  have empty : ∀ {u : State}, u.draws = s.draws → u.head = [] → Chained s.draws 0 u := fun hd hh =>
    ⟨hd, ∅, nofun, fun b => .inl (by rw [hh, Cells.get_nil]), nofun⟩
  rw [compressInit] at ht
  split at ht
  · obtain ⟨bs, -, ht⟩ := bind_eq_ok.mp ht
    rw [zlibHeader_eq] at ht
    obtain ⟨hhead, -, hdraws⟩ := sameChains_writerOnly (emitAll_frame ht)
    exact empty hdraws hhead
  · cases ht
    exact empty rfl rfl

theorem compressTrailer_draws {s t : State} (ht : compressTrailer s = .ok t) : t.draws = s.draws := by
  rw [compressTrailer] at ht
  split at ht
  · rw [emitBigEndian_eq] at ht
    exact (writerOnly_draws (emitAll_frame ht)).trans (enter_draws s _)
  · cases ht; rfl

/-- A COMPRESS that reaches its end has drawn nothing. -/
theorem compressRun_draws {level : BitVec 4} {container : Bool} {s t : State} (hr : regionsOk s = true)
    (ht : compressRun level container s = .ok t) : t.draws = s.draws := by
  obtain ⟨u, hu, ht⟩ := bind_eq_ok.mp ht
  obtain ⟨v, hv, ht⟩ := bind_eq_ok.mp ht
  obtain ⟨x, hx, ht⟩ := bind_eq_ok.mp ht
  obtain ⟨y, hy, ht⟩ := bind_eq_ok.mp ht
  obtain ⟨z, hz, ht⟩ := bind_eq_ok.mp ht
  cases ht
  rw [terminator_eq] at hx
  rw [pad_eq] at hy
  have hru : regionsOk u = true := ((compressInit_spec hr).1 u hu).1.regionsOk hr
  have hblocks : v.draws = s.draws := by
    refine blockLoop_chained _ ?_ (Nat.zero_le _) ?_ hv
    · exact hru
    · exact (compressInit_chained hu).of_same ⟨rfl, rfl, rfl⟩
  show z.draws = s.draws
  rw [compressTrailer_draws hz, writerOnly_draws (emitAll_frame hy), enter_draws, writerOnly_draws (emitAll_frame hx),
    enter_draws, hblocks]

/-- The body of a COMPRESS that completes has passed its pre-checks. -/
theorem execCompress_completes {level : BitVec 4} {container : Bool} {s t : State} (hr : s.ready = true)
    (h : exec (.compress level container) s = .next t) (hf : t.status.fault = false) :
    ∃ u, regionsOk s = true ∧ compressRun level container (accept s) = .ok u ∧ t = complete u := by
  rw [exec, execCompress] at h
  rcases runCommand_cases h with ⟨hn, -⟩ | ⟨-, u, hu, rfl⟩ | ⟨-, c, info, -, -, rfl⟩ | ⟨-, info, -, rfl⟩
  · rw [hr] at hn
    cases hn
  · obtain ⟨_, -, hu⟩ := bind_eq_ok.mp hu
    obtain ⟨_, hregion, hu⟩ := bind_eq_ok.mp hu
    obtain ⟨_, -, hu⟩ := bind_eq_ok.mp hu
    exact ⟨u, regionCheck_ok.mp hregion, hu, rfl⟩
  · cases hf
  · cases hf

/-- Settles O49: every candidate a search can examine was inserted by this COMPRESS, so its PREV entry is written. -/
theorem compressReadsNoUnwrittenPrev : Obligations.CompressReadsNoUnwrittenPrev := by
  unfold Obligations.CompressReadsNoUnwrittenPrev
  intro level container s t hr _ h hf
  obtain ⟨u, hregion, hu, rfl⟩ := execCompress_completes hr h hf
  have hdraws := compressRun_draws (s := accept s) hregion hu
  exact hdraws

end Sys2Proof.Proofs
end

section
/-! SUPPORT. The code HUFF_BUILD leaves is complete: the tree of R205 is not too deep for its size, so every node below the
root finds a slot to split (R207), and each split keeps the Kraft sum. -/

namespace Sys2Proof.Proofs

open Sys2Proof Sys2Proof.Machine Sys2Proof.Laws

/-! ### The parents of the tree (R205) -/

/-- The parents of the internal nodes b, b+1, ... below the root R: each lies above its node, and the nodes from b up to the
root are at most two for each node from the parent up. -/
def ParentsFit (R : Nat) : Nat → List Nat → Prop
  | b, [] => b = R
  | b, p :: ps => b < p ∧ p ≤ R ∧ R - b ≤ 2 * (R + 1 - p) ∧ ParentsFit R (b + 1) ps

theorem parentsFit_length {R b : Nat} {ps : List Nat} (h : ParentsFit R b ps) : b + ps.length = R := by
  induction ps generalizing b with
  | nil => exact h
  | cons p ps ih =>
    obtain ⟨-, -, -, h⟩ := h
    have := ih h
    rw [List.length_cons]
    omega

/-- A pick takes the next leaf or the next internal node (R205). -/
theorem pickNode_cases {ws qs : List Nat} (h : 0 < ws.length + qs.length) :
    (∃ w ws', pickNode ws qs = (w, false, ws', qs) ∧ ws.length = ws'.length + 1) ∨
    (∃ q qs', pickNode ws qs = (q, true, ws, qs') ∧ qs.length = qs'.length + 1) := by
  cases ws with
  | nil =>
    cases qs with
    | nil => simp at h
    | cons q qs => exact .inr ⟨q, qs, rfl, rfl⟩
  | cons w ws =>
    cases qs with
    | nil => exact .inl ⟨w, ws, rfl, rfl⟩
    | cons q qs =>
      rw [pickNode]
      split
      · exact .inl ⟨w, ws, rfl, rfl⟩
      · exact .inr ⟨q, qs, rfl, rfl⟩

/-- BuildTree, with the leaves and internal nodes that n more merges use up: the next internal node is b, and e is the
next merge. -/
theorem buildTree_fits {R n b e : Nat} {ws qs : List Nat} (he : e = b + qs.length) (hR : e + n = R + 1)
    (hn : ws.length + qs.length = n + 1) (hq : n = 0 → 0 < qs.length) : ParentsFit R b (buildTree n e ws qs) := by
  induction n generalizing b e ws qs with
  | zero =>
    have := hq rfl
    show b = R
    omega
  | succ n ih =>
    -- a node whose parent is merge e
    have node : ∀ {b' : Nat} {ps : List Nat}, b ≤ b' → b' < e → ParentsFit R (b' + 1) ps →
        ParentsFit R b' (e :: ps) :=
      fun hb hlt hps => ⟨hlt, by omega, by omega, hps⟩
    have grown : ∀ {l : List Nat} {w : Nat}, n = 0 → 0 < (l ++ [w]).length := by simp
    rw [buildTree]
    rcases pickNode_cases (ws := ws) (qs := qs) (by omega) with ⟨w, ws', hx, hw⟩ | ⟨q, qs', hx, hq'⟩
    · rcases pickNode_cases (ws := ws') (qs := qs) (by omega) with ⟨w2, ws2, hy, hw2⟩ | ⟨q2, qs2, hy, hq2⟩
      · simp only [hx, hy, Bool.false_eq_true, if_false, List.nil_append]
        exact ih (by simp; omega) (by omega) (by simp; omega) grown
      · simp only [hx, hy, Bool.false_eq_true, if_false, if_true, List.nil_append, List.singleton_append]
        exact node (Nat.le_refl b) (by omega) (ih (by simp; omega) (by omega) (by simp; omega) grown)
    · rcases pickNode_cases (ws := ws) (qs := qs') (by omega) with ⟨w2, ws2, hy, hw2⟩ | ⟨q2, qs2, hy, hq2⟩
      · simp only [hx, hy, Bool.false_eq_true, if_false, if_true, List.append_nil, List.singleton_append]
        exact node (Nat.le_refl b) (by omega) (ih (by simp; omega) (by omega) (by simp; omega) grown)
      · simp only [hx, hy, if_true, List.cons_append, List.nil_append]
        exact node (Nat.le_refl b) (by omega)
          (node (Nat.le_succ b) (by omega) (ih (by simp; omega) (by omega) (by simp; omega) grown))

/-! ### The depths of its nodes (R206) -/

theorem nodeDepths_length (b : Nat) (ps : List Nat) : (nodeDepths b ps).length = ps.length + 1 := by
  induction ps generalizing b with
  | nil => rfl
  | cons p ps ih => rw [nodeDepths, List.length_cons, ih, List.length_cons]

/-- A node of depth d has at most 2^(d+1) - 2 nodes from itself up to the root. -/
theorem nodeDepths_bound {R b k : Nat} {ps : List Nat} (h : ParentsFit R b ps) (hb : b ≤ k) (hk : k ≤ R) :
    R - k + 2 ≤ 2 ^ ((nodeDepths b ps).getD (k - b) 0 + 1) := by
  induction ps generalizing b k with
  | nil =>
    have hR : b = R := h
    rw [show k - b = 0 by omega, show R - k = 0 by omega]
    exact Nat.le_refl 2
  | cons p ps ih =>
    obtain ⟨hp, hpR, htwo, h⟩ := h
    rw [nodeDepths]
    rcases Nat.eq_or_lt_of_le hb with rfl | hlt
    · have hparent := ih h hp hpR
      rw [Nat.sub_self, List.getD_cons_zero, Nat.pow_succ]
      omega
    · have hrest := ih h hlt hk
      rw [show k - b = k - (b + 1) + 1 by omega, List.getD_cons_succ]
      exact hrest

/-- The depths of nodes below the root, the deepest first: each is deep enough that the slots of the nodes after it,
which are two more than these nodes, are not all below it. -/
def DepthsFit : List Nat → Prop
  | [] => True
  | d :: ds => ds.length + 2 < 2 ^ (d + 1) ∧ DepthsFit ds

theorem nodeDepths_fit {R b : Nat} {ps : List Nat} (h : ParentsFit R b ps) :
    DepthsFit (nodeDepths b ps).dropLast := by
  induction ps generalizing b with
  | nil => exact trivial
  | cons p ps ih =>
    have hbound := nodeDepths_bound h (Nat.le_refl b) (by have := parentsFit_length h; omega)
    have hlen := parentsFit_length h
    obtain ⟨-, -, -, h⟩ := h
    have hne : nodeDepths (b + 1) ps ≠ [] := by
      intro hnil
      have := nodeDepths_length (b + 1) ps
      rw [hnil] at this
      cases this
    rw [Nat.sub_self] at hbound
    rw [nodeDepths, List.getD_cons_zero] at hbound
    rw [nodeDepths, List.dropLast_cons_of_ne_nil hne]
    refine ⟨?_, ih h⟩
    rw [List.length_dropLast, nodeDepths_length]
    rw [List.length_cons] at hlen
    omega

/-! ### The counts of the lengths (R206, R207) -/

/-- Counts of n slots at the levels 1 to maxLen whose Kraft sum is 1. -/
structure FullCounts (maxLen n : Nat) (cnt : List Nat) : Prop where
  length : cnt.length = maxLen + 1
  zero   : cnt.getD 0 0 = 0
  slots  : ∑ l ∈ Finset.range (maxLen + 1), cnt.getD l 0 = n
  kraft  : ∑ l ∈ Finset.range (maxLen + 1), cnt.getD l 0 * 2 ^ (maxLen - l) = 2 ^ maxLen

theorem getD_set (xs : List Nat) {i : Nat} (hi : i < xs.length) (v j : Nat) :
    (xs.set i v).getD j 0 = if i = j then v else xs.getD j 0 := by
  rw [List.getD_eq_getElem?_getD, List.getElem?_set, List.getD_eq_getElem?_getD]
  split_ifs <;> simp_all

theorem rootCounts_getD {maxLen : Nat} (h : 1 ≤ maxLen) (l : Nat) :
    (rootCounts maxLen).getD l 0 = if 1 = l then 2 else 0 := by
  rw [rootCounts, getD_set _ (by rw [List.length_replicate]; omega), List.getD_eq_getElem?_getD,
    List.getElem?_getD_replicate_default_eq]

theorem rootCounts_full {maxLen : Nat} (h : 1 ≤ maxLen) : FullCounts maxLen 2 (rootCounts maxLen) := by
  have hmem : 1 ∈ Finset.range (maxLen + 1) := Finset.mem_range.mpr (by omega)
  refine ⟨by simp [rootCounts], by rw [rootCounts_getD h]; rfl, ?_, ?_⟩
  · simp only [rootCounts_getD h, Finset.sum_ite_eq, if_pos hmem]
  · simp only [rootCounts_getD h, ite_mul, Nat.zero_mul, Finset.sum_ite_eq, if_pos hmem]
    rw [← pow_succ', Nat.sub_add_cancel h]

theorem freeLevel_le (cnt : List Nat) (k : Nat) : freeLevel cnt k ≤ k := by
  induction k with
  | zero => exact Nat.le_refl 0
  | succ k ih =>
    rw [freeLevel]
    split
    · exact Nat.le_succ_of_le ih
    · exact Nat.le_refl _

/-- The search stops at a level with a slot, or has found none at the levels 1 to k. -/
theorem freeLevel_found (cnt : List Nat) (k : Nat) :
    0 < cnt.getD (freeLevel cnt k) 0 ∧ freeLevel cnt k ≠ 0 ∨ ∀ l, 1 ≤ l → l ≤ k → cnt.getD l 0 = 0 := by
  induction k with
  | zero => exact .inr fun l h1 h2 => by omega
  | succ k ih =>
    rw [freeLevel]
    split
    · rename_i hzero
      refine ih.imp_right fun hall l h1 h2 => ?_
      rcases Nat.eq_or_lt_of_le h2 with rfl | hlt
      · exact hzero
      · exact hall l h1 (by omega)
    · rename_i hne
      exact .inl ⟨Nat.pos_of_ne_zero hne, Nat.succ_ne_zero k⟩

/-- With fewer than 2^(top+1) slots, not all of them lie below level top: they would not fill the code (R207). -/
theorem freeLevel_pos {maxLen n top : Nat} {cnt : List Nat} (h : FullCounts maxLen n cnt) (ht : top < maxLen)
    (hn : n < 2 ^ (top + 1)) : 0 < cnt.getD (freeLevel cnt top) 0 ∧ freeLevel cnt top ≠ 0 := by
  refine (freeLevel_found cnt top).resolve_right fun hall => ?_
  have term : ∀ l ∈ Finset.range (maxLen + 1),
      cnt.getD l 0 * 2 ^ (maxLen - l) ≤ cnt.getD l 0 * 2 ^ (maxLen - (top + 1)) := by
    intro l _
    rcases Nat.lt_or_ge top l with hl | hl
    · exact Nat.mul_le_mul_left _ (Nat.pow_le_pow_right (by decide) (by omega))
    · have hempty : cnt.getD l 0 = 0 := by
        rcases Nat.eq_zero_or_pos l with rfl | hpos
        · exact h.zero
        · exact hall l hpos hl
      rw [hempty, Nat.zero_mul, Nat.zero_mul]
  have hsum := Finset.sum_le_sum term
  rw [h.kraft, ← Finset.sum_mul, h.slots] at hsum
  have hlt : n * 2 ^ (maxLen - (top + 1)) < 2 ^ (top + 1) * 2 ^ (maxLen - (top + 1)) :=
    Nat.mul_lt_mul_of_pos_right hn (Nat.two_pow_pos _)
  rw [← Nat.pow_add, show top + 1 + (maxLen - (top + 1)) = maxLen by omega] at hlt
  omega

/-- The counts with a slot of level l split into two of level l + 1 (R206). -/
def splitAt (l : Nat) (cnt : List Nat) : List Nat :=
  let cnt := cnt.set l (cnt.getD l 0 - 1)
  cnt.set (l + 1) (cnt.getD (l + 1) 0 + 2)

theorem splitSlot_eq (maxLen d : Nat) (cnt : List Nat) :
    splitSlot maxLen d cnt = splitAt (freeLevel cnt (if maxLen ≤ d then maxLen - 1 else d)) cnt := rfl

theorem splitAt_getD {l : Nat} {cnt : List Nat} (h : l + 1 < cnt.length) (j : Nat) :
    (splitAt l cnt).getD j 0 =
      if l + 1 = j then cnt.getD j 0 + 2 else if l = j then cnt.getD j 0 - 1 else cnt.getD j 0 := by
  rw [splitAt, getD_set _ (by rw [List.length_set]; exact h), getD_set _ (by omega), getD_set _ (by omega)]
  split_ifs with h1 h2 h3
  · omega
  · rw [h1]
  · rw [h3]
  · rfl

/-- What a split does to a sum over the levels. -/
theorem splitAt_sum {l N : Nat} {cnt : List Nat} (w : Nat → Nat) (h : l + 1 < cnt.length) (hN : cnt.length = N)
    (hpos : 0 < cnt.getD l 0) :
    ∑ j ∈ Finset.range N, (splitAt l cnt).getD j 0 * w j + w l =
      ∑ j ∈ Finset.range N, cnt.getD j 0 * w j + 2 * w (l + 1) := by
  have term : ∀ j ∈ Finset.range N, (splitAt l cnt).getD j 0 * w j + (if l = j then w j else 0) =
      cnt.getD j 0 * w j + (if l + 1 = j then 2 * w j else 0) := by
    intro j _
    rw [splitAt_getD h]
    split_ifs with h1 h2 h2
    · omega
    · ring
    · subst h2
      obtain ⟨c, hc⟩ := Nat.exists_eq_succ_of_ne_zero (Nat.pos_iff_ne_zero.mp hpos)
      rw [hc, Nat.succ_sub_one, Nat.succ_mul, Nat.add_zero]
    · rfl
  have hsum := Finset.sum_congr rfl term
  rw [Finset.sum_add_distrib, Finset.sum_add_distrib, Finset.sum_ite_eq, Finset.sum_ite_eq,
    if_pos (Finset.mem_range.mpr (by omega)), if_pos (Finset.mem_range.mpr (by omega))] at hsum
  exact hsum

/-- A node below the root makes one slot more and keeps the Kraft sum (R206). -/
theorem splitSlot_full {maxLen n d : Nat} {cnt : List Nat} (h : FullCounts maxLen n cnt)
    (hn : n < 2 ^ (d + 1)) (hmax : n < 2 ^ maxLen) (h1 : 1 ≤ maxLen) :
    FullCounts maxLen (n + 1) (splitSlot maxLen d cnt) := by
  rw [splitSlot_eq]
  have htop : (if maxLen ≤ d then maxLen - 1 else d) < maxLen := by split_ifs <;> omega
  have hfew : n < 2 ^ ((if maxLen ≤ d then maxLen - 1 else d) + 1) := by
    split_ifs
    · rwa [Nat.sub_add_cancel h1]
    · exact hn
  generalize (if maxLen ≤ d then maxLen - 1 else d) = top at htop hfew
  obtain ⟨hpos, hne⟩ := freeLevel_pos h htop hfew
  have hle := freeLevel_le cnt top
  generalize freeLevel cnt top = l at hpos hne hle
  have hlen := h.length
  have hin : l + 1 < cnt.length := by omega
  refine ⟨?_, ?_, ?_, ?_⟩
  · simp only [splitAt, List.length_set]
    exact hlen
  · rw [splitAt_getD hin, if_neg (by omega), if_neg hne]
    exact h.zero
  · have hsum := splitAt_sum (fun _ => 1) hin hlen hpos
    simp only [Nat.mul_one, h.slots] at hsum
    omega
  · have hsum := splitAt_sum (fun j => 2 ^ (maxLen - j)) hin hlen hpos
    have htwice : 2 * 2 ^ (maxLen - (l + 1)) = 2 ^ (maxLen - l) := by
      rw [← pow_succ', show maxLen - (l + 1) + 1 = maxLen - l by omega]
    simp only [htwice, h.kraft] at hsum
    omega

theorem splitSlots_full {maxLen : Nat} {ds : List Nat} (h : DepthsFit ds) (h1 : 1 ≤ maxLen)
    (hmax : ds.length + 1 < 2 ^ maxLen) :
    FullCounts maxLen (ds.length + 2) (ds.foldr (splitSlot maxLen) (rootCounts maxLen)) := by
  induction ds with
  | nil => exact rootCounts_full h1
  | cons d ds ih =>
    obtain ⟨hfew, h⟩ := h
    rw [List.length_cons] at hmax
    exact splitSlot_full (ih h (by omega)) hfew (by omega) h1

/-! ### The order of the symbols (R204) -/

theorem insertKey_perm (x : Nat × Nat) (ys : List (Nat × Nat)) : (insertKey x ys).Perm (x :: ys) := by
  induction ys with
  | nil => exact .refl _
  | cons y ys ih =>
    rw [insertKey]
    split
    · exact .refl _
    · exact (ih.cons y).trans (.swap x y ys)

theorem sortSymbols_perm (f : List Nat) : (sortSymbols f).Perm (f.zip (List.range f.length)) := by
  have sorted : ∀ xs : List (Nat × Nat), (xs.foldr insertKey []).Perm xs := by
    intro xs
    induction xs with
    | nil => exact .refl _
    | cons x xs ih => exact (insertKey_perm x _).trans (ih.cons x)
  exact sorted _

/-- The order lists every symbol once. -/
theorem sortSymbols_symbols (f : List Nat) : ((sortSymbols f).map Prod.snd).Perm (List.range f.length) := by
  have h := (sortSymbols_perm f).map Prod.snd
  rwa [List.map_snd_zip (by simp)] at h

theorem sortSymbols_length (f : List Nat) : (sortSymbols f).length = f.length := by
  simpa using (sortSymbols_symbols f).length_eq

/-- The builder's counts for two or more symbols that maxLen bits can tell apart. -/
theorem huffCounts_full {maxLen : Nat} {f : List Nat} (h2 : 2 ≤ f.length) (hmax : f.length ≤ 2 ^ maxLen)
    (h1 : 1 ≤ maxLen) : FullCounts maxLen f.length (huffCounts maxLen f) := by
  have hfit : ParentsFit (f.length - 2) 0 (buildTree (f.length - 1) 0 ((sortSymbols f).map Prod.fst) []) :=
    buildTree_fits rfl (by omega) (by rw [List.length_map, sortSymbols_length]; simp; omega) (by omega)
  have hlen := parentsFit_length hfit
  rw [huffCounts, lengthCounts]
  generalize buildTree (f.length - 1) 0 ((sortSymbols f).map Prod.fst) [] = parents at hfit hlen
  have hcount : (nodeDepths 0 parents).dropLast.length + 2 = f.length := by
    rw [List.length_dropLast, nodeDepths_length]
    omega
  rw [← hcount]
  exact splitSlots_full (nodeDepths_fit hfit) h1 (by omega)

/-! ### The lengths of the symbols (R208) -/

/-- A sum over the lengths in sorted order, by levels. -/
theorem sortedLengths_sum (cnt : List Nat) (g : Nat → Nat) (m : Nat) :
    ((sortedLengths cnt m).map g).sum = ∑ l ∈ Finset.range m, cnt.getD (l + 1) 0 * g (l + 1) := by
  induction m with
  | zero => rfl
  | succ m ih =>
    rw [sortedLengths, List.map_append, List.sum_append, ih, Finset.sum_range_succ, List.map_replicate,
      List.sum_replicate, smul_eq_mul, Nat.add_comm]

theorem sortedLengths_bounds {cnt : List Nat} {m : Nat} : ∀ l ∈ sortedLengths cnt m, 1 ≤ l ∧ l ≤ m := by
  induction m with
  | zero => exact nofun
  | succ m ih =>
    rw [sortedLengths]
    intro l hl
    rcases List.mem_append.mp hl with hl | hl
    · rw [List.eq_of_mem_replicate hl]
      omega
    · have := ih l hl
      omega

/-- A sum by levels of full counts leaves out level 0. -/
theorem FullCounts.sum {maxLen n : Nat} {cnt : List Nat} (h : FullCounts maxLen n cnt) (g : Nat → Nat) :
    ((sortedLengths cnt maxLen).map g).sum = ∑ l ∈ Finset.range (maxLen + 1), cnt.getD l 0 * g l := by
  rw [sortedLengths_sum, Finset.sum_range_succ', h.zero, Nat.zero_mul, Nat.add_zero]

/-- Full counts give one length to each of their slots. -/
theorem FullCounts.sortedLengths_length {maxLen n : Nat} {cnt : List Nat} (h : FullCounts maxLen n cnt) :
    (sortedLengths cnt maxLen).length = n := by
  have hsum := h.sum fun _ => 1
  simp only [Nat.mul_one, h.slots] at hsum
  simpa using hsum

/-- Looking up the symbols in their own order gives the lengths back. -/
theorem lookup_zip_map {order ls : List Nat} (hn : order.Nodup) (hl : order.length = ls.length) :
    order.map (fun s => ((order.zip ls).lookup s).getD 0) = ls := by
  induction order generalizing ls with
  | nil => exact (List.length_eq_zero_iff.mp hl.symm).symm
  | cons s order ih =>
    cases ls with
    | nil => cases hl
    | cons l ls =>
      obtain ⟨hs, hn⟩ := List.nodup_cons.mp hn
      have rest : ∀ x ∈ order, (((s, l) :: order.zip ls).lookup x).getD 0 = ((order.zip ls).lookup x).getD 0 := by
        intro x hx
        have hne : (x == s) = false := by
          rw [beq_eq_false_iff_ne]
          rintro rfl
          exact hs hx
        rw [List.lookup_cons, hne]
      rw [List.zip_cons_cons, List.map_cons, List.map_congr_left rest, ih hn (Nat.succ.inj hl)]
      simp

/-- The lengths of the symbols are the sorted lengths in the order of the symbols. -/
theorem huffLengths_perm {maxLen : Nat} {f : List Nat} (h : FullCounts maxLen f.length (huffCounts maxLen f)) :
    (huffLengths maxLen f).Perm (sortedLengths (huffCounts maxLen f) maxLen) := by
  have horder := sortSymbols_symbols f
  have hnodup : ((sortSymbols f).map Prod.snd).Nodup := horder.nodup_iff.mpr List.nodup_range
  have hlen : ((sortSymbols f).map Prod.snd).length = (sortedLengths (huffCounts maxLen f) maxLen).length := by
    rw [h.sortedLengths_length, List.length_map, sortSymbols_length]
  have hmap := lookup_zip_map hnodup hlen
  rw [huffLengths, assignLengths]
  exact (horder.symm.map _).trans (.of_eq hmap)

theorem huffLengths_length (maxLen : Nat) (f : List Nat) : (huffLengths maxLen f).length = f.length := by
  rw [huffLengths, assignLengths, List.length_map, List.length_range]

/-! ### The codes (R209, R210) -/

theorem reverseBits_lt (v l : Nat) : reverseBits v l < 2 ^ l := by
  induction l generalizing v with
  | zero => exact Nat.one_pos
  | succ l ih =>
    have hbit : v % 2 * 2 ^ l ≤ 1 * 2 ^ l := Nat.mul_le_mul_right _ (by omega)
    have := ih (v / 2)
    rw [reverseBits, Nat.pow_succ]
    omega

/-- A symbol's code lies within its length. -/
theorem assignCodes_lt (next ls : List Nat) (x : Nat) : (assignCodes next ls).getD x 0 < 2 ^ ls.getD x 0 := by
  induction ls generalizing next x with
  | nil => exact Nat.two_pow_pos _
  | cons l ls ih =>
    rw [assignCodes]
    cases x with
    | zero => exact reverseBits_lt _ _
    | succ x => exact ih _ x

/-! ### HUFF_BUILD -/

theorem sum_range_getD (g : Nat → Nat) (xs : List Nat) :
    ∑ x ∈ Finset.range xs.length, g (xs.getD x 0) = (xs.map g).sum := by
  induction xs with
  | nil => rfl
  | cons y ys ih =>
    rw [List.length_cons, Finset.sum_range_succ', List.map_cons, List.sum_cons, ← ih, Nat.add_comm]
    rfl

/-- The builder's lengths: from 1 to maxLen, with a Kraft sum of 1 (R207, R212). -/
theorem huffLengths_complete {maxLen : Nat} {f : List Nat} (h2 : 2 ≤ f.length) (hmax : f.length ≤ 2 ^ maxLen)
    (h1 : 1 ≤ maxLen) :
    (∀ x, x < f.length → 1 ≤ (huffLengths maxLen f).getD x 0 ∧ (huffLengths maxLen f).getD x 0 ≤ maxLen) ∧
    ∑ x ∈ Finset.range f.length, 2 ^ (maxLen - (huffLengths maxLen f).getD x 0) = 2 ^ maxLen := by
  have hfull := huffCounts_full h2 hmax h1
  have hperm := huffLengths_perm hfull
  have hlen := huffLengths_length maxLen f
  constructor
  · intro x hx
    rw [List.getD_eq_getElem _ _ (by omega)]
    exact sortedLengths_bounds _ (hperm.mem_iff.mp (List.getElem_mem _))
  · rw [← hlen, sum_range_getD fun l => 2 ^ (maxLen - l), (hperm.map _).sum_eq, hfull.sum, hfull.kraft]

theorem alphabetLen_setCodes (a : Alphabet) (lens : Cells (BitVec 4)) (codes : Cells (BitVec 16)) (s : State) :
    alphabetLen a (setCodes a lens codes s) = lens := by cases a <;> rfl

theorem alphabetCode_setCodes (a : Alphabet) (lens : Cells (BitVec 4)) (codes : Cells (BitVec 16)) (s : State) :
    alphabetCode a (setCodes a lens codes s) = codes := by cases a <;> rfl

theorem alphabet_bounds (a : Alphabet) : 2 ≤ alphabetNum a ∧ alphabetNum a ≤ 2 ^ alphabetMax a ∧
    alphabetMax a ≤ 15 ∧ 1 ≤ alphabetMax a ∧ alphabetNum a ≤ alphabetSize a := by
  cases a <;> decide

theorem forcedFreqs_length (m : Cells Word) (n : Nat) : (forcedFreqs m n).length = n := by
  rw [forcedFreqs, List.length_map, List.length_range]

/-- The lengths and codes the tables hold are the builder's. -/
theorem buildCodes_entries (a : Alphabet) (s : State) {x : Nat} (hx : x < alphabetNum a) :
    let lens := huffLengths (alphabetMax a) (forcedFreqs (alphabetFreq a s) (alphabetNum a))
    codeLen a (buildCodes a s) x = lens.getD x 0 ∧ codeVal a (buildCodes a s) x < 2 ^ lens.getD x 0 := by
  obtain ⟨h2, hmax, h15, h1, hsize⟩ := alphabet_bounds a
  have hf := forcedFreqs_length (alphabetFreq a s) (alphabetNum a)
  have hbound := ((huffLengths_complete (by rw [hf]; exact h2) (by rw [hf]; exact hmax) h1).1 x (by rw [hf]; exact hx)).2
  rw [codeLen, codeVal, buildCodes, alphabetLen_setCodes, alphabetCode_setCodes, Cells.get_ofNats, Cells.get_ofNats,
    if_pos (by omega), if_pos (by omega), BitVec.toNat_ofNat, BitVec.toNat_ofNat]
  exact ⟨Nat.mod_eq_of_lt (by omega), lt_of_le_of_lt (Nat.mod_le _ _) (assignCodes_lt _ _ _)⟩

/-- A HUFF_BUILD that ends without a fault has built the alphabet's tables. -/
theorem execHuffBuild_completes {sel : BitVec 4} {a : Alphabet} {s t : State} (ha : Alphabet.ofSel sel = some a)
    (hr : s.ready = true) (h : exec (.huffBuild sel) s = .next t) (hf : t.status.fault = false) :
    t = complete (buildCodes a (accept s)) := by
  rw [exec, execHuffBuild, ha] at h
  rcases runCommand_cases h with ⟨hn, -⟩ | ⟨-, u, hu, rfl⟩ | ⟨-, c, info, -, -, rfl⟩ | ⟨-, info, -, rfl⟩
  · rw [hr] at hn
    cases hn
  · obtain ⟨_, -, hu⟩ := bind_eq_ok.mp hu
    rw [Except.ok.inj hu]
  · cases hf
  · cases hf

theorem codeLen_complete (a : Alphabet) (s : State) (x : Nat) : codeLen a (complete s) x = codeLen a s x := by
  cases a <;> rfl

theorem codeVal_complete (a : Alphabet) (s : State) (x : Nat) : codeVal a (complete s) x = codeVal a s x := by
  cases a <;> rfl

/-- Settles O29: no node below the root lacks a slot to split, each split keeps the Kraft sum of 1, and the symbols take
the lengths of the slots. -/
theorem huffCodeIsComplete : Obligations.HuffCodeIsComplete := by
  unfold Obligations.HuffCodeIsComplete
  intro sel a s t ha hr h hf
  obtain rfl := execHuffBuild_completes ha hr h hf
  obtain ⟨h2, hmax, -, h1, -⟩ := alphabet_bounds a
  have hnum := forcedFreqs_length (alphabetFreq a (accept s)) (alphabetNum a)
  have hcomplete := huffLengths_complete (maxLen := alphabetMax a)
    (f := forcedFreqs (alphabetFreq a (accept s)) (alphabetNum a)) (by omega) (by omega) h1
  rw [hnum] at hcomplete
  obtain ⟨hbounds, hkraft⟩ := hcomplete
  refine ⟨fun x hx => ?_, ?_⟩
  · obtain ⟨hlen, hval⟩ := buildCodes_entries a (accept s) hx
    rw [codeLen_complete, codeVal_complete, hlen]
    exact ⟨(hbounds x hx).1, (hbounds x hx).2, hval⟩
  · rw [← hkraft]
    refine Finset.sum_congr rfl fun x hx => ?_
    rw [codeLen_complete, (buildCodes_entries a (accept s) (Finset.mem_range.mp hx)).1]

end Sys2Proof.Proofs
end

section
/-! SUPPORT. The statements of spec/20_memory.md: which bytes of host memory a command can change, and that no step stops
the model (R80, R82, R85, R364, R396). -/

namespace Sys2Proof.Proofs

open Sys2Proof Sys2Proof.Machine Sys2Proof.Laws

/-! ### The bytes a command writes -/

@[simp] theorem outputStart_accept (i : Instr) (s : State) : outputStart i (accept s) = outputStart i s := by
  cases i <;> rfl

/-- A command starts its output at OUTPOS, or before it: COMPRESS starts over (R303). -/
theorem outputStart_le_outPos (i : Instr) (s : State) : outputStart i s ≤ s.outPos.toNat := by
  cases i with
  | compress level container => exact Nat.zero_le _
  | _ => exact Nat.le_refl _

theorem execResetState_mem {s t : State} (h : exec .resetState s = .next t) : t.mem = s.mem := by
  rw [exec, execResetState] at h
  split at h <;> cases h <;> rfl

/-- The bytes an OUT_OVERFLOW draws are output bytes from OUTPOS-at-acceptance on (R364). -/
theorem drawAfterOverflow_within {s : State} (h : regionsOk s = true) {a : Nat}
    (ha : memByte (drawAfterOverflow s).mem a ≠ memByte s.mem a) :
    s.outBase.toNat + s.outPos.toNat ≤ a ∧ a < s.outBase.toNat + s.outCap.toNat :=
  drawOutput_within h s.draws s.outPos.toNat a ha

/-- Settles O56: an ignored command, RESET_STATE and every fault but OUT_OVERFLOW keep memory; a completed body changes what
`Did` says, and an OUT_OVERFLOW draws output bytes from OUTPOS on. -/
theorem onlyTheOutputRegionIsWritten : Obligations.OnlyTheOutputRegionIsWritten := by
  unfold Obligations.OnlyTheOutputRegionIsWritten
  intro i s t a h ha
  by_cases hi : i = .resetState
  · subst hi
    exact absurd (by rw [execResetState_mem h]) ha
  · rcases exec_cases hi h with ⟨-, rfl⟩ | ⟨-, u, hu, rfl⟩ | ⟨-, c, info, -, -, rfl⟩ | ⟨-, hw, hreg, info, rfl⟩
    · exact absurd rfl ha
    · obtain ⟨hw, hreg, hstart, hend⟩ := hu.mem a ha
      rw [outputStart_accept] at hstart
      exact ⟨hw, hreg, hstart, Nat.le_of_add_right_le hstart, hend⟩
    · exact absurd rfl ha
    · obtain ⟨hpos, hend⟩ := drawAfterOverflow_within (s := accept s) hreg ha
      have hle := outputStart_le_outPos i s
      simp only [accept_outBase, accept_outPos] at hpos
      exact ⟨hw, hreg, by omega, by omega, hend⟩

/-! ### No step stops -/

theorem noStop_ne_stop {α : Type} {x : Except Trap α} (h : NoStop x) (f : Fault) : x ≠ .error (.stop f) := by
  intro hx
  obtain ⟨c, info, he, -⟩ := h _ hx
  cases he

theorem execResetState_goesOn (s : State) : GoesOn (exec .resetState s) := by
  rw [exec, execResetState]
  split <;> exact ⟨_, rfl⟩

/-- Every command goes on: its body raises only the engine's own faults. -/
theorem exec_goesOn (i : Instr) (s : State) : GoesOn (exec i s) := by
  by_cases hi : i = .resetState
  · subst hi
    exact execResetState_goesOn s
  · obtain ⟨body, he, hb⟩ := exec_runsBody hi s
    rw [he]
    exact runCommand_goesOn fun _ => noStop_ne_stop hb.noStop

theorem commandWrite_goesOn (w : Word) (s : State) : GoesOn (commandWrite w s) := by
  rw [commandWrite]
  split
  · exact exec_goesOn _ s
  · exact runCommand_goesOn fun _ _ => nofun

theorem busWrite_goesOn (offset : BitVec 8) (v : Word) (s : State) : GoesOn (busWrite offset v s) := by
  rw [busWrite]
  split
  · split
    · exact commandWrite_goesOn v s
    · split <;> exact ⟨_, rfl⟩
  · exact ⟨_, rfl⟩

theorem hostWrite_goesOn (addr : Nat) (v : Word) (s : State) : GoesOn (hostWrite addr v s) := by
  rw [hostWrite]
  split
  · exact busWrite_goesOn _ v s
  · exact ⟨_, rfl⟩

/-- Of the host's moves only a register write runs a command; every other has a next state by definition. -/
theorem hostMove_goesOn (op : HostOp) (s : State) : GoesOn (hostMove op s) := by
  cases op with
  | write32 addr v => exact hostWrite_goesOn addr v s
  | _ => exact ⟨_, rfl⟩

/-- Settles O58: no body of a command stops the model, so no CMD write does, and no other move of the host can. -/
theorem nothingStops : Obligations.NothingStops := by
  unfold Obligations.NothingStops
  refine ⟨exec_goesOn, fun s => ?_⟩
  cases hb : s.bus with
  | nil => exact ⟨s, step_of_bus_nil hb⟩
  | cons op rest =>
    rw [step_of_bus_cons hb]
    exact hostMove_goesOn op _

end Sys2Proof.Proofs
end

section
/-! SUPPORT. The statements of spec/30_encoding.md: a word decodes exactly where a row of the opcode map admits its fields, it
is then the word of its command, and any other word raises ILLEGAL_CMD (R110, R114, R116 to R119, R363). -/

namespace Sys2Proof.Proofs

open Sys2Proof Sys2Proof.Machine Sys2Proof.Laws

/-! ### The fields of a word (R110) -/

/-- A word is its four fields joined: each bit is read back from the field that holds it. -/
theorem joinWord_splitWord (w : Word) : joinWord (splitWord w) = w := by
  apply BitVec.eq_of_getLsbD_eq
  intro k hk
  simp only [joinWord, splitWord, BitVec.getLsbD_append, BitVec.getLsbD_extractLsb', BitVec.getLsbD_ofBool]
  grind

@[simp] theorem splitWord_opc_toNat (w : Word) : (splitWord w).opc.toNat = w.toNat % 256 := by
  simp [splitWord]

@[simp] theorem splitWord_sel_toNat (w : Word) : (splitWord w).sel.toNat = w.toNat / 256 % 16 := by
  simp [splitWord, Nat.shiftRight_eq_div_pow]

@[simp] theorem splitWord_flag_eq_false (w : Word) : (splitWord w).flag = false ↔ w.toNat / 4096 % 2 = 0 := by
  simp [splitWord, BitVec.getLsbD, Nat.testBit_eq_decide_div_mod_eq]

theorem splitWord_rsvd_eq_zero (w : Word) : (splitWord w).rsvd = 0 ↔ w.toNat / 8192 = 0 := by
  have := w.isLt
  rw [← BitVec.toNat_inj, splitWord, BitVec.extractLsb'_toNat, Nat.shiftRight_eq_div_pow, Nat.mod_eq_of_lt (by omega)]
  rfl

/-! ### Rows of the opcode map (R116) -/

/-- The row's command takes this SEL and FLAG: a field the row does not use is 0, and SEL is legal (R114, R118). -/
def RowAdmits (r : OpRow) (sel : BitVec 4) (flag : Bool) : Prop :=
  (r.usesSel = false → sel = 0) ∧ (r.usesFlag = false → flag = false) ∧ (r.make sel flag).wellFormed = true

/-- A row is found by its opcode, for no two rows share one. -/
theorem find_row {r : OpRow} (hr : r ∈ opcodeMap) : opcodeMap.find? (fun x => x.opc = r.opc) = some r := by
  obtain ⟨x, hx⟩ : ∃ x, opcodeMap.find? (fun x => x.opc = r.opc) = some x :=
    Option.isSome_iff_exists.mp (List.find?_isSome.mpr ⟨r, hr, by simp⟩)
  have hopc : x.opc = r.opc := by simpa using List.find?_some hx
  rw [hx, List.inj_on_of_nodup_map (f := OpRow.opc) (by decide) (List.mem_of_find?_eq_some hx) hr hopc]

/-- The command a row makes has the fields it was made of: those it does not carry are the 0 the row admits. -/
theorem fields_make {r : OpRow} (hr : r ∈ opcodeMap) {sel : BitVec 4} {flag : Bool} (h : RowAdmits r sel flag) :
    (r.make sel flag).fields = (r.opc, sel, flag) := by
  obtain ⟨hsel, hflag, -⟩ := h
  fin_cases hr <;> simp_all [Instr.fields]

/-! ### What decodes (R117) -/

/-- With the reserved bits 0 and an opcode of the map, the row alone decides. -/
theorem decode_row {w : Word} {r : OpRow} {i : Instr} (hz : (splitWord w).rsvd = 0) (hr : r ∈ opcodeMap)
    (ho : r.opc = (splitWord w).opc) :
    decode w = .ok i ↔ RowAdmits r (splitWord w).sel (splitWord w).flag ∧
      r.make (splitWord w).sel (splitWord w).flag = i := by
  simp only [decode, hz, ← ho, find_row hr, RowAdmits]
  grind

/-- A word that decodes has passed the checks of the reserved bits and of the opcode. -/
theorem row_of_decode {w : Word} {i : Instr} (h : decode w = .ok i) :
    (splitWord w).rsvd = 0 ∧ ∃ r ∈ opcodeMap, r.opc = (splitWord w).opc := by
  simp only [decode] at h
  split at h
  · cases h
  · rename_i hz
    split at h
    · cases h
    · rename_i r hf
      exact ⟨not_not.mp hz, r, List.mem_of_find?_eq_some hf, by simpa using List.find?_some hf⟩

/-- A word decodes exactly to what the row of its opcode makes of its SEL and FLAG, where the row admits them. -/
theorem decode_eq_ok_iff {w : Word} {i : Instr} :
    decode w = .ok i ↔ (splitWord w).rsvd = 0 ∧ ∃ r ∈ opcodeMap, r.opc = (splitWord w).opc ∧
      RowAdmits r (splitWord w).sel (splitWord w).flag ∧ r.make (splitWord w).sel (splitWord w).flag = i := by
  constructor
  · intro h
    obtain ⟨hz, r, hr, ho⟩ := row_of_decode h
    exact ⟨hz, r, hr, ho, (decode_row hz hr ho).mp h⟩
  · rintro ⟨hz, r, hr, ho, hadmit⟩
    exact (decode_row hz hr ho).mpr hadmit

/-- A word decodes exactly where the row of its opcode admits its SEL and FLAG. -/
theorem decodes_iff {w : Word} : (∃ i, decode w = .ok i) ↔
    (splitWord w).rsvd = 0 ∧ ∃ r ∈ opcodeMap, r.opc = (splitWord w).opc ∧
      RowAdmits r (splitWord w).sel (splitWord w).flag := by
  simp only [decode_eq_ok_iff]
  grind

/-- Every command's word decodes to it, or is refused for its SEL: the family RoundTrip, for all constructors. -/
theorem decode_encode (i : Instr) : RoundTrip.Statement i := by
  cases i with
  | nop => exact RoundTrip.nop
  | resetState => exact RoundTrip.resetState
  | bound => exact RoundTrip.bound
  | compress level container => exact RoundTrip.compress level container
  | bwReset => exact RoundTrip.bwReset
  | bwEmit => exact RoundTrip.bwEmit
  | bwPad => exact RoundTrip.bwPad
  | adlerUpdate => exact RoundTrip.adlerUpdate
  | hcReset => exact RoundTrip.hcReset
  | hcInsert => exact RoundTrip.hcInsert
  | findMatch => exact RoundTrip.findMatch
  | huffBuild sel => exact RoundTrip.huffBuild sel
  | rleEncode => exact RoundTrip.rleEncode
  | freqClear => exact RoundTrip.freqClear
  | freqSeed => exact RoundTrip.freqSeed
  | blkHeader bfinal => exact RoundTrip.blkHeader bfinal
  | emitLit => exact RoundTrip.emitLit
  | emitMatch => exact RoundTrip.emitMatch
  | emitEob => exact RoundTrip.emitEob
  | emitTerminator => exact RoundTrip.emitTerminator
  | emitZheader => exact RoundTrip.emitZheader
  | emitTrailer => exact RoundTrip.emitTrailer
  | tblRead sel => exact RoundTrip.tblRead sel
  | tblWrite sel => exact RoundTrip.tblWrite sel

/-- Settles O1: each constructor's round trip, whose well-formed side is the command itself. -/
theorem decodeOfEncode : Obligations.DecodeOfEncode := by
  unfold Obligations.DecodeOfEncode
  exact fun i hi => (decode_encode i).trans (if_pos hi)

/-- Settles O2: the fields of the decoded command are the word's own, and a word is its fields joined. -/
theorem decodedWordIsItsEncoding : Obligations.DecodedWordIsItsEncoding := by
  unfold Obligations.DecodedWordIsItsEncoding
  intro w i h
  obtain ⟨hz, r, hr, ho, hadmit, rfl⟩ := decode_eq_ok_iff.mp h
  have ⟨_, _, hwf⟩ := hadmit
  refine ⟨hwf, ?_⟩
  rw [encode, fields_make hr hadmit, ho, ← hz]
  exact joinWord_splitWord w

/-- Settles O3: a word decodes where some row admits its fields; the rows are the listed opcodes, each with its fields. -/
theorem legalWordsAreTheOpcodeMaps : Obligations.LegalWordsAreTheOpcodeMaps := by
  unfold Obligations.LegalWordsAreTheOpcodeMaps
  intro w opc sel flag
  rw [decodes_iff, splitWord_rsvd_eq_zero]
  refine and_congr_right fun _ => ?_
  simp only [opcodeMap, List.cons_append, List.nil_append, List.mem_cons, List.not_mem_nil, or_false, exists_eq_or_imp,
    ↓existsAndEq, RowAdmits, Instr.wellFormed, WellFormed.alphabetSel, WellFormed.tableSel, ← BitVec.toNat_inj,
    splitWord_opc_toNat, splitWord_sel_toNat, splitWord_flag_eq_false]
  grind

/-- Settles O4, by evaluating the decoder on each word. -/
theorem sampleWordsDecode : Obligations.SampleWordsDecode := by
  unfold Obligations.SampleWordsDecode
  decide

/-! ### A word that is no command (R119) -/

theorem commandWrite_of_no_command {w : Word} {s : State} (hw : ∀ i, decode w ≠ .ok i) :
    commandWrite w s = illegalCommand w s := by
  rw [commandWrite]
  split
  · rename_i i hi
    exact absurd hi (hw i)
  · rfl

/-- Settles O6: the write at P_REG_BASE is a CMD write, and a ready engine faults on a word that is no command. -/
theorem illegalWordRaisesIllegalCmd : Obligations.IllegalWordRaisesIllegalCmd := by
  unfold Obligations.IllegalWordRaisesIllegalCmd
  intro s w rest hbus hready hw
  calc step s
      = hostMove (.write32 s.params.regBase w) { s with bus := rest } := step_of_bus_cons hbus
    _ = commandWrite w { s with bus := rest } := hostWrite_base w { s with bus := rest }
    _ = illegalCommand w { s with bus := rest } := commandWrite_of_no_command hw
    _ = .next (faulted .illegalCmd w { s with bus := rest }) := illegalCommand_ready hready

end Sys2Proof.Proofs
end

section
/-! SUPPORT. The bit writer's three commands: BW_RESET, BW_EMIT and BW_PAD (R142 to R146). -/

namespace Sys2Proof.Proofs

open Sys2Proof Sys2Proof.Machine Sys2Proof.Laws

/-! ### BW_RESET (R142) -/

/-- Settles O19: the body only drops the bits and the count, and it cannot fail. -/
theorem bwResetEffect : Obligations.BwResetEffect := by
  unfold Obligations.BwResetEffect
  refine ⟨by decide, fun s h => ?_⟩
  calc exec .bwReset s
      = runCommand (fun a => .ok (resetWriter a)) s := by rw [exec, execBwReset]
    _ = .next (complete (resetWriter (accept s))) := runCommand_completes h rfl

/-! ### BW_EMIT (R141, R143) -/

theorem emitFits_iff {n : Nat} {s : State} : emitFits n s = true ↔ n ≤ 32 ∧ s.bitCnt.toNat + n ≤ 32 := by
  simp [emitFits]

/-- What one Emit within the capacity does. A field may have 32 bits here, where in `emitAll_spec` it has at most 25. -/
theorem emit_spec {code n : Nat} {s : State} (hl : WriterLegal s) (h : s.outBase.toNat + s.outCap.toNat ≤ 2 ^ 32)
    (hf : emitFits n s = true) :
    (HasRoom s [(code, n)] → ∃ t, emit code n s = .ok t ∧ Appended s t [(code, n)]) ∧
    (¬HasRoom s [(code, n)] →
      emit code n s = .error (.raise .outOverflow (word (max s.outPos.toNat s.outCap.toNat)))) := by
  obtain ⟨hn, hcnt⟩ := emitFits_iff.mp hf
  have hbytes : streamBytes s [(code, n)] = (s.bitCnt.toNat + n) / 8 := rfl
  refine ⟨fun hroom => ⟨_, emit_ok h hn hcnt (hbytes ▸ hroom), (flushed_appended hl hroom).1⟩, fun hfull => ?_⟩
  rw [HasRoom, hbytes] at hfull
  exact emit_full h hn hcnt (by omega) (by omega)

theorem runEmitter_of_regionsOk {body : State → Except Trap State} {s : State} (hr : regionsOk s = true) :
    runEmitter body s = runCommand body s := by
  simp only [runEmitter, runCommand, regionCheck_accept, regionCheck_ok.mpr hr, bind_ok]

/-- A command that appends the fields where they have room, overflows at the first offset without room where they do
not, and counts no symbol. -/
theorem runCommand_appends {i : Instr} {body : State → Except Trap State} {s : State} {fields : List (Nat × Nat)}
    (he : exec i s = runCommand body s) (h : s.ready = true) (hr : regionsOk s = true)
    (hroom : HasRoom s fields →
      ∃ t, body (accept s) = .ok t ∧ WriterOnly (accept s) t ∧ Appended (accept s) t fields)
    (hfull : ¬HasRoom s fields →
      body (accept s) = .error (.raise .outOverflow (word (max s.outPos.toNat s.outCap.toNat)))) :
    EmitsFields i s fields [] [] := by
  refine ⟨fun hfits => ?_, fun hshort => ?_⟩
  · obtain ⟨t, ht, hframe, happ⟩ := hroom hfits
    have hlit : t.freqLit = s.freqLit := by rw [hframe]; rfl
    have hdist : t.freqDist = s.freqDist := by rw [hframe]; rfl
    refine ⟨complete t, he.trans (runCommand_completes h ht), ?_, happ, by simp [Counted, hlit, hdist]⟩
    unfold WriterOnly at hframe
    rw [hframe]
    rfl
  · refine ⟨_, he.trans (runCommand_overflows h (hfull hshort)), rfl, rfl, rfl, rfl,
      overflow_hostOwned _ (accept s), fun a ha => ?_⟩
    exact memByte_drawAfterOverflow (s := accept s) hr _ ha

/-- BW_EMIT with legal regions is one check and one Emit (R143). -/
theorem execBwEmit_of_regionsOk {s : State} (hr : regionsOk s = true) :
    exec .bwEmit s = runCommand (fun a => do
      check (emitFits a.arg1.toNat a) .bwCapacity a.arg1
      emit a.arg0.toNat a.arg1.toNat a) s := by
  rw [exec, execBwEmit, runEmitter_of_regionsOk hr]

theorem execBwEmit_capacity {s : State} (h : s.ready = true) (hr : regionsOk s = true)
    (hf : emitFits s.arg1.toNat s = false) : exec .bwEmit s = .next (faulted .bwCapacity s.arg1 s) := by
  rw [execBwEmit_of_regionsOk hr]
  have hfit : emitFits (accept s).arg1.toNat (accept s) = false := hf
  refine runCommand_faults h ?_ (by decide)
  rw [hfit, check_false, bind_error, accept_arg1]

theorem execBwEmit_emits {s : State} (h : s.ready = true) (hr : regionsOk s = true) (hl : WriterLegal s)
    (hf : emitFits s.arg1.toNat s = true) : EmitsFields .bwEmit s [(s.arg0.toNat, s.arg1.toNat)] [] [] := by
  have hfit : emitFits (accept s).arg1.toNat (accept s) = true := hf
  obtain ⟨hroom, hfull⟩ := emit_spec (s := accept s) (code := s.arg0.toNat) hl (regionsOk_out hr) hfit
  refine runCommand_appends (execBwEmit_of_regionsOk hr) h hr (fun hfits => ?_) fun hshort => ?_
  · obtain ⟨t, ht, happ⟩ := hroom hfits
    exact ⟨t, by rw [hfit, check_true, bind_ok]; exact ht, emit_frame ht, happ⟩
  · rw [hfit, check_true, bind_ok]
    exact hfull hshort

/-- Settles O20: the region check comes first and the capacity check next, and past both the command is one Emit. -/
theorem bwEmitAppendsTheBits : Obligations.BwEmitAppendsTheBits := by
  unfold Obligations.BwEmitAppendsTheBits
  refine ⟨by decide, fun s h => ⟨fun n hn => ?_, fun hr hbad => ?_, fun hr hl hn hcnt => ?_⟩⟩
  · rw [exec, execBwEmit, runEmitter_region h hn]
  · refine execBwEmit_capacity h hr ?_
    rw [Bool.eq_false_iff, ne_eq, emitFits_iff]
    omega
  · exact execBwEmit_emits h hr hl (emitFits_iff.mpr ⟨hn, hcnt⟩)

/-! ### BW_PAD (R144, R146) -/

theorem fieldsValue_padFields (s : State) : fieldsValue (padFields s) = 0 := by
  unfold padFields
  split <;> simp [fieldsValue]

/-- The padding completes the byte of the pending bits, if there is one. -/
theorem pending_add_padFields {s : State} (hl : WriterLegal s) :
    s.bitCnt.toNat + fieldsWidth (padFields s) = 8 * streamBytes s (padFields s) := by
  have hpending := hl.1
  unfold streamBytes padFields
  split <;> simp only [fieldsWidth] <;> omega

/-- Padding leaves no pending bits. -/
theorem appended_padFields_empties {s t : State} (hl : WriterLegal s) (h : Appended s t (padFields s)) :
    t.bitCnt = 0 ∧ t.bitBuf = 0 := by
  obtain ⟨-, hcnt, hbuf, -, -⟩ := h
  have hwhole := pending_add_padFields hl
  have hsmall : streamValue s (padFields s) < 2 ^ (8 * streamBytes s (padFields s)) := by
    rw [streamValue, fieldsValue_padFields, Nat.zero_mul, Nat.add_zero]
    exact hl.2.trans_le (Nat.pow_le_pow_right (by decide) (by omega))
  rw [hwhole, Nat.mul_mod_right] at hcnt
  rw [Nat.div_eq_of_lt hsmall] at hbuf
  exact ⟨BitVec.eq_of_toNat_eq hcnt, BitVec.eq_of_toNat_eq hbuf⟩

/-- Settles O21: Pad emits `padFields`, which complete a whole number of bytes. -/
theorem bwPadFillsTheByte : Obligations.BwPadFillsTheByte := by
  unfold Obligations.BwPadFillsTheByte
  refine ⟨by decide, fun s h => ?_⟩
  have hexec : exec .bwPad s = runEmitter pad s := by rw [exec, execBwPad]
  refine ⟨fun n hn => hexec.trans (runEmitter_region h hn), fun hr hl => ?_⟩
  have hbody : pad (accept s) = emitAll (padFields s) (accept s) >>= fun t => .ok (id t) := by
    rw [pad_eq]
    exact (bind_pure _).symm
  have hemits : EmitsFields .bwPad s (padFields s) [] [] :=
    runEmitter_emits hexec hbody counts_none h hr hl (padFields_width s)
  refine ⟨hemits, fun t ht hroom => ?_⟩
  obtain ⟨u, hu, -, happ, -⟩ := hemits.1 hroom
  obtain rfl : u = t := Host.Outcome.next.inj (hu.symm.trans ht)
  exact appended_padFields_empties hl happ

end Sys2Proof.Proofs
end

section
/-! SUPPORT. The checksum unit: the closed form of AdlerStep, and ADLER_UPDATE (R160 to R162). -/

namespace Sys2Proof.Proofs

open Sys2Proof Sys2Proof.Machine Sys2Proof.Laws

/-! ### The two lanes (R160) -/

theorem adlerLanes_append (s1 s2 : Nat) (xs ys : List Byte) :
    adlerLanes s1 s2 (xs ++ ys) = adlerLanes (adlerLanes s1 s2 xs).1 (adlerLanes s1 s2 xs).2 ys := by
  induction xs generalizing s1 s2 with
  | nil => rfl
  | cons b xs ih => simp only [List.cons_append, adlerLanes, ih]

/-- The lanes stay halves of a word. They can start at or above the modulus, so the bound is not the modulus. -/
theorem adlerLanes_lt {s1 s2 : Nat} (h1 : s1 < 2 ^ 16) (h2 : s2 < 2 ^ 16) (bs : List Byte) :
    (adlerLanes s1 s2 bs).1 < 2 ^ 16 ∧ (adlerLanes s1 s2 bs).2 < 2 ^ 16 := by
  induction bs generalizing s1 s2 with
  | nil => exact ⟨h1, h2⟩
  | cons b bs ih =>
    have reduced (n : Nat) : n % adlerMod < 2 ^ 16 := (Nat.mod_lt n (by decide)).trans (by decide)
    exact ih (reduced _) (reduced _)

/-- One more term raises the weight of each term by one. -/
theorem sum_weights_succ (f : Nat → Nat) (n : Nat) :
    ∑ i ∈ Finset.range (n + 1), (n + 1 - i) * f i =
      ∑ i ∈ Finset.range n, (n - i) * f i + ∑ i ∈ Finset.range (n + 1), f i := by
  have raise : ∑ i ∈ Finset.range n, (n + 1 - i) * f i = ∑ i ∈ Finset.range n, ((n - i) * f i + f i) := by
    refine Finset.sum_congr rfl fun i hi => ?_
    rw [Nat.succ_sub (Finset.mem_range.mp hi).le, Nat.succ_mul]
  rw [Finset.sum_range_succ, raise, Finset.sum_add_distrib, Finset.sum_range_succ f, Nat.add_sub_cancel_left]
  omega

/-- The closed form of R162. It needs a byte: over none, a lane that starts at or above the modulus is not reduced. -/
theorem adlerLanes_closed (s1 s2 : Nat) (f : Nat → Byte) (n : Nat) :
    adlerLanes s1 s2 ((List.range (n + 1)).map f) =
      ((s1 + ∑ i ∈ Finset.range (n + 1), (f i).toNat) % adlerMod,
        (s2 + (n + 1) * s1 + ∑ i ∈ Finset.range (n + 1), (n + 1 - i) * (f i).toNat) % adlerMod) := by
  induction n with
  | zero => simp [adlerLanes, Nat.add_assoc]
  | succ n ih =>
    rw [List.range_succ, List.map_append, adlerLanes_append, ih, sum_weights_succ _ (n + 1),
      Finset.sum_range_succ _ (n + 1)]
    simp only [List.map_cons, List.map_nil, adlerLanes, Nat.mod_add_mod, Nat.add_mod_mod, Prod.mk.injEq]
    constructor
    · rw [Nat.add_assoc]
    · congr 1
      ring

/-! ### AdlerStep (R160) -/

/-- AdlerStep packs its two lanes without loss. -/
theorem adlerStep_toNat (a : Word) (bs : List Byte) :
    (adlerStep a bs).toNat =
      (adlerLanes (a.toNat % 2 ^ 16) (a.toNat / 2 ^ 16) bs).2 * 2 ^ 16 +
        (adlerLanes (a.toNat % 2 ^ 16) (a.toNat / 2 ^ 16) bs).1 := by
  obtain ⟨h1, h2⟩ := adlerLanes_lt (s1 := a.toNat % 2 ^ 16) (s2 := a.toNat / 2 ^ 16)
    (Nat.mod_lt _ (by decide)) (by omega) bs
  exact word_toNat_of_lt (by omega)

theorem adlerStep_nil (a : Word) : adlerStep a [] = a := by
  refine BitVec.eq_of_toNat_eq ?_
  rw [adlerStep_toNat]
  exact Nat.div_add_mod' a.toNat (2 ^ 16)

theorem adlerStep_append (a : Word) (xs ys : List Byte) :
    adlerStep a (xs ++ ys) = adlerStep (adlerStep a xs) ys := by
  obtain ⟨hlow, -⟩ := adlerLanes_lt (s1 := a.toNat % 2 ^ 16) (s2 := a.toNat / 2 ^ 16)
    (Nat.mod_lt _ (by decide)) (by omega) xs
  have low : (adlerStep a xs).toNat % 2 ^ 16 = (adlerLanes (a.toNat % 2 ^ 16) (a.toNat / 2 ^ 16) xs).1 := by
    rw [adlerStep_toNat]
    omega
  have high : (adlerStep a xs).toNat / 2 ^ 16 = (adlerLanes (a.toNat % 2 ^ 16) (a.toNat / 2 ^ 16) xs).2 := by
    rw [adlerStep_toNat]
    omega
  rw [adlerStep, adlerStep, adlerLanes_append, low, high]

/-! ### ADLER_UPDATE (R161) -/

/-- The input bytes at the positions k to k + n - 1. -/
def inputRange (s : State) (k n : Nat) : List Byte := (List.range n).map (fun i => inputAt s (k + i))

theorem inputRange_append (s : State) (k m n : Nat) :
    inputRange s k m ++ inputRange s (k + m) n = inputRange s k (m + n) := by
  simp [inputRange, List.range_add, Nat.add_assoc]

theorem execAdlerUpdate_region {s : State} (h : s.ready = true) : FaultsOnRegion .adlerUpdate s := by
  intro n hn
  rw [exec, execAdlerUpdate]
  refine runCommand_faults h ?_ (by decide)
  rw [regionCheck_accept, regionCheck_fails hn, bind_error]

/-- With legal regions ADLER_UPDATE is the two checks of its range and one AdlerStep. -/
theorem execAdlerUpdate_of_regionsOk {s : State} (hr : regionsOk s = true) :
    exec .adlerUpdate s = runCommand (fun a => do
      check (decide (a.arg0.toNat ≤ a.inLen.toNat)) .badArg 0
      check (decide (a.arg1.toNat ≤ a.inLen.toNat - a.arg0.toNat)) .badArg 1
      let bs ← inputBytes a a.arg0.toNat a.arg1.toNat
      .ok { a with adler := adlerStep a.adler bs }) s := by
  rw [exec, execAdlerUpdate]
  simp only [runCommand, regionCheck_accept, regionCheck_ok.mpr hr, bind_ok]

theorem execAdlerUpdate_start {s : State} (h : s.ready = true) (hr : regionsOk s = true)
    (hk : s.inLen.toNat < s.arg0.toNat) : exec .adlerUpdate s = .next (faulted .badArg 0 s) := by
  rw [execAdlerUpdate_of_regionsOk hr]
  refine runCommand_faults h ?_ (by decide)
  rw [accept_arg0, accept_inLen, decide_eq_false (by omega), check_false, bind_error]

theorem execAdlerUpdate_count {s : State} (h : s.ready = true) (hr : regionsOk s = true)
    (hk : s.arg0.toNat ≤ s.inLen.toNat) (hn : s.inLen.toNat < s.arg0.toNat + s.arg1.toNat) :
    exec .adlerUpdate s = .next (faulted .badArg 1 s) := by
  rw [execAdlerUpdate_of_regionsOk hr]
  refine runCommand_faults h ?_ (by decide)
  rw [accept_arg0, accept_arg1, accept_inLen, decide_eq_true hk, check_true, bind_ok, decide_eq_false (by omega),
    check_false, bind_error]

/-- Past its pre-checks ADLER_UPDATE continues ADLER over its range and changes nothing else. -/
theorem execAdlerUpdate_completes {s : State} (h : s.ready = true) (hr : regionsOk s = true)
    (hn : s.arg0.toNat + s.arg1.toNat ≤ s.inLen.toNat) :
    exec .adlerUpdate s = .next { s with
      status := okStatus s.status, adler := adlerStep s.adler (inputRange s s.arg0.toNat s.arg1.toNat) } := by
  rw [execAdlerUpdate_of_regionsOk hr]
  refine runCommand_completes (t := { accept s with
    adler := adlerStep s.adler (inputRange s s.arg0.toNat s.arg1.toNat) }) h ?_
  have hbytes : inputBytes (accept s) s.arg0.toNat s.arg1.toNat = .ok (inputRange s s.arg0.toNat s.arg1.toNat) :=
    inputBytes_ok (s := accept s) hr _ _ hn
  rw [accept_arg0, accept_arg1, accept_inLen, decide_eq_true (by omega), check_true, bind_ok,
    decide_eq_true (by omega), check_true, bind_ok, hbytes]
  rfl

theorem adlerStep_inputRange_closed (a : Word) (s : State) (k : Nat) {n : Nat} (hn : 0 < n) :
    (adlerStep a (inputRange s k n)).toNat =
      (a.toNat / 65536 + n * (a.toNat % 65536) +
          ∑ i ∈ Finset.range n, (n - i) * (inputAt s (k + i)).toNat) % 65521 * 65536 +
        (a.toNat % 65536 + ∑ i ∈ Finset.range n, (inputAt s (k + i)).toNat) % 65521 := by
  obtain ⟨m, rfl⟩ := Nat.exists_eq_add_one.mpr hn
  rw [adlerStep_toNat, inputRange, adlerLanes_closed]
  rfl

/-- Updates over m bytes and then over the n bytes after them give the checksum of one update over the m + n bytes. -/
theorem execAdlerUpdate_adjacent {s t : State} {m n : Word} (h : s.ready = true) (hr : regionsOk s = true)
    (hfit : s.arg0.toNat + m.toNat + n.toNat ≤ s.inLen.toNat)
    (ht : exec .adlerUpdate { s with arg1 := m } = .next t) :
    ∃ u v, exec .adlerUpdate { s with arg0 := s.arg0 + m, arg1 := n, adler := t.adler } = .next u ∧
      exec .adlerUpdate { s with arg1 := m + n } = .next v ∧ u.adler = v.adler := by
  have hstart : (s.arg0 + m).toNat = s.arg0.toNat + m.toNat := BitVec.toNat_add_of_lt (by omega)
  have hcount : (m + n).toNat = m.toNat + n.toNat := BitVec.toNat_add_of_lt (by omega)
  obtain rfl := Host.Outcome.next.inj
    ((execAdlerUpdate_completes (s := { s with arg1 := m }) h hr (by simp only; omega)).symm.trans ht)
  refine ⟨_, _, execAdlerUpdate_completes h hr (by simp only; omega),
    execAdlerUpdate_completes h hr (by simp only; omega), ?_⟩
  calc adlerStep (adlerStep s.adler (inputRange s s.arg0.toNat m.toNat)) (inputRange s (s.arg0 + m).toNat n.toNat)
      = adlerStep s.adler (inputRange s s.arg0.toNat m.toNat ++ inputRange s (s.arg0.toNat + m.toNat) n.toNat) := by
        rw [adlerStep_append, hstart]
    _ = adlerStep s.adler (inputRange s s.arg0.toNat (m + n).toNat) := by rw [inputRange_append, hcount]

/-- Settles O22: past the pre-checks the command is one AdlerStep, which has the closed form of R162 and splits along
the bytes it reads. -/
theorem adlerUpdateEffect : Obligations.AdlerUpdateEffect := by
  unfold Obligations.AdlerUpdateEffect
  refine ⟨by decide, fun s h => ⟨execAdlerUpdate_region h, fun hr => execAdlerUpdate_start h hr,
    fun hr => execAdlerUpdate_count h hr, fun hr hfit => ⟨_, execAdlerUpdate_completes h hr hfit, rfl, fun hn => ?_,
      adlerStep_inputRange_closed s.adler s s.arg0.toNat⟩⟩, fun s t m n => execAdlerUpdate_adjacent⟩
  simp only [hn]
  exact adlerStep_nil s.adler

end Sys2Proof.Proofs
end

section
/-! SUPPORT. The match finder's commands: HC_RESET, HC_INSERT and FIND_MATCH, the closed form of a candidate's
examination, and the search as the best match over its chain (R172 to R179). -/

namespace Sys2Proof.Proofs

open Sys2Proof Sys2Proof.Machine Sys2Proof.Laws

/-! ### Pre-checks (R83, R174, R178) -/

theorem runCommand_region {body : State → Except Trap State} {s : State} {n : Word} (h : s.ready = true)
    (hf : FailsRegion s n) :
    runCommand (fun a => do regionCheck a; body a) s = .next (faulted .badRegion n s) :=
  runEmitter_region h hf

theorem runCommand_of_regionsOk {body : State → Except Trap State} {s : State} (hr : regionsOk s = true) :
    runCommand (fun a => do regionCheck a; body a) s = runCommand body s :=
  runEmitter_of_regionsOk hr

/-- A command that begins with a check goes on with the rest of its body, or ends in the check's fault. -/
theorem runCommand_check {ok : State → Bool} {c : Cause} {info : Word} {body : State → Except Trap State} {s : State}
    (h : s.ready = true) (hc : c ≠ .outOverflow) :
    runCommand (fun a => do check (ok a) c info; body a) s =
      if ok (accept s) = true then runCommand body s else .next (faulted c info s) := by
  cases hok : ok (accept s) with
  | true => rw [if_pos rfl, runCommand_ready h, runCommand_ready h, hok, check_true, bind_ok]
  | false =>
    rw [if_neg Bool.false_ne_true]
    exact runCommand_faults h (by rw [hok, check_false, bind_error]) hc

theorem positionFits_iff {p : Word} {s : State} : positionFits p s = true ↔ p.toNat + 4 ≤ s.inLen.toNat := by
  simp only [positionFits, Bool.and_eq_true, decide_eq_true_eq]
  omega

theorem maxLenFits_iff {s : State} :
    maxLenFits s = true ↔ 4 ≤ s.arg2.toNat ∧ s.arg2.toNat ≤ 258 ∧ s.arg2.toNat ≤ s.inLen.toNat - s.arg0.toNat := by
  simp [maxLenFits, and_assoc]

@[simp] theorem bucketAt_accept (s : State) (p : Nat) : bucketAt (accept s) p = bucketAt s p := rfl

/-! ### HC_RESET (R172) -/

/-- Settles O23: the body only empties HEAD and cannot fail, and an entry of the empty table is NIL. -/
theorem hcResetEffect : Obligations.HcResetEffect := by
  unfold Obligations.HcResetEffect
  refine ⟨by decide, fun s h => ⟨complete (resetHead (accept s)), ?_, rfl, fun _ => rfl⟩⟩
  rw [exec, execHcReset]
  exact runCommand_completes h rfl

/-! ### HC_INSERT (R173, R174) -/

theorem execHcInsert_region {s : State} (h : s.ready = true) : FaultsOnRegion .hcInsert s := by
  intro n hn
  rw [exec, execHcInsert]
  exact runCommand_region h hn

/-- With legal regions HC_INSERT is the check of its position and one Insert. -/
theorem execHcInsert_eq {s : State} (h : s.ready = true) (hr : regionsOk s = true) :
    exec .hcInsert s =
      if s.arg0.toNat + 4 ≤ s.inLen.toNat then
        runCommand (fun a => insertPos a.arg0.toNat a) s
      else .next (faulted .badArg 0 s) := by
  rw [exec, execHcInsert, runCommand_of_regionsOk hr, runCommand_check h (by decide)]
  simp only [positionFits_iff, accept_arg0, accept_inLen]

/-- Past its pre-checks HC_INSERT changes one entry of HEAD and one of PREV. -/
theorem execHcInsert_completes {s : State} (h : s.ready = true) (hr : regionsOk s = true)
    (hp : s.arg0.toNat + 4 ≤ s.inLen.toNat) :
    exec .hcInsert s = .next { s with
      status := okStatus s.status
      prev := Cells.put s.prev (s.arg0.toNat % Config.win) (Cells.get Config.nil s.head (bucketAt s s.arg0.toNat))
      head := Cells.set Config.nil s.head (bucketAt s s.arg0.toNat) (word s.arg0.toNat) } := by
  rw [execHcInsert_eq h hr, if_pos hp]
  exact runCommand_completes h (insertPos_ok (s := accept s) hr hp)

/-- Settles O24: past the pre-checks the command is one Insert, and a table read after its write is `Cells.get_set` and
`Cells.find_put`. -/
theorem hcInsertEffect : Obligations.HcInsertEffect := by
  unfold Obligations.HcInsertEffect
  refine ⟨by decide, fun s h => ⟨execHcInsert_region h, fun hr hp => ?_, fun hr hp =>
    ⟨_, execHcInsert_completes h hr hp, rfl, fun b => ?_, fun j => ?_⟩⟩⟩
  · rw [execHcInsert_eq h hr, if_neg (by omega)]
  · rw [Cells.get_set]
    simp [eq_comm]
  · rw [Cells.find_put]
    simp [eq_comm, Config.win]

/-! ### The examination of a candidate (R175, R176) -/

/-- Whether the first k bytes agree decides whether a match goes on past them. -/
theorem prefixLength_add (s : State) (c p k n : Nat) :
    prefixLength s c p (k + n) =
      if prefixLength s c p k = k then k + prefixLength s (c + k) (p + k) n else prefixLength s c p k := by
  induction k generalizing c p with
  | zero => simp [prefixLength]
  | succ k ih =>
    rw [Nat.add_right_comm k 1 n, prefixLength, prefixLength]
    by_cases he : inputAt s c = inputAt s p
    · rw [if_pos he, if_pos he, ih, Nat.add_right_comm c 1 k, Nat.add_right_comm p 1 k]
      by_cases hk : prefixLength s (c + 1) (p + 1) k = k
      · rw [if_pos hk, if_pos (by omega)]
        simp only [Nat.add_assoc]
        omega
      · rw [if_neg hk, if_neg (by omega)]
    · rw [if_neg he, if_neg he, if_neg (by omega)]

/-- The cheap reject fires only for a candidate that is no longer than the best so far. -/
theorem prefixLength_le_of_differ {s : State} {c p maxLen best : Nat}
    (h : inputAt s (c + best) ≠ inputAt s (p + best)) : prefixLength s c p maxLen ≤ best := by
  by_contra hlt
  exact h (prefixLength_agree s maxLen c p best (by omega))

/-- The three steps of an examination are decided by the match length alone. -/
theorem examine_eq {s : State} {c p maxLen best : Nat} (h : regionsOk s = true) (hc : c < p)
    (hp : p + maxLen ≤ s.inLen.toNat) (h4 : 4 ≤ maxLen) (hb : best < maxLen) :
    examine s c p maxLen best = .ok (if 4 ≤ prefixLength s c p maxLen ∧ best < prefixLength s c p maxLen
      then some (prefixLength s c p maxLen) else none) := by
  have hsplit := prefixLength_add s c p 4 (maxLen - 4)
  rw [Nat.add_sub_cancel' h4] at hsplit
  rw [examine, inputByte_ok h (by omega), bind_ok, inputByte_ok h (by omega), bind_ok]
  split
  case isTrue hne =>
    have := prefixLength_le_of_differ (maxLen := maxLen) hne
    rw [if_neg (by omega)]
  case isFalse =>
    rw [matchLen_ok h _ _ _ (by omega) (by omega), bind_ok]
    split
    case isTrue hfour =>
      have := prefixLength_le s c p 4
      rw [hsplit, if_neg hfour, if_neg (by omega)]
    case isFalse hfour =>
      rw [matchLen_ok h _ _ _ (by omega) (by omega), bind_ok, hsplit, if_pos (not_not.mp hfour)]
      simp

/-- Settles O25: the match length is `prefixLength`, which splits at the four bytes of the confirming check. -/
theorem examineIsMatchLen : Obligations.ExamineIsMatchLen := by
  unfold Obligations.ExamineIsMatchLen
  intro s c p maxLen best m h hc hp h4 hb hm
  obtain rfl := isMatchLen_iff.mp hm
  exact ⟨examine_eq h hc hp h4 hb, prefixLength_le_of_differ⟩

/-! ### The search over a chain (R177) -/

/-- The best match after candidate c, from the best one before it. -/
def betterMatch (s : State) (p maxLen : Nat) (best : Nat × Nat) (c : Nat) : Nat × Nat :=
  if 4 ≤ prefixLength s c p maxLen ∧ best.1 < prefixLength s c p maxLen then (prefixLength s c p maxLen, p - c)
  else best

theorem bestOf_eq_foldl (s : State) (p maxLen : Nat) (cands : List Nat) :
    bestOf s p maxLen cands = cands.foldl (betterMatch s p maxLen) (0, 0) := rfl

/-- A match of the whole max_len cannot improve. -/
theorem foldl_betterMatch_of_maxLen {s : State} {p maxLen : Nat} {best : Nat × Nat} (h : best.1 = maxLen)
    (cands : List Nat) : cands.foldl (betterMatch s p maxLen) best = best := by
  refine List.foldl_fixed' (fun c => if_neg ?_) cands
  have := prefixLength_le s c p maxLen
  omega

theorem betterMatch_le {s : State} {p maxLen : Nat} {best : Nat × Nat} (h : best.1 ≤ maxLen) (c : Nat) :
    (betterMatch s p maxLen best c).1 ≤ maxLen := by
  unfold betterMatch
  split
  · exact prefixLength_le s c p maxLen
  · exact h

/-- One round of the candidate loop, at a valid candidate. -/
theorem walkChain_valid {p maxLen hops len off : Nat} {c : Word} {s : State} (h : regionsOk s = true)
    (h4 : 4 ≤ maxLen) (hp : p + maxLen ≤ s.inLen.toNat) (hl : len < maxLen) (hv : validCandidate c p = true) :
    walkChain p maxLen (hops + 1) c len off s =
      if (betterMatch s p maxLen (len, off) c.toNat).1 = maxLen ∨ hops = 0 then
        .ok (betterMatch s p maxLen (len, off) c.toNat, s)
      else
        walkChain p maxLen hops (readPrev (c.toNat % Config.win) s).1 (betterMatch s p maxLen (len, off) c.toNat).1
          (betterMatch s p maxLen (len, off) c.toNat).2 (readPrev (c.toNat % Config.win) s).2 := by
  obtain ⟨-, hlt, -⟩ := validCandidate_iff.mp hv
  rw [walkChain, if_pos hv, examine_eq h hlt hp h4 hl, bind_ok, betterMatch, ite_or]
  by_cases hacc : 4 ≤ prefixLength s c.toNat p maxLen ∧ len < prefixLength s c.toNat p maxLen
  · simp only [if_pos hacc, Option.some.injEq]
  · simp only [if_neg hacc, reduceCtorEq, if_neg (Nat.ne_of_lt hl), if_false]

/-- Over written PREV entries the candidate loop folds the chain and draws nothing. -/
theorem walkChain_eq_foldl {p maxLen hops len off : Nat} {c : Word} {s : State} (h : regionsOk s = true)
    (h4 : 4 ≤ maxLen) (hp : p + maxLen ≤ s.inLen.toNat) (hl : len < maxLen)
    (hw : ∀ x ∈ chainFrom s p hops c, (Cells.find s.prev (x % Config.win)).isSome = true) :
    walkChain p maxLen hops c len off s =
      .ok ((chainFrom s p hops c).foldl (betterMatch s p maxLen) (len, off), s) := by
  induction hops generalizing c len off with
  | zero => rfl
  | succ hops ih =>
    by_cases hv : validCandidate c p = true
    case neg => rw [walkChain, chainFrom, if_neg hv, if_neg hv]; rfl
    case pos =>
      rw [chainFrom, if_pos hv] at hw ⊢
      obtain ⟨v, hfind⟩ := Option.isSome_iff_exists.mp (hw _ List.mem_cons_self)
      rw [walkChain_valid h h4 hp hl hv, List.foldl_cons, readPrev_written hfind]
      rw [hfind, Option.getD_some] at hw ⊢
      have hle : (betterMatch s p maxLen (len, off) c.toNat).1 ≤ maxLen := betterMatch_le hl.le _
      by_cases hmax : (betterMatch s p maxLen (len, off) c.toNat).1 = maxLen
      · rw [if_pos (.inl hmax), foldl_betterMatch_of_maxLen hmax]
      · by_cases hlast : hops = 0
        · subst hlast
          rw [if_pos (.inr rfl)]
          rfl
        · rw [if_neg (not_or.mpr ⟨hmax, hlast⟩)]
          exact ih (lt_of_le_of_ne hle hmax) fun x hx => hw x (List.mem_cons_of_mem _ hx)

/-- FindMatch over a written chain is the best match of its candidates. -/
theorem findMatch_eq_searchResult {p depth maxLen : Nat} {s : State} (h : regionsOk s = true) (h4 : 4 ≤ maxLen)
    (hp : p + maxLen ≤ s.inLen.toNat)
    (hw : ∀ x ∈ chainFrom s p depth (Cells.get Config.nil s.head (bucketAt s p)),
      (Cells.find s.prev (x % Config.win)).isSome = true) :
    findMatch p depth maxLen s = .ok (searchResult s p depth maxLen, s) := by
  rw [findMatch, hash4_ok h (by omega), bind_ok, walkChain_eq_foldl h h4 hp (by omega) hw, searchResult, bestOf_eq_foldl]

/-! The chain and its best match are read from tables and bytes that acceptance does not touch. -/

@[simp] theorem chainFrom_accept (s : State) (p n : Nat) (c : Word) :
    chainFrom (accept s) p n c = chainFrom s p n c := by
  induction n generalizing c with
  | zero => rfl
  | succ n ih => rw [chainFrom, chainFrom, ih, accept_prev]

@[simp] theorem prefixLength_accept (s : State) (c p n : Nat) :
    prefixLength (accept s) c p n = prefixLength s c p n := by
  induction n generalizing c p with
  | zero => rfl
  | succ n ih => rw [prefixLength, prefixLength, ih, inputAt_accept, inputAt_accept]

@[simp] theorem searchResult_accept (s : State) (p depth maxLen : Nat) :
    searchResult (accept s) p depth maxLen = searchResult s p depth maxLen := by
  simp only [searchResult, bestOf, chainFrom_accept, prefixLength_accept, bucketAt_accept, accept_head]

/-! ### FIND_MATCH (R178, R179) -/

theorem execFindMatch_region {s : State} (h : s.ready = true) : FaultsOnRegion .findMatch s := by
  intro n hn
  rw [exec, execFindMatch]
  exact runCommand_region h hn

/-- With legal regions FIND_MATCH is its three checks, in the order of R178, and one search. -/
theorem execFindMatch_eq {s : State} (h : s.ready = true) (hr : regionsOk s = true) :
    exec .findMatch s =
      if s.arg0.toNat + 4 ≤ s.inLen.toNat then
        if s.arg1.toNat ≠ 0 then
          if 4 ≤ s.arg2.toNat ∧ s.arg2.toNat ≤ 258 ∧ s.arg2.toNat ≤ s.inLen.toNat - s.arg0.toNat then
            runCommand (fun a => do
              let r ← findMatch a.arg0.toNat a.arg1.toNat a.arg2.toNat a
              .ok { r.2 with res0 := word r.1.1, res1 := word r.1.2 }) s
          else .next (faulted .badArg 2 s)
        else .next (faulted .badArg 1 s)
      else .next (faulted .badArg 0 s) := by
  rw [exec, execFindMatch, runCommand_of_regionsOk hr, runCommand_check h (by decide),
    runCommand_check h (by decide), runCommand_check h (by decide)]
  simp only [positionFits_iff, maxLenFits_iff, ↓decide_eq_true_eq, accept_arg0, accept_arg1, accept_arg2, accept_inLen]

/-- Past its pre-checks FIND_MATCH gives the results of its search, which changes at most the count of open values. -/
theorem execFindMatch_completes {s u : State} {r : Nat × Nat} (h : s.ready = true) (hr : regionsOk s = true)
    (hd : s.arg1 ≠ 0) (h4 : 4 ≤ s.arg2.toNat) (hmax : s.arg2.toNat ≤ 258)
    (hp : s.arg0.toNat + s.arg2.toNat ≤ s.inLen.toNat)
    (hf : findMatch s.arg0.toNat s.arg1.toNat s.arg2.toNat (accept s) = .ok (r, u)) :
    exec .findMatch s = .next { s with
      status := okStatus s.status, res0 := word r.1, res1 := word r.2, draws := u.draws } := by
  have hu : DrawsOnly (accept s) u := findMatch_drawsOnly hf
  rw [execFindMatch_eq h hr, if_pos (by omega), if_pos (by bv_omega), if_pos (by omega),
    runCommand_completes (t := { u with res0 := word r.1, res1 := word r.2 }) h]
  · rw [hu]
    rfl
  · rw [accept_arg0, accept_arg1, accept_arg2, hf, bind_ok]

/-- The words of a true match are its numbers, so it is R179's second case. -/
theorem trueMatch_words {s : State} {p maxLen len off : Nat} (hmax : maxLen ≤ 258) (h : TrueMatch s p maxLen len off) :
    TrueMatch s p maxLen (word len).toNat (word off).toNat := by
  have ⟨_, hlen, _, hoff, _⟩ := h
  rwa [word_toNat_of_lt (by omega), word_toNat_of_lt (by omega)]

/-- Settles O26: the checks come in the order of R178, and `findMatch_spec` says what the search past them gives. -/
theorem findMatchGivesATrueMatch : Obligations.FindMatchGivesATrueMatch := by
  unfold Obligations.FindMatchGivesATrueMatch
  refine ⟨by decide, fun s h => ⟨execFindMatch_region h, fun hr hp => ?_, fun hr hp hd => ?_, fun hr hp hd hm => ?_,
    fun hr hd h4 hmax hp => ?_⟩⟩
  · rw [execFindMatch_eq h hr, if_neg (by omega)]
  · rw [execFindMatch_eq h hr, if_pos hp, if_neg (by simp [hd])]
  · rw [execFindMatch_eq h hr, if_pos hp, if_pos (by bv_omega), if_neg (by omega)]
  · obtain ⟨r, u, hf, -, hmatch⟩ := findMatch_spec (s := accept s) (depth := s.arg1.toNat) hr h4 hp
    refine ⟨_, execFindMatch_completes h hr hd h4 hmax hp hf, rfl, ?_⟩
    exact hmatch.imp (by rintro rfl; exact ⟨rfl, rfl⟩) (trueMatch_words hmax)

/-- Settles O27: over a written chain the candidate loop is the fold that defines the best match. -/
theorem findMatchIsBestOfChain : Obligations.FindMatchIsBestOfChain := by
  unfold Obligations.FindMatchIsBestOfChain
  intro s h hr hd h4 hmax hp p chain hw
  have hfind := findMatch_eq_searchResult (s := accept s) (depth := s.arg1.toNat) hr h4 hp (by
    rwa [chainFrom_accept])
  rw [searchResult_accept] at hfind
  exact execFindMatch_completes (u := accept s) h hr hd h4 hmax hp hfind

end Sys2Proof.Proofs
end

section
/-! SUPPORT. The statements of spec/44_huffman.md about the codes: Reverse mirrors bits, the codes are canonical and no
code begins another, and HUFF_BUILD writes one alphabet's tables (R201, R202, R209 to R212). -/

namespace Sys2Proof.Proofs

open Sys2Proof Sys2Proof.Machine Sys2Proof.Laws

/-! ### Reverse (R210) -/

theorem reverseBits_testBit {l i : Nat} (h : i < l) (v : Nat) :
    (reverseBits v l).testBit i = v.testBit (l - 1 - i) := by
  induction l generalizing v with
  | zero => exact absurd h (Nat.not_lt_zero i)
  | succ l ih =>
    rw [reverseBits, Nat.mul_comm, Nat.testBit_two_pow_mul_add _ (reverseBits_lt _ _)]
    split
    · rename_i hi
      rw [ih hi, Nat.testBit_div_two, show l - 1 - i + 1 = l + 1 - 1 - i by omega]
    · rw [show i - l = 0 by omega, show l + 1 - 1 - i = 0 by omega]
      simp

theorem reverseBits_testBit_of_le {l i : Nat} (h : l ≤ i) (v : Nat) : (reverseBits v l).testBit i = false :=
  Nat.testBit_lt_two_pow (lt_of_lt_of_le (reverseBits_lt v l) (Nat.pow_le_pow_right Nat.two_pos h))

/-- Settles O33, by induction on the length: bit l of Reverse(v, l + 1) is bit 0 of v, and those below it are
Reverse(v / 2, l). -/
theorem reverseBitsMirrors : Obligations.ReverseBitsMirrors := by
  unfold Obligations.ReverseBitsMirrors
  exact fun v l => ⟨reverseBits_lt v l, fun i hi => reverseBits_testBit hi v⟩

theorem reverseBits_reverseBits {v l : Nat} (h : v < 2 ^ l) : reverseBits (reverseBits v l) l = v := by
  refine Nat.eq_of_testBit_eq fun i => ?_
  rcases Nat.lt_or_ge i l with hi | hi
  · rw [reverseBits_testBit hi, reverseBits_testBit (by omega), show l - 1 - (l - 1 - i) = i by omega]
  · rw [reverseBits_testBit_of_le hi,
      Nat.testBit_lt_two_pow (lt_of_lt_of_le h (Nat.pow_le_pow_right Nat.two_pos hi))]

/-- The low bits of a reversed code are its high bits reversed. -/
theorem reverseBits_mod (v l k : Nat) : reverseBits v (l + k) % 2 ^ l = reverseBits (v / 2 ^ k) l := by
  refine Nat.eq_of_testBit_eq fun i => ?_
  rw [Nat.testBit_mod_two_pow]
  rcases Nat.lt_or_ge i l with hi | hi
  · rw [reverseBits_testBit hi, reverseBits_testBit (by omega), Nat.testBit_div_two_pow, decide_eq_true hi,
      Bool.true_and, show l - 1 - i + k = l + k - 1 - i by omega]
  · rw [reverseBits_testBit_of_le hi, decide_eq_false (by omega), Bool.false_and]

/-- In stream order a code begins another only where it is the other's high bits. -/
theorem reverseBits_mod_ne {c d l k : Nat} (hc : c < 2 ^ l) (hd : d < 2 ^ (l + k)) (h : c ≠ d / 2 ^ k) :
    reverseBits d (l + k) % 2 ^ l ≠ reverseBits c l := by
  intro heq
  rw [reverseBits_mod] at heq
  have hhigh : d / 2 ^ k < 2 ^ l := Nat.div_lt_of_lt_mul (by rwa [← Nat.pow_add, Nat.add_comm])
  have hback := congrArg (reverseBits · l) heq
  simp only [reverseBits_reverseBits hc, reverseBits_reverseBits hhigh] at hback
  exact h hback.symm

/-! ### Canonical codes (R209) -/

/-- A symbol's code before reversal, from the first code of each length and the lengths: the first of its length plus
the number of lower symbols of that length. -/
def canonicalCode (first : Nat → Nat) (ls : List Nat) (x : Nat) : Nat :=
  first (ls.getD x 0) + Nat.count (fun y => ls.getD y 0 = ls.getD x 0) x

/-- The symbol loop gives every symbol its canonical code, reversed. -/
theorem assignCodes_getD {next ls : List Nat} (h : ∀ l ∈ ls, l < next.length) {x : Nat} (hx : x < ls.length) :
    (assignCodes next ls).getD x 0 = reverseBits (canonicalCode (next.getD · 0) ls x) (ls.getD x 0) := by
  induction ls generalizing next x with
  | nil => exact absurd hx (Nat.not_lt_zero x)
  | cons l ls ih =>
    obtain ⟨hl, hls⟩ := List.forall_mem_cons.mp h
    rw [assignCodes]
    cases x with
    | zero => rfl
    | succ x =>
      rw [List.getD_cons_succ, ih (by simpa using hls) (by simpa using hx)]
      simp only [canonicalCode, List.getD_cons_succ, Nat.count_succ', List.getD_cons_zero]
      rw [getD_set _ hl]
      split
      · rename_i heq
        rw [heq, Nat.add_right_comm, Nat.add_assoc]
      · rfl

/-- The codes of lower lengths fill the code space below the first code of length l: by levels, in units of the longest
length. -/
theorem firstCode_eq_sum {maxLen n : Nat} {cnt : List Nat} (h : FullCounts maxLen n cnt) {l : Nat} (hl : l ≤ maxLen) :
    firstCode cnt l * 2 ^ (maxLen - l) = ∑ j ∈ Finset.range l, cnt.getD j 0 * 2 ^ (maxLen - j) := by
  induction l using firstCode.induct with
  | case1 => simp [firstCode]
  | case2 => rw [firstCode, Nat.zero_mul, Finset.sum_range_one, h.zero, Nat.zero_mul]
  | case3 l ih =>
    rw [Finset.sum_range_succ, ← ih (by omega), firstCode, ← Nat.add_mul,
      show maxLen - (l + 1) = maxLen - (l + 2) + 1 by omega, Nat.pow_succ']
    ring

/-- The end of the codes of length l. -/
theorem firstCode_add_count_eq_sum {maxLen n : Nat} {cnt : List Nat} (h : FullCounts maxLen n cnt) {l : Nat}
    (hl : l ≤ maxLen) : (firstCode cnt l + cnt.getD l 0) * 2 ^ (maxLen - l) =
      ∑ j ∈ Finset.range (l + 1), cnt.getD j 0 * 2 ^ (maxLen - j) := by
  rw [Finset.sum_range_succ, ← firstCode_eq_sum h hl, Nat.add_mul]

/-- The codes of a length fit in it. -/
theorem firstCode_add_count_le {maxLen n : Nat} {cnt : List Nat} (h : FullCounts maxLen n cnt) {l : Nat}
    (hl : l ≤ maxLen) : firstCode cnt l + cnt.getD l 0 ≤ 2 ^ l := by
  refine Nat.le_of_mul_le_mul_right (c := 2 ^ (maxLen - l)) ?_ (Nat.two_pow_pos _)
  rw [firstCode_add_count_eq_sum h hl, ← Nat.pow_add, Nat.add_sub_cancel' hl, ← h.kraft]
  exact Finset.sum_le_sum_of_subset (Finset.range_mono (by omega))

/-- The codes of a longer length begin where those of a shorter one have ended. -/
theorem firstCode_add_count_le_firstCode {maxLen n : Nat} {cnt : List Nat} (h : FullCounts maxLen n cnt) {l k : Nat}
    (hk : 0 < k) (hl : l + k ≤ maxLen) : (firstCode cnt l + cnt.getD l 0) * 2 ^ k ≤ firstCode cnt (l + k) := by
  refine Nat.le_of_mul_le_mul_right (c := 2 ^ (maxLen - (l + k))) ?_ (Nat.two_pow_pos _)
  rw [Nat.mul_assoc, ← Nat.pow_add, show k + (maxLen - (l + k)) = maxLen - l by omega,
    firstCode_add_count_eq_sum h (by omega), firstCode_eq_sum h hl]
  exact Finset.sum_le_sum_of_subset (Finset.range_mono (by omega))

/-- The counts are those of the lengths of n symbols. -/
def CountsOf (n : Nat) (ls cnt : List Nat) : Prop := ∀ l, Nat.count (fun y => ls.getD y 0 = l) n = cnt.getD l 0

section
variable {maxLen n : Nat} {ls cnt : List Nat} {x y : Nat}

theorem canonicalCode_lt_end (hc : CountsOf n ls cnt) (hx : x < n) :
    canonicalCode (firstCode cnt) ls x < firstCode cnt (ls.getD x 0) + cnt.getD (ls.getD x 0) 0 := by
  rw [← hc (ls.getD x 0)]
  exact Nat.add_lt_add_left (Nat.count_strict_mono (p := fun y => ls.getD y 0 = ls.getD x 0) rfl hx) _

theorem canonicalCode_lt (h : FullCounts maxLen n cnt) (hc : CountsOf n ls cnt) (hx : x < n)
    (hl : ls.getD x 0 ≤ maxLen) : canonicalCode (firstCode cnt) ls x < 2 ^ ls.getD x 0 :=
  lt_of_lt_of_le (canonicalCode_lt_end hc hx) (firstCode_add_count_le h hl)

/-- No canonical code is the high bits of another of its length or longer: of the same length they differ in their
numbers, and a longer one lies past the end of the shorter length's codes (R212). -/
theorem canonicalCode_ne_high_bits (h : FullCounts maxLen n cnt) (hc : CountsOf n ls cnt) (hx : x < n) (hne : x ≠ y)
    {k : Nat} (hk : ls.getD y 0 = ls.getD x 0 + k) (hl : ls.getD y 0 ≤ maxLen) :
    canonicalCode (firstCode cnt) ls x ≠ canonicalCode (firstCode cnt) ls y / 2 ^ k := by
  rcases Nat.eq_zero_or_pos k with rfl | hpos
  · rw [Nat.pow_zero, Nat.div_one, canonicalCode, canonicalCode, hk, Nat.add_zero]
    intro heq
    exact hne (Nat.count_injective (p := fun y => ls.getD y 0 = ls.getD x 0) rfl hk (Nat.add_left_cancel heq))
  · refine Nat.ne_of_lt (lt_of_lt_of_le (canonicalCode_lt_end hc hx) ?_)
    rw [Nat.le_div_iff_mul_le (Nat.two_pow_pos k)]
    refine (firstCode_add_count_le_firstCode h hpos (by omega)).trans ?_
    rw [canonicalCode, hk]
    exact Nat.le_add_right _ _

end

/-! ### The builder's codes -/

/-- The builder's lengths come in the numbers its counts say (R208). -/
theorem huffLengths_countsOf {maxLen : Nat} {f : List Nat} (h : FullCounts maxLen f.length (huffCounts maxLen f)) :
    CountsOf f.length (huffLengths maxLen f) (huffCounts maxLen f) := by
  intro l
  have hperm := (huffLengths_perm h).map fun j => if j = l then 1 else 0
  rw [Nat.count_eq_card_filter_range, Finset.card_filter, ← huffLengths_length maxLen f,
    sum_range_getD fun j => if j = l then 1 else 0, hperm.sum_eq, h.sum]
  simp only [mul_ite, Nat.mul_one, Nat.mul_zero, Finset.sum_ite_eq', Finset.mem_range]
  split
  · rfl
  · rw [List.getD_eq_default _ _ (by rw [h.length]; omega)]

theorem assignCodes_length (next ls : List Nat) : (assignCodes next ls).length = ls.length := by
  induction ls generalizing next with
  | nil => rfl
  | cons l ls ih => rw [assignCodes, List.length_cons, ih, List.length_cons]

theorem huffCodes_length (maxLen : Nat) (f : List Nat) : (huffCodes maxLen f).length = f.length := by
  rw [huffCodes, assignCodes_length, huffLengths_length]

/-- The builder's codes are the canonical ones of its lengths, reversed. -/
theorem huffCodes_getD {maxLen : Nat} {f : List Nat} (h : FullCounts maxLen f.length (huffCounts maxLen f)) {x : Nat}
    (hx : x < f.length) : (huffCodes maxLen f).getD x 0 =
      reverseBits (canonicalCode (firstCode (huffCounts maxLen f)) (huffLengths maxLen f) x)
        ((huffLengths maxLen f).getD x 0) := by
  have hle : ∀ l ∈ huffLengths maxLen f, l < maxLen + 1 := fun l hl =>
    Nat.lt_succ_of_le (sortedLengths_bounds l ((huffLengths_perm h).mem_iff.mp hl)).2
  have hx' : x < (huffLengths maxLen f).length := by rwa [huffLengths_length]
  have hlen : (huffLengths maxLen f).getD x 0 < maxLen + 1 := by
    rw [List.getD_eq_getElem _ _ hx']
    exact hle _ (List.getElem_mem hx')
  rw [huffCodes, assignCodes_getD (by simpa using hle) hx', canonicalCode, canonicalCode,
    List.getD_eq_getElem _ _ (by simpa using hlen), List.getElem_map, List.getElem_range]

/-! ### The tables HUFF_BUILD leaves -/

/-- The forced frequencies HUFF_BUILD works on (R203). -/
def workFreqs (a : Alphabet) (s : State) : List Nat := forcedFreqs (alphabetFreq a s) (alphabetNum a)

theorem workFreqs_eq (a : Alphabet) (s : State) : workFreqs a s =
    (List.range (alphabetNum a)).map fun x => max (Cells.get 0 (alphabetFreq a s) x).toNat 1 := rfl

@[simp] theorem workFreqs_length (a : Alphabet) (s : State) : (workFreqs a s).length = alphabetNum a :=
  forcedFreqs_length _ _

@[simp] theorem workFreqs_accept (a : Alphabet) (s : State) : workFreqs a (accept s) = workFreqs a s := by
  cases a <;> rfl

theorem workFreqs_full (a : Alphabet) (s : State) :
    FullCounts (alphabetMax a) (workFreqs a s).length (huffCounts (alphabetMax a) (workFreqs a s)) := by
  obtain ⟨h2, hmax, -, h1, -⟩ := alphabet_bounds a
  exact huffCounts_full (by rwa [workFreqs_length]) (by rwa [workFreqs_length]) h1

theorem getD_huffLengths_le (a : Alphabet) (s : State) (x : Nat) :
    (huffLengths (alphabetMax a) (workFreqs a s)).getD x 0 ≤ alphabetMax a := by
  rcases Nat.lt_or_ge x (huffLengths (alphabetMax a) (workFreqs a s)).length with hx | hx
  · rw [List.getD_eq_getElem _ _ hx]
    exact (sortedLengths_bounds _ ((huffLengths_perm (workFreqs_full a s)).mem_iff.mp (List.getElem_mem hx))).2
  · rw [List.getD_eq_default _ _ hx]
    exact Nat.zero_le _

/-- The entries of the tables: the builder's lengths and codes, cut to the entries' widths. -/
theorem buildCodes_tables (a : Alphabet) (s : State) (x : Nat) :
    Cells.get 0 (alphabetLen a (buildCodes a s)) x =
        BitVec.ofNat 4 ((huffLengths (alphabetMax a) (workFreqs a s)).getD x 0) ∧
      Cells.get 0 (alphabetCode a (buildCodes a s)) x =
        BitVec.ofNat 16 ((huffCodes (alphabetMax a) (workFreqs a s)).getD x 0) := by
  obtain ⟨-, -, -, -, hsize⟩ := alphabet_bounds a
  rw [buildCodes, alphabetLen_setCodes, alphabetCode_setCodes, Cells.get_ofNats, Cells.get_ofNats]
  split
  · exact ⟨rfl, rfl⟩
  · have hnum := workFreqs_length a s
    rw [List.getD_eq_default _ _ (by rw [huffLengths_length]; omega),
      List.getD_eq_default _ _ (by rw [huffCodes_length]; omega)]
    exact ⟨rfl, rfl⟩

theorem codeLen_buildCodes (a : Alphabet) (s : State) (x : Nat) :
    codeLen a (buildCodes a s) x = (huffLengths (alphabetMax a) (workFreqs a s)).getD x 0 := by
  obtain ⟨-, -, h15, -, -⟩ := alphabet_bounds a
  have hle := getD_huffLengths_le a s x
  rw [codeLen, (buildCodes_tables a s x).1, BitVec.toNat_ofNat, Nat.mod_eq_of_lt (by omega)]

theorem codeVal_buildCodes (a : Alphabet) (s : State) (x : Nat) :
    codeVal a (buildCodes a s) x = (huffCodes (alphabetMax a) (workFreqs a s)).getD x 0 := by
  obtain ⟨-, -, h15, -, -⟩ := alphabet_bounds a
  have hcode : (huffCodes (alphabetMax a) (workFreqs a s)).getD x 0 < 2 ^ 16 :=
    lt_of_lt_of_le (assignCodes_lt _ _ x)
      (Nat.pow_le_pow_right Nat.two_pos ((getD_huffLengths_le a s x).trans (h15.trans (by decide))))
  rw [codeVal, (buildCodes_tables a s x).2, BitVec.toNat_ofNat, Nat.mod_eq_of_lt hcode]

/-- What a HUFF_BUILD that ends without a fault leaves in the alphabet's tables. -/
theorem execHuffBuild_tables {sel : BitVec 4} {a : Alphabet} {s t : State} (ha : Alphabet.ofSel sel = some a)
    (hr : s.ready = true) (h : exec (.huffBuild sel) s = .next t) (hf : t.status.fault = false) :
    codeLen a t = (fun x => (huffLengths (alphabetMax a) (workFreqs a s)).getD x 0) ∧
      codeVal a t = fun x => (huffCodes (alphabetMax a) (workFreqs a s)).getD x 0 := by
  obtain rfl := execHuffBuild_completes ha hr h hf
  constructor
  · funext x
    rw [codeLen_complete, codeLen_buildCodes, workFreqs_accept]
  · funext x
    rw [codeVal_complete, codeVal_buildCodes, workFreqs_accept]

/-- Settles O30: the builder's codes are canonical, and the codes of a length end where those of the next begin. -/
theorem huffCodeIsPrefixFree : Obligations.HuffCodeIsPrefixFree := by
  unfold Obligations.HuffCodeIsPrefixFree
  intro sel a s t ha hr h hf
  obtain ⟨hlens, hcodes⟩ := execHuffBuild_tables ha hr h hf
  have hfull := workFreqs_full a s
  have hcounts := huffLengths_countsOf hfull
  rw [workFreqs_length] at hcounts
  have hbound := getD_huffLengths_le a s
  have hcode : ∀ x, x < alphabetNum a → (huffCodes (alphabetMax a) (workFreqs a s)).getD x 0 =
      reverseBits (canonicalCode (firstCode (huffCounts (alphabetMax a) (workFreqs a s)))
        (huffLengths (alphabetMax a) (workFreqs a s)) x) ((huffLengths (alphabetMax a) (workFreqs a s)).getD x 0) :=
    fun x hx => huffCodes_getD hfull (by rwa [workFreqs_length])
  simp only [hlens, hcodes, ← List.countP_eq_length_filter]
  refine ⟨⟨firstCode (huffCounts (alphabetMax a) (workFreqs a s)), rfl, ?_, hcode⟩, ?_⟩
  · intro l h1 _
    obtain ⟨l, rfl⟩ := Nat.exists_eq_add_of_le' h1
    rw [firstCode, ← hcounts (l + 1)]
    rfl
  · intro x y hx hy hne hle
    obtain ⟨k, hk⟩ := Nat.exists_eq_add_of_le hle
    rw [workFreqs_length] at hfull
    rw [hcode x hx, hcode y hy, hk]
    have hlt := canonicalCode_lt hfull hcounts hy (hbound y)
    rw [hk] at hlt
    exact reverseBits_mod_ne (canonicalCode_lt hfull hcounts hx (hbound x)) hlt
      (canonicalCode_ne_high_bits hfull hcounts hx hne hk (hbound y))

/-! ### HUFF_BUILD (R201, R202, R211) -/

theorem huffBuild_eq_error {a : Alphabet} {s : State} (h : 2 ^ 22 ≤ forcedSum a s) :
    huffBuild a s = .error (.raise .huffRange (word (min (forcedSum a s) (2 ^ 32 - 1)))) := by
  rw [huffBuild, decide_eq_false (Nat.not_lt.mpr h), check_false, bind_error]

/-- Acceptance, the tables and the completion change nothing but STATUS, LEN and CODE. -/
theorem complete_buildCodes_frame (a : Alphabet) (s : State) :
    { complete (buildCodes a (accept s)) with
      lenLit := s.lenLit, lenDist := s.lenDist, lenPre := s.lenPre, codeLit := s.codeLit, codeDist := s.codeDist
      codePre := s.codePre } = { s with status := okStatus s.status } := by
  cases a <;> rfl

theorem alphabetLen_complete (a : Alphabet) (s : State) : alphabetLen a (complete s) = alphabetLen a s := by
  cases a <;> rfl

theorem alphabetCode_complete (a : Alphabet) (s : State) : alphabetCode a (complete s) = alphabetCode a s := by
  cases a <;> rfl

/-- The tables of every other alphabet stay. -/
theorem complete_buildCodes_other {a y : Alphabet} (h : y ≠ a) (s : State) :
    alphabetLen y (complete (buildCodes a (accept s))) = alphabetLen y s ∧
      alphabetCode y (complete (buildCodes a (accept s))) = alphabetCode y s := by
  cases a <;> cases y <;> trivial

/-- Settles O28: past the check of the sum the body is `buildCodes`, which sets two tables to the builder's lists. -/
theorem huffBuildEffect : Obligations.HuffBuildEffect := by
  unfold Obligations.HuffBuildEffect
  refine ⟨by decide, fun sel a s ha hr => ?_⟩
  simp only [← workFreqs_eq]
  have hexec : exec (.huffBuild sel) s = runCommand (huffBuild a) s := by rw [exec, execHuffBuild, ha]
  have hsum : forcedSum a (accept s) = (workFreqs a s).sum := congrArg List.sum (workFreqs_accept a s)
  refine ⟨fun hlarge => ?_, fun hfits => ?_⟩
  · have hbody := huffBuild_eq_error (a := a) (s := accept s) (by rw [hsum]; exact hlarge)
    rw [hexec, runCommand_faults hr hbody (by decide), hsum]
  · have hbody := huffBuild_ok (a := a) (s := accept s) (by rw [hsum]; exact hfits)
    refine ⟨complete (buildCodes a (accept s)), hexec.trans (runCommand_completes hr hbody),
      complete_buildCodes_frame a s, fun y hy => complete_buildCodes_other hy s, fun x _ => ?_, fun x hx => ?_⟩
    · rw [alphabetLen_complete, alphabetCode_complete, ← workFreqs_accept]
      exact buildCodes_tables a (accept s) x
    · rw [codeLen_complete, codeVal_complete, codeLen_buildCodes, codeVal_buildCodes,
        List.getD_eq_default _ _ (by rwa [huffLengths_length, workFreqs_length]),
        List.getD_eq_default _ _ (by rwa [huffCodes_length, workFreqs_length])]
      exact ⟨rfl, rfl⟩

end Sys2Proof.Proofs
end

section
/-! SUPPORT. The builder's order, tree, counts and lengths are those of the loops R204, R205, R206 and R208 write out, and so
a more frequent symbol has no longer code (R212). -/

namespace Sys2Proof.Proofs

open Sys2Proof Sys2Proof.Machine Sys2Proof.Laws

/-! ### The order of the symbols (R204) -/

/-- The strict order of the keys: by frequency, then by symbol. -/
def KeyLt (x y : Nat × Nat) : Prop := x.1 < y.1 ∨ x.1 = y.1 ∧ x.2 < y.2

theorem keyLe_iff {x y : Nat × Nat} : keyLe x y = true ↔ x.1 < y.1 ∨ x.1 = y.1 ∧ x.2 ≤ y.2 := by simp [keyLe]

theorem keyLt_of_keyLe {x y : Nat × Nat} (h : keyLe x y = true) (hne : x.2 ≠ y.2) : KeyLt x y :=
  (keyLe_iff.mp h).imp_right fun ⟨heq, hle⟩ => ⟨heq, lt_of_le_of_ne hle hne⟩

theorem keyLe_trans {x y z : Nat × Nat} (hxy : keyLe x y = true) (hyz : keyLe y z = true) : keyLe x z = true := by
  rw [keyLe_iff] at *
  omega

theorem keyLe_of_not {x y : Nat × Nat} (h : ¬ keyLe x y = true) : keyLe y x = true := by
  rw [keyLe_iff] at *
  omega

theorem KeyLt.asymm {x y : Nat × Nat} (h : KeyLt x y) : ¬ KeyLt y x := by
  unfold KeyLt at *
  omega

theorem insertKey_pairwise {ys : List (Nat × Nat)} (x : Nat × Nat) (h : ys.Pairwise (keyLe · · = true)) :
    (insertKey x ys).Pairwise (keyLe · · = true) := by
  induction ys with
  | nil => exact List.pairwise_singleton _ x
  | cons y ys ih =>
    obtain ⟨hy, hys⟩ := List.pairwise_cons.mp h
    rw [insertKey]
    split
    · rename_i hle
      exact List.pairwise_cons.mpr ⟨List.forall_mem_cons.mpr ⟨hle, fun z hz => keyLe_trans hle (hy z hz)⟩, h⟩
    · rename_i hnot
      refine List.pairwise_cons.mpr ⟨fun z hz => ?_, ih hys⟩
      rcases List.mem_cons.mp ((insertKey_perm x ys).mem_iff.mp hz) with rfl | hz
      · exact keyLe_of_not hnot
      · exact hy z hz

/-- The order is strict, since no symbol comes twice. -/
theorem sortSymbols_pairwise (f : List Nat) : (sortSymbols f).Pairwise KeyLt := by
  have sorted : ∀ xs : List (Nat × Nat), (xs.foldr insertKey []).Pairwise (keyLe · · = true) := by
    intro xs
    induction xs with
    | nil => exact .nil
    | cons x xs ih => exact insertKey_pairwise x ih
  have hnodup : ((sortSymbols f).map Prod.snd).Nodup := (sortSymbols_symbols f).nodup_iff.mpr List.nodup_range
  exact (sorted _).imp₂ (fun _ _ => keyLt_of_keyLe) (List.pairwise_map.mp hnodup)

/-- Every symbol stands in the order with its frequency. -/
theorem mem_sortSymbols {f : List Nat} {x : Nat} (hx : x < f.length) : (f.getD x 0, x) ∈ sortSymbols f := by
  refine (sortSymbols_perm f).mem_iff.mpr (List.mem_iff_getElem.mpr ⟨x, by simpa using hx, ?_⟩)
  rw [List.getElem_zip, List.getElem_range, List.getD_eq_getElem _ _ hx]

/-! ### The tree (R205) -/

/-- The variables of BuildTree before merge e stand for the unused leaves and the unused internal nodes. -/
structure TreeAt (w : List Nat) (e : Nat) (m : TreeLoop) (ws qs : List Nat) : Prop where
  leaves : w.drop m.i = ws
  nodes  : m.iw.drop m.b = qs
  built  : m.iw.length = e
  used   : m.b ≤ e

theorem drop_eq_cons {xs ys : List Nat} {i y : Nat} (h : xs.drop i = y :: ys) :
    i < xs.length ∧ xs.getD i 0 = y ∧ xs.drop (i + 1) = ys := by
  have hi : i < xs.length := by
    by_contra hge
    rw [List.drop_eq_nil_of_le (Nat.le_of_not_lt hge)] at h
    cases h
  rw [List.drop_eq_getElem_cons hi] at h
  obtain ⟨hy, hys⟩ := List.cons.inj h
  exact ⟨hi, (List.getD_eq_getElem _ _ hi).trans hy, hys⟩

/-- The parents a pick adds at merge e. -/
def pickParents (e : Nat) (pick : Nat × Bool × List Nat × List Nat) : List Nat := if pick.2.1 then [e] else []

/-- The loop's pick at merge e, on the sum t, is a given pick of the model (R205). -/
def PicksAs (w : List Nat) (e t : Nat) (m : TreeLoop) (pick : Nat × Bool × List Nat × List Nat) : Prop :=
  ∃ m', pickOnce w e (t, m) = (t + pick.1, m') ∧ TreeAt w e m' pick.2.2.1 pick.2.2.2 ∧
    m'.parent = m.parent ++ pickParents e pick

theorem pickOnce_leaf {w ws qs : List Nat} {e x : Nat} {m : TreeLoop} (h : TreeAt w e m (x :: ws) qs)
    (hle : ∀ q ∈ qs.head?, x ≤ q) (t : Nat) : PicksAs w e t m (x, false, ws, qs) := by
  obtain ⟨hleaves, hnodes, hbuilt, hused⟩ := h
  obtain ⟨hi, hx, hws⟩ := drop_eq_cons hleaves
  have hpick : m.b = e ∨ x ≤ m.iw.getD m.b 0 := by
    cases qs with
    | nil => exact .inl (Nat.le_antisymm hused (hbuilt ▸ List.drop_eq_nil_iff.mp hnodes))
    | cons q qs =>
      obtain ⟨-, hq, -⟩ := drop_eq_cons hnodes
      exact .inr (hq ▸ hle q rfl)
  refine ⟨{ m with i := m.i + 1 }, ?_, ⟨hws, hnodes, hbuilt, hused⟩, (List.append_nil _).symm⟩
  rw [pickOnce, hx, if_pos ⟨hi, hpick⟩]

theorem pickOnce_node {w ws qs : List Nat} {e q : Nat} {m : TreeLoop} (h : TreeAt w e m ws (q :: qs))
    (hlt : ∀ x ∈ ws.head?, q < x) (t : Nat) : PicksAs w e t m (q, true, ws, qs) := by
  obtain ⟨hleaves, hnodes, hbuilt, hused⟩ := h
  obtain ⟨hb, hq, hqs⟩ := drop_eq_cons hnodes
  have hpick : ¬ (m.i < w.length ∧ (m.b = e ∨ w.getD m.i 0 ≤ q)) := by
    rintro ⟨hi, hpick⟩
    rw [List.drop_eq_getElem_cons hi] at hleaves
    subst hleaves
    have hqx := hlt _ rfl
    rw [List.getD_eq_getElem _ _ hi] at hpick
    omega
  refine ⟨{ m with b := m.b + 1, parent := m.parent ++ [e] }, ?_, ⟨hleaves, hqs, hbuilt, hbuilt ▸ hb⟩, rfl⟩
  rw [pickOnce, hq, if_neg hpick]

/-- One pick of the loop is one pick of the model, where a leaf or a node is left. -/
theorem pickOnce_eq {w ws qs : List Nat} {e : Nat} {m : TreeLoop} (h : TreeAt w e m ws qs)
    (hsome : 0 < ws.length + qs.length) (t : Nat) : PicksAs w e t m (pickNode ws qs) := by
  cases ws with
  | nil =>
    cases qs with
    | nil => simp at hsome
    | cons q qs => exact pickOnce_node h nofun t
  | cons x ws =>
    cases qs with
    | nil => exact pickOnce_leaf h nofun t
    | cons q qs =>
      rw [pickNode]
      split
      · exact pickOnce_leaf h (by simpa) t
      · exact pickOnce_node h (by simpa using ‹¬ x ≤ q›) t

theorem pickNode_length {ws qs : List Nat} (h : 0 < ws.length + qs.length) :
    (pickNode ws qs).2.2.1.length + (pickNode ws qs).2.2.2.length + 1 = ws.length + qs.length := by
  rcases pickNode_cases h with ⟨w, ws', hpick, hlen⟩ | ⟨q, qs', hpick, hlen⟩
  · rw [hpick, hlen]
    exact Nat.add_right_comm _ _ _
  · rw [hpick, hlen]
    rfl

/-- A merge adds its parents, and its node after the others. -/
theorem mergeOnce_eq {w ws qs : List Nat} {e : Nat} {m : TreeLoop} (h : TreeAt w e m ws qs)
    (htwo : 2 ≤ ws.length + qs.length) :
    let x := pickNode ws qs
    let y := pickNode x.2.2.1 x.2.2.2
    TreeAt w (e + 1) (mergeOnce w m e) y.2.2.1 (y.2.2.2 ++ [x.1 + y.1]) ∧
      (mergeOnce w m e).parent = m.parent ++ pickParents e x ++ pickParents e y := by
  intro x y
  have hlen : x.2.2.1.length + x.2.2.2.length + 1 = ws.length + qs.length := pickNode_length (by omega)
  obtain ⟨m1, hx, h1, hp1⟩ := pickOnce_eq h (by omega) 0
  obtain ⟨m2, hy, ⟨hleaves, hnodes, hbuilt, hused⟩, hp2⟩ :=
    pickOnce_eq h1 (show 0 < x.2.2.1.length + x.2.2.2.length by omega) (0 + x.1)
  rw [mergeOnce, hx, hy]
  refine ⟨⟨hleaves, ?_, ?_, Nat.le_succ_of_le hused⟩, ?_⟩
  · show (m2.iw ++ [0 + x.1 + y.1]).drop m2.b = _
    rw [List.drop_append_of_le_length (by omega), hnodes, Nat.zero_add]
  · show (m2.iw ++ [_]).length = e + 1
    rw [List.length_append, hbuilt, List.length_singleton]
  · show m2.parent = _
    rw [hp2, hp1]

/-- The merges e, e+1, ... of the loop add the parents the model computes. -/
theorem foldl_mergeOnce_parent {w ws qs : List Nat} {n e : Nat} {m : TreeLoop} (h : TreeAt w e m ws qs)
    (hn : n < ws.length + qs.length) :
    ((List.range' e n).foldl (mergeOnce w) m).parent = m.parent ++ buildTree n e ws qs := by
  induction n generalizing e m ws qs with
  | zero => exact (List.append_nil _).symm
  | succ n ih =>
    obtain ⟨hnext, hparent⟩ := mergeOnce_eq h (by omega)
    have hx := pickNode_length (ws := ws) (qs := qs) (by omega)
    have hy := pickNode_length (ws := (pickNode ws qs).2.2.1) (qs := (pickNode ws qs).2.2.2) (by omega)
    rw [List.range'_succ, List.foldl_cons, ih hnext (by rw [List.length_append, List.length_singleton]; omega),
      hparent, buildTree]
    simp only [pickParents, List.append_assoc]

theorem buildTree_eq_treeParents (w : List Nat) : buildTree (w.length - 1) 0 w [] = treeParents w := by
  cases w with
  | nil => rfl
  | cons x ws =>
    have hstart : TreeAt (x :: ws) 0 { i := 0, b := 0, iw := [], parent := [] } (x :: ws) [] :=
      ⟨rfl, rfl, rfl, Nat.le_refl 0⟩
    rw [treeParents, List.range_eq_range', foldl_mergeOnce_parent hstart (by simp), List.nil_append]

/-! ### The counts of the lengths (R206) -/

/-- The downward search finds the last level with a slot. -/
theorem freeLevel_eq_getLastD (cnt : List Nat) (k : Nat) :
    freeLevel cnt k = ((List.range (k + 1)).filter (fun j => cnt.getD j 0 ≠ 0)).getLastD 0 := by
  induction k with
  | zero =>
    rw [List.range_one, List.filter_singleton]
    cases decide (cnt.getD 0 0 ≠ 0) <;> rfl
  | succ k ih =>
    rw [freeLevel, List.range_succ, List.filter_append, List.filter_singleton]
    by_cases hzero : cnt.getD (k + 1) 0 = 0
    · rw [if_pos hzero, decide_eq_false (not_not.mpr hzero), cond_false, List.append_nil, ih]
    · rw [if_neg hzero, decide_eq_true hzero, cond_true, List.getLastD_concat]

theorem countOnce_eq (maxLen : Nat) (parent depths cnt : List Nat) (k : Nat) :
    countOnce maxLen parent (depths, cnt) k =
      (depths.set k (depths.getD (parent.getD k 0) 0 + 1),
        splitSlot maxLen (depths.getD (parent.getD k 0) 0 + 1) cnt) := by
  rw [splitSlot_eq, freeLevel_eq_getLastD]
  rfl

/-- The nodes R-1 down to k of LengthCounts, from the state at the root R. -/
def countDown (maxLen R : Nat) (parent : List Nat) (k : Nat) : List Nat × List Nat :=
  (List.range' k (R - k)).foldr (fun k x => countOnce maxLen parent x k)
    (List.replicate (R + 1) 0, rootCounts maxLen)

theorem levelCounts_eq_countDown (maxLen R : Nat) (parent : List Nat) :
    levelCounts maxLen (R + 2) parent = (countDown maxLen R parent 0).2 := by
  rw [levelCounts, List.foldl_reverse, List.range_eq_range']
  rfl

theorem countDown_of_lt {R k : Nat} (h : k < R) (maxLen : Nat) (parent : List Nat) :
    countDown maxLen R parent k = countOnce maxLen parent (countDown maxLen R parent (k + 1)) k := by
  rw [countDown, show R - k = R - (k + 1) + 1 by omega, List.range'_succ, List.foldr_cons]
  rfl

/-- The loop's depths from node k on are the model's, and its counts are the splits at those below the root. -/
theorem countDown_eq {maxLen R k : Nat} {parent ps : List Nat} (hfit : ParentsFit R k ps) (hps : parent.drop k = ps) :
    (countDown maxLen R parent k).1.length = R + 1 ∧ (countDown maxLen R parent k).1.drop k = nodeDepths k ps ∧
      (countDown maxLen R parent k).2 = (nodeDepths k ps).dropLast.foldr (splitSlot maxLen) (rootCounts maxLen) := by
  induction ps generalizing k with
  | nil =>
    obtain rfl : k = R := hfit
    rw [countDown, Nat.sub_self]
    refine ⟨List.length_replicate, ?_, rfl⟩
    show (List.replicate (k + 1) 0).drop k = [0]
    rw [List.drop_replicate, Nat.add_sub_cancel_left]
    rfl
  | cons p ps ih =>
    have hlen := parentsFit_length hfit
    rw [List.length_cons] at hlen
    obtain ⟨hp, -, -, hfit⟩ := hfit
    obtain ⟨-, hparent, hps⟩ := drop_eq_cons hps
    obtain ⟨hsize, hdepths, hcounts⟩ := ih hfit hps
    have hdepth : (countDown maxLen R parent (k + 1)).1.getD p 0 = (nodeDepths (k + 1) ps).getD (p - (k + 1)) 0 := by
      rw [← hdepths, List.getD_eq_getElem?_getD, List.getD_eq_getElem?_getD, List.getElem?_drop,
        Nat.add_sub_cancel' hp]
    rw [countDown_of_lt (by omega), countOnce_eq, hparent, hdepth, hcounts, nodeDepths]
    refine ⟨by rw [List.length_set, hsize], ?_, ?_⟩
    · show (List.set _ k _).drop k = _
      rw [List.drop_eq_getElem_cons (by rw [List.length_set]; omega), List.getElem_set_self,
        List.drop_set_of_lt (Nat.lt_succ_self k), hdepths]
    · have hne : nodeDepths (k + 1) ps ≠ [] := List.ne_nil_of_length_eq_add_one (nodeDepths_length _ _)
      rw [List.dropLast_cons_of_ne_nil hne, List.foldr_cons]

theorem huffCounts_eq_levelCounts (maxLen : Nat) (f : List Nat) :
    huffCounts maxLen f = levelCounts maxLen f.length (treeParents ((sortSymbols f).map Prod.fst)) := by
  have hw : ((sortSymbols f).map Prod.fst).length = f.length := by rw [List.length_map, sortSymbols_length]
  rw [huffCounts, ← buildTree_eq_treeParents, hw]
  match hn : f.length with
  | 0 => rfl
  | 1 => rfl
  | R + 2 =>
    have hfit : ParentsFit R 0 (buildTree (R + 2 - 1) 0 ((sortSymbols f).map Prod.fst) []) :=
      buildTree_fits rfl (by omega) (by rw [hw, hn]; rfl) (by omega)
    obtain ⟨-, -, hcounts⟩ := countDown_eq (maxLen := maxLen) hfit List.drop_zero
    rw [levelCounts_eq_countDown, hcounts, lengthCounts]

/-! ### The lengths of the symbols (R208) -/

/-- The sorted lengths are the loop's: maxLen down to 1, each as often as its count. -/
theorem sortedLengths_eq_flatMap (cnt : List Nat) (m : Nat) : sortedLengths cnt m =
    (List.range m).reverse.flatMap fun l => List.replicate (cnt.getD (l + 1) 0) (l + 1) := by
  induction m with
  | zero => rfl
  | succ m ih => rw [sortedLengths, ih, List.range_succ, List.reverse_append, List.flatMap_append]; simp

/-- Looking up a symbol of the order gives the length at its place. -/
theorem lookup_zip_getD {order : List Nat} (hn : order.Nodup) (ls : List Nat) {i : Nat} (hi : i < order.length) :
    ((order.zip ls).lookup (order.getD i 0)).getD 0 = ls.getD i 0 := by
  induction order generalizing ls i with
  | nil => exact absurd hi (Nat.not_lt_zero i)
  | cons s order ih =>
    obtain ⟨hs, hn⟩ := List.nodup_cons.mp hn
    cases ls with
    | nil => rfl
    | cons l ls =>
      cases i with
      | zero => simp
      | succ i =>
        have hi : i < order.length := Nat.lt_of_succ_lt_succ hi
        have hne : (order.getD i 0 == s) = false := by
          rw [beq_eq_false_iff_ne, List.getD_eq_getElem _ _ hi]
          exact fun heq => hs (heq ▸ List.getElem_mem hi)
        rw [List.getD_cons_succ, List.getD_cons_succ, List.zip_cons_cons, List.lookup_cons, hne]
        exact ih hn ls hi

/-- The symbols take the sorted lengths in their order. -/
theorem huffLengths_order (maxLen : Nat) {f : List Nat} {i : Nat} (hi : i < f.length) :
    (huffLengths maxLen f).getD (((sortSymbols f).map Prod.snd).getD i 0) 0 =
      (sortedLengths (huffCounts maxLen f) maxLen).getD i 0 := by
  have horder := sortSymbols_symbols f
  have hi' : i < ((sortSymbols f).map Prod.snd).length := by rwa [List.length_map, sortSymbols_length]
  have hsym : ((sortSymbols f).map Prod.snd).getD i 0 < f.length := by
    rw [List.getD_eq_getElem _ _ hi']
    exact List.mem_range.mp (horder.mem_iff.mp (List.getElem_mem hi'))
  rw [huffLengths, assignLengths, List.getD_eq_getElem _ _ (by rwa [List.length_map, List.length_range]),
    List.getElem_map, List.getElem_range]
  exact lookup_zip_getD (horder.nodup_iff.mpr List.nodup_range) _ hi'

/-- Settles O31: each of the builder's recursions runs its loop, the tree with the unused leaves and nodes as the rests
of the arrays, and the counts with the depths from node k on. -/
theorem huffBuilderFollowsTheLoops : Obligations.HuffBuilderFollowsTheLoops := by
  unfold Obligations.HuffBuilderFollowsTheLoops
  intro maxLen f order w cnt
  have hw : w.length = f.length := by rw [List.length_map, sortSymbols_length]
  refine ⟨sortSymbols_perm f, sortSymbols_pairwise f, ?_, huffCounts_eq_levelCounts maxLen f, fun i hi => ?_⟩
  · rw [← hw]
    exact buildTree_eq_treeParents w
  · rw [← sortedLengths_eq_flatMap]
    exact huffLengths_order maxLen hi

/-! ### Lengths follow frequencies (R212) -/

theorem sortedLengths_pairwise (cnt : List Nat) (m : Nat) : (sortedLengths cnt m).Pairwise (fun l k => k ≤ l) := by
  induction m with
  | zero => exact .nil
  | succ m ih =>
    rw [sortedLengths]
    refine List.pairwise_append.mpr ⟨List.pairwise_replicate.mpr (.inr (Nat.le_refl _)), ih, fun l hl k hk => ?_⟩
    rw [List.eq_of_mem_replicate hl]
    exact Nat.le_succ_of_le (sortedLengths_bounds k hk).2

theorem sortedLengths_getD_le (cnt : List Nat) (m : Nat) {i j : Nat} (h : i < j) :
    (sortedLengths cnt m).getD j 0 ≤ (sortedLengths cnt m).getD i 0 := by
  rcases Nat.lt_or_ge j (sortedLengths cnt m).length with hj | hj
  · rw [List.getD_eq_getElem _ _ hj, List.getD_eq_getElem _ _ (h.trans hj)]
    exact List.pairwise_iff_getElem.mp (sortedLengths_pairwise cnt m) i j (h.trans hj) hj h
  · rw [List.getD_eq_default _ _ hj]
    exact Nat.zero_le _

/-- A symbol's place in the order, and the length there. -/
theorem exists_place (maxLen : Nat) {f : List Nat} {x : Nat} (hx : x < f.length) :
    ∃ (i : Nat) (hi : i < (sortSymbols f).length), (sortSymbols f)[i] = (f.getD x 0, x) ∧
      (huffLengths maxLen f).getD x 0 = (sortedLengths (huffCounts maxLen f) maxLen).getD i 0 := by
  obtain ⟨i, hi, hkey⟩ := List.mem_iff_getElem.mp (mem_sortSymbols hx)
  refine ⟨i, hi, hkey, ?_⟩
  rw [← huffLengths_order maxLen (by rwa [← sortSymbols_length]),
    List.getD_eq_getElem ((sortSymbols f).map Prod.snd) _ (by rwa [List.length_map]), List.getElem_map, hkey]

/-- The symbol with the lower key comes first in the order, where the lengths are longer. -/
theorem huffLengths_le_of_keyLt (maxLen : Nat) {f : List Nat} {x y : Nat} (hx : x < f.length) (hy : y < f.length)
    (h : KeyLt (f.getD x 0, x) (f.getD y 0, y)) :
    (huffLengths maxLen f).getD y 0 ≤ (huffLengths maxLen f).getD x 0 := by
  obtain ⟨i, hi, hxi, hlx⟩ := exists_place maxLen hx
  obtain ⟨j, hj, hyj, hly⟩ := exists_place maxLen hy
  rw [hlx, hly]
  rcases Nat.lt_trichotomy i j with hlt | rfl | hgt
  · exact sortedLengths_getD_le _ _ hlt
  · exact Nat.le_refl _
  · have hkey := List.pairwise_iff_getElem.mp (sortSymbols_pairwise f) j i hj hi hgt
    rw [hxi, hyj] at hkey
    exact absurd hkey h.asymm

/-- Settles O32: the lengths never grow along the order of the symbols, which is by frequency and then by symbol. -/
theorem huffLengthsFollowFrequencies : Obligations.HuffLengthsFollowFrequencies := by
  unfold Obligations.HuffLengthsFollowFrequencies
  intro sel a s t ha hr h hf f x y hx hy hlt
  obtain ⟨hlens, -⟩ := execHuffBuild_tables ha hr h hf
  have hfreq : ∀ z, z < alphabetNum a → (workFreqs a s).getD z 0 = f z := by
    intro z hz
    rw [workFreqs_eq, List.getD_eq_getElem _ _ (by simpa using hz), List.getElem_map, List.getElem_range]
  rw [hlens]
  refine huffLengths_le_of_keyLt (alphabetMax a) (by rwa [workFreqs_length]) (by rwa [workFreqs_length]) ?_
  rw [hfreq x hx, hfreq y hy]
  exact hlt

end Sys2Proof.Proofs
end

section
/-! SUPPORT. The run encoder: the maximal runs of a sequence, the items of a run, their expansion, and RLE_ENCODE
(R240 to R246). -/

namespace Sys2Proof.Proofs

open Sys2Proof Sys2Proof.Machine Sys2Proof.Laws

/-! ### Maximal runs (R242) -/

/-- A value in front of a sequence lengthens the first run, where that is a run of the value, or begins a run. -/
theorem maximalRuns_cons (v : Nat) (vs : List Nat) :
    (∃ n rest, maximalRuns vs = (v, n) :: rest ∧ maximalRuns (v :: vs) = (v, n + 1) :: rest) ∨
    (∀ w ∈ ((maximalRuns vs).map Prod.fst).head?, v ≠ w) ∧ maximalRuns (v :: vs) = (v, 1) :: maximalRuns vs := by
  rw [maximalRuns]
  rcases maximalRuns vs with _ | ⟨⟨w, n⟩, rest⟩
  · exact .inr ⟨nofun, rfl⟩
  · by_cases hv : v = w
    · subst hv
      exact .inl ⟨n, rest, rfl, if_pos rfl⟩
    · refine .inr ⟨fun u hu => ?_, if_neg hv⟩
      obtain rfl : w = u := Option.some.inj hu
      exact hv

theorem maximalRuns_expand (q : List Nat) : (maximalRuns q).flatMap (fun r => List.replicate r.2 r.1) = q := by
  induction q with
  | nil => rfl
  | cons v vs ih =>
    rcases maximalRuns_cons v vs with ⟨n, rest, hvs, h⟩ | ⟨-, h⟩
    · rw [hvs, List.flatMap_cons] at ih
      rw [h, List.flatMap_cons, List.replicate_succ, List.cons_append, ih]
    · rw [h, List.flatMap_cons, ih]
      rfl

theorem maximalRuns_pos (q : List Nat) : ∀ r ∈ maximalRuns q, 1 ≤ r.2 := by
  induction q with
  | nil => exact nofun
  | cons v vs ih =>
    rcases maximalRuns_cons v vs with ⟨n, rest, hvs, h⟩ | ⟨-, h⟩
    · rw [hvs, List.forall_mem_cons] at ih
      rw [h]
      exact List.forall_mem_cons.mpr ⟨Nat.le_add_left 1 n, ih.2⟩
    · rw [h]
      exact List.forall_mem_cons.mpr ⟨Nat.le_refl 1, ih⟩

theorem maximalRuns_isChain (q : List Nat) : ((maximalRuns q).map Prod.fst).IsChain (· ≠ ·) := by
  induction q with
  | nil => exact .nil
  | cons v vs ih =>
    rcases maximalRuns_cons v vs with ⟨n, rest, hvs, h⟩ | ⟨hne, h⟩
    · rw [hvs] at ih
      rw [h]
      exact ih
    · rw [h]
      exact List.isChain_cons.mpr ⟨hne, ih⟩

/-! ### The items of a run (R242) -/

/-- With fuel enough, the repeats are of 6 while they last, then one of 3 to 5 or plain lengths. -/
theorem encodeRepeats_eq (v : Nat) {fuel rem : Nat} (h : rem ≤ fuel) :
    encodeRepeats v fuel rem = List.replicate (rem / 6) (16, 3) ++
      if 3 ≤ rem % 6 then [(16, rem % 6 - 3)] else List.replicate (rem % 6) (v, 0) := by
  induction fuel generalizing rem with
  | zero =>
    obtain rfl : rem = 0 := Nat.le_zero.mp h
    rfl
  | succ fuel ih =>
    rw [encodeRepeats]
    rcases Nat.lt_or_ge rem 6 with hlt | hge
    · rw [Nat.div_eq_of_lt hlt, Nat.mod_eq_of_lt hlt, Nat.min_eq_left hlt.le, Nat.sub_self, ih (Nat.zero_le _)]
      rfl
    · rw [if_pos (by omega), Nat.min_eq_right hge, ih (by omega), Nat.div_eq_sub_div (by decide) hge,
        Nat.mod_eq_sub_mod hge, List.replicate_succ, List.cons_append]

theorem encodeRun_short (v : Nat) {n : Nat} (h : n < 4) : encodeRun v n = List.replicate n (v, 0) := by
  rw [encodeRun, if_neg (Nat.not_le.mpr h)]

theorem encodeRun_long (v : Nat) {n : Nat} (h : 4 ≤ n) :
    encodeRun v n = (v, 0) :: List.replicate ((n - 1) / 6) (16, 3) ++
      if 3 ≤ (n - 1) % 6 then [(16, (n - 1) % 6 - 3)] else List.replicate ((n - 1) % 6) (v, 0) := by
  rw [encodeRun, if_pos h, encodeRepeats_eq v (Nat.sub_le n 1), List.cons_append]

/-- The first item of a run is its value, plain. -/
theorem encodeRun_head? (v : Nat) {n : Nat} (h : 1 ≤ n) : (encodeRun v n).head? = some (v, 0) := by
  rw [encodeRun]
  split
  · rfl
  · rw [List.head?_replicate, if_neg (by omega)]

theorem encodeRepeats_extra {v fuel rem : Nat} : ∀ x ∈ encodeRepeats v fuel rem, x.2 ≤ 3 := by
  induction fuel generalizing rem with
  | zero => exact nofun
  | succ fuel ih =>
    rw [encodeRepeats]
    split
    · exact List.forall_mem_cons.mpr ⟨by dsimp only; omega, ih⟩
    · intro x hx
      rw [List.eq_of_mem_replicate hx]
      exact Nat.zero_le 3

theorem encodeRun_extra {v run : Nat} : ∀ x ∈ encodeRun v run, x.2 ≤ 3 := by
  rw [encodeRun]
  split
  · exact List.forall_mem_cons.mpr ⟨Nat.zero_le 3, encodeRepeats_extra⟩
  · intro x hx
    rw [List.eq_of_mem_replicate hx]
    exact Nat.zero_le 3

/-- An item's extra value has two bits. -/
theorem encodeRuns_extra {q : List Nat} {x : Nat × Nat} (h : x ∈ encodeRuns q) : x.2 ≤ 3 := by
  obtain ⟨r, -, hx⟩ := List.mem_flatMap.mp h
  exact encodeRun_extra x hx

/-! ### Expanding the items (R246) -/

theorem expandItems_plain {v : Nat} (h : v ≠ 16) (n : Nat) (rest : List (Nat × Nat)) :
    expandItems v (List.replicate n (v, 0) ++ rest) = List.replicate n v ++ expandItems v rest := by
  induction n with
  | zero => rfl
  | succ n ih =>
    rw [List.replicate_succ, List.cons_append, expandItems, if_neg h, ih, List.replicate_succ, List.cons_append]

/-- The repeats of a value expand to its further occurrences. -/
theorem expandItems_encodeRepeats {v : Nat} (hv : v ≠ 16) {fuel rem : Nat} (h : rem ≤ fuel) (rest : List (Nat × Nat)) :
    expandItems v (encodeRepeats v fuel rem ++ rest) = List.replicate rem v ++ expandItems v rest := by
  induction fuel generalizing rem with
  | zero =>
    obtain rfl : rem = 0 := Nat.le_zero.mp h
    rfl
  | succ fuel ih =>
    rw [encodeRepeats]
    split
    · rw [List.cons_append, expandItems, if_pos rfl, ih (by omega), ← List.append_assoc, ← List.replicate_add]
      congr 2
      omega
    · exact expandItems_plain hv rem rest

/-- The items of a run expand to the run, whatever length came before it, and leave its value as the last length. -/
theorem expandItems_encodeRun {v n : Nat} (hv : v ≠ 16) (h : 1 ≤ n) (last : Nat) (rest : List (Nat × Nat)) :
    expandItems last (encodeRun v n ++ rest) = List.replicate n v ++ expandItems v rest := by
  obtain ⟨m, rfl⟩ := Nat.exists_eq_add_of_le' h
  rw [encodeRun]
  split
  · rw [List.cons_append, expandItems, if_neg hv, expandItems_encodeRepeats hv (Nat.sub_le _ _), Nat.add_sub_cancel,
      List.replicate_succ, List.cons_append]
  · rw [List.replicate_succ, List.cons_append, expandItems, if_neg hv, expandItems_plain hv, List.replicate_succ,
      List.cons_append]

theorem expandItems_flatMap_encodeRun {runs : List (Nat × Nat)} (h : ∀ r ∈ runs, r.1 ≠ 16 ∧ 1 ≤ r.2) (last : Nat) :
    expandItems last (runs.flatMap (fun r => encodeRun r.1 r.2)) = runs.flatMap (fun r => List.replicate r.2 r.1) := by
  induction runs generalizing last with
  | nil => rfl
  | cons r rest ih =>
    obtain ⟨⟨hv, hn⟩, hrest⟩ := List.forall_mem_cons.mp h
    rw [List.flatMap_cons, expandItems_encodeRun hv hn, ih hrest, List.flatMap_cons]

/-- A length is at most 15, so no run is of the value 16. -/
theorem maximalRuns_ne_repeat {q : List Nat} (h : ∀ v ∈ q, v ≤ 15) {r : Nat × Nat} (hr : r ∈ maximalRuns q) :
    r.1 ≠ 16 := by
  have := h r.1 (maximalRuns_value r hr)
  omega

theorem expandItems_encodeRuns {q : List Nat} (h : ∀ v ∈ q, v ≤ 15) : expandItems 0 (encodeRuns q) = q :=
  calc expandItems 0 (encodeRuns q)
      = (maximalRuns q).flatMap (fun r => List.replicate r.2 r.1) :=
        expandItems_flatMap_encodeRun (fun r hr => ⟨maximalRuns_ne_repeat h hr, maximalRuns_pos q r hr⟩) 0
    _ = q := maximalRuns_expand q

/-- The first item is the first run's, and so plain. -/
theorem encodeRuns_head?_ne_repeat {q : List Nat} (h : ∀ v ∈ q, v ≤ 15) {x : Nat × Nat}
    (hx : (encodeRuns q).head? = some x) : x.1 ≠ 16 := by
  rw [encodeRuns] at hx
  cases hq : maximalRuns q with
  | nil => rw [hq] at hx; cases hx
  | cons r rest =>
    have hr : r ∈ maximalRuns q := hq ▸ List.mem_cons_self
    rw [hq, List.flatMap_cons, List.head?_append, encodeRun_head? r.1 (maximalRuns_pos q r hr)] at hx
    obtain rfl : (r.1, 0) = x := Option.some.inj hx
    exact maximalRuns_ne_repeat (r := r) h hr

/-- Settles O35: a value in front of a sequence lengthens its first run or begins one, the repeats split by division by
6, and each run's items expand to the run. -/
theorem runsEncodeAndDecode : Obligations.RunsEncodeAndDecode := by
  unfold Obligations.RunsEncodeAndDecode
  exact ⟨fun _ => rfl, fun q => ⟨maximalRuns_expand q, maximalRuns_pos q, maximalRuns_isChain q⟩,
    fun v _ h => encodeRun_short v h, fun v _ h => encodeRun_long v h,
    fun _ h => ⟨expandItems_encodeRuns h, fun _ => encodeRuns_head?_ne_repeat h⟩⟩

/-! ### RLE_ENCODE (R243 to R245) -/

/-- The sequence Q of R240, with the numbers of lengths written out. -/
theorem lengthSequence_eq (s : State) : lengthSequence s =
    (List.range 286).map (fun k => (Cells.get 0 s.lenLit k).toNat) ++
      (List.range 30).map (fun k => (Cells.get 0 s.lenDist k).toNat) := rfl

/-- The 316 lengths take at least one item, for no item expands to none of them, and at most one each (R244). -/
theorem encodeRuns_lengthSequence_length (s : State) :
    1 ≤ (encodeRuns (lengthSequence s)).length ∧ (encodeRuns (lengthSequence s)).length ≤ 316 := by
  refine ⟨List.length_pos_iff.mpr fun hnil => ?_, lengthSequence_length s ▸ encodeRuns_length_le _⟩
  have hexpand := expandItems_encodeRuns (q := lengthSequence s) lengthSequence_le
  have hlength := lengthSequence_length s
  rw [← hexpand, hnil] at hlength
  cases hlength

/-- A packed item of lengths fits RLE_ITEM's 12 bits (R241). -/
theorem packItem_lt {q : List Nat} (h : ∀ v ∈ q, v ≤ 15) {x : Nat × Nat} (hx : x ∈ encodeRuns q) :
    packItem x < 2 ^ 12 := by
  have hextra := encodeRuns_extra hx
  have hsym : x.1 ≤ 16 := by
    rcases encodeRuns_symbol hx with h16 | hq
    · omega
    · exact (h _ hq).trans (by decide)
  rw [packItem]
  omega

theorem rleCount_runEncode_toNat (s : State) :
    (runEncode s).rleCount.toNat = (encodeRuns (lengthSequence s)).length := by
  rw [rleCount_runEncode, BitVec.toNat_ofNat,
    Nat.mod_eq_of_lt ((encodeRuns_lengthSequence_length s).2.trans_lt (by decide))]

theorem rleItem_runEncode_toNat {s : State} {j : Nat} {x : Nat × Nat}
    (hx : (encodeRuns (lengthSequence s))[j]? = some x) :
    (Cells.get 0 (runEncode s).rleItem j).toNat = x.1 + 32 * x.2 := by
  have hj := (List.getElem?_eq_some_iff.mp hx).1.trans_le (encodeRuns_lengthSequence_length s).2
  rw [rleItem_runEncode_written hj hx, BitVec.toNat_ofNat,
    Nat.mod_eq_of_lt (packItem_lt lengthSequence_le (List.mem_of_getElem? hx)), packItem]

theorem freqPre_runEncode_toNat (s : State) {sym : Nat} (h : sym < 19) :
    (Cells.get 0 (runEncode s).freqPre sym).toNat =
      (encodeRuns (lengthSequence s)).countP (fun x => x.1 = sym) := by
  rw [freqPre_runEncode s h, BitVec.toNat_ofNat, Nat.mod_eq_of_lt]
  calc (encodeRuns (lengthSequence s)).countP (fun x => x.1 = sym)
      ≤ (encodeRuns (lengthSequence s)).length := List.countP_le_length
    _ ≤ 316 := (encodeRuns_lengthSequence_length s).2
    _ < 2 ^ 32 := by decide

/-- RunEncode reads no part of STATUS. -/
theorem runEncode_accept (s : State) : runEncode (accept s) = accept (runEncode s) := by
  simp only [runEncode, accept, lengthSequence]

/-- A ready engine completes RLE_ENCODE with RunEncode's tables and its count in RES0 (R245). -/
theorem execRleEncode_completes {s : State} (h : s.ready = true) :
    exec .rleEncode s = .next { s with
      status := okStatus s.status, freqPre := (runEncode s).freqPre, rleItem := (runEncode s).rleItem
      rleCount := (runEncode s).rleCount, res0 := (runEncode s).rleCount.setWidth 32 } := by
  rw [exec, execRleEncode, runCommand_ready h, runEncode_accept]
  have hframe := runEncode_frame s
  generalize runEncode s = t at hframe ⊢
  rw [hframe]
  rfl

/-- Settles O34: the command is RunEncode, whose items and counts fit the tables' entries. -/
theorem rleEncodeEffect : Obligations.RleEncodeEffect := by
  unfold Obligations.RleEncodeEffect
  refine ⟨by decide, fun s h => ?_⟩
  simp only [← lengthSequence_eq]
  obtain ⟨hpos, hle⟩ := encodeRuns_lengthSequence_length s
  have hres : ((runEncode s).rleCount.setWidth 32).toNat = (encodeRuns (lengthSequence s)).length := by
    rw [BitVec.toNat_setWidth_of_le (by decide), rleCount_runEncode_toNat]
  refine ⟨_, execRleEncode_completes h, ?_⟩
  dsimp only
  exact ⟨rfl, hpos, hle, rleCount_runEncode_toNat s, hres, fun _ _ => rleItem_runEncode_toNat,
    fun j hj hlt => rleItem_runEncode_kept hlt (List.getElem?_eq_none hj), fun _ => freqPre_runEncode_toNat s⟩

end Sys2Proof.Proofs
end

section
/-! SUPPORT. The statements of spec/46_block_encoder.md: the slots of the wire tables, the frequency commands, and the fields
the block header, the tokens and the stream framing append (R260 to R274). -/

namespace Sys2Proof.Proofs

open Sys2Proof Sys2Proof.Machine Sys2Proof.Laws

/-! ### Commands that append fields (R83, R365) -/

theorem faultsOnRegion_of_runEmitter {i : Instr} {body : State → Except Trap State} {s : State}
    (he : exec i s = runEmitter body s) (h : s.ready = true) : FaultsOnRegion i s :=
  fun _ hn => he.trans (runEmitter_region h hn)

/-- An emitting command with legal regions that begins with a check goes on as one without it, or ends in the check's
fault. -/
theorem runEmitter_check {p : State → Prop} [DecidablePred p] {c : Cause} {info : Word}
    {body : State → Except Trap State} {s : State} (h : s.ready = true) (hr : regionsOk s = true)
    (hc : c ≠ .outOverflow) :
    runEmitter (fun a => do check (decide (p a)) c info; body a) s =
      if p (accept s) then runEmitter body s else .next (faulted c info s) := by
  rw [runEmitter_of_regionsOk hr, runEmitter_of_regionsOk hr, runCommand_check (ok := fun a => decide (p a)) h hc]
  exact if_congr decide_eq_true_iff rfl rfl

/-- A command whose body is a sequence of Emits appends their fields and counts nothing. -/
theorem runEmitter_appends {i : Instr} {body : State → Except Trap State} {s : State} {fields : List (Nat × Nat)}
    (he : exec i s = runEmitter body s) (hb : body (accept s) = emitAll fields (accept s)) (h : s.ready = true)
    (hr : regionsOk s = true) (hl : WriterLegal s) (hw : ∀ x ∈ fields, x.2 ≤ 25) : EmitsFields i s fields [] [] :=
  runEmitter_emits he (hb.trans (bind_pure _).symm) counts_none h hr hl hw

/-! ### BLK_HEADER (R263, R266 to R268) -/

@[simp] theorem itemFields_accept (s : State) (item : Nat) : itemFields (accept s) item = itemFields s item := by
  simp only [itemFields, symbolField_accept]

@[simp] theorem headerFields_accept (s : State) (bfinal : Bool) (hclen : Nat) :
    headerFields (accept s) bfinal hclen = headerFields s bfinal hclen := by
  simp only [headerFields, itemFields_accept, accept_lenPre, accept_rleItem, accept_rleCount]

/-- BlockHeader appends the header with the pre-code lengths R267 keeps: the trimming loop's count is the only such one. -/
theorem blockHeader_accept {s : State} {hclen : Nat} (hh : IsHclen s hclen) (bfinal : Bool) :
    blockHeader bfinal (accept s) = emitAll (headerFields s bfinal hclen) (accept s) := by
  have htrim : headerHclen (accept s) = hclen := isHclen_unique (headerHclen_isHclen (accept s)) hh
  rw [blockHeader_eq, htrim, headerFields_accept]

/-- Settles O38: the header is one sequence of Emits, and its count of pre-code lengths is the one R267 defines. -/
theorem blkHeaderAppendsTheHeader : Obligations.BlkHeaderAppendsTheHeader := by
  unfold Obligations.BlkHeaderAppendsTheHeader
  refine ⟨rfl, by decide, by decide, fun s bfinal h => ?_⟩
  have hexec : exec (.blkHeader bfinal) s = runEmitter (blockHeader bfinal) s := by rw [exec, execBlkHeader]
  exact ⟨faultsOnRegion_of_runEmitter hexec h, fun hclen hh hr hl =>
    runEmitter_appends hexec (blockHeader_accept hh bfinal) h hr hl (headerFields_width s bfinal hclen)⟩

/-! ### The wire tables (R260, R261) -/

/-- The slot search ends at an entry that is not above the value, and the entry after it is. -/
theorem slotBelow_spec {base : List Nat} {x : Nat} (h : base.getD 0 0 ≤ x) (k : Nat) :
    base.getD (slotBelow base x k) 0 ≤ x ∧
      (slotBelow base x k < k → x < base.getD (slotBelow base x k + 1) 0) := by
  induction k with
  | zero => exact ⟨h, fun hlt => absurd hlt (Nat.lt_irrefl 0)⟩
  | succ k ih =>
    rw [slotBelow]
    split
    · rename_i hle
      exact ⟨hle, fun hlt => absurd hlt (Nat.lt_irrefl _)⟩
    · rename_i habove
      refine ⟨ih.1, fun _ => ?_⟩
      rcases Nat.eq_or_lt_of_le (slotBelow_le base x k) with heq | hlt
      · rw [heq]
        exact Nat.lt_of_not_le habove
      · exact ih.2 hlt

/-- Where each slot's extra bits reach at least to the next slot's base, and the last slot's past `top`, the extra value of
any number up to `top` fits its slot's extra bits. -/
theorem sub_slotBelow_lt {base extra : List Nat} {x top k : Nat} (h : base.getD 0 0 ≤ x) (htop : x ≤ top)
    (hspan : ∀ i < k, base.getD (i + 1) 0 ≤ base.getD i 0 + 2 ^ extra.getD i 0)
    (hlast : top < base.getD k 0 + 2 ^ extra.getD k 0) :
    x - base.getD (slotBelow base x k) 0 < 2 ^ extra.getD (slotBelow base x k) 0 := by
  obtain ⟨hle, hnext⟩ := slotBelow_spec h k
  rcases Nat.eq_or_lt_of_le (slotBelow_le base x k) with heq | hlt
  · rw [heq] at hle ⊢
    omega
  · have hreach := hspan _ hlt
    have hbelow := hnext hlt
    omega

theorem lengthSlot_spec {len : Nat} (h3 : 3 ≤ len) (h258 : len ≤ 258) :
    lengthSlot len ≤ 28 ∧ lengthBase.getD (lengthSlot len) 0 ≤ len ∧
      (lengthSlot len < 28 → len < lengthBase.getD (lengthSlot len + 1) 0) ∧
      len - lengthBase.getD (lengthSlot len) 0 < 2 ^ lengthExtra.getD (lengthSlot len) 0 := by
  obtain ⟨hle, hnext⟩ := slotBelow_spec (base := lengthBase) h3 28
  exact ⟨slotBelow_le _ _ _, hle, hnext, sub_slotBelow_lt h3 h258 (by decide) (by decide)⟩

theorem distSlot_spec {dist : Nat} (h1 : 1 ≤ dist) (hwin : dist ≤ 32768) :
    distSlot dist ≤ 29 ∧ distBase.getD (distSlot dist) 0 ≤ dist ∧
      (distSlot dist < 29 → dist < distBase.getD (distSlot dist + 1) 0) ∧
      dist - distBase.getD (distSlot dist) 0 < 2 ^ distExtra.getD (distSlot dist) 0 := by
  obtain ⟨hle, hnext⟩ := slotBelow_spec (base := distBase) h1 29
  exact ⟨slotBelow_le _ _ _, hle, hnext, sub_slotBelow_lt h1 hwin (by decide) (by decide)⟩

/-- From slot 2 on two slots share each power of two: slot 2k + b begins at 2 + b halves of 2^k and has one half's bits. -/
theorem distTables_closed : ∀ i < 30, 2 ≤ i →
    distBase.getD i 0 = (2 + i % 2) * 2 ^ (i / 2 - 1) + 1 ∧ distExtra.getD i 0 = i / 2 - 1 := by decide

/-- A number of 2 or 3 in its two high bits, with e bits below them, has its logarithm and its second bit from these. -/
theorem log2_of_high_bits {n e b : Nat} (hb : b < 2) (h : n / 2 ^ e = 2 + b) :
    2 * Nat.log2 n + n / 2 ^ (Nat.log2 n - 1) % 2 = 2 * (e + 1) + b := by
  have hlow : (2 + b) * 2 ^ e ≤ n := h ▸ Nat.div_mul_le_self n (2 ^ e)
  have hhigh : n < (2 + b + 1) * 2 ^ e := (Nat.div_lt_iff_lt_mul (Nat.two_pow_pos e)).mp (by omega)
  have hlog : Nat.log2 n = e + 1 := by
    have hne : n ≠ 0 := by
      rintro rfl
      rw [Nat.zero_div] at h
      omega
    rw [Nat.log2_eq_iff hne, Nat.pow_succ, Nat.pow_succ]
    interval_cases b <;> omega
  rw [hlog, Nat.add_sub_cancel, h]
  omega

/-- DSlot of a distance of 5 or more is the closed form of R261. -/
theorem distSlot_closed {dist : Nat} (h5 : 5 ≤ dist) (hwin : dist ≤ 32768) :
    distSlot dist = 2 * Nat.log2 (dist - 1) + (dist - 1) / 2 ^ (Nat.log2 (dist - 1) - 1) % 2 := by
  obtain ⟨hslot, hle, hnext, hextra⟩ := distSlot_spec (by omega) hwin
  generalize distSlot dist = i at *
  have h2 : 2 ≤ i := by
    by_contra hlt
    have hfirst : ∀ j < 2, distBase.getD (j + 1) 0 ≤ 3 := by decide
    have hbase := hfirst i (by omega)
    have hbelow := hnext (by omega)
    omega
  obtain ⟨hbase, hbits⟩ := distTables_closed i (by omega) h2
  rw [hbase] at hle hextra
  rw [hbits] at hextra
  have hhigh : (dist - 1) / 2 ^ (i / 2 - 1) = 2 + i % 2 := by
    rw [Nat.div_eq_iff (Nat.two_pow_pos _)]
    omega
  rw [log2_of_high_bits (Nat.mod_lt i Nat.two_pos) hhigh]
  omega

/-- Settles O36: the search gives the slot whose range holds the number, the spans of the tables bound the extra value, and
from slot 2 on the distance table has a closed form. -/
theorem slotsCoverTheRanges : Obligations.SlotsCoverTheRanges := by
  unfold Obligations.SlotsCoverTheRanges
  refine ⟨rfl, rfl, rfl, rfl, by decide, fun len h3 h258 => lengthSlot_spec h3 h258, fun dist h1 hwin => ?_⟩
  obtain ⟨hslot, hle, hnext, hextra⟩ := distSlot_spec h1 hwin
  refine ⟨hslot, hle, hnext, hextra, fun h4 => ?_, fun h5 => distSlot_closed h5 hwin⟩
  interval_cases dist <;> decide

/-! ### FREQ_CLEAR and FREQ_SEED (R264, R265) -/

theorem execFreqClear_completes {s : State} (h : s.ready = true) :
    exec .freqClear s = .next (complete (clearFreqs (accept s))) := by
  rw [exec, execFreqClear]
  exact runCommand_completes h rfl

theorem execFreqSeed_completes {s : State} (h : s.ready = true) :
    exec .freqSeed s = .next (complete (seedFreqs (accept s))) := by
  rw [exec, execFreqSeed]
  exact runCommand_completes h rfl

@[simp] theorem tableEntry_freqLit (i : Nat) (s : State) : tableEntry .freqLit i s = some (Cells.get 0 s.freqLit i) := rfl

@[simp] theorem tableEntry_freqDist (i : Nat) (s : State) : tableEntry .freqDist i s = some (Cells.get 0 s.freqDist i) := rfl

/-- Settles O37: each body replaces the two tables whole and cannot fail; an empty table reads 0, and one made of a list
reads the list. -/
theorem frequencyCommands : Obligations.FrequencyCommands := by
  unfold Obligations.FrequencyCommands
  refine ⟨by decide, by decide, fun s h =>
    ⟨⟨_, execFreqClear_completes h, rfl, fun _ => ⟨rfl, rfl⟩⟩,
      ⟨_, execFreqSeed_completes h, rfl, fun i hi => ?_, fun i hi => ?_⟩⟩⟩
  · rw [tableEntry_freqLit, complete_freqLit, seedFreqs_freqLit, Cells.get_ofNats, if_pos hi, accept_params]
  · rw [tableEntry_freqDist, complete_freqDist, seedFreqs_freqDist, Cells.get_ofNats, if_pos hi, accept_params]

/-! ### The tokens: EMIT_LIT, EMIT_MATCH and EMIT_EOB (R262, R269 to R271) -/

/-- With legal regions EMIT_LIT is the check of its byte and one EmitLit. -/
theorem execEmitLit_eq {s : State} (h : s.ready = true) (hr : regionsOk s = true) :
    exec .emitLit s = if s.arg0.toNat ≤ 255 then runEmitter (fun a => emitLiteral a.arg0.toNat a) s
      else .next (faulted .badArg 0 s) := by
  rw [exec, execEmitLit, runEmitter_check h hr (by decide)]
  rfl

/-- Settles O39: past the pre-checks the command is one EmitLit, the Emit of the byte's code and then its count. -/
theorem emitLitAppendsTheCode : Obligations.EmitLitAppendsTheCode := by
  unfold Obligations.EmitLitAppendsTheCode
  refine ⟨by decide, fun s h => ⟨faultsOnRegion_of_runEmitter (by rw [exec, execEmitLit]) h, fun hr hbad => ?_,
    fun hr hl hbyte => ?_⟩⟩
  · rw [execEmitLit_eq h hr, if_neg (by omega)]
  · have hexec := execEmitLit_eq h hr
    rw [if_pos hbyte] at hexec
    refine runEmitter_emits hexec ?_ (counts_lit s.arg0.toNat) h hr hl (symbolField_narrow .litLen s s.arg0.toNat)
    rw [emitLiteral_eq, symbolField_accept, accept_arg0]

/-- With legal regions EMIT_MATCH is the check of its length, the check of its distance, and one EmitMatch. -/
theorem execEmitMatch_eq {s : State} (h : s.ready = true) (hr : regionsOk s = true) :
    exec .emitMatch s =
      if 3 ≤ s.arg0.toNat ∧ s.arg0.toNat ≤ 258 then
        if 1 ≤ s.arg1.toNat ∧ s.arg1.toNat ≤ 32768 then
          runEmitter (fun a => emitMatchToken a.arg0.toNat a.arg1.toNat a) s
        else .next (faulted .badArg 1 s)
      else .next (faulted .badArg 0 s) := by
  rw [exec, execEmitMatch, runEmitter_check h hr (by decide), runEmitter_check h hr (by decide)]
  rfl

@[simp] theorem matchFields_accept (s : State) (len dist : Nat) :
    matchFields (accept s) len dist = matchFields s len dist := by
  simp only [matchFields, symbolField_accept]

/-- Settles O40: past the pre-checks the command is one EmitMatch, the Emits of its four fields and then its counts. -/
theorem emitMatchAppendsTheToken : Obligations.EmitMatchAppendsTheToken := by
  unfold Obligations.EmitMatchAppendsTheToken
  refine ⟨by decide, fun s h => ⟨faultsOnRegion_of_runEmitter (by rw [exec, execEmitMatch]) h, fun hr hbad => ?_,
    fun hr h3 h258 hbad => ?_, fun hr hl h3 h258 h1 hwin => ?_⟩⟩
  · rw [execEmitMatch_eq h hr, if_neg (by omega)]
  · rw [execEmitMatch_eq h hr, if_pos ⟨h3, h258⟩, if_neg (by omega)]
  · have hexec := execEmitMatch_eq h hr
    rw [if_pos ⟨h3, h258⟩, if_pos ⟨h1, hwin⟩] at hexec
    refine runEmitter_emits hexec ?_ (counts_match _ _) h hr hl (matchFields_width s s.arg0.toNat s.arg1.toNat)
    rw [emitMatchToken_eq, matchFields_accept, accept_arg0, accept_arg1]

/-- Settles O41: EmitEOB is the Emit of the code of symbol 256 and then its count. -/
theorem emitEobAppendsTheCode : Obligations.EmitEobAppendsTheCode := by
  unfold Obligations.EmitEobAppendsTheCode
  refine ⟨by decide, fun s h => ?_⟩
  have hexec : exec .emitEob s = runEmitter emitEndOfBlock s := by rw [exec, execEmitEob]
  refine ⟨faultsOnRegion_of_runEmitter hexec h, fun hr hl => ?_⟩
  refine runEmitter_emits hexec ?_ (counts_lit 256) h hr hl (symbolField_narrow .litLen s 256)
  rw [emitEndOfBlock_eq, symbolField_accept]

/-! ### The framing: EMIT_TERMINATOR, EMIT_ZHEADER and EMIT_TRAILER (R272 to R274) -/

/-- Emit takes only the low bits of its code. -/
theorem emit_mod (code n : Nat) (s : State) : emit (code % 2 ^ n) n s = emit code n s := by
  simp only [emit, Nat.mod_mod]

theorem emitAll_map_mod (fields : List (Nat × Nat)) :
    emitAll (fields.map fun x => (x.1 % 2 ^ x.2, x.2)) = emitAll fields := by
  funext s
  induction fields generalizing s with
  | nil => rfl
  | cons x rest ih =>
    obtain ⟨code, n⟩ := x
    simp only [List.map_cons, emitAll_cons, emit_mod, funext ih]

/-- The four bytes of a value, most significant first, are the low bits of its shifts. -/
theorem emitBigEndian_eq_shifts (v : Word) (s : State) : emitBigEndian v s =
    emitAll [(v.toNat / 2 ^ 24, 8), (v.toNat / 2 ^ 16, 8), (v.toNat / 2 ^ 8, 8), (v.toNat, 8)] s := by
  rw [← emitAll_map_mod]
  exact emitBigEndian_eq v s

/-- Settles O42: each command is its sequence of Emits, with no count after it. -/
theorem emitFramingAppendsItsFields : Obligations.EmitFramingAppendsItsFields := by
  unfold Obligations.EmitFramingAppendsItsFields
  refine ⟨by decide, by decide, by decide, fun s h => ?_⟩
  have hterm : exec .emitTerminator s = runEmitter terminator s := by rw [exec, execEmitTerminator]
  have hhead : exec .emitZheader s = runEmitter zlibHeader s := by rw [exec, execEmitZheader]
  have htrail : exec .emitTrailer s = runEmitter (fun a => emitBigEndian a.adler a) s := by rw [exec, execEmitTrailer]
  refine ⟨faultsOnRegion_of_runEmitter hterm h, faultsOnRegion_of_runEmitter hhead h,
    faultsOnRegion_of_runEmitter htrail h, fun hr hl => ⟨?_, ?_, ?_⟩⟩
  · exact runEmitter_appends hterm (terminator_eq _) h hr hl (by decide)
  · exact runEmitter_appends hhead (zlibHeader_eq _) h hr hl (by decide)
  · exact runEmitter_appends htrail (emitBigEndian_eq_shifts _ _) h hr hl (by simp)

end Sys2Proof.Proofs
end

section
/-! SUPPORT. BOUND, and the pre-checks of COMPRESS in their order (R300 to R302, R365). -/

namespace Sys2Proof.Proofs

open Sys2Proof Sys2Proof.Machine Sys2Proof.Laws

/-! ### BOUND (R300, R301) -/

theorem outputBound_eq (n : Nat) :
    outputBound n = max (128 + n * 110 / 100) (128 + n + 5 * (n / 31744 + 1)) := rfl

/-- The bound of a legal input length fits a register. -/
theorem outputBound_toNat {n : Nat} (h : n ≤ Config.maxInLen) : (word (outputBound n)).toNat = outputBound n :=
  word_toNat_of_lt (by rw [outputBound_eq]; simp only [Config.maxInLen] at h; omega)

theorem execBound_eq {s : State} (h : s.ready = true) :
    exec .bound s = if s.arg0.toNat ≤ Config.maxInLen then
        .next { s with status := okStatus s.status, res0 := word (outputBound s.arg0.toNat) }
      else .next (faulted .badArg 0 s) := by
  rw [exec, execBound, runCommand_check (ok := fun a => decide (a.arg0.toNat ≤ Config.maxInLen)) h (by decide)]
  exact if_congr decide_eq_true_iff ((runCommand_ready h).trans rfl) rfl

/-- Settles O43: past the check of its argument the body sets RES0 to the bound, which is below 2^32. -/
theorem boundGivesTheCapacity : Obligations.BoundGivesTheCapacity := by
  unfold Obligations.BoundGivesTheCapacity
  refine ⟨by decide, fun s h => ⟨fun hn => ?_, fun hn => ?_⟩⟩
  · rw [execBound_eq h, if_neg (Nat.not_le.mpr hn)]
  · rw [execBound_eq h, if_pos hn]
    exact ⟨_, rfl, rfl, outputBound_toNat hn⟩

/-! ### The pre-checks of COMPRESS (R302) -/

/-- COMPRESS is its three checks, in the order of R302, and one run of the driver. -/
theorem execCompress_eq {s : State} (level : BitVec 4) (container : Bool) (h : s.ready = true) :
    exec (.compress level container) s =
      if level.toNat ≤ 8 then
        runCommand (fun a => do
          regionCheck a
          check (decide (outputBound a.inLen.toNat ≤ a.outCap.toNat)) .outTooSmall (word (outputBound a.inLen.toNat))
          compressRun level container a) s
      else .next (faulted .badLevel (level.setWidth 32) s) := by
  rw [exec, execCompress, runCommand_check (ok := fun _ => decide (level.toNat ≤ 8)) h (by decide)]
  exact if_congr decide_eq_true_iff rfl rfl

/-- Past the checks of its level and its regions COMPRESS is the check of OUT_CAP and one run of the driver. -/
theorem execCompress_of_regionsOk {s : State} {level : BitVec 4} (container : Bool) (h : s.ready = true)
    (hl : level.toNat ≤ 8) (hr : regionsOk s = true) :
    exec (.compress level container) s =
      if outputBound s.inLen.toNat ≤ s.outCap.toNat then runCommand (compressRun level container) s
      else .next (faulted .outTooSmall (word (outputBound s.inLen.toNat)) s) := by
  rw [execCompress_eq level container h, if_pos hl, runCommand_of_regionsOk hr, runCommand_ready h,
    runCommand_ready h]
  by_cases hb : outputBound s.inLen.toNat ≤ s.outCap.toNat
  · simp [hb]
  · simp [hb, finish, takeFault, faulted, faultStatus, accept]

/-- Settles O44: each check faults before the next one is made. -/
theorem compressPreChecks : Obligations.CompressPreChecks := by
  unfold Obligations.CompressPreChecks
  refine fun level container s h => ⟨fun hl => ?_, fun hl n hn => ?_, fun hl hr hc => ?_⟩
  · rw [execCompress_eq level container h, if_neg (Nat.not_le.mpr hl), ← BitVec.ofNat_toNat]
  · rw [execCompress_eq level container h, if_pos hl]
    exact runCommand_region h hn
  · exact (execCompress_of_regionsOk container h hl hr).trans (if_neg (Nat.not_le.mpr hc))

end Sys2Proof.Proofs
end

section
/-! SUPPORT. One step of the driver's token loop (R310): the search and the lazy probe choose a token, and what is left is the
token's Emits, its counts, its insertions and the move of POS. -/

namespace Sys2Proof.Proofs

open Sys2Proof Sys2Proof.Machine Sys2Proof.Laws

/-! ### Insertions (R315, R316) -/

theorem tokensOnly_regionsOk {s t : State} (h : TokensOnly s t) (hr : regionsOk s = true) : regionsOk t = true := by
  rw [h]; exact hr

theorem inserted_of_room {q : Nat} {s : State} (hq : q + 4 ≤ s.inLen.toNat) : inserted q s = { s with
    prev := Cells.put s.prev (q % 32768) (Cells.get Config.nil s.head (bucketAt s q))
    head := Cells.set Config.nil s.head (bucketAt s q) (word q) } := if_pos hq

theorem inserted_of_no_room {q : Nat} {s : State} (hq : ¬q + 4 ≤ s.inLen.toNat) : inserted q s = s := if_neg hq

theorem insertIfRoom_eq {q : Nat} {s : State} (hr : regionsOk s = true) : insertIfRoom q s = .ok (inserted q s) := by
  rw [insertIfRoom]
  split
  · rename_i hq
    rw [inserted_of_room hq]
    exact insertPos_ok hr hq
  · rename_i hq
    rw [inserted_of_no_room hq]

theorem insertRange_eq {q n : Nat} {s : State} (hr : regionsOk s = true) :
    insertRange q n s = .ok (((List.range n).map (q + ·)).foldl (fun u p => inserted p u) s) := by
  induction n generalizing q s with
  | zero => rfl
  | succ n ih =>
    have hshift : ((q + ·) ∘ Nat.succ) = (q + 1 + ·) := by
      funext i
      simp only [Function.comp]
      omega
    rw [insertRange, insertIfRoom_eq hr, bind_ok, ih (tokensOnly_regionsOk (inserted_tokensOnly q s) hr),
      List.range_succ_eq_map, List.map_cons, List.map_map, hshift, List.foldl_cons]
    rfl

/-- InsertAfterMatch inserts the first position of a long match where the level skips, and else every one (R315). -/
theorem insertAfterMatch_eq {p len nice : Nat} {s : State} (hr : regionsOk s = true) :
    insertAfterMatch p len nice s =
      .ok ((if skipLevel s.driver.lvl.toNat = true ∧ nice ≤ len then [p] else (List.range len).map (p + ·)).foldl
        (fun u q => inserted q u) s) := by
  simp only [insertAfterMatch, Bool.and_eq_true, decide_eq_true_eq]
  split
  · exact insertIfRoom_eq hr
  · exact insertRange_eq hr

/-- Insertions change HEAD and PREV only (R173). -/
theorem insertAll_frame (qs : List Nat) (s : State) : qs.foldl (fun u q => inserted q u) s = { s with
    head := (qs.foldl (fun u q => inserted q u) s).head, prev := (qs.foldl (fun u q => inserted q u) s).prev } := by
  induction qs generalizing s with
  | nil => rfl
  | cons q qs ih =>
    have hq : inserted q s = { s with head := (inserted q s).head, prev := (inserted q s).prev } := by
      rw [inserted]
      split <;> rfl
    rw [List.foldl_cons, ih, hq]

/-! ### The step after its search (R313, R314) -/

/-- The token of a match the step keeps: the match where it has length 4 or more, else the literal at POS. -/
def matchToken (s : State) (m : Nat × Nat) : Token :=
  if 4 ≤ m.1 then .copy m.1 m.2 else .lit (inputAt s s.driver.pos.toNat)

theorem tokenFields_width (s : State) (tok : Token) : ∀ x ∈ tokenFields s tok, x.2 ≤ 25 := by
  cases tok with
  | lit b => exact symbolField_narrow .litLen s b.toNat
  | copy len dist => exact matchFields_width s len dist

/-- Two continuations that agree wherever the first part can end. -/
theorem bind_congr_ok {α β : Type} {x : Except Trap α} {f g : α → Except Trap β} (h : ∀ a, x = .ok a → f a = g a) :
    (x >>= f) = (x >>= g) := by
  cases x with
  | error e => rfl
  | ok a => exact h a rfl

/-- With the match m kept, the step emits the token, counts it, inserts its positions and moves POS on. -/
theorem tokenTail_eq {s : State} (m : Nat × Nat) (hr : regionsOk s = true)
    (hlt : s.driver.pos.toNat < s.inLen.toNat) :
    (if 4 ≤ m.1 then do
        let t ← emitMatchToken m.1 m.2 s
        let t ← insertAfterMatch s.driver.pos.toNat m.1 (stepNice s) t
        .ok (setPos (s.driver.pos.toNat + m.1) t)
      else do
        let b ← inputByte s s.driver.pos.toNat
        let t ← emitLiteral b.toNat s
        let t ← insertIfRoom s.driver.pos.toNat t
        .ok (setPos (s.driver.pos.toNat + 1) t)) =
      emitAll (tokenFields s (matchToken s m)) s >>= fun t => .ok (afterToken t (matchToken s m)) := by
  have regions : ∀ t, WriterOnly s t → ∀ tok, regionsOk (countToken t tok) = true := fun t ht tok =>
    tokensOnly_regionsOk (countToken_tokensOnly t tok) (writerOnly_regionsOk ht hr)
  rw [matchToken]
  split
  · rw [emitMatchToken_eq, bind_assoc]
    refine bind_congr_ok fun t ht => ?_
    have hw := emitAll_frame ht
    show (insertAfterMatch _ _ _ (countToken t (.copy m.1 m.2)) >>= _) = _
    rw [insertAfterMatch_eq (regions t hw _), bind_ok, hw]
    rfl
  · rw [inputByte_ok hr hlt, bind_ok, emitLiteral_eq, bind_assoc]
    refine bind_congr_ok fun t ht => ?_
    have hw := emitAll_frame ht
    show (insertIfRoom _ (countToken t (.lit (inputAt s s.driver.pos.toNat))) >>= _) = _
    rw [insertIfRoom_eq (regions t hw _), bind_ok, hw]
    rfl

/-- The step as its search and probe, and then the Emits of the token they choose. -/
theorem tokenStep_of_search {s v u : State} {m k : Nat × Nat} (hr : regionsOk s = true)
    (hlt : s.driver.pos.toNat < s.inLen.toNat) (hm : searchAt s.driver.pos.toNat (stepMaxLen s) s = .ok (m, v))
    (hk : lazyProbe s.driver.pos.toNat (stepNice s) m v = .ok (k, u)) (hd : DrawsOnly s u) :
    tokenStep s = emitAll (tokenFields u (matchToken u k)) u >>= fun t => .ok (afterToken t (matchToken u k)) := by
  have hnice : stepNice u = stepNice s := by rw [hd]; rfl
  have hpos : u.driver.pos = s.driver.pos := by rw [hd]
  have hlen : u.inLen = s.inLen := by rw [hd]
  rw [← tokenTail_eq k ((drawsOnly_work hd).1.regionsOk hr) (by rw [hpos, hlen]; exact hlt), hnice, hpos]
  rw [stepNice, stepMaxLen] at hk
  rw [stepMaxLen] at hm
  simp only [tokenStep, hm, hk, bind_ok]
  rfl

/-! ### What the step appends and counts (R262) -/

/-- The literal/length symbols a token counts. -/
def tokenLits : Token → List Nat
  | .lit b => [b.toNat]
  | .copy len _ => [257 + lengthSlot len]

/-- The distance symbols a token counts. -/
def tokenDists : Token → List Nat
  | .lit _ => []
  | .copy _ dist => [distSlot dist]

theorem countToken_counted (s : State) (tok : Token) : Counted s (countToken s tok) (tokenLits tok) (tokenDists tok) := by
  cases tok with
  | lit b => exact (counts_lit b.toNat s).2
  | copy len dist => exact (counts_match (257 + lengthSlot len) (distSlot dist) s).2

/-- A token's insertions and its move count nothing. -/
theorem afterToken_counted (s : State) (tok : Token) : Counted s (afterToken s tok) (tokenLits tok) (tokenDists tok) := by
  have h := countToken_counted s tok
  rw [afterToken, insertAll_frame]
  exact h

/-- Emits that end have appended their fields. -/
theorem emitAll_appended {fields : List (Nat × Nat)} {s t : State} (hl : WriterLegal s)
    (h : s.outBase.toNat + s.outCap.toNat ≤ 2 ^ 32) (hw : ∀ x ∈ fields, x.2 ≤ 25) (ht : emitAll fields s = .ok t) :
    Appended s t fields ∧ WriterLegal t := by
  obtain ⟨hroom, hfull⟩ := emitAll_spec hl h hw
  by_cases hr : HasRoom s fields
  · obtain ⟨u, hu, ha⟩ := hroom hr
    cases ht.symm.trans hu
    exact ha
  · cases ht.symm.trans (hfull hr)

theorem appended_tokensOnly {s t u : State} {fields : List (Nat × Nat)} (h : Appended s t fields)
    (hu : TokensOnly t u) : Appended s u fields := by
  rw [hu]; exact h

/-! ### The token of a true match (R318, R319) -/

/-- A token that stands for the bytes at POS, within the block. -/
def TokenFits (s : State) : Token → Prop
  | .lit b => b = inputAt s s.driver.pos.toNat
  | .copy len dist => TrueMatch s s.driver.pos.toNat (stepMaxLen s) len dist

theorem matchToken_fits {s : State} {m : Nat × Nat}
    (h : m = (0, 0) ∨ TrueMatch s s.driver.pos.toNat (stepMaxLen s) m.1 m.2) : TokenFits s (matchToken s m) := by
  rw [matchToken]
  split
  · rename_i h4
    rcases h with rfl | h
    · cases h4
    · exact h
  · rfl

/-- A fitting token covers at least a byte, and none past the block's end. -/
theorem TokenFits.covers {s : State} {tok : Token} (h : TokenFits s tok) (hlt : s.driver.pos.toNat < s.driver.be.toNat) :
    1 ≤ tok.covers ∧ s.driver.pos.toNat + tok.covers ≤ s.driver.be.toNat := by
  cases tok with
  | lit b => exact ⟨le_refl 1, hlt⟩
  | copy len dist =>
    obtain ⟨h4, hmax, -⟩ := h
    simp only [Token.covers, stepMaxLen] at hmax ⊢
    omega

theorem TokenFits.trueToken {s : State} {tok : Token} (h : TokenFits s tok) :
    TrueToken s (tokenFields s tok) (tokenLits tok) (tokenDists tok) tok.covers := by
  cases tok with
  | lit b => cases h; exact .inl ⟨rfl, rfl, rfl, rfl⟩
  | copy len dist =>
    obtain ⟨h4, hmax, h1, hwin, hle, hagree⟩ := h
    simp only [stepMaxLen] at hmax
    exact .inr ⟨dist, h4, by simp only [Token.covers]; omega, by simp only [Token.covers]; omega, h1, hwin, hle,
      hagree, rfl, rfl, rfl⟩

/-- POS after a token that fits. -/
theorem afterToken_pos {s : State} {tok : Token} (h : s.driver.pos.toNat + tok.covers ≤ s.driver.be.toNat) :
    (afterToken s tok).driver.pos.toNat = s.driver.pos.toNat + tok.covers :=
  word_toNat_of_lt (lt_of_le_of_lt h s.driver.be.isLt)

/-- A step of the token loop is the Emits of a token that fits, from a state that differs in the count of open values. -/
theorem tokenStep_emits {s : State} (hr : regionsOk s = true) (hlt : s.driver.pos.toNat < s.driver.be.toNat)
    (hbe : s.driver.be.toNat ≤ s.inLen.toNat) :
    ∃ u tok, DrawsOnly s u ∧ TokenFits s tok ∧
      tokenStep s = emitAll (tokenFields u tok) u >>= fun t => .ok (afterToken t tok) := by
  obtain ⟨m, v, hm, hdv, hmatch⟩ := searchAt_spec (p := s.driver.pos.toNat) (maxLen := stepMaxLen s) hr
    (by simp only [stepMaxLen]; omega)
  have hwv := drawsOnly_work hdv
  obtain ⟨k, u, hk, hdu, hkept⟩ := lazyProbe_spec (p := s.driver.pos.toNat) (nice := stepNice s) (m := m)
    (hwv.1.regionsOk hr) (by rw [hwv.2]; simp only [stepNice, stepMaxLen]; omega) (by rw [hwv.2, hwv.1.inLen]; exact hbe)
  have hd := hdv.trans hdu
  have htok : matchToken u k = matchToken s k := by rw [hd]; rfl
  refine ⟨u, matchToken s k, hd, matchToken_fits ?_, ?_⟩
  · rcases hkept with hk0 | hkm
    · exact .inl hk0
    · rw [hkm]; exact hmatch
  · rw [tokenStep_of_search hr (hlt.trans_le hbe) hm hk hd, htok]

/-- Settles O51: the search finds no match or a true one, the probe keeps it or drops it, and the rest of the step is the
Emits of the token's fields. -/
theorem driverTokensAreTrue : Obligations.DriverTokensAreTrue := by
  unfold Obligations.DriverTokensAreTrue
  intro s t hr hl hlt hbe ht
  obtain ⟨u, tok, hd, hfits, hstep⟩ := tokenStep_emits hr hlt hbe
  obtain ⟨hone, hend⟩ := hfits.covers hlt
  -- the count of open values is no part of what the token's Emits and counts read
  obtain ⟨d, rfl⟩ : ∃ d, u = { s with draws := d } := ⟨u.draws, hd⟩
  obtain ⟨v, hv, hvt⟩ := bind_eq_ok.mp (hstep.symm.trans ht)
  cases hvt
  have hw := emitAll_frame hv
  have happ := (emitAll_appended (s := { s with draws := d }) hl (regionsOk_out hr) (tokenFields_width _ tok) hv).1
  have hcount := afterToken_counted v tok
  have hpos : (afterToken v tok).driver.pos.toNat = s.driver.pos.toNat + tok.covers := by
    rw [hw] ; exact afterToken_pos hend
  refine ⟨_, _, _, _, hfits.trueToken, appended_tokensOnly happ (afterToken_tokensOnly v tok), ?_, hone, hpos,
    by rw [hpos]; exact hend⟩
  rw [hw] at hcount ⊢
  exact hcount

/-! ### The step over written chains (R310, R311) -/

theorem searchAt_written {s : State} (hr : regionsOk s = true) (hbe : s.driver.be.toNat ≤ s.inLen.toNat)
    (hc : ChainsWritten s) : searchAt s.driver.pos.toNat (stepMaxLen s) s = .ok (stepMatch s, s) := by
  rw [searchAt, stepMatch]
  split
  · rename_i h4
    have hroom : s.driver.pos.toNat + stepMaxLen s ≤ s.driver.be.toNat := by
      simp only [stepMaxLen] at h4 ⊢
      omega
    exact findMatch_eq_searchResult hr h4 (hroom.trans hbe) (hc _ (.inl rfl) (by omega))
  · rfl

/-- The probe drops the match exactly where it finds a longer one. -/
theorem lazyProbe_written {s : State} (hr : regionsOk s = true) (hbe : s.driver.be.toNat ≤ s.inLen.toNat)
    (hc : ChainsWritten s) : lazyProbe s.driver.pos.toNat (stepNice s) (stepMatch s) s =
      .ok (if probeIsLonger s = true then (0, 0) else stepMatch s, s) := by
  rw [lazyProbe]
  by_cases hp : (lazyLevel s.driver.lvl.toNat && decide (4 ≤ (stepMatch s).1) &&
      decide ((stepMatch s).1 < stepNice s)) = true
  case neg => simp only [probeIsLonger, hp, Bool.false_and, Bool.false_eq_true, if_false]
  case pos =>
    obtain ⟨⟨-, h4⟩, hnice⟩ : (_ ∧ 4 ≤ (stepMatch s).1) ∧ (stepMatch s).1 < stepNice s := by
      simpa only [Bool.and_eq_true, decide_eq_true_eq] using hp
    simp only [stepNice, stepMaxLen] at hnice
    rw [if_pos hp, findMatch_eq_searchResult hr (by omega) (by omega) (hc _ (.inr rfl) (by omega)), bind_ok]
    simp only [probeIsLonger, hp, Bool.true_and, decide_eq_true_eq]

theorem matchToken_kept (s : State) :
    matchToken s (if probeIsLonger s = true then (0, 0) else stepMatch s) = chosenToken s := by
  rw [matchToken, chosenToken]
  cases probeIsLonger s <;> simp

/-- Over written chains the step is the Emits of the chosen token, and what R313 to R315 say after them. -/
theorem tokenStep_written {s : State} (hr : regionsOk s = true) (hlt : s.driver.pos.toNat < s.driver.be.toNat)
    (hbe : s.driver.be.toNat ≤ s.inLen.toNat) (hc : ChainsWritten s) :
    tokenStep s = emitAll (tokenFields s (chosenToken s)) s >>= fun t => .ok (afterToken t (chosenToken s)) := by
  rw [tokenStep_of_search hr (hlt.trans_le hbe) (searchAt_written hr hbe hc) (lazyProbe_written hr hbe hc) rfl,
    matchToken_kept]

/-! ### The state of the engine with another writer (R140, R302) -/

/-- s with the memory, the bit writer, STATUS and the driver's DSTATE of w: what the bufferless reading of the driver
leaves out. -/
def overlay (w s : State) : State :=
  { s with
    status := w.status, mem := w.mem, outPos := w.outPos, bitBuf := w.bitBuf, bitCnt := w.bitCnt
    driver := { s.driver with dstate := w.driver.dstate } }

/-- The memory of w holds the input bytes of s. -/
def SeesInput (w s : State) : Prop := ∀ k, k < s.inLen.toNat → inputAt (overlay w s) k = inputAt s k

theorem bucketAt_congr {s t : State} {p : Nat} (hp : t.params = s.params)
    (h : ∀ k, k < 4 → inputAt t (p + k) = inputAt s (p + k)) : bucketAt t p = bucketAt s p := by
  rw [bucketAt, bucketAt, hp, h 1 (by omega), h 2 (by omega), h 3 (by omega)]
  rw [show inputAt t p = inputAt s p from h 0 (by omega)]

theorem inserted_overlay {w s : State} (h : SeesInput w s) (q : Nat) :
    inserted q (overlay w s) = overlay w (inserted q s) := by
  by_cases hq : q + 4 ≤ s.inLen.toNat
  · rw [inserted_of_room hq, inserted_of_room (s := overlay w s) hq,
      bucketAt_congr (s := s) (t := overlay w s) (p := q) rfl fun k hk => h _ (by omega)]
    rfl
  · rw [inserted_of_no_room hq, inserted_of_no_room (s := overlay w s) hq]

theorem SeesInput.of_tokensOnly {w s t : State} (h : SeesInput w s) (ht : TokensOnly s t) : SeesInput w t := by
  rw [ht]; exact h

theorem insertAll_overlay {w s : State} (h : SeesInput w s) (qs : List Nat) :
    qs.foldl (fun u q => inserted q u) (overlay w s) = overlay w (qs.foldl (fun u q => inserted q u) s) := by
  induction qs generalizing s with
  | nil => rfl
  | cons q qs ih =>
    rw [List.foldl_cons, List.foldl_cons, inserted_overlay h, ih (h.of_tokensOnly (inserted_tokensOnly q s))]

/-- What follows a token's Emits reads and changes nothing the overlay replaces. -/
theorem afterToken_overlay {w s : State} (h : SeesInput w s) (tok : Token) :
    afterToken (overlay w s) tok = overlay w (afterToken s tok) := by
  have hins : insertions (overlay w s) (overlay w s).driver.pos.toNat tok = insertions s s.driver.pos.toNat tok := by
    cases tok <;> rfl
  have hcount : countToken (overlay w s) tok = overlay w (countToken s tok) := by cases tok <;> rfl
  rw [afterToken, afterToken, hins, hcount, insertAll_overlay (h.of_tokensOnly (countToken_tokensOnly s tok))]
  rfl

theorem overlay_writerOnly {s t : State} (h : WriterOnly s t) : overlay t s = t := by
  rw [h]; rfl

/-- Emits leave the input as it is (R83, R84). -/
theorem seesInput_emitAll {fields : List (Nat × Nat)} {s t : State} (hr : regionsOk s = true)
    (h : emitAll fields s = .ok t) : SeesInput t s := fun k hk => by
  rw [overlay_writerOnly (emitAll_frame h)]
  exact (emitAll_work h).1.inputAt hr hk

/-- Settles O52: over written chains the search is the best match of its candidates, so the step is the Emits of the chosen
token, and what follows them reads nothing they have changed. -/
theorem stepFollowsThePolicy : Obligations.StepFollowsThePolicy := by
  unfold Obligations.StepFollowsThePolicy
  refine ⟨by decide, fun s t hr hl hlt hbe hc ht => ?_⟩
  obtain ⟨v, hv, hvt⟩ := bind_eq_ok.mp ((tokenStep_written hr hlt hbe hc).symm.trans ht)
  cases hvt
  have hw := emitAll_frame hv
  have happ := (emitAll_appended hl (regionsOk_out hr) (tokenFields_width s _) hv).1
  refine ⟨appended_tokensOnly happ (afterToken_tokensOnly v _), ?_⟩
  have hafter := afterToken_overlay (seesInput_emitAll hr hv) (chosenToken s)
  rw [overlay_writerOnly hw] at hafter
  have hstatus : v.status = (afterToken s (chosenToken s)).status ∧
      v.driver.dstate = (afterToken s (chosenToken s)).driver.dstate := by
    rw [afterToken_tokensOnly s (chosenToken s), hw]
    exact ⟨rfl, rfl⟩
  rw [hafter, overlay, hstatus.1, hstatus.2]

end Sys2Proof.Proofs
end

section
/-! SUPPORT. Work that streams a list of fields: with room it appends them and ends over a given bufferless state, without room
it raises OUT_OVERFLOW. Sequences of such work stream their fields one after the other (R140, R147). -/

namespace Sys2Proof.Proofs

open Sys2Proof Sys2Proof.Machine Sys2Proof.Laws

/-! ### Fields one after the other (R147) -/

@[simp] theorem fieldsWidth_append (fs gs : List (Nat × Nat)) : fieldsWidth (fs ++ gs) = fieldsWidth fs + fieldsWidth gs := by
  simp [fieldsWidth_eq]

theorem fieldsValue_append (fs gs : List (Nat × Nat)) :
    fieldsValue (fs ++ gs) = fieldsValue fs + 2 ^ fieldsWidth fs * fieldsValue gs := by
  induction fs with
  | nil => simp [fieldsValue, fieldsWidth]
  | cons x fs ih =>
    obtain ⟨code, n⟩ := x
    simp only [List.cons_append, fieldsValue, fieldsWidth, ih, Nat.pow_add]
    ring

theorem fieldsValue_lt (fs : List (Nat × Nat)) : fieldsValue fs < 2 ^ fieldsWidth fs := by
  induction fs with
  | nil => exact Nat.one_pos
  | cons x fs ih =>
    obtain ⟨code, n⟩ := x
    have hc : code % 2 ^ n < 2 ^ n := Nat.mod_lt _ (Nat.two_pow_pos n)
    simp only [fieldsValue, fieldsWidth, Nat.pow_add]
    calc _ < 2 ^ n + 2 ^ n * fieldsValue fs := Nat.add_lt_add_right hc _
      _ = 2 ^ n * (fieldsValue fs + 1) := by ring
      _ ≤ _ := Nat.mul_le_mul_left _ ih

/-- What is appended depends on the bits of the fields, not on where one ends. -/
theorem appended_congr {s t : State} {fs gs : List (Nat × Nat)} (hv : fieldsValue fs = fieldsValue gs)
    (hw : fieldsWidth fs = fieldsWidth gs) : Appended s t fs ↔ Appended s t gs := by
  simp only [Appended, streamBytes, streamValue, hv, hw]

/-- The bits of a list of fields as one field. -/
theorem fields_as_one (fs gs : List (Nat × Nat)) :
    fieldsValue ((fieldsValue fs, fieldsWidth fs) :: gs) = fieldsValue (fs ++ gs) ∧
      fieldsWidth ((fieldsValue fs, fieldsWidth fs) :: gs) = fieldsWidth (fs ++ gs) := by
  rw [fieldsValue_append, fieldsWidth_append]
  simp only [fieldsValue, fieldsWidth, Nat.mod_eq_of_lt (fieldsValue_lt fs), and_self]

/-- Appending some fields and then more appends them all. -/
theorem appended_append {s u t : State} {fs gs : List (Nat × Nat)} (hu : Appended s u fs)
    (hbase : u.outBase = s.outBase) (ht : Appended u t gs) : Appended s t (fs ++ gs) := by
  have one := fields_as_one fs gs
  have hu' : Appended s { s with mem := u.mem, outPos := u.outPos, bitBuf := u.bitBuf, bitCnt := u.bitCnt }
      [(fieldsValue fs, fieldsWidth fs)] := by
    have one := fields_as_one fs []
    rw [List.append_nil] at one
    exact (appended_congr one.1 one.2).mpr hu
  rw [Appended, hbase] at ht
  exact (appended_congr one.1 one.2).mp (Appended.cons hu' rfl ht)

theorem streamBytes_append {s u : State} {fs : List (Nat × Nat)} (hu : Appended s u fs) (gs : List (Nat × Nat)) :
    streamBytes s (fs ++ gs) = streamBytes s fs + streamBytes u gs := by
  have hc := hu.2.1
  simp only [streamBytes, fieldsWidth_append] at hc ⊢
  omega

/-! ### Bookkeeping -/

/-- t is s but for ADLER, the tables and the driver's registers: neither memory nor the bit writer has changed. -/
def Bookkeeping (s t : State) : Prop :=
  t = { s with
    adler := t.adler, head := t.head, prev := t.prev, freqLit := t.freqLit, freqDist := t.freqDist
    freqPre := t.freqPre, lenLit := t.lenLit, lenDist := t.lenDist, lenPre := t.lenPre, codeLit := t.codeLit
    codeDist := t.codeDist, codePre := t.codePre, rleItem := t.rleItem, rleCount := t.rleCount, driver := t.driver }

theorem Bookkeeping.work {s t : State} (h : Bookkeeping s t) : Work s t := by
  refine .of_tables ?_
  exact h.trans (by rw [h])

theorem Bookkeeping.refl (s : State) : Bookkeeping s s := rfl

theorem Bookkeeping.trans {s t u : State} (h : Bookkeeping s t) (h' : Bookkeeping t u) : Bookkeeping s u := by
  rw [h', h]; exact rfl

theorem bookkeeping_of_tokensOnly {s t : State} (h : TokensOnly s t) : Bookkeeping s t := by
  rw [h]; exact rfl

theorem bookkeeping_of_codesOnly {s t : State} (h : CodesOnly s t) : Bookkeeping s t := by
  rw [h]; exact rfl

/-! ### States over a bufferless one -/

/-- The concrete state t is the bufferless state u with a writer, a memory, a STATUS and a DSTATE of its own, and its memory
holds the input of u. -/
structure Over (u t : State) : Prop where
  state : t = overlay t u
  input : SeesInput t u

theorem Over.refl (s : State) : Over s s := ⟨rfl, fun _ _ => rfl⟩

/-- A change of the writer, over a state that was changed in its tables and its driver's registers. -/
theorem Over.of_bookkeeping {u v t : State} (h : SeesInput t u) (hv : Bookkeeping u v) : Over v (overlay t v) := by
  refine ⟨rfl, ?_⟩
  rw [hv]
  exact h

/-- Emits over u end over u. -/
theorem Over.emitAll {u s t : State} {fields : List (Nat × Nat)} (h : Over u s) (hr : regionsOk s = true)
    (ht : emitAll fields s = .ok t) : t = overlay t u ∧ SeesInput t u := by
  have hw := emitAll_frame ht
  have hstate : t = overlay t u := by
    rw [hw, h.state]; rfl
  refine ⟨hstate, fun k hk => ?_⟩
  have hlen : s.inLen = u.inLen := by rw [h.state]; rfl
  rw [← hstate, (emitAll_work ht).1.inputAt hr (by rw [hlen]; exact hk)]
  have hs := h.input k hk
  rwa [← h.state] at hs

/-! ### Streams -/

/-- From s, whose writer appended the fields, to t, which is over the bufferless state u. -/
structure Streamed (s t : State) (fields : List (Nat × Nat)) (u : State) : Prop where
  work     : Work s t
  appended : Appended s t fields
  writer   : WriterLegal t
  base     : Over u t

/-- The computation x, from s, streams the fields and ends over u; or, where a byte of them has no room, it raises
OUT_OVERFLOW at the first offset without room. -/
def Streams (x : Except Trap State) (s : State) (fields : List (Nat × Nat)) (u : State) : Prop :=
  (HasRoom s fields → ∃ t, x = .ok t ∧ Streamed s t fields u) ∧
  (¬HasRoom s fields → x = .error (.raise .outOverflow (word (max s.outPos.toNat s.outCap.toNat))))

/-- Only the bits of the fields count. -/
theorem Streams.congr {x : Except Trap State} {s u : State} {fs gs : List (Nat × Nat)} (h : Streams x s fs u)
    (hv : fieldsValue fs = fieldsValue gs) (hw : fieldsWidth fs = fieldsWidth gs) : Streams x s gs u := by
  have hroom : HasRoom s gs ↔ HasRoom s fs := by simp only [HasRoom, streamBytes, hw]
  refine ⟨fun hr => ?_, fun hr => h.2 fun hr' => hr (hroom.mpr hr')⟩
  obtain ⟨t, ht, hst⟩ := h.1 (hroom.mp hr)
  exact ⟨t, ht, hst.work, (appended_congr hv hw).mp hst.appended, hst.writer, hst.base⟩

/-- Bookkeeping before the first field. -/
theorem Streams.start {x : Except Trap State} {s t u : State} {fields : List (Nat × Nat)} (h : Streams x t fields u)
    (hst : Bookkeeping s t) : Streams x s fields u := by
  have hroom : HasRoom t fields ↔ HasRoom s fields := by rw [hst]; rfl
  refine ⟨fun hr => ?_, fun hr => ?_⟩
  · obtain ⟨v, hv, hsv⟩ := h.1 (hroom.mpr hr)
    refine ⟨v, hv, hst.work.trans hsv.work, ?_, hsv.writer, hsv.base⟩
    have happ := hsv.appended
    rw [hst] at happ
    exact happ
  · rw [h.2 fun hr' => hr (hroom.mp hr'), hst]

/-- Streaming some fields and then more streams them all. -/
theorem Streams.bind {x : Except Trap State} {f : State → Except Trap State} {s u v : State} {fs gs : List (Nat × Nat)}
    (h : Streams x s fs u) (hf : ∀ t, x = .ok t → Streamed s t fs u → Streams (f t) t gs v) :
    Streams (x >>= f) s (fs ++ gs) v := by
  by_cases hr : HasRoom s fs
  case neg =>
    have hr' : ¬HasRoom s (fs ++ gs) := fun hrr => hr fun h0 => by
      have hle : streamBytes s fs ≤ streamBytes s (fs ++ gs) := by
        simp only [streamBytes, fieldsWidth_append]
        omega
      have := hrr (h0.trans_le hle)
      omega
    exact ⟨fun hrr => absurd hrr hr', fun _ => by rw [h.2 hr, bind_error]⟩
  case pos =>
    obtain ⟨t, ht, hst⟩ := h.1 hr
    obtain ⟨hok, hfull⟩ := hf t ht hst
    have hbytes := streamBytes_append hst.appended gs
    have hpos := hst.appended.1
    have hcap : t.outCap = s.outCap := hst.work.outCap
    have hroom : HasRoom t gs ↔ HasRoom s (fs ++ gs) := by
      rw [HasRoom] at hr
      rw [HasRoom, HasRoom, hcap]
      omega
    rw [ht, bind_ok]
    refine ⟨fun hrr => ?_, fun hrr => ?_⟩
    · obtain ⟨w, hw, hsw⟩ := hok (hroom.mpr hrr)
      exact ⟨w, hw, hst.work.trans hsw.work, appended_append hst.appended hst.work.outBase hsw.appended, hsw.writer,
        hsw.base⟩
    · have hnot : ¬HasRoom t gs := fun hrr' => hrr (hroom.mp hrr')
      rw [hfull hnot, hcap]
      rw [HasRoom, hcap] at hnot
      rw [HasRoom] at hr
      congr 3
      omega

/-- Emits and then bookkeeping that commutes with the writer. -/
theorem streams_emitAll {fields : List (Nat × Nat)} {s u v : State} {g : State → State} (hr : regionsOk s = true)
    (hl : WriterLegal s) (hs : Over u s) (hw : ∀ x ∈ fields, x.2 ≤ 25) (hv : Bookkeeping u v)
    (hg : ∀ t, SeesInput t u → g (overlay t u) = overlay t v) :
    Streams (emitAll fields s >>= fun t => .ok (g t)) s fields v := by
  obtain ⟨hok, hfull⟩ := emitAll_spec hl (regionsOk_out hr) hw
  refine ⟨fun hroom => ?_, fun hroom => by rw [hfull hroom, bind_error]⟩
  obtain ⟨t, ht, happ, hlt⟩ := hok hroom
  obtain ⟨hstate, hinput⟩ := hs.emitAll hr ht
  have hgt : g t = overlay t v := by rw [hstate, hg t hinput]; rfl
  have hbook : Bookkeeping t (overlay t v) := by
    rw [hstate, hv]
    rfl
  refine ⟨g t, by rw [ht, bind_ok], ?_⟩
  rw [hgt]
  exact ⟨(emitAll_work ht).1.trans hbook.work, happ, hlt, Over.of_bookkeeping hinput hv⟩

/-- Emits alone. -/
theorem streams_emitAll_only {fields : List (Nat × Nat)} {s u : State} (hr : regionsOk s = true) (hl : WriterLegal s)
    (hs : Over u s) (hw : ∀ x ∈ fields, x.2 ≤ 25) : Streams (emitAll fields s) s fields u := by
  have h := streams_emitAll (g := id) hr hl hs hw (.refl u) fun _ _ => rfl
  rwa [show (fun t => (Except.ok (id t) : Except Trap State)) = pure from rfl, bind_pure] at h

/-- Nothing streamed. -/
theorem streams_ok {s u : State} (hr : regionsOk s = true) (hl : WriterLegal s) (hs : Over u s) :
    Streams (.ok s) s [] u :=
  streams_emitAll_only hr hl hs nofun

end Sys2Proof.Proofs
end

section
/-! SUPPORT. What the token loop chooses depends only on the input, the parameters, the driver's registers and the chains: two
states that agree in these choose the same token (R310, R320). -/

namespace Sys2Proof.Proofs

open Sys2Proof Sys2Proof.Machine Sys2Proof.Laws

theorem prefixLength_congr {s t : State} {c p n : Nat}
    (h : ∀ k, k < n → inputAt t (c + k) = inputAt s (c + k) ∧ inputAt t (p + k) = inputAt s (p + k)) :
    prefixLength t c p n = prefixLength s c p n := by
  induction n generalizing c p with
  | zero => rfl
  | succ n ih =>
    obtain ⟨hc, hp⟩ : inputAt t c = inputAt s c ∧ inputAt t p = inputAt s p := h 0 (Nat.succ_pos n)
    have hrest : prefixLength t (c + 1) (p + 1) n = prefixLength s (c + 1) (p + 1) n := ih fun k hk => by
      have := h (k + 1) (Nat.succ_lt_succ hk)
      rwa [← Nat.add_assoc, ← Nat.add_assoc, Nat.add_right_comm c, Nat.add_right_comm p] at this
    rw [prefixLength, prefixLength, hc, hp, hrest]

/-- A candidate of a chain lies below the position, within the window (R171). -/
theorem chainFrom_valid {s : State} {p n x : Nat} {c : Word} (h : x ∈ chainFrom s p n c) : x < p ∧ p < x + 32768 := by
  induction n generalizing c with
  | zero => cases h
  | succ n ih =>
    rw [chainFrom] at h
    split at h
    · rename_i hv
      rcases List.mem_cons.mp h with rfl | h
      · exact (validCandidate_iff.mp hv).2
      · exact ih h
    · cases h

/-- The two states agree in all that the search and the probe of a step read. -/
structure SameSearch (s t : State) : Prop where
  params : t.params = s.params
  pos    : t.driver.pos = s.driver.pos
  be     : t.driver.be = s.driver.be
  lvl    : t.driver.lvl = s.driver.lvl
  input  : ∀ k, k < s.driver.be.toNat → inputAt t k = inputAt s k
  chain  : ∀ q n b, q = s.driver.pos.toNat ∨ q = s.driver.pos.toNat + 1 →
    chainFrom t q n (Cells.get Config.nil t.head b) = chainFrom s q n (Cells.get Config.nil s.head b)

section
variable {s t : State} (h : SameSearch s t)
include h

theorem SameSearch.bucketAt {q : Nat} (hq : q + 4 ≤ s.driver.be.toNat) : bucketAt t q = bucketAt s q :=
  bucketAt_congr h.params fun k hk => h.input _ (by omega)

theorem SameSearch.searchResult {q maxLen : Nat} (depth : Nat)
    (hq : q = s.driver.pos.toNat ∨ q = s.driver.pos.toNat + 1) (h4 : 4 ≤ maxLen) (hend : q + maxLen ≤ s.driver.be.toNat) :
    searchResult t q depth maxLen = searchResult s q depth maxLen := by
  rw [Machine.searchResult, Machine.searchResult, h.bucketAt (by omega), h.chain _ _ _ hq, bestOf_eq_foldl, bestOf_eq_foldl]
  refine List.foldl_ext _ _ _ fun best c hc => ?_
  have hlt := (chainFrom_valid hc).1
  rw [betterMatch, betterMatch,
    prefixLength_congr (s := s) fun k hk => ⟨h.input _ (by omega), h.input _ (by omega)⟩]

theorem SameSearch.stepMaxLen : stepMaxLen t = stepMaxLen s := by
  rw [Machine.stepMaxLen, Machine.stepMaxLen, h.pos, h.be]

theorem SameSearch.stepNice : stepNice t = stepNice s := by
  rw [Machine.stepNice, Machine.stepNice, h.stepMaxLen, h.params, h.lvl]

theorem SameSearch.stepMatch : stepMatch t = stepMatch s := by
  rw [Machine.stepMatch, Machine.stepMatch, h.stepMaxLen, h.pos, h.lvl]
  refine if_ctx_congr Iff.rfl (fun h4 => h.searchResult _ (.inl rfl) h4 ?_) fun _ => rfl
  simp only [Machine.stepMaxLen] at h4 ⊢
  omega

theorem SameSearch.probeIsLonger : probeIsLonger t = probeIsLonger s := by
  simp only [Machine.probeIsLonger, h.stepMatch, h.stepNice, h.pos, h.be, h.lvl]
  by_cases hp : 4 ≤ (Machine.stepMatch s).1 ∧ (Machine.stepMatch s).1 < Machine.stepNice s
  · obtain ⟨h4, hnice⟩ := hp
    simp only [Machine.stepNice, Machine.stepMaxLen] at hnice
    rw [h.searchResult _ (.inr rfl) (by omega) (by omega)]
  · have hoff : (decide (4 ≤ (Machine.stepMatch s).1) && decide ((Machine.stepMatch s).1 < Machine.stepNice s)) = false := by
      simpa only [Bool.and_eq_false_iff, decide_eq_false_iff_not, not_and_or] using hp
    simp only [Bool.and_assoc, hoff, Bool.false_and, Bool.and_false]

/-- The two states choose the same token. -/
theorem SameSearch.chosenToken (hlt : s.driver.pos.toNat < s.driver.be.toNat) : chosenToken t = chosenToken s := by
  rw [Machine.chosenToken, Machine.chosenToken, h.stepMatch, h.probeIsLonger, h.pos, h.input _ hlt]

theorem SameSearch.insertions (p : Nat) (tok : Token) : insertions t p tok = insertions s p tok := by
  cases tok with
  | lit b => rfl
  | copy len dist => rw [Machine.insertions, Machine.insertions, h.lvl, h.stepNice]

end

end Sys2Proof.Proofs
end

section
/-! SUPPORT. COMPRESS streams the fields of `streamFields` (R302 to R306): each part of the driver, from a state over a
bufferless one, streams the fields the bufferless reading gives it and ends over the state that reading ends in. -/

namespace Sys2Proof.Proofs

open Sys2Proof Sys2Proof.Machine Sys2Proof.Laws

/-! ### Tokens (R310) -/

/-- Over chains that hold only inserted positions, every candidate's PREV entry is written (R58). -/
theorem chainFrom_written {S : Set Nat} {q p n x : Nat} {c : Word} {s : State} (h : ChainsOver S q s) (hq : q ≤ p + 1)
    (hc : LeadsInto S c) (hx : x ∈ chainFrom s p n c) : (Cells.find s.prev (x % Config.win)).isSome = true := by
  induction n generalizing c with
  | zero => cases hx
  | succ n ih =>
    rw [chainFrom] at hx
    split at hx
    · rename_i hv
      obtain ⟨hnil, -, hwin⟩ := validCandidate_iff.mp hv
      obtain ⟨v, hfind, hnext⟩ := h.prev c.toNat (hc.resolve_left hnil) (by simp only [Config.win]; omega)
      rcases List.mem_cons.mp hx with rfl | hx
      · rw [hfind]; rfl
      · rw [hfind] at hx
        exact ih hnext hx
    · cases hx

theorem chainsWritten_of_chained {d : Nat} {s : State} (h : Chained d s.driver.pos.toNat s) : ChainsWritten s := by
  obtain ⟨-, S, hS⟩ := h
  intro q hq _ c hc
  exact chainFrom_written hS (by omega) (hS.head _) hc

/-- The bufferless state chooses the same token. -/
theorem Over.sameSearch {u s : State} (h : Over u s) (hbe : u.driver.be.toNat ≤ u.inLen.toNat) : SameSearch u s := by
  have hchain : ∀ (p n : Nat) (c : Word), chainFrom (overlay s u) p n c = chainFrom u p n c := by
    intro p n c
    induction n generalizing c with
    | zero => rfl
    | succ n ih => rw [chainFrom, chainFrom, ih]; rfl
  rw [h.state]
  exact ⟨rfl, rfl, rfl, rfl, fun k hk => h.input k (hk.trans_le hbe), fun q n b _ => hchain q n _⟩

theorem Over.tokenFields {u s : State} (h : Over u s) (tok : Token) : tokenFields s tok = tokenFields u tok := by
  rw [h.state]
  cases tok <;> rfl

/-- A step of the token loop streams the chosen token. -/
theorem tokenStep_streams {d : Nat} {s u : State} (hr : regionsOk s = true) (hl : WriterLegal s) (hs : Over u s)
    (hlt : s.driver.pos.toNat < s.driver.be.toNat) (hbe : s.driver.be.toNat ≤ s.inLen.toNat)
    (hc : Chained d s.driver.pos.toNat s) :
    Streams (tokenStep s) s (tokenFields u (chosenToken u)) (afterToken u (chosenToken u)) := by
  have hsame : SameSearch u s := hs.sameSearch (by rw [hs.state] at hbe; exact hbe)
  have htok : chosenToken s = chosenToken u := hsame.chosenToken (by rw [hs.state] at hlt; exact hlt)
  rw [tokenStep_written hr hlt hbe (chainsWritten_of_chained hc), htok, ← hs.tokenFields]
  exact streams_emitAll hr hl hs (tokenFields_width s _) (bookkeeping_of_tokensOnly (afterToken_tokensOnly u _))
    fun t ht => afterToken_overlay ht _

/-- Tokens keep the codes they are coded with. -/
theorem tokenFields_tokensOnly {s t : State} (h : TokensOnly s t) : tokenFields t = tokenFields s := by
  rw [h]
  funext tok
  cases tok <;> rfl

/-- The token loop streams the tokens of the block. -/
theorem tokenLoop_streams {d : Nat} (fuel : Nat) {s u : State} (hr : regionsOk s = true) (hl : WriterLegal s)
    (hs : Over u s) (hbe : s.driver.be.toNat ≤ s.inLen.toNat) (hc : Chained d s.driver.pos.toNat s) :
    Streams (tokenLoop fuel s) s ((blockTokens fuel u).1.flatMap (tokenFields u)) (blockTokens fuel u).2 := by
  induction fuel generalizing s u with
  | zero => exact streams_ok hr hl hs
  | succ fuel ih =>
    have hguard : s.driver.pos.toNat < s.driver.be.toNat ↔ u.driver.pos.toNat < u.driver.be.toNat := by
      rw [hs.state]; rfl
    rw [tokenLoop, blockTokens]
    by_cases hlt : s.driver.pos.toNat < s.driver.be.toNat
    case neg =>
      rw [if_neg hlt, if_neg (mt hguard.mpr hlt)]
      exact streams_ok hr hl hs
    case pos =>
      rw [if_pos hlt, if_pos (hguard.mp hlt)]
      refine (tokenStep_streams hr hl hs hlt hbe hc).bind fun t ht hst => ?_
      obtain ⟨hwork, hdriver, -, -⟩ := (tokenStep_spec hr hlt hbe).1 t ht
      rw [← tokenFields_tokensOnly (afterToken_tokensOnly u (chosenToken u))]
      exact ih (hwork.regionsOk hr) hst.writer hst.base (by rw [hdriver, hwork.inLen]; exact hbe)
        (tokenStep_chained hr hlt hbe hc ht)

/-! ### Blocks (R302, R305) -/

/-- The greatest of 4 and the places one past those listed. -/
theorem foldl_max_succ (xs : List Nat) (a : Nat) :
    a ≤ xs.foldl (fun m k => max m (k + 1)) a ∧ (∀ k ∈ xs, k < xs.foldl (fun m k => max m (k + 1)) a) ∧
      (xs.foldl (fun m k => max m (k + 1)) a = a ∨ ∃ k ∈ xs, xs.foldl (fun m k => max m (k + 1)) a = k + 1) := by
  induction xs generalizing a with
  | nil => exact ⟨le_refl a, nofun, .inl rfl⟩
  | cons x xs ih =>
    obtain ⟨hge, hlt, heq⟩ := ih (max a (x + 1))
    rw [List.foldl_cons]
    refine ⟨(le_max_left _ _).trans hge, fun k hk => ?_, ?_⟩
    · rcases List.mem_cons.mp hk with rfl | hk
      · exact (le_max_right _ _).trans hge
      · exact hlt k hk
    · rcases heq with heq | ⟨k, hk, heq⟩
      · rcases max_choice a (x + 1) with hm | hm
        · exact .inl (heq.trans hm)
        · exact .inr ⟨x, List.mem_cons_self, heq.trans hm⟩
      · exact .inr ⟨k, List.mem_cons_of_mem x hk, heq⟩

/-- The bufferless reading of hclen is R267's. -/
theorem hclenOf_isHclen (s : State) : IsHclen s (hclenOf s) := by
  obtain ⟨hge, hlt, heq⟩ := foldl_max_succ
    ((List.range 19).filter (fun k => Cells.get 0 s.lenPre (preCodeOrder.getD k 0) ≠ 0)) 4
  simp only [List.mem_filter, List.mem_range, decide_eq_true_eq] at hlt heq
  rw [← hclenOf] at hge hlt heq
  refine ⟨hge, ?_, fun k hk h19 => ?_, ?_⟩
  · rcases heq with heq | ⟨k, ⟨hk, -⟩, heq⟩ <;> omega
  · by_contra hne
    have := hlt k ⟨h19, hne⟩
    omega
  · rcases heq with heq | ⟨k, ⟨-, hne⟩, heq⟩
    · exact .inl heq
    · exact .inr (by rw [heq]; exact hne)

theorem blockHeader_fields (bfinal : Bool) (s : State) :
    blockHeader bfinal s = emitAll (headerFields s bfinal (hclenOf s)) s := by
  rw [blockHeader_eq, isHclen_unique (hclenOf_isHclen s) (headerHclen_isHclen s)]

theorem setCodes_overlay (a : Alphabet) (lens : Cells (BitVec 4)) (codes : Cells (BitVec 16)) (w s : State) :
    setCodes a lens codes (overlay w s) = overlay w (setCodes a lens codes s) := by
  cases a <;> rfl

theorem buildCodes_overlay (a : Alphabet) (w s : State) : buildCodes a (overlay w s) = overlay w (buildCodes a s) := by
  have hfreq : alphabetFreq a (overlay w s) = alphabetFreq a s := by cases a <;> rfl
  rw [buildCodes, buildCodes, hfreq, setCodes_overlay]

theorem runEncode_overlay (w s : State) : runEncode (overlay w s) = overlay w (runEncode s) := by
  simp only [runEncode, overlay, lengthSequence]

theorem startTables_overlay (w s : State) : startTables (overlay w s) = overlay w (startTables s) := by
  have hclear : ∀ u, clearFreqs (overlay w u) = overlay w (clearFreqs u) := fun _ => rfl
  rw [startTables, buildCodes_overlay, buildCodes_overlay, hclear, runEncode_overlay, buildCodes_overlay, ← startTables]

theorem hclenOf_congr {s t : State} (h : t.lenPre = s.lenPre) : hclenOf t = hclenOf s := by rw [hclenOf, hclenOf, h]

/-- The header's fields, from the tables of s (R263). -/
def blockHeaderFields (s : State) : List (Nat × Nat) := headerFields s false (hclenOf s)

theorem blockHeaderFields_overlay (w s : State) : blockHeaderFields (overlay w s) = blockHeaderFields s := by
  rw [blockHeaderFields, blockHeaderFields, hclenOf_congr (s := s) rfl]
  rfl

theorem blockHeaderFields_setPos (p : Nat) (s : State) : blockHeaderFields (setPos p s) = blockHeaderFields s := by
  rw [blockHeaderFields, blockHeaderFields, hclenOf_congr (s := s) rfl]
  rfl

/-- The header of a block streams from before its tables are built. -/
theorem blockStart_streams {s u : State} (hr : regionsOk s = true) (hl : WriterLegal s) (hs : Over u s)
    (hb : BuildersFit s) :
    Streams (blockStart (cutBlock s)) s (blockHeaderFields (startTables (cutBlock u))) (startTables (cutBlock u)) := by
  have hcut : cutBlock s = overlay s (cutBlock u) := by rw [hs.state]; rfl
  have hopen : startTables (cutBlock s) = overlay s (startTables (cutBlock u)) := by rw [hcut, startTables_overlay]
  have hbook : ∀ v, Bookkeeping v (startTables (cutBlock v)) := fun v =>
    Bookkeeping.trans (t := cutBlock v) rfl (bookkeeping_of_codesOnly (startTables_codesOnly (cutBlock v)))
  have hlegal : WriterLegal (startTables (cutBlock s)) := (codesOnly_work (startTables_codesOnly (cutBlock s))).2 hl
  have hover : Over (startTables (cutBlock u)) (startTables (cutBlock s)) := by
    rw [hopen]
    exact Over.of_bookkeeping hs.input (hbook u)
  have hheader : blockHeader false (startTables (cutBlock s)) =
      emitAll (blockHeaderFields (startTables (cutBlock u))) (startTables (cutBlock s)) := by
    rw [← blockHeaderFields_overlay s, ← hopen]
    exact blockHeader_fields false _
  rw [blockStart_eq (s := cutBlock s) hb, hheader]
  exact (streams_emitAll_only ((hbook s).work.regionsOk hr) hlegal hover (headerFields_width _ _ _)).start (hbook s)

/-- The end-of-block symbol streams, and the block is closed. -/
theorem endOfBlock_streams {s u : State} (hr : regionsOk s = true) (hl : WriterLegal s) (hs : Over u s) :
    Streams (emitEndOfBlock s >>= fun t => .ok (closeBlock t)) s [symbolField .litLen u 256]
      (closeBlock (countLit 256 u)) := by
  have hfield : symbolField .litLen s 256 = symbolField .litLen u 256 := by rw [hs.state]; rfl
  rw [emitEndOfBlock_eq, bind_assoc, hfield]
  exact streams_emitAll (g := fun t => closeBlock (countLit 256 t)) hr hl hs
    (hfield ▸ symbolField_narrow .litLen s 256) (by rfl) fun _ _ => rfl

theorem Over.driver {u s : State} (h : Over u s) : s.driver = { u.driver with dstate := s.driver.dstate } :=
  congrArg State.driver h.state

theorem Over.setPos {u s : State} (h : Over u s) (p : Nat) : Over (setPos p u) (setPos p s) :=
  ⟨congrArg (Machine.setPos p) h.state, h.input⟩

/-- The tokens of an opened block and its end-of-block symbol. -/
theorem blockBody_streams {d : Nat} {s b : State} (hr : regionsOk s = true) (hl : WriterLegal s) (hs : Over b s)
    (hbe : s.driver.be.toNat ≤ s.inLen.toNat) (hc : Chained d s.driver.pos.toNat s) :
    Streams (do
        let t ← tokenLoop (s.driver.be.toNat - s.driver.bs.toNat) s
        let t ← emitEndOfBlock t
        .ok (closeBlock t)) s
      ((wholeBlock b).1.flatMap (tokenFields b) ++ [symbolField .litLen b 256])
      (closeBlock (countLit 256 (wholeBlock b).2)) := by
  have hcodes : symbolField .litLen (wholeBlock b).2 256 = symbolField .litLen b 256 := by
    rw [wholeBlock, blockTokens_tokensOnly]
    rfl
  rw [hs.driver, ← hcodes]
  exact (tokenLoop_streams _ hr hl hs hbe hc).bind fun t _ ht => endOfBlock_streams (ht.work.regionsOk hr) ht.writer ht.base

/-- A block streams its header, its tokens and its end-of-block symbol. -/
theorem blockRound_streams {d : Nat} {s u : State} (hr : regionsOk s = true) (hl : WriterLegal s) (hs : Over u s)
    (hb : BuildersFit s) (hc : Chained d s.driver.bs.toNat s) :
    Streams (blockRound s) s (nextBlock u).1.fields (nextBlock u).2 := by
  have hcut : Work s (cutBlock s) := .of_tables rfl
  have hfields : (nextBlock u).1.fields = blockHeaderFields (startTables (cutBlock u)) ++
      ((wholeBlock (openBlock u)).1.flatMap (tokenFields (openBlock u)) ++ [symbolField .litLen (openBlock u) 256]) := by
    rw [← blockHeaderFields_setPos, ← List.append_assoc]
    rfl
  rw [hfields]
  refine (blockStart_streams hr hl hs hb).bind fun t ht hst => ?_
  obtain ⟨hwork, hdriver⟩ := (blockStart_unit (hcut.regionsOk hr)).1 t ht
  have hrt : regionsOk t = true := hwork.regionsOk (hcut.regionsOk hr)
  have hbe : t.driver.be.toNat ≤ t.inLen.toNat := by
    rw [hdriver, hwork.inLen, cutBlock_driver, word_toNat_of_lt (lt_of_le_of_lt (Nat.min_le_right _ _) s.inLen.isLt)]
    exact Nat.min_le_right _ _
  have hchain : Chained d t.driver.bs.toNat t := by
    rw [hdriver]
    exact (hc.of_same (t := cutBlock s) ⟨rfl, rfl, rfl⟩).of_same (blockStart_sameChains ht)
  have hbs : t.driver.bs = u.driver.bs :=
    (congrArg Driver.bs hdriver).trans (by rw [cutBlock_driver, hs.driver])
  have hopened : Over (openBlock u) (setPos t.driver.bs.toNat t) := by
    rw [hbs]
    exact hst.base.setPos _
  exact (blockBody_streams (s := setPos t.driver.bs.toNat t) hrt hst.writer hopened hbe
    (setPos_chained hchain t.driver.bs.isLt)).start rfl

/-- The block loop streams the blocks. -/
theorem blockLoop_streams {d : Nat} (fuel : Nat) {s u : State} (hr : regionsOk s = true) (hl : WriterLegal s)
    (hs : Over u s) (hbs : s.driver.bs.toNat ≤ s.inLen.toNat) (hc : Chained d s.driver.bs.toNat s)
    (hb : s.driver.bs.toNat < s.inLen.toNat → BuildersFit s ∧ s.params.blkMax ≤ 2 ^ 21) :
    Streams (blockLoop fuel s) s ((blocksFrom fuel u).1.flatMap Block.fields) (blocksFrom fuel u).2 := by
  induction fuel generalizing s u with
  | zero => exact streams_ok hr hl hs
  | succ fuel ih =>
    have hguard : s.driver.bs.toNat < s.inLen.toNat ↔ u.driver.bs.toNat < u.inLen.toNat := by
      rw [hs.state]; rfl
    rw [blockLoop_succ, blocksFrom]
    by_cases hlt : s.driver.bs.toNat < s.inLen.toNat
    case neg =>
      rw [if_neg hlt, if_neg (mt hguard.mpr hlt)]
      exact streams_ok hr hl hs
    case pos =>
      obtain ⟨hfit, hmax⟩ := hb hlt
      rw [if_pos hlt, if_pos (hguard.mp hlt)]
      refine (blockRound_streams hr hl hs hfit hc).bind fun t ht hst => ?_
      obtain ⟨hwork, -, -, -, hbst, -⟩ := (blockRound_spec hr hbs).1 t ht
      have hfitT : BuildersFit t := by
        rcases blockRound_endsIn hr hl hfit hmax with ⟨v, hv, -, hfv⟩ | ⟨info, hinfo⟩
        · cases ht.symm.trans hv
          exact hfv
        · cases ht.symm.trans hinfo
      exact ih (hwork.regionsOk hr) hst.writer hst.base (by rw [hbst, hwork.inLen]; omega)
        (blockRound_chained hr hbs hc ht) fun _ => ⟨hfitT, by rw [hwork.params]; exact hmax⟩

/-! ### A whole COMPRESS (R302, R303) -/

/-- What the blocks change: the tables and the block registers. -/
def BlocksOnly (s u : State) : Prop :=
  u = { s with
    head := u.head, prev := u.prev, freqLit := u.freqLit, freqDist := u.freqDist, freqPre := u.freqPre
    lenLit := u.lenLit, lenDist := u.lenDist, lenPre := u.lenPre, codeLit := u.codeLit, codeDist := u.codeDist
    codePre := u.codePre, rleItem := u.rleItem, rleCount := u.rleCount
    driver := { s.driver with pos := u.driver.pos, bs := u.driver.bs, be := u.driver.be, nblk := u.driver.nblk } }

theorem BlocksOnly.trans {s t u : State} (h : BlocksOnly s t) (h' : BlocksOnly t u) : BlocksOnly s u := by
  rw [BlocksOnly] at h h' ⊢
  rw [h', h]

theorem blocksOnly_of_tokensOnly {s t : State} (h : TokensOnly s t) : BlocksOnly s t := by
  rw [h]; exact rfl

theorem blocksOnly_of_codesOnly {s t : State} (h : CodesOnly s t) : BlocksOnly s t := by
  rw [h]; exact rfl

theorem countLit_blocksOnly (sym : Nat) (s : State) : BlocksOnly s (countLit sym s) := rfl

theorem cutBlock_blocksOnly (s : State) : BlocksOnly s (cutBlock s) := rfl

theorem closeBlock_blocksOnly (s : State) : BlocksOnly s (closeBlock s) := rfl

theorem openBlock_blocksOnly (s : State) : BlocksOnly s (openBlock s) :=
  ((cutBlock_blocksOnly s).trans (blocksOnly_of_codesOnly (startTables_codesOnly _))).trans
    (blocksOnly_of_tokensOnly (setPos_tokensOnly _ _))

theorem nextBlock_blocksOnly (s : State) : BlocksOnly s (nextBlock s).2 := by
  have htokens : BlocksOnly s (wholeBlock (openBlock s)).2 :=
    (openBlock_blocksOnly s).trans (blocksOnly_of_tokensOnly (blockTokens_tokensOnly _ _))
  exact (htokens.trans (countLit_blocksOnly 256 _)).trans (closeBlock_blocksOnly _)

theorem blocksFrom_blocksOnly (fuel : Nat) (s : State) : BlocksOnly s (blocksFrom fuel s).2 := by
  induction fuel generalizing s with
  | zero => exact rfl
  | succ fuel ih =>
    rw [blocksFrom]
    split
    · exact (nextBlock_blocksOnly s).trans (ih _)
    · exact rfl

end Sys2Proof.Proofs
end

section
/-! SUPPORT. The end of a COMPRESS (R302, R306, R307, R321): the driver as a whole streams `streamFields`, and what it leaves is the
state `Compressed` gives; the stream of the empty input is its framing alone. -/

namespace Sys2Proof.Proofs

open Sys2Proof Sys2Proof.Machine Sys2Proof.Laws

/-! ### Init (R303) -/

/-- The state Init leaves, with its ADLER, less the output: BS is not set yet. -/
def initState (level : BitVec 4) (container : Bool) (adler : Word) (s : State) : State :=
  { seedFreqs (resetHead (resetWriter s)) with
    driver := { s.driver with lvl := level, cont := container, nblk := 0 }, adler := adler }

/-- ADLER after Init: the checksum of the input in the container, else the old one (R303). -/
def initAdler (container : Bool) (s : State) : Word :=
  if container then adlerStep 0x00000001 (inputBytesOf s) else s.adler

theorem startState_eq (level : BitVec 4) (container : Bool) (s : State) :
    startState level container s = { initState level container (initAdler container s) s with
      driver := { (initState level container (initAdler container s) s).driver with bs := 0 } } := by
  simp only [startState, initState, initAdler]

/-- The concrete state Init has set up before the header of the container. -/
def initRegisters (level : BitVec 4) (container : Bool) (adler : Word) (s : State) : State :=
  { seedFreqs (resetHead (resetWriter
      { s with driver := { s.driver with dstate := .header, lvl := level, cont := container, nblk := 0 } })) with
    adler := adler }

@[simp] theorem initRegisters_mem (level : BitVec 4) (container : Bool) (adler : Word) (s : State) :
    (initRegisters level container adler s).mem = s.mem := by
  simp only [initRegisters, seedFreqs_mem, resetHead_mem, resetWriter_mem]

@[simp] theorem initRegisters_inBase (level : BitVec 4) (container : Bool) (adler : Word) (s : State) :
    (initRegisters level container adler s).inBase = s.inBase := by
  simp only [initRegisters, seedFreqs_inBase, resetHead_inBase, resetWriter_inBase]

theorem initRegisters_bookkeeping (level : BitVec 4) (container : Bool) (adler : Word) (s : State) :
    Bookkeeping (resetWriter s) (initRegisters level container adler s) := by
  simp only [Bookkeeping, initRegisters, seedFreqs, resetHead, resetWriter]

@[simp] theorem initState_mem (level : BitVec 4) (container : Bool) (adler : Word) (s : State) :
    (initState level container adler s).mem = s.mem := by
  simp only [initState, seedFreqs_mem, resetHead_mem, resetWriter_mem]

@[simp] theorem initState_inBase (level : BitVec 4) (container : Bool) (adler : Word) (s : State) :
    (initState level container adler s).inBase = s.inBase := by
  simp only [initState, seedFreqs_inBase, resetHead_inBase, resetWriter_inBase]

@[simp] theorem initState_inLen (level : BitVec 4) (container : Bool) (adler : Word) (s : State) :
    (initState level container adler s).inLen = s.inLen := by
  simp only [initState, seedFreqs_inLen, resetHead_inLen, resetWriter_inLen]

/-- Init keeps the input, and sets up the bufferless state. -/
theorem initRegisters_over {s u : State} (hs : Over u s) (level : BitVec 4) (container : Bool) (adler : Word) :
    Over (initState level container adler u) (initRegisters level container adler s) := by
  have hstate : initRegisters level container adler s =
      overlay (initRegisters level container adler s) (initState level container adler u) := by
    rw [hs.state]
    simp only [initRegisters, initState, overlay, seedFreqs, resetHead, resetWriter]
  refine ⟨hstate, fun k hk => ?_⟩
  rw [initState_inLen] at hk
  have hin := hs.input k hk
  rw [← hs.state] at hin
  rw [← hstate]
  simpa only [inputAt, initRegisters_mem, initRegisters_inBase, initState_mem, initState_inBase] using hin

theorem regionsOk_initRegisters {s : State} (hr : regionsOk s = true) (level : BitVec 4) (container : Bool)
    (adler : Word) : regionsOk (initRegisters level container adler s) = true :=
  (initRegisters_bookkeeping level container adler s).work.regionsOk hr

/-- The whole input read is the bufferless state's. -/
theorem Over.inputBytes {u s : State} (h : Over u s) (hr : regionsOk s = true) :
    inputBytes s 0 s.inLen.toNat = .ok (inputBytesOf u) := by
  have hlen : s.inLen = u.inLen := by rw [h.state]; rfl
  rw [inputBytes_ok hr s.inLen.toNat 0 (Nat.zero_add _).le, inputBytesOf, hlen]
  refine congrArg Except.ok (List.map_congr_left fun k hk => ?_)
  have hin := h.input k (List.mem_range.mp hk)
  rw [← h.state] at hin
  rw [Nat.zero_add, hin]

theorem compressInit_eq {level : BitVec 4} {container : Bool} {s u : State} (hr : regionsOk s = true) (hs : Over u s) :
    compressInit level container s =
      emitAll (if container then [(0x78, 8), (0x01, 8)] else [])
        (initRegisters level container (initAdler container u) s) := by
  cases container with
  | false =>
    have hadler : initAdler false u = s.adler := by rw [hs.state]; rfl
    rw [hadler]
    simp only [compressInit, initRegisters, seedFreqs, resetHead, resetWriter, Bool.false_eq_true, if_false, emitAll_nil]
  | true =>
    have hread := (initRegisters_over hs level true s.adler).inputBytes (regionsOk_initRegisters hr level true s.adler)
    have hbytes : inputBytesOf (initState level true s.adler u) = inputBytesOf u := by
      rw [inputBytesOf, inputBytesOf, initState_inLen]
      exact List.map_congr_left fun k _ => by rw [inputAt, inputAt, initState_mem, initState_inBase]
    rw [hbytes] at hread
    simp only [initRegisters, seedFreqs, resetHead, resetWriter] at hread
    simp only [compressInit, initRegisters, initAdler, seedFreqs, resetHead, resetWriter, if_true, hread, bind_ok,
      zlibHeader_eq]

theorem compressInit_streams {level : BitVec 4} {container : Bool} {s u : State} (hr : regionsOk s = true)
    (hs : Over u s) :
    Streams (compressInit level container s) (resetWriter s) (if container then [(0x78, 8), (0x01, 8)] else [])
      (initState level container (initAdler container u) u) := by
  have hlegal : WriterLegal (initRegisters level container (initAdler container u) s) := by
    rw [initRegisters_bookkeeping]
    exact writerLegal_of_empty rfl rfl
  have hwidth : ∀ x ∈ (if container then [(0x78, 8), (0x01, 8)] else [] : List (Nat × Nat)), x.2 ≤ 25 := by
    cases container <;> decide
  rw [compressInit_eq hr hs]
  exact (streams_emitAll_only (regionsOk_initRegisters hr _ _ _) hlegal (initRegisters_over hs _ _ _) hwidth).start
    (initRegisters_bookkeeping _ _ _ _)

/-! ### The driver's states in turn (R302) -/

theorem Over.enter {u s : State} (h : Over u s) (d : DState) : Over u (enter d s) :=
  ⟨congrArg (Machine.enter d) h.state, h.input⟩

theorem enter_bookkeeping (d : DState) (s : State) : Bookkeeping s (enter d s) := rfl

/-- COMPRESS up to its first block (R302, R303). -/
def compressStart (level : BitVec 4) (container : Bool) (s : State) : Except Trap State :=
  compressInit level container s >>= fun t => .ok (enter .block { t with driver := { t.driver with bs := 0 } })

/-- COMPRESS up to the end of its stream (R302). -/
def compressBody (level : BitVec 4) (container : Bool) (s : State) : Except Trap State := do
  let s ← compressStart level container s
  let s ← blockLoop s.inLen.toNat s
  let s ← terminator (enter .terminator s)
  let s ← pad (enter .padding s)
  compressTrailer s

theorem compressRun_eq (level : BitVec 4) (container : Bool) (s : State) :
    compressRun level container s = compressBody level container s >>= fun t =>
      .ok (enter .finish { t with res0 := t.outPos, res1 := t.driver.nblk }) := by
  simp only [compressRun, compressBody, compressStart, bind_assoc, bind_ok]

/-- The terminator after the blocks. -/
theorem terminator_streams {s u : State} (hr : regionsOk s = true) (hl : WriterLegal s) (hs : Over u s) :
    Streams (terminator (enter .terminator s)) s [(1, 1), (1, 2), (0, 7)] u := by
  rw [terminator_eq]
  exact (streams_emitAll_only (s := enter .terminator s) hr hl (hs.enter _) (by decide)).start (enter_bookkeeping _ s)

/-- Pad after `w` bits in all. -/
theorem pad_streams {s u : State} {w : Nat} (hr : regionsOk s = true) (hl : WriterLegal s) (hs : Over u s)
    (hw : s.bitCnt.toNat = w % 8) : Streams (pad (enter .padding s)) s [(0, (8 - w % 8) % 8)] u := by
  rw [pad_eq]
  have h := (streams_emitAll_only (s := enter .padding s) hr hl (hs.enter _) (padFields_width (enter .padding s))).start
    (enter_bookkeeping _ s)
  refine h.congr ?_ ?_
  · rw [fieldsValue_padFields]
    simp [fieldsValue]
  · simp only [padFields, enter_bitCnt, hw, fieldsWidth, Nat.add_zero]
    by_cases h0 : w % 8 = 0
    · rw [if_pos h0, h0]
      rfl
    · rw [if_neg h0]
      simp only [fieldsWidth]
      omega

/-- The trailer, in the container. -/
theorem compressTrailer_streams {s u : State} (hr : regionsOk s = true) (hl : WriterLegal s) (hs : Over u s) :
    Streams (compressTrailer s) s (if u.driver.cont then trailerFields u.adler else []) u := by
  have hcont : s.driver.cont = u.driver.cont := by rw [hs.driver]
  have hadler : s.adler = u.adler := by rw [hs.state]; rfl
  rw [compressTrailer, hcont]
  split
  · rw [emitBigEndian_eq_shifts, hadler]
    exact (streams_emitAll_only (s := enter .trailer s) hr hl (hs.enter _) (by simp)).start (enter_bookkeeping _ s)
  · exact streams_ok hr hl hs

/-- The blocks change no register that Init set. -/
theorem compressBlocks_registers (level : BitVec 4) (container : Bool) (s : State) :
    (compressBlocks level container s).2.adler = initAdler container s ∧
      (compressBlocks level container s).2.driver.cont = container := by
  rw [compressBlocks, blocksFrom_blocksOnly]
  exact ⟨rfl, rfl⟩

/-- The fields of the stream before its padding (R302). -/
def bodyFields (level : BitVec 4) (container : Bool) (s : State) : List (Nat × Nat) :=
  (if container then [(0x78, 8), (0x01, 8)] else []) ++ (compressBlocks level container s).1.flatMap Block.fields ++
    [(1, 1), (1, 2), (0, 7)]

theorem streamFields_eq (level : BitVec 4) (container : Bool) (s : State) : streamFields level container s =
    bodyFields level container s ++ [(0, (8 - fieldsWidth (bodyFields level container s) % 8) % 8)] ++
      if container then trailerFields (initAdler container s) else [] := rfl

/-- The header of the container streams, and BS is set to the start of the input. -/
theorem compressStart_streams {level : BitVec 4} {container : Bool} {s u : State} (hr : regionsOk s = true)
    (hs : Over u s) :
    Streams (compressStart level container s) (resetWriter s) (if container then [(0x78, 8), (0x01, 8)] else [])
      (startState level container u) := by
  rw [compressStart, ← List.append_nil (if container then _ else _)]
  refine (compressInit_streams hr hs).bind fun t _ ht => ?_
  have hbook : Bookkeeping t (enter .block { t with driver := { t.driver with bs := 0 } }) := rfl
  have hover : Over (startState level container u) (enter .block { t with driver := { t.driver with bs := 0 } }) := by
    rw [startState_eq]
    refine ⟨?_, ht.base.input⟩
    exact congrArg (fun v => enter .block { v with driver := { v.driver with bs := 0 } }) ht.base.state
  exact (streams_ok (hbook.work.regionsOk (ht.work.regionsOk hr)) ht.writer hover).start hbook

/-- What the block loop asks of the state it starts in. -/
theorem compressStart_ready {level : BitVec 4} {container : Bool} {s t : State} (hr : regionsOk s = true)
    (ht : compressStart level container s = .ok t) :
    t.driver.bs.toNat = 0 ∧ Chained s.draws t.driver.bs.toNat t ∧ (P_params s → BuildersFit t) := by
  obtain ⟨v, hv, hvt⟩ := bind_eq_ok.mp ht
  cases hvt
  refine ⟨rfl, (compressInit_chained hv).of_same ⟨rfl, rfl, rfl⟩, fun hp => ?_⟩
  rcases compressInit_endsIn (level := level) (container := container) hr hp with ⟨w, hw, -, hfit⟩ | ⟨info, hinfo⟩
  · cases hv.symm.trans hw
    exact hfit
  · cases hv.symm.trans hinfo

/-- The blocks stream after the container's header. An empty input has none, and its chip may have any parameters. -/
theorem compressBlocks_streams {level : BitVec 4} {container : Bool} {s u : State} (hr : regionsOk s = true)
    (hs : Over u s) (hp : s.inLen ≠ 0 → P_params s) :
    Streams (compressStart level container s >>= fun t => blockLoop t.inLen.toNat t) (resetWriter s)
      ((if container then [(0x78, 8), (0x01, 8)] else []) ++ (compressBlocks level container u).1.flatMap Block.fields)
      (compressBlocks level container u).2 := by
  refine (compressStart_streams hr hs).bind fun t ht hst => ?_
  obtain ⟨hbs, hchain, hfit⟩ := compressStart_ready hr ht
  have hlen : t.inLen = s.inLen := hst.work.inLen
  have hlenU : s.inLen = u.inLen := by rw [hs.state]; rfl
  rw [hlen, hlenU]
  refine blockLoop_streams _ (hst.work.regionsOk hr) hst.writer hst.base (by omega) hchain fun hlt => ?_
  have hps : P_params s := hp fun h0 => by
    rw [hlen, h0] at hlt
    exact absurd hlt (Nat.not_lt_zero _)
  exact ⟨hfit hps, by rw [hst.work.params]; exact (legal_params hps).1⟩

/-- The driver streams `streamFields`. -/
theorem compressBody_streams {level : BitVec 4} {container : Bool} {s u : State} (hr : regionsOk s = true)
    (hs : Over u s) (hp : s.inLen ≠ 0 → P_params s) :
    Streams (compressBody level container s) (resetWriter s) (streamFields level container u)
      (compressBlocks level container u).2 := by
  have regions : ∀ {fields v t}, Streamed (resetWriter s) t fields v → regionsOk t = true := fun h => h.work.regionsOk hr
  have hbody := (compressBlocks_streams (level := level) (container := container) hr hs hp).bind fun t _ ht =>
    terminator_streams (regions ht) ht.writer ht.base
  rw [← bodyFields] at hbody
  have hpad := hbody.bind fun t _ ht => pad_streams (w := fieldsWidth (bodyFields level container u)) (regions ht)
    ht.writer ht.base (ht.appended.2.1.trans (by rw [resetWriter_bitCnt]; simp))
  have hall := hpad.bind fun t _ ht => compressTrailer_streams (regions ht) ht.writer ht.base
  obtain ⟨hadler, hcont⟩ := compressBlocks_registers level container u
  rw [hadler, hcont, ← streamFields_eq] at hall
  simpa only [compressBody, bind_assoc] using hall

/-! ### The end of a COMPRESS (R321) -/

/-- The bufferless run changes the writer's start values, ADLER, the tables and the driver's registers. -/
theorem compressBlocks_bookkeeping (level : BitVec 4) (container : Bool) (s : State) :
    Bookkeeping (resetWriter s) (compressBlocks level container s).2 := by
  have hstart : Bookkeeping (resetWriter s) (startState level container s) := by
    simp only [Bookkeeping, startState, seedFreqs, resetHead, resetWriter]
  have hblocks := blocksFrom_blocksOnly s.inLen.toNat (startState level container s)
  refine hstart.trans ?_
  rw [compressBlocks, hblocks]
  exact rfl

/-- The padding and the trailer leave no part of a byte. -/
theorem streamFields_width (level : BitVec 4) (container : Bool) (s : State) :
    fieldsWidth (streamFields level container s) = 8 * streamLength level container s := by
  have htrailer : fieldsWidth (if container then trailerFields (initAdler container s) else []) % 8 = 0 := by
    cases container <;> simp [trailerFields, fieldsWidth]
  rw [streamLength, streamFields_eq, fieldsWidth_append, fieldsWidth_append]
  simp only [fieldsWidth]
  omega

/-- The stream starts with an empty accumulator, so its bytes are its fields' own. -/
theorem streamBytes_resetWriter (level : BitVec 4) (container : Bool) (s a : State) :
    streamBytes (resetWriter a) (streamFields level container s) = streamLength level container s := by
  rw [streamBytes, resetWriter_bitCnt, streamFields_width]
  simp

theorem hasRoom_iff_fits (level : BitVec 4) (container : Bool) (s : State) :
    HasRoom (resetWriter (accept s)) (streamFields level container s) ↔ P_fits level container s := by
  rw [HasRoom, streamBytes_resetWriter, P_fits, resetWriter_outPos, resetWriter_outCap, accept_outCap,
    show (0 : Word).toNat = 0 from rfl]
  omega

/-- What the driver leaves of the writer: the stream's length in OUTPOS, and an empty accumulator. -/
theorem streamed_writer {level : BitVec 4} {container : Bool} {s a t u : State}
    (h : Streamed (resetWriter a) t (streamFields level container s) u) :
    t.outPos.toNat = streamLength level container s ∧ t.bitCnt = 0 ∧ t.bitBuf = 0 := by
  obtain ⟨hpos, hcnt, -⟩ := h.appended
  rw [streamBytes_resetWriter, resetWriter_outPos] at hpos
  rw [resetWriter_bitCnt, streamFields_width] at hcnt
  have hcnt0 : t.bitCnt.toNat = 0 := by
    rw [hcnt]
    simp
  have hbuf := h.writer.2
  rw [hcnt0] at hbuf
  exact ⟨by simpa using hpos, BitVec.eq_of_toNat_eq hcnt0, BitVec.eq_of_toNat_eq (by simpa using hbuf)⟩

/-- The end state of a COMPRESS whose driver has streamed `streamFields`. -/
theorem compressed_of_streamed {level : BitVec 4} {container : Bool} {s t : State}
    (h : Streamed (resetWriter (accept s)) t (streamFields level container s) (compressBlocks level container s).2) :
    Compressed level container s
      (complete (enter .finish { t with res0 := t.outPos, res1 := t.driver.nblk })) := by
  obtain ⟨hpos, hcnt, hbuf⟩ := streamed_writer h
  have hposWord : t.outPos = word (streamLength level container s) :=
    BitVec.eq_of_toNat_eq (by rw [← hpos, word_toNat_of_lt t.outPos.isLt])
  obtain ⟨-, -, -, hbytes, hframe⟩ := h.appended
  rw [streamBytes_resetWriter] at hbytes hframe
  refine ⟨?_, fun j hj => ?_, fun a ha => ?_⟩
  · have hstatus : t.status = (accept s).status := h.work.status
    have hdriver := h.base.driver
    have hframe := compressBlocks_bookkeeping level container s
    have hstate := h.base.state
    generalize (compressBlocks level container s).2 = e at hframe hstate hdriver ⊢
    have hnblk : t.driver.nblk = e.driver.nblk := by rw [hdriver]
    have ht : t = { s with
        status := (accept s).status, mem := t.mem, outPos := t.outPos, bitBuf := 0, bitCnt := 0, adler := e.adler
        head := e.head, prev := e.prev, freqLit := e.freqLit, freqDist := e.freqDist, freqPre := e.freqPre
        lenLit := e.lenLit, lenDist := e.lenDist, lenPre := e.lenPre, codeLit := e.codeLit, codeDist := e.codeDist
        codePre := e.codePre, rleItem := e.rleItem, rleCount := e.rleCount
        driver := { e.driver with dstate := t.driver.dstate } } := by
      rw [hframe, overlay, hstatus, hcnt, hbuf] at hstate
      exact hstate.trans rfl
    rw [← hposWord, ← hnblk, ht]
    rfl
  · have := hbytes j hj
    simpa [streamValue] using this
  · have := hframe a
    simpa using this ha

/-! ### COMPRESS past its pre-checks -/

/-- A COMPRESS that passes its pre-checks: it completes as `Compressed` says where the stream fits OUT_CAP, and else
overflows. An empty input may come with any parameters. -/
theorem execCompress_ends {level : BitVec 4} {container : Bool} {s : State} (h : s.ready = true)
    (hp : s.inLen ≠ 0 → P_params s) (hl : level.toNat ≤ 8) (hr : regionsOk s = true)
    (hroom : outputBound s.inLen.toNat ≤ s.outCap.toNat) :
    (P_fits level container s →
      ∃ t, exec (.compress level container) s = .next t ∧ Compressed level container s t) ∧
    (¬P_fits level container s → ∃ t, exec (.compress level container) s = .next t ∧ Overflowed s.outCap s t) := by
  have hs : Over s (accept s) := ⟨rfl, fun _ _ => rfl⟩
  obtain ⟨hok, hfull⟩ := compressBody_streams (level := level) (container := container)
    (s := accept s) ((regionsOk_accept s).trans hr) hs hp
  rw [hasRoom_iff_fits] at hok hfull
  rw [execCompress_of_regionsOk container h hl hr, if_pos hroom]
  refine ⟨fun hfits => ?_, fun hfits => ?_⟩
  · obtain ⟨t, ht, hst⟩ := hok hfits
    exact ⟨_, runCommand_completes h (by rw [compressRun_eq, ht, bind_ok]), compressed_of_streamed hst⟩
  · have hcap : word (max (resetWriter (accept s)).outPos.toNat (resetWriter (accept s)).outCap.toNat) = s.outCap := by
      rw [resetWriter_outPos, resetWriter_outCap, accept_outCap, show (0 : Word).toNat = 0 from rfl, Nat.zero_max,
        word, BitVec.ofNat_toNat, BitVec.setWidth_eq]
    have hbody := hfull hfits
    rw [hcap] at hbody
    exact ⟨_, runCommand_overflows h (by rw [compressRun_eq, hbody, bind_error]), rfl, rfl, rfl, rfl,
      overflow_hostOwned s.outCap (accept s), fun a ha => memByte_drawAfterOverflow (s := accept s) hr a ha⟩

/-- Settles O46: the driver as a whole streams `streamFields`. -/
theorem compressCompletesWithRoom : Obligations.CompressCompletesWithRoom := by
  unfold Obligations.CompressCompletesWithRoom
  exact fun level container s h hp hl hr hroom => execCompress_ends h (fun _ => hp) hl (P_regions_iff.mp hr) hroom

/-! ### The empty input (R307) -/

/-- An empty input has no block, and its stream is the framing alone. -/
theorem compressBlocks_of_empty (level : BitVec 4) (container : Bool) {s : State} (h : s.inLen = 0) :
    compressBlocks level container s = ([], startState level container s) := by
  rw [compressBlocks, h]
  rfl

/-- The bytes of the empty stream (R307). -/
def emptyStream (container : Bool) : List Nat :=
  if container then [0x78, 0x01, 0x03, 0x00, 0x00, 0x00, 0x00, 0x01] else [0x03, 0x00]

theorem streamFields_of_empty (level : BitVec 4) (container : Bool) {s : State} (h : s.inLen = 0) :
    streamFields level container s =
      if container then
        [(0x78, 8), (0x01, 8), (1, 1), (1, 2), (0, 7), (0, 6), (1 / 2 ^ 24, 8), (1 / 2 ^ 16, 8), (1 / 2 ^ 8, 8), (1, 8)]
      else [(1, 1), (1, 2), (0, 7), (0, 6)] := by
  have hadler : initAdler true s = 1 := by
    rw [initAdler, inputBytesOf, h]
    exact adlerStep_nil 1
  rw [streamFields_eq, bodyFields, compressBlocks_of_empty level container h, List.flatMap_nil]
  cases container with
  | false => rfl
  | true =>
    rw [if_pos rfl, if_pos rfl, if_pos rfl, hadler]
    rfl

theorem streamLength_of_empty (level : BitVec 4) (container : Bool) {s : State} (h : s.inLen = 0) :
    streamLength level container s = (emptyStream container).length := by
  rw [streamLength, streamFields_of_empty level container h]
  cases container <;> rfl

theorem streamByte_of_empty (level : BitVec 4) (container : Bool) {s : State} (h : s.inLen = 0) :
    ∀ j, j < (emptyStream container).length →
      (byte (fieldsValue (streamFields level container s) / 2 ^ (8 * j))).toNat = (emptyStream container).getD j 0 := by
  rw [streamFields_of_empty level container h]
  cases container <;> decide

/-- Settles O45: the stream of the framing alone fits the room the pre-check asks for. -/
theorem compressEmptyInput : Obligations.CompressEmptyInput := by
  unfold Obligations.CompressEmptyInput
  intro level container s h hl hr hlen hcap
  have hlength := streamLength_of_empty level container hlen
  have hshort : (emptyStream container).length ≤ 133 := by cases container <;> decide
  have hroom : outputBound s.inLen.toNat ≤ s.outCap.toNat := by
    rw [hlen]
    exact hcap
  obtain ⟨t, ht, hstate, hbytes, hframe⟩ := (execCompress_ends (container := container) h (absurd hlen) hl hr hroom).1
    (by rw [P_fits, hlength]; exact hshort.trans hcap)
  have hnblk : (compressBlocks level container s).2.driver.nblk = 0 := by
    rw [compressBlocks_of_empty level container hlen]
    rfl
  rw [hnblk] at hstate
  rw [hlength] at hstate hbytes hframe
  refine ⟨t, ht, congrArg State.status hstate, congrArg State.res0 hstate, congrArg State.res1 hstate,
    congrArg State.outPos hstate, congrArg State.bitBuf hstate, congrArg State.bitCnt hstate, fun j hj => ?_, hframe⟩
  rw [hbytes j hj]
  exact streamByte_of_empty level container hlen j hj

end Sys2Proof.Proofs
end

section
/-! SUPPORT. The stream covers the input (R304, R318, R319): the tokens of each block expand to its bytes, the blocks are cut
at multiples of P_BLK_MAX, and no part of the stream is wider than its share of the bound. -/

namespace Sys2Proof.Proofs

open Sys2Proof Sys2Proof.Machine Sys2Proof.Laws

/-! ### The chosen token stands for the bytes at POS (R177, R179) -/

/-- A valid candidate keeps the best match a true one. -/
theorem betterMatch_fits {s : State} {p maxLen c : Nat} {best : Nat × Nat} (hlt : c < p) (hwin : p < c + 32768)
    (h : best = (0, 0) ∨ TrueMatch s p maxLen best.1 best.2) :
    betterMatch s p maxLen best c = (0, 0) ∨
      TrueMatch s p maxLen (betterMatch s p maxLen best c).1 (betterMatch s p maxLen best c).2 := by
  rw [betterMatch]
  split
  · rename_i hlen
    have hback : p - (p - c) = c := by omega
    refine .inr ⟨hlen.1, prefixLength_le .., by omega, by omega, by omega, fun k hk => ?_⟩
    rw [hback]
    exact prefixLength_agree s maxLen c p k hk
  · exact h

theorem searchResult_fits (s : State) (p depth maxLen : Nat) :
    searchResult s p depth maxLen = (0, 0) ∨
      TrueMatch s p maxLen (searchResult s p depth maxLen).1 (searchResult s p depth maxLen).2 := by
  rw [searchResult, bestOf_eq_foldl]
  refine List.foldlRecOn _ _ (motive := fun m => m = (0, 0) ∨ TrueMatch s p maxLen m.1 m.2) (.inl rfl) ?_
  intro best hbest c hc
  obtain ⟨hlt, hwin⟩ := chainFrom_valid hc
  exact betterMatch_fits hlt hwin hbest

theorem chosenToken_fits (s : State) : TokenFits s (chosenToken s) := by
  rw [← matchToken_kept]
  refine matchToken_fits ?_
  split
  · exact .inl rfl
  · rw [stepMatch]
    split
    · exact searchResult_fits ..
    · exact .inl rfl

/-! ### Expansion (R175, R318, R319) -/

@[simp] theorem inputBytesOf_length (s : State) : (inputBytesOf s).length = s.inLen.toNat := by simp [inputBytesOf]

/-- One more byte of the input. -/
theorem take_inputBytesOf_succ {s : State} {p : Nat} (h : p < s.inLen.toNat) :
    (inputBytesOf s).take (p + 1) = (inputBytesOf s).take p ++ [inputAt s p] := by
  rw [List.take_succ_eq_append_getElem (by simpa using h)]
  simp [inputBytesOf]

/-- A copy from bytes that agree with the next ones extends the input. -/
theorem copyBytes_input {s : State} {p dist n : Nat} (h1 : 1 ≤ dist) (hle : dist ≤ p) (hend : p + n ≤ s.inLen.toNat)
    (hagree : ∀ k, k < n → inputAt s (p - dist + k) = inputAt s (p + k)) :
    copyBytes dist n ((inputBytesOf s).take p) = (inputBytesOf s).take (p + n) := by
  induction n generalizing p with
  | zero => rfl
  | succ n ih =>
    have hlen : ((inputBytesOf s).take p).length = p := by
      rw [List.length_take, inputBytesOf_length]
      omega
    have hbyte : ((inputBytesOf s).take p).getD (p - dist) 0 = inputAt s p := by
      rw [List.getD_eq_getElem _ _ (by omega), List.getElem_take]
      simpa [inputBytesOf] using hagree 0 (Nat.succ_pos n)
    rw [copyBytes, hlen, hbyte, ← take_inputBytesOf_succ (by omega), ih (by omega) (by omega) fun k hk => ?_]
    · congr 1
      omega
    · have := hagree (k + 1) (Nat.succ_lt_succ hk)
      rwa [show p - dist + (k + 1) = p + 1 - dist + k by omega, show p + (k + 1) = p + 1 + k by omega] at this

/-- A token that fits gives the bytes it covers. -/
theorem expandTokens_fits {s : State} {tok : Token} (h : TokenFits s tok) (rest : List Token)
    (hend : s.driver.pos.toNat + tok.covers ≤ s.inLen.toNat) :
    expandTokens ((inputBytesOf s).take s.driver.pos.toNat) (tok :: rest) =
      expandTokens ((inputBytesOf s).take (s.driver.pos.toNat + tok.covers)) rest := by
  cases tok with
  | lit b =>
    cases h
    exact congrArg (expandTokens · rest) (take_inputBytesOf_succ hend).symm
  | copy len dist =>
    obtain ⟨-, -, h1, -, hle, hagree⟩ := h
    exact congrArg (expandTokens · rest) (copyBytes_input h1 hle hend hagree)

theorem expandTokens_append (out : List Byte) (as bs : List Token) :
    expandTokens out (as ++ bs) = expandTokens (expandTokens out as) bs := by
  induction as generalizing out with
  | nil => rfl
  | cons tok as ih => cases tok <;> exact ih _

/-- Tokens leave the input as it is. -/
theorem inputBytesOf_tokensOnly {s t : State} (h : TokensOnly s t) : inputBytesOf t = inputBytesOf s := by
  rw [h]
  rfl

/-! ### Widths -/

/-- A token takes at most two bytes for each byte it covers. -/
theorem tokenFields_bits {s : State} {tok : Token} (h : TokenFits s tok) (b : State) :
    fieldsWidth (tokenFields b tok) ≤ 16 * tok.covers := by
  cases tok with
  | lit c =>
    have := symbolField_width .litLen b c.toNat
    simp only [tokenFields, fieldsWidth, Token.covers]
    omega
  | copy len dist =>
    obtain ⟨h4, -⟩ := h
    have hl := getD_le (l := lengthExtra) (b := 5) (by decide) (lengthSlot len)
    have hd := getD_le (l := distExtra) (b := 13) (by decide) (distSlot dist)
    have h1 := symbolField_width .litLen b (257 + lengthSlot len)
    have h2 := symbolField_width .dist b (distSlot dist)
    simp only [tokenFields, matchFields, fieldsWidth, Token.covers]
    omega

theorem itemFields_bits (s : State) (item : Nat) : fieldsWidth (itemFields s item) ≤ 22 := by
  have h := symbolField_width .preCode s (item % 32)
  simp only [itemFields, fieldsWidth]
  split
  · simp only [fieldsWidth]
    omega
  · split
    · simp only [fieldsWidth]
      omega
    · split <;> simp only [fieldsWidth] <;> omega

/-- As many lists of fields, each at most so wide. -/
theorem fieldsWidth_flatMap_le {α : Type} {f : α → List (Nat × Nat)} {b : Nat} (h : ∀ x, fieldsWidth (f x) ≤ b)
    (xs : List α) : fieldsWidth (xs.flatMap f) ≤ b * xs.length := by
  induction xs with
  | nil => exact Nat.zero_le _
  | cons x xs ih =>
    have := h x
    rw [List.flatMap_cons, fieldsWidth_append, List.length_cons, Nat.mul_succ]
    omega

/-- The header is 17 bits, at most 19 lengths of 3 bits, and at most 511 items. -/
theorem headerFields_bits (s : State) (bfinal : Bool) : fieldsWidth (headerFields s bfinal (hclenOf s)) ≤ 11316 := by
  obtain ⟨-, h19, -⟩ := hclenOf_isHclen s
  have hitems := fieldsWidth_flatMap_le (f := fun j => itemFields s (Cells.get 0 s.rleItem j).toNat)
    (fun _ => itemFields_bits s _) (List.range s.rleCount.toNat)
  have hlens := fieldsWidth_flatMap_le (f := fun k => [((Cells.get 0 s.lenPre (preCodeOrder.getD k 0)).toNat, 3)])
    (b := 3) (fun _ => le_rfl) (List.range (hclenOf s))
  have hcount := s.rleCount.isLt
  rw [List.length_range] at hitems hlens
  rw [headerFields, List.map_eq_flatMap]
  simp only [fieldsWidth_append, fieldsWidth]
  omega

/-! ### Tokens of a block (R302) -/

/-- The tokens from POS to BE expand to those bytes, and take two bytes for each at most. -/
theorem blockTokens_covers (fuel : Nat) {s : State} (hpos : s.driver.pos.toNat ≤ s.driver.be.toNat)
    (hbe : s.driver.be.toNat ≤ s.inLen.toNat) (hf : s.driver.be.toNat - s.driver.pos.toNat ≤ fuel) :
    expandTokens ((inputBytesOf s).take s.driver.pos.toNat) (blockTokens fuel s).1 =
        (inputBytesOf s).take s.driver.be.toNat ∧
      fieldsWidth ((blockTokens fuel s).1.flatMap (tokenFields s)) ≤
        16 * (s.driver.be.toNat - s.driver.pos.toNat) := by
  have done : s.driver.be.toNat ≤ s.driver.pos.toNat →
      expandTokens ((inputBytesOf s).take s.driver.pos.toNat) [] = (inputBytesOf s).take s.driver.be.toNat := fun h => by
    rw [expandTokens, Nat.le_antisymm hpos h]
  induction fuel generalizing s with
  | zero => exact ⟨done (by omega), Nat.zero_le _⟩
  | succ fuel ih =>
    rw [blockTokens]
    by_cases hlt : s.driver.pos.toNat < s.driver.be.toNat
    case neg =>
      rw [if_neg hlt]
      exact ⟨done (by omega), Nat.zero_le _⟩
    case pos =>
      have hfits := chosenToken_fits s
      obtain ⟨hone, hend⟩ := hfits.covers hlt
      have hframe := afterToken_tokensOnly s (chosenToken s)
      have hposT := afterToken_pos hend
      have hbeT : (afterToken s (chosenToken s)).driver.be = s.driver.be := by rw [hframe]
      have hlenT : (afterToken s (chosenToken s)).inLen = s.inLen := by rw [hframe]
      have hrest := ih (s := afterToken s (chosenToken s)) (by rw [hposT, hbeT]; exact hend)
        (by rw [hbeT, hlenT]; exact hbe) (by rw [hposT, hbeT]; omega)
        (fun h => by rw [expandTokens, hposT, hbeT]; rw [hposT, hbeT] at h; rw [Nat.le_antisymm hend h])
      obtain ⟨hexp, hbits⟩ := hrest
      rw [hposT, hbeT] at hexp hbits
      rw [inputBytesOf_tokensOnly hframe] at hexp
      rw [tokenFields_tokensOnly hframe] at hbits
      rw [if_pos hlt]
      refine ⟨(expandTokens_fits hfits _ (hend.trans hbe)).trans hexp, ?_⟩
      have htok := tokenFields_bits hfits s
      rw [List.flatMap_cons, fieldsWidth_append]
      omega

/-! ### Blocks (R304) -/

/-- Where a block is cut, and that opening it leaves the input as it is. -/
theorem openBlock_registers (s : State) :
    (openBlock s).driver.bs = s.driver.bs ∧
      (openBlock s).driver.be.toNat = min (s.driver.bs.toNat + s.params.blkMax) s.inLen.toNat ∧
      (openBlock s).driver.pos.toNat = s.driver.bs.toNat ∧ inputBytesOf (openBlock s) = inputBytesOf s ∧
      (openBlock s).inLen = s.inLen := by
  have hcodes := startTables_codesOnly (cutBlock s)
  have hcut : (word (min (s.driver.bs.toNat + s.params.blkMax) s.inLen.toNat)).toNat =
      min (s.driver.bs.toNat + s.params.blkMax) s.inLen.toNat :=
    word_toNat_of_lt (lt_of_le_of_lt (Nat.min_le_right _ _) s.inLen.isLt)
  rw [openBlock]
  generalize startTables (cutBlock s) = c at hcodes ⊢
  rw [hcodes]
  exact ⟨rfl, hcut, word_toNat_of_lt s.driver.bs.isLt, rfl, rfl⟩

/-- A block's tokens expand to its bytes, and its fields take at most 1500 bytes besides two for each of its bytes. -/
theorem nextBlock_covers {s : State} (hbs : s.driver.bs.toNat ≤ s.inLen.toNat) :
    expandTokens ((inputBytesOf s).take s.driver.bs.toNat) (nextBlock s).1.tokens =
        (inputBytesOf s).take (s.driver.bs.toNat + s.params.blkMax) ∧
      fieldsWidth (nextBlock s).1.fields ≤
        12000 + 16 * (min (s.driver.bs.toNat + s.params.blkMax) s.inLen.toNat - s.driver.bs.toNat) := by
  obtain ⟨hbsO, hbeO, hposO, hinO, hlenO⟩ := openBlock_registers s
  obtain ⟨hexp, hbits⟩ := blockTokens_covers ((openBlock s).driver.be.toNat - (openBlock s).driver.bs.toNat)
    (s := openBlock s) (by rw [hposO, hbeO]; omega) (by rw [hbeO, hlenO]; exact Nat.min_le_right _ _)
    (by rw [hposO, hbsO])
  rw [← wholeBlock, hposO, hbeO, hinO] at hexp
  rw [← wholeBlock, hposO, hbeO] at hbits
  have hheader := headerFields_bits (openBlock s) false
  have heob := symbolField_width .litLen (openBlock s) 256
  refine ⟨hexp.trans ?_, ?_⟩
  · rw [List.take_eq_take_min (i := s.driver.bs.toNat + s.params.blkMax), inputBytesOf_length]
  · simp only [Block.fields, nextBlock, fieldsWidth_append, fieldsWidth]
    omega

/-- A block leaves the input as it is. -/
theorem inputBytesOf_nextBlock (s : State) : inputBytesOf (nextBlock s).2 = inputBytesOf s := by
  rw [nextBlock_blocksOnly s]
  rfl

/-- Where the next block starts. -/
theorem nextBlock_bs (s : State) :
    (nextBlock s).2.driver.bs.toNat = min (s.driver.bs.toNat + s.params.blkMax) s.inLen.toNat := by
  rw [(nextBlock_frame s).1]
  exact word_toNat_of_lt (lt_of_le_of_lt (Nat.min_le_right _ _) s.inLen.isLt)

/-- From a start past the input there are no blocks. -/
theorem blocksFrom_of_ge {s : State} (fuel : Nat) (h : s.inLen.toNat ≤ s.driver.bs.toNat) :
    blocksFrom fuel s = ([], s) := by
  cases fuel with
  | zero => rfl
  | succ fuel => exact if_neg (Nat.not_lt.mpr h)

/-- Each of the blocks from BS: its bounds, and that its tokens expand to its bytes. -/
theorem blocksFrom_each (fuel : Nat) {s : State} (hbs : s.driver.bs.toNat ≤ s.inLen.toNat) {k : Nat} {b : Block}
    (h : (blocksFrom fuel s).1[k]? = some b) :
    b.tables.driver.bs.toNat = s.driver.bs.toNat + k * s.params.blkMax ∧
      b.tables.driver.be.toNat = min (s.driver.bs.toNat + (k + 1) * s.params.blkMax) s.inLen.toNat ∧
      expandTokens ((inputBytesOf s).take (s.driver.bs.toNat + k * s.params.blkMax)) b.tokens =
        (inputBytesOf s).take (s.driver.bs.toNat + (k + 1) * s.params.blkMax) := by
  induction fuel generalizing s k with
  | zero => cases h
  | succ fuel ih =>
    rw [blocksFrom] at h
    split at h
    case isFalse => cases h
    case isTrue hlt =>
      cases k with
      | zero =>
        cases h
        obtain ⟨hbsO, hbeO, -⟩ := openBlock_registers s
        rw [Nat.zero_mul, Nat.add_zero, Nat.zero_add, Nat.one_mul]
        exact ⟨congrArg BitVec.toNat hbsO, hbeO, (nextBlock_covers hbs).1⟩
      | succ k =>
        obtain ⟨-, hlen, hparams, -⟩ := nextBlock_frame s
        have hstart := nextBlock_bs s
        -- the block before a next one ends inside the input
        have hinside : s.driver.bs.toNat + s.params.blkMax < s.inLen.toNat := by
          by_contra hge
          rw [blocksFrom_of_ge fuel (by rw [hstart, hlen]; omega)] at h
          cases h
        rw [Nat.min_eq_left hinside.le] at hstart
        have hrest := ih (by rw [hstart, hlen]; exact hinside.le) h
        rw [hstart, hlen, hparams, inputBytesOf_nextBlock] at hrest
        have hshift : ∀ j, s.driver.bs.toNat + s.params.blkMax + j * s.params.blkMax =
            s.driver.bs.toNat + (j + 1) * s.params.blkMax := fun j => by ring
        simpa only [hshift] using hrest

/-- The blocks from BS together: the input they expand to, their width, and NBLK. -/
theorem blocksFrom_all (fuel : Nat) {s : State} (hb : 1 ≤ s.params.blkMax) (hbs : s.driver.bs.toNat ≤ s.inLen.toNat)
    (hf : s.inLen.toNat - s.driver.bs.toNat ≤ fuel) :
    expandTokens ((inputBytesOf s).take s.driver.bs.toNat) ((blocksFrom fuel s).1.flatMap Block.tokens) =
        inputBytesOf s ∧
      fieldsWidth ((blocksFrom fuel s).1.flatMap Block.fields) ≤
        12000 * (blocksFrom fuel s).1.length + 16 * (s.inLen.toNat - s.driver.bs.toNat) ∧
      (blocksFrom fuel s).2.driver.nblk = s.driver.nblk + word (blocksFrom fuel s).1.length := by
  induction fuel generalizing s with
  | zero =>
    exact ⟨List.take_of_length_le (by rw [inputBytesOf_length]; omega), Nat.zero_le _, (BitVec.add_zero _).symm⟩
  | succ fuel ih =>
    rw [blocksFrom]
    split
    case isFalse =>
      exact ⟨List.take_of_length_le (by rw [inputBytesOf_length]; omega), Nat.zero_le _, (BitVec.add_zero _).symm⟩
    case isTrue hlt =>
      obtain ⟨-, hlen, hparams, hnblk⟩ := nextBlock_frame s
      have hstart := nextBlock_bs s
      obtain ⟨hexp, hbits⟩ := nextBlock_covers hbs
      obtain ⟨hexpRest, hbitsRest, hnblkRest⟩ := ih (s := (nextBlock s).2) (by rw [hparams]; exact hb)
        (by rw [hstart, hlen]; exact Nat.min_le_right _ _) (by rw [hstart, hlen]; omega)
      rw [hstart, inputBytesOf_nextBlock, ← inputBytesOf_length s, ← List.take_eq_take_min] at hexpRest
      rw [hstart, hlen] at hbitsRest
      refine ⟨?_, ?_, ?_⟩
      · rw [List.flatMap_cons, expandTokens_append]
        rw [show (nextBlock s).1.tokens = Block.tokens (nextBlock s).1 from rfl] at hexp
        rw [hexp, hexpRest]
      · rw [List.flatMap_cons, fieldsWidth_append, List.length_cons]
        omega
      · rw [hnblkRest, hnblk, List.length_cons, BitVec.add_assoc, word, word, Nat.add_comm, BitVec.ofNat_add]
        rfl

/-! ### The whole stream -/

/-- The framing takes at most 66 bits. -/
theorem streamLength_le (level : BitVec 4) (container : Bool) (s : State) :
    8 * streamLength level container s ≤
      fieldsWidth ((compressBlocks level container s).1.flatMap Block.fields) + 66 := by
  have hheader : fieldsWidth (if container then [(0x78, 8), (0x01, 8)] else []) ≤ 16 := by cases container <;> decide
  have htrailer : fieldsWidth (if container then trailerFields (initAdler container s) else []) ≤ 32 := by
    cases container <;> simp [trailerFields, fieldsWidth]
  rw [← streamFields_width, streamFields_eq, fieldsWidth_append, fieldsWidth_append]
  simp only [bodyFields, fieldsWidth_append, fieldsWidth]
  omega

section
variable (level : BitVec 4) (container : Bool) (s : State)

@[simp] theorem startState_driver : (startState level container s).driver =
    { s.driver with lvl := level, cont := container, nblk := 0, bs := 0 } := by simp only [startState]

@[simp] theorem startState_params : (startState level container s).params = s.params := by
  simp only [startState, seedFreqs_params, resetHead_params, resetWriter_params]

@[simp] theorem startState_inLen : (startState level container s).inLen = s.inLen := by
  simp only [startState, seedFreqs_inLen, resetHead_inLen, resetWriter_inLen]

/-- Init keeps every input byte (R303). -/
@[simp] theorem startState_inputAt (k : Nat) : inputAt (startState level container s) k = inputAt s k := by
  simp only [startState, inputAt, seedFreqs_mem, resetHead_mem, resetWriter_mem, seedFreqs_inBase, resetHead_inBase,
    resetWriter_inBase]

@[simp] theorem startState_inputBytesOf : inputBytesOf (startState level container s) = inputBytesOf s := by
  rw [inputBytesOf, inputBytesOf, startState_inLen]
  exact List.map_congr_left fun k _ => startState_inputAt level container s k

@[simp] theorem startState_head : (startState level container s).head = [] := by
  simp only [startState, seedFreqs_head, resetHead]

@[simp] theorem startState_prev : (startState level container s).prev = s.prev := by
  simp only [startState, seedFreqs_prev, resetHead_prev, resetWriter_prev]

@[simp] theorem startState_rleItem : (startState level container s).rleItem = s.rleItem := by
  simp only [startState, seedFreqs_rleItem, resetHead_rleItem, resetWriter_rleItem]

@[simp] theorem startState_freqLit :
    (startState level container s).freqLit = Cells.ofNats 288 s.params.seedLit := by
  simp only [startState, seedFreqs, resetHead_params, resetWriter_params]

@[simp] theorem startState_freqDist :
    (startState level container s).freqDist = Cells.ofNats 32 s.params.seedDist := by
  simp only [startState, seedFreqs, resetHead_params, resetWriter_params]

end

/-- As many blocks as it takes are no more than the bytes. -/
theorem ceilDiv_le {n d : Nat} (h : 1 ≤ d) : (n + d - 1) / d ≤ n := by
  rw [Nat.div_le_iff_le_mul_add_pred h]
  have := Nat.le_mul_of_pos_left n h
  omega

/-- A block holds at least one byte (R7). -/
theorem blkMax_pos {s : State} (hp : P_params s) : 1 ≤ s.params.blkMax := by
  simp only [P_params, Params.legal, Bool.and_eq_true, decide_eq_true_eq] at hp
  obtain ⟨⟨⟨⟨⟨⟨⟨-, hblk, -⟩, -⟩, -⟩, -⟩, -⟩, -⟩, -⟩ := hp
  exact hblk

/-- Settles O47: block by block, the tokens fit where they stand, and their widths are two bytes for each byte they cover. -/
theorem streamCoversTheInput : Obligations.StreamCoversTheInput := by
  unfold Obligations.StreamCoversTheInput
  intro level container s hp _ _
  have hb := blkMax_pos hp
  have hlength := compressBlocks_length level container s hb
  have hceil := (ceilDiv_le (n := s.inLen.toNat) hb).trans_lt s.inLen.isLt
  have hbs : (startState level container s).driver.bs.toNat = 0 := by rw [startState_driver]; rfl
  have hnblk0 : (startState level container s).driver.nblk = 0 := by rw [startState_driver]
  obtain ⟨hexp, hbits, hnblk⟩ := blocksFrom_all s.inLen.toNat (s := startState level container s)
    (by rw [startState_params]; exact hb) (by rw [hbs]; exact Nat.zero_le _)
    (by rw [startState_inLen]; exact Nat.sub_le _ _)
  rw [hbs, startState_inputBytesOf, ← compressBlocks] at hexp
  rw [hbs, startState_inLen, Nat.sub_zero, ← compressBlocks, hlength] at hbits
  rw [hnblk0, ← compressBlocks, hlength, show (0 : Word) + _ = _ from BitVec.zero_add _] at hnblk
  refine ⟨hlength, ?_, fun k b h => ?_, hexp, ?_⟩
  · rw [hnblk, word_toNat_of_lt hceil]
  · have heach := blocksFrom_each s.inLen.toNat (s := startState level container s)
      (by rw [hbs]; exact Nat.zero_le _) h
    simpa only [hbs, startState_params, startState_inLen, startState_inputBytesOf, Nat.zero_add] using heach
  · have hall := streamLength_le level container s
    omega

end Sys2Proof.Proofs
end

section
/-! SUPPORT. What a completed COMPRESS writes and leaves depends only on the input (R320, R321): two bufferless runs on the same
input, parameters and level stay twins, whatever PREV and RLE_ITEM held before. -/

namespace Sys2Proof.Proofs

open Sys2Proof Sys2Proof.Machine Sys2Proof.Laws

/-! ### Twins -/

/-- Two values of one entry: they agree, or both are the old ones. -/
def SameOrOld {α : Type} (x x' old old' : α) : Prop := x = x' ∨ x = old ∧ x' = old'

/-- The chains of the two states are over the same positions, all below q, and link them alike. -/
def SameLinks (q : Nat) (u u' : State) : Prop :=
  ∃ S, ChainsOver S q u ∧ ∀ x ∈ S, Cells.find u'.prev (x % Config.win) = Cells.find u.prev (x % Config.win)

/-- Two states of two runs that started in o and o', with POS (or BS) at q: they agree in all that the blocks from q on
read, and an entry of PREV or RLE_ITEM in which they differ is as it was at the start. -/
structure Twin (o o' : State) (q : Nat) (u u' : State) : Prop where
  params   : u'.params = u.params
  inLen    : u'.inLen = u.inLen
  input    : ∀ k, k < u.inLen.toNat → inputAt u' k = inputAt u k
  head     : u'.head = u.head
  freqLit  : u'.freqLit = u.freqLit
  freqDist : u'.freqDist = u.freqDist
  lvl      : u'.driver.lvl = u.driver.lvl
  bs       : u'.driver.bs = u.driver.bs
  nblk     : u'.driver.nblk = u.driver.nblk
  links    : SameLinks q u u'
  prev     : ∀ i, SameOrOld (Cells.find u.prev i) (Cells.find u'.prev i) (Cells.find o.prev i) (Cells.find o'.prev i)
  rleItem  : ∀ i, SameOrOld (Cells.get 0 u.rleItem i) (Cells.get 0 u'.rleItem i) (Cells.get 0 o.rleItem i)
    (Cells.get 0 o'.rleItem i)

/-- The two states agree in the block's registers of the driver, and the block ends inside the input. -/
structure SameBlock (u u' : State) : Prop where
  pos    : u'.driver.pos = u.driver.pos
  be     : u'.driver.be = u.driver.be
  inside : u.driver.be.toNat ≤ u.inLen.toNat

section
variable {o o' u u' : State} {q : Nat}

theorem SameLinks.mono {q' : Nat} (h : SameLinks q u u') (hq : q ≤ q') : SameLinks q' u u' :=
  h.imp fun _ hS => ⟨hS.1.mono hq, hS.2⟩

/-- Only HEAD and PREV hold links. -/
theorem SameLinks.of_same {t t' : State} (h : SameLinks q u u') (hhead : t.head = u.head) (hprev : t.prev = u.prev)
    (hprev' : t'.prev = u'.prev) : SameLinks q t t' := by
  obtain ⟨S, hS, hsame⟩ := h
  refine ⟨S, ⟨hS.below, ?_, ?_⟩, ?_⟩
  · rw [hhead]
    exact hS.head
  · rw [hprev]
    exact hS.prev
  · rw [hprev, hprev']
    exact hsame

theorem Twin.mono {q' : Nat} (h : Twin o o' q u u') (hq : q ≤ q') : Twin o o' q' u u' :=
  { h with links := h.links.mono hq }

/-- Chains that link the same positions alike have the same candidates. -/
theorem chainFrom_sameLinks {S : Set Nat} {p n : Nat} {c : Word} (h : ChainsOver S q u)
    (hsame : ∀ x ∈ S, Cells.find u'.prev (x % Config.win) = Cells.find u.prev (x % Config.win)) (hq : q ≤ p + 1)
    (hc : LeadsInto S c) : chainFrom u' p n c = chainFrom u p n c := by
  induction n generalizing c with
  | zero => rfl
  | succ n ih =>
    rw [chainFrom, chainFrom]
    split
    · rename_i hv
      obtain ⟨hnil, -, hwin⟩ := validCandidate_iff.mp hv
      have hmem := hc.resolve_left hnil
      obtain ⟨v, hfind, hnext⟩ := h.prev c.toNat hmem (by simp only [Config.win]; omega)
      rw [hsame _ hmem, hfind]
      exact congrArg (List.cons _) (ih hnext)
    · rfl

/-- Twins search alike. -/
theorem Twin.sameSearch (h : Twin o o' u.driver.pos.toNat u u') (hb : SameBlock u u') : SameSearch u u' := by
  obtain ⟨S, hS, hsame⟩ := h.links
  refine ⟨h.params, hb.pos, hb.be, h.lvl, fun k hk => h.input k (hk.trans_le hb.inside), fun p n b hp => ?_⟩
  rw [h.head]
  exact chainFrom_sameLinks hS hsame (by omega) (hS.head b)

/-! ### Tokens -/

theorem Twin.countLit (h : Twin o o' q u u') (sym : Nat) : Twin o o' q (countLit sym u) (countLit sym u') := by
  have hlit : (Machine.countLit sym u').freqLit = (Machine.countLit sym u).freqLit := by
    rw [Machine.countLit, Machine.countLit, h.freqLit]
  exact { h with links := h.links.of_same rfl rfl rfl, freqLit := hlit }

theorem Twin.countDist (h : Twin o o' q u u') (sym : Nat) : Twin o o' q (countDist sym u) (countDist sym u') := by
  have hdist : (Machine.countDist sym u').freqDist = (Machine.countDist sym u).freqDist := by
    rw [Machine.countDist, Machine.countDist, h.freqDist]
  exact { h with links := h.links.of_same rfl rfl rfl, freqDist := hdist }

theorem Twin.countToken (h : Twin o o' q u u') (tok : Token) : Twin o o' q (countToken u tok) (countToken u' tok) := by
  cases tok with
  | lit b => exact h.countLit b.toNat
  | copy len dist => exact (h.countLit _).countDist _

/-- Twins insert a position alike (R173). -/
theorem Twin.inserted (h : Twin o o' q u u') : Twin o o' (q + 1) (inserted q u) (inserted q u') := by
  by_cases hroom : q + 4 ≤ u.inLen.toNat
  case neg =>
    rw [inserted_of_no_room hroom, inserted_of_no_room (by rw [h.inLen]; exact hroom)]
    exact h.mono (Nat.le_succ q)
  case pos =>
    have hbucket : bucketAt u' q = bucketAt u q := bucketAt_congr h.params fun k hk => h.input _ (by omega)
    rw [inserted_of_room hroom, inserted_of_room (s := u') (by rw [h.inLen]; exact hroom), hbucket, h.head]
    refine { h with head := rfl, links := ?_, prev := fun i => ?_ }
    · obtain ⟨S, hS, hsame⟩ := h.links
      refine ⟨insert q S, hS.after_insert le_rfl (by omega), fun x hx => ?_⟩
      simp only [Cells.find_put]
      split
      · rfl
      · rename_i hslot
        exact hsame x (hx.resolve_left fun heq => hslot (by rw [heq]))
    · simp only [Cells.find_put]
      split
      · exact .inl rfl
      · exact h.prev i

theorem Twin.insertRange (h : Twin o o' q u u') (n : Nat) :
    Twin o o' (q + n) (((List.range n).map (q + ·)).foldl (fun v p => Machine.inserted p v) u)
      (((List.range n).map (q + ·)).foldl (fun v p => Machine.inserted p v) u') := by
  induction n with
  | zero => exact h
  | succ n ih =>
    rw [List.range_succ, List.map_append, List.foldl_append, List.foldl_append]
    exact ih.inserted

/-- Twins take the same positions after a token (R315). -/
theorem Twin.insertAll (h : Twin o o' q u u') {tok : Token} (v : State) (hone : 1 ≤ tok.covers) :
    Twin o o' (q + tok.covers) ((insertions v q tok).foldl (fun v p => Machine.inserted p v) u)
      ((insertions v q tok).foldl (fun v p => Machine.inserted p v) u') := by
  cases tok with
  | lit b => exact h.inserted
  | copy len dist =>
    rw [insertions]
    split
    · exact h.inserted.mono (Nat.add_le_add_left hone q)
    · exact h.insertRange len

/-- Twins are twins after a token, at the position past it. -/
theorem Twin.afterToken (h : Twin o o' u.driver.pos.toNat u u') (hb : SameBlock u u') {tok : Token}
    (hone : 1 ≤ tok.covers) (hend : u.driver.pos.toNat + tok.covers ≤ u.driver.be.toNat) :
    Twin o o' (afterToken u tok).driver.pos.toNat (afterToken u tok) (afterToken u' tok) ∧
      SameBlock (afterToken u tok) (afterToken u' tok) := by
  have hins := (h.countToken tok).insertAll u hone
  have hsearch := h.sameSearch hb
  have hframe := afterToken_tokensOnly u tok
  have hframe' := afterToken_tokensOnly u' tok
  rw [afterToken_pos hend]
  refine ⟨?_, ?_, ?_, ?_⟩
  · rw [Machine.afterToken, Machine.afterToken, hb.pos, hsearch.insertions]
    exact { hins with links := hins.links.of_same rfl rfl rfl }
  · rw [Machine.afterToken, Machine.afterToken, hb.pos]
    rfl
  · rw [hframe, hframe']
    exact hb.be
  · rw [hframe]
    exact hb.inside

/-- Twins have the same tokens in a block, and are twins at its end. -/
theorem Twin.blockTokens (fuel : Nat) (h : Twin o o' u.driver.pos.toNat u u') (hb : SameBlock u u')
    (hpos : u.driver.pos.toNat ≤ u.driver.be.toNat) :
    (blockTokens fuel u').1 = (blockTokens fuel u).1 ∧
      Twin o o' u.driver.be.toNat (blockTokens fuel u).2 (blockTokens fuel u').2 := by
  induction fuel generalizing u u' with
  | zero => exact ⟨rfl, h.mono hpos⟩
  | succ fuel ih =>
    rw [Machine.blockTokens, Machine.blockTokens, hb.pos, hb.be]
    by_cases hlt : u.driver.pos.toNat < u.driver.be.toNat
    case neg =>
      rw [if_neg hlt, if_neg hlt]
      exact ⟨rfl, h.mono hpos⟩
    case pos =>
      have htok : chosenToken u' = chosenToken u := (h.sameSearch hb).chosenToken hlt
      obtain ⟨hone, hend⟩ := (chosenToken_fits u).covers hlt
      obtain ⟨hafter, hblock⟩ := h.afterToken hb hone hend
      have hbe : (Machine.afterToken u (chosenToken u)).driver.be = u.driver.be := by rw [afterToken_tokensOnly]
      obtain ⟨htokens, hrest⟩ := ih hafter hblock (by rw [afterToken_pos hend, hbe]; exact hend)
      rw [hbe] at hrest
      rw [if_pos hlt, if_pos hlt, htok]
      exact ⟨congrArg (List.cons _) htokens, hrest⟩

/-! ### The tables of a block (R305) -/

/-- The two states agree in the code tables and in what RunEncode leaves, the items below RLE_COUNT among it. -/
structure SameCodes (u u' : State) : Prop where
  freqPre  : u'.freqPre = u.freqPre
  lenLit   : u'.lenLit = u.lenLit
  lenDist  : u'.lenDist = u.lenDist
  lenPre   : u'.lenPre = u.lenPre
  codeLit  : u'.codeLit = u.codeLit
  codeDist : u'.codeDist = u.codeDist
  codePre  : u'.codePre = u.codePre
  rleCount : u'.rleCount = u.rleCount
  items    : ∀ j, j < u.rleCount.toNat → Cells.get 0 u'.rleItem j = Cells.get 0 u.rleItem j

theorem SameCodes.of_tokensOnly {t t' : State} (h : SameCodes u u') (ht : TokensOnly u t) (ht' : TokensOnly u' t') :
    SameCodes t t' := by
  rw [ht, ht']
  exact { h with }

theorem startTables_freqs (s : State) : (startTables s).freqLit = [] ∧ (startTables s).freqDist = [] := by
  rw [startTables]
  exact ⟨rfl, rfl⟩

/-- The code lengths a block's items are made of (R241). -/
def builtLengths (s : State) : List Nat := lengthSequence (clearFreqs (buildCodes .dist (buildCodes .litLen s)))

theorem builtLengths_congr (hlit : u'.freqLit = u.freqLit) (hdist : u'.freqDist = u.freqDist) :
    builtLengths u' = builtLengths u := by
  simp only [builtLengths, lengthSequence, clearFreqs, buildCodes, setCodes, alphabetFreq, hlit, hdist]

theorem setCodes_items (a : Alphabet) (lens : Cells (BitVec 4)) (codes : Cells (BitVec 16)) (s : State) :
    (setCodes a lens codes s).rleItem = s.rleItem ∧ (setCodes a lens codes s).rleCount = s.rleCount := by
  cases a <;> exact ⟨rfl, rfl⟩

theorem buildCodes_rleItem (a : Alphabet) (s : State) : (buildCodes a s).rleItem = s.rleItem := by
  rw [buildCodes, (setCodes_items ..).1]

theorem buildCodes_rleCount (a : Alphabet) (s : State) : (buildCodes a s).rleCount = s.rleCount := by
  rw [buildCodes, (setCodes_items ..).2]

theorem rleCount_startTables (s : State) :
    (startTables s).rleCount = BitVec.ofNat 9 (encodeRuns (builtLengths s)).length := by
  rw [startTables, buildCodes_rleCount]
  rfl

/-- The entries of RLE_ITEM after a block's tables are built: its items, and beyond them the old entries (R245). -/
theorem rleItem_startTables (s : State) (i : Nat) :
    Cells.get 0 (startTables s).rleItem i =
      if i < 316 then
        ((encodeRuns (builtLengths s))[i]?.map fun x => BitVec.ofNat 12 (packItem x)).getD (Cells.get 0 s.rleItem i)
      else 0 := by
  have hold : (clearFreqs (buildCodes .dist (buildCodes .litLen s))).rleItem = s.rleItem := by
    rw [clearFreqs, buildCodes_rleItem, buildCodes_rleItem]
  rw [startTables, buildCodes_rleItem, runEncode, Cells.get_tabulate, hold, ← builtLengths]
  cases (encodeRuns (builtLengths s))[i]? <;> rfl

/-- An item is the same in both, or old. -/
theorem rleItem_startTables_twin (hlit : u'.freqLit = u.freqLit) (hdist : u'.freqDist = u.freqDist) (i : Nat) :
    SameOrOld (Cells.get 0 (startTables u).rleItem i) (Cells.get 0 (startTables u').rleItem i)
      (Cells.get 0 u.rleItem i) (Cells.get 0 u'.rleItem i) := by
  rw [rleItem_startTables, rleItem_startTables, builtLengths_congr hlit hdist]
  by_cases hi : i < 316
  · simp only [if_pos hi]
    cases (encodeRuns (builtLengths u))[i]? with
    | some x => exact .inl rfl
    | none => exact .inr ⟨rfl, rfl⟩
  · simp only [if_neg hi]
    exact .inl rfl

/-- What the tables are built from decides them (R201, R245). -/
theorem startTables_sameCodes (hlit : u'.freqLit = u.freqLit) (hdist : u'.freqDist = u.freqDist) :
    SameCodes (startTables u) (startTables u') := by
  have hcount : (startTables u').rleCount = (startTables u).rleCount := by
    rw [rleCount_startTables, rleCount_startTables, builtLengths_congr hlit hdist]
  refine ⟨?_, ?_, ?_, ?_, ?_, ?_, ?_, hcount, fun j hj => ?_⟩
  case refine_8 =>
    have hj' : j < (encodeRuns (builtLengths u)).length := by
      rw [rleCount_startTables, BitVec.toNat_ofNat] at hj
      exact hj.trans_le (Nat.mod_le _ _)
    rw [rleItem_startTables, rleItem_startTables, builtLengths_congr hlit hdist, List.getElem?_eq_getElem hj',
      Option.map_some, Option.getD_some, Option.getD_some]
  all_goals
    simp only [startTables, buildCodes, setCodes, runEncode, clearFreqs, alphabetFreq, lengthSequence, hlit, hdist]

/-! ### Blocks (R302) -/

/-- Opening a block changes the tables and the block's registers only. -/
theorem openBlock_eq (s : State) : openBlock s = { s with
    freqLit := [], freqDist := [], freqPre := (openBlock s).freqPre, lenLit := (openBlock s).lenLit
    lenDist := (openBlock s).lenDist, lenPre := (openBlock s).lenPre, codeLit := (openBlock s).codeLit
    codeDist := (openBlock s).codeDist, codePre := (openBlock s).codePre, rleItem := (openBlock s).rleItem
    rleCount := (openBlock s).rleCount
    driver := { s.driver with
      pos := word s.driver.bs.toNat
      be := word (min (s.driver.bs.toNat + s.params.blkMax) s.inLen.toNat) } } := by
  have hcodes := startTables_codesOnly (cutBlock s)
  obtain ⟨hlit, hdist⟩ := startTables_freqs (cutBlock s)
  rw [openBlock]
  generalize startTables (cutBlock s) = c at hcodes hlit hdist ⊢
  rw [hcodes, hlit, hdist]
  rfl

theorem SameOrOld.trans {α : Type} {x x' y y' old old' : α} (h : SameOrOld x x' y y') (hy : SameOrOld y y' old old') :
    SameOrOld x x' old old' := by
  rcases h with h | ⟨rfl, rfl⟩
  · exact .inl h
  · exact hy

theorem Twin.openBlock_sameCodes (h : Twin o o' q u u') : SameCodes (openBlock u) (openBlock u') :=
  (startTables_sameCodes (u := cutBlock u) (u' := cutBlock u') h.freqLit h.freqDist).of_tokensOnly
    (setPos_tokensOnly _ _) (setPos_tokensOnly _ _)

theorem openBlock_rleItem (s : State) : (openBlock s).rleItem = (startTables (cutBlock s)).rleItem := by
  rw [openBlock]
  generalize startTables (cutBlock s) = c
  rfl

theorem Twin.openBlock_rleItem (h : Twin o o' q u u') (i : Nat) :
    SameOrOld (Cells.get 0 (openBlock u).rleItem i) (Cells.get 0 (openBlock u').rleItem i) (Cells.get 0 o.rleItem i)
      (Cells.get 0 o'.rleItem i) := by
  have hitem := rleItem_startTables_twin (u := cutBlock u) (u' := cutBlock u') h.freqLit h.freqDist i
  rw [Proofs.openBlock_rleItem, Proofs.openBlock_rleItem]
  exact hitem.trans (h.rleItem i)

/-- Twins open a block alike. -/
theorem Twin.openBlock (h : Twin o o' u.driver.bs.toNat u u') :
    Twin o o' (openBlock u).driver.pos.toNat (openBlock u) (openBlock u') ∧ SameBlock (openBlock u) (openBlock u') := by
  have hitems := h.openBlock_rleItem
  obtain ⟨-, hbe, hpos, -, hlen⟩ := openBlock_registers u
  refine ⟨?_, ?_, ?_, ?_⟩
  · rw [hpos]
    rw [openBlock_eq u, openBlock_eq u'] at hitems ⊢
    exact { h with freqLit := rfl, freqDist := rfl, links := h.links.of_same rfl rfl rfl, rleItem := hitems }
  · rw [openBlock_eq u, openBlock_eq u', h.bs]
  · rw [openBlock_eq u, openBlock_eq u', h.bs, h.params, h.inLen]
  · rw [hbe, hlen]
    exact Nat.min_le_right _ _

/-- What a block streams is decided by its tables and its tokens. -/
theorem fields_congr {b b' : Block} (hcodes : SameCodes b.tables b'.tables) (htokens : b'.tokens = b.tokens) :
    b'.fields = b.fields := by
  have hlit : ∀ sym, symbolField .litLen b'.tables sym = symbolField .litLen b.tables sym := fun sym => by
    simp only [symbolField, alphabetCode, alphabetLen, hcodes.codeLit, hcodes.lenLit]
  have hdist : ∀ sym, symbolField .dist b'.tables sym = symbolField .dist b.tables sym := fun sym => by
    simp only [symbolField, alphabetCode, alphabetLen, hcodes.codeDist, hcodes.lenDist]
  have hpre : ∀ sym, symbolField .preCode b'.tables sym = symbolField .preCode b.tables sym := fun sym => by
    simp only [symbolField, alphabetCode, alphabetLen, hcodes.codePre, hcodes.lenPre]
  have htok : tokenFields b'.tables = tokenFields b.tables := by
    funext tok
    cases tok <;> simp only [tokenFields, matchFields, hlit, hdist]
  have hheader : blockHeaderFields b'.tables = blockHeaderFields b.tables := by
    have hitems : ∀ j ∈ List.range b.tables.rleCount.toNat,
        itemFields b'.tables (Cells.get 0 b'.tables.rleItem j).toNat =
          itemFields b.tables (Cells.get 0 b.tables.rleItem j).toNat := fun j hj => by
      rw [hcodes.items j (List.mem_range.mp hj), itemFields, itemFields, hpre]
    simp only [blockHeaderFields, headerFields, hclenOf_congr hcodes.lenPre, hcodes.lenPre, hcodes.rleCount,
      List.flatMap_congr hitems]
  rw [Block.fields, Block.fields, htokens, htok, hlit, ← blockHeaderFields, hheader, blockHeaderFields]

theorem SameCodes.countLit (h : SameCodes u u') (sym : Nat) : SameCodes (countLit sym u) (countLit sym u') :=
  h.of_tokensOnly rfl rfl

/-- Closing a block keeps its tables. -/
theorem SameCodes.closeBlock (h : SameCodes u u') : SameCodes (closeBlock u) (closeBlock u') := { h with }

/-- Twins close a block alike. -/
theorem Twin.closeBlock (h : Twin o o' u.driver.be.toNat u u') (hbe : u'.driver.be = u.driver.be) :
    Twin o o' (closeBlock u).driver.bs.toNat (closeBlock u) (closeBlock u') :=
  { h with links := h.links.of_same rfl rfl rfl, bs := hbe, nblk := congrArg (· + 1) h.nblk }

theorem nextBlock_end (s : State) :
    (nextBlock s).2 = closeBlock (countLit 256 (wholeBlock (Machine.openBlock s)).2) := rfl

/-- Twins stream the same next block, and are twins after it, with the same tables. -/
theorem Twin.nextBlock (h : Twin o o' u.driver.bs.toNat u u') (hbs : u.driver.bs.toNat ≤ u.inLen.toNat) :
    (nextBlock u').1.fields = (nextBlock u).1.fields ∧
      Twin o o' (nextBlock u).2.driver.bs.toNat (nextBlock u).2 (nextBlock u').2 ∧
      SameCodes (nextBlock u).2 (nextBlock u').2 := by
  have hcodes := h.openBlock_sameCodes
  obtain ⟨hopen, hblock⟩ := h.openBlock
  obtain ⟨hbsO, hbeO, hposO, -, -⟩ := openBlock_registers u
  have hwhole : wholeBlock (Machine.openBlock u') =
      Machine.blockTokens ((Machine.openBlock u).driver.be.toNat - (Machine.openBlock u).driver.bs.toNat)
        (Machine.openBlock u') := by
    rw [wholeBlock, hblock.be, hopen.bs]
  obtain ⟨htokens, hend⟩ := hopen.blockTokens
    ((Machine.openBlock u).driver.be.toNat - (Machine.openBlock u).driver.bs.toNat) hblock (by rw [hposO, hbeO]; omega)
  have honly : TokensOnly (Machine.openBlock u) (wholeBlock (Machine.openBlock u)).2 := blockTokens_tokensOnly _ _
  have honly' : TokensOnly (Machine.openBlock u') (wholeBlock (Machine.openBlock u')).2 := blockTokens_tokensOnly _ _
  have hbe : (wholeBlock (Machine.openBlock u)).2.driver.be = (Machine.openBlock u).driver.be := by rw [honly]
  have hbe' : (wholeBlock (Machine.openBlock u')).2.driver.be = (Machine.openBlock u').driver.be := by rw [honly']
  rw [← hwhole, ← wholeBlock] at htokens hend
  rw [← hbe] at hend
  refine ⟨fields_congr hcodes htokens, ?_⟩
  rw [nextBlock_end, nextBlock_end]
  exact ⟨(hend.countLit 256).closeBlock (hbe'.trans (hblock.be.trans hbe.symm)),
    ((hcodes.of_tokensOnly honly honly').countLit 256).closeBlock⟩

/-- Twins stream the same blocks and end as twins; after a block their tables are the same. -/
theorem Twin.blocksFrom (fuel : Nat) (h : Twin o o' u.driver.bs.toNat u u') (hbs : u.driver.bs.toNat ≤ u.inLen.toNat) :
    (blocksFrom fuel u').1.flatMap Block.fields = (blocksFrom fuel u).1.flatMap Block.fields ∧
      (∃ q, Twin o o' q (blocksFrom fuel u).2 (blocksFrom fuel u').2) ∧
      ((blocksFrom fuel u).1 ≠ [] ∨ SameCodes u u' → SameCodes (blocksFrom fuel u).2 (blocksFrom fuel u').2) := by
  induction fuel generalizing u u' with
  | zero => exact ⟨rfl, ⟨_, h⟩, fun hc => hc.resolve_left (fun hne => hne rfl)⟩
  | succ fuel ih =>
    rw [Machine.blocksFrom, Machine.blocksFrom, h.bs, h.inLen]
    by_cases hlt : u.driver.bs.toNat < u.inLen.toNat
    case neg =>
      rw [if_neg hlt, if_neg hlt]
      exact ⟨rfl, ⟨_, h⟩, fun hc => hc.resolve_left (fun hne => hne rfl)⟩
    case pos =>
      rw [if_pos hlt, if_pos hlt]
      obtain ⟨hfields, hnext, hcodes⟩ := h.nextBlock hbs
      obtain ⟨hrest, hend, hcodesEnd⟩ := ih hnext (by
        rw [nextBlock_bs, (nextBlock_frame u).2.1]
        exact Nat.min_le_right _ _)
      refine ⟨?_, hend, fun _ => hcodesEnd (.inr hcodes)⟩
      rw [List.flatMap_cons, List.flatMap_cons, hfields, hrest]

end

/-! ### Two runs on the same input (R320) -/

theorem inputBytesOf_congr {s s' : State} (h : SameInput s s') : inputBytesOf s' = inputBytesOf s := by
  obtain ⟨-, hlen, hinput⟩ := h
  rw [inputBytesOf, inputBytesOf, ← hlen]
  exact List.map_congr_left fun k hk => (hinput k (List.mem_range.mp hk)).symm

/-- In the container ADLER is the checksum of the input (R303). -/
theorem initAdler_congr {s s' : State} (h : SameInput s s') : initAdler true s' = initAdler true s := by
  simp only [initAdler, if_true, inputBytesOf_congr h]

/-- Init makes twins of two states with the same input. -/
theorem startState_twin {s s' : State} (h : SameInput s s') (level : BitVec 4) (container : Bool) :
    Twin s s' (startState level container s).driver.bs.toNat (startState level container s)
      (startState level container s') := by
  obtain ⟨hparams, hlen, hinput⟩ := h
  constructor
  case input =>
    intro k hk
    rw [startState_inLen] at hk
    rw [startState_inputAt, startState_inputAt, hinput k hk]
  case links =>
    refine ⟨∅, ⟨nofun, fun b => .inl ?_, nofun⟩, nofun⟩
    rw [startState_head]
    rfl
  case prev | rleItem =>
    intro i
    simp only [startState_prev, startState_rleItem, SameOrOld, and_self, or_true]
  all_goals
    simp only [startState_params, startState_inLen, startState_head, startState_freqLit, startState_freqDist,
      startState_driver, hparams, hlen]

/-- A non-empty input has a block. -/
theorem compressBlocks_ne_nil {s : State} (level : BitVec 4) (container : Bool) (h : s.inLen ≠ 0)
    (hb : 1 ≤ s.params.blkMax) : (compressBlocks level container s).1 ≠ [] := by
  have hpos : 0 < s.inLen.toNat := Nat.pos_of_ne_zero fun h0 => h (BitVec.eq_of_toNat_eq h0)
  rw [← List.length_pos_iff, compressBlocks_length level container s hb]
  exact Nat.div_pos (by omega) hb

/-- The runs stream the same and end as twins; after a non-empty input their tables are the same. -/
theorem compressBlocks_twin {s s' : State} (h : SameInput s s') (hp : P_params s) (level : BitVec 4)
    (container : Bool) :
    streamFields level container s' = streamFields level container s ∧
      (∃ q, Twin s s' q (compressBlocks level container s).2 (compressBlocks level container s').2) ∧
      (s.inLen ≠ 0 → SameCodes (compressBlocks level container s).2 (compressBlocks level container s').2) := by
  obtain ⟨hfields, hend, hcodes⟩ := (startState_twin h level container).blocksFrom s.inLen.toNat
    (by rw [startState_driver]; exact Nat.zero_le _)
  have hrun : blocksFrom s.inLen.toNat (startState level container s') = compressBlocks level container s' := by
    rw [compressBlocks, h.2.1]
  rw [hrun, ← compressBlocks] at hfields hend hcodes
  refine ⟨?_, hend, fun hne => hcodes (.inl (compressBlocks_ne_nil level container hne (blkMax_pos hp)))⟩
  have hbody : bodyFields level container s' = bodyFields level container s := by
    rw [bodyFields, bodyFields, hfields]
  have htrailer : (if container then trailerFields (initAdler container s') else []) =
      if container then trailerFields (initAdler container s) else [] := by
    cases container with
    | false => simp only [Bool.false_eq_true, if_false]
    | true => rw [initAdler_congr h]
  rw [streamFields_eq, streamFields_eq, hbody, htrailer]

/-- A COMPRESS that completes has passed its pre-checks, and its stream fits. -/
theorem compressed_of_no_fault {level : BitVec 4} {container : Bool} {s t : State} (h : s.ready = true)
    (hp : P_params s) (ht : exec (.compress level container) s = .next t) (hf : t.status.fault = false) :
    Compressed level container s t := by
  -- a run that ends in a state with FAULT set is not this one
  have ended : ∀ {u : State}, exec (.compress level container) s = .next u → u.status.fault = true → False := by
    intro u hu hfu
    cases ht.symm.trans hu
    rw [hf] at hfu
    cases hfu
  obtain ⟨hlevel, hregion, hroom⟩ := compressPreChecks level container s h
  have hl : level.toNat ≤ 8 := Nat.not_lt.mp fun hgt => ended (hlevel hgt) rfl
  have hregions : P_regions s := fun n hn => ended (hregion hl n hn) rfl
  have hr := P_regions_iff.mp hregions
  have hcap : P_room s := Nat.not_lt.mp fun hlt => ended (hroom hl hr hlt) rfl
  obtain ⟨hok, hfull⟩ := compressCompletesWithRoom level container s h hp hl hregions hcap
  by_cases hfits : P_fits level container s
  · obtain ⟨u, hu, hcomp⟩ := hok hfits
    cases ht.symm.trans hu
    exact hcomp
  · obtain ⟨u, hu, hstatus, -⟩ := hfull hfits
    exact absurd (congrArg Status.fault hstatus) fun hfu => ended hu hfu

/-! ### The end states (R321) -/

/-- A completed COMPRESS leaves the tables of its bufferless run. -/
theorem compressed_tableEntry {level : BitVec 4} {container : Bool} {s t : State} (h : Compressed level container s t)
    (x : TableId) (i : Nat) : tableEntry x i t = tableEntry x i (compressBlocks level container s).2 := by
  obtain ⟨hstate, -, -⟩ := h
  rw [hstate]
  generalize (compressBlocks level container s).2 = e
  cases x <;> rfl

/-- Init changes no table but HEAD and the frequency tables it seeds (R303). -/
theorem startState_tableEntry (level : BitVec 4) (container : Bool) (s : State) {x : TableId} (hhead : x ≠ .head)
    (hlit : x ≠ .freqLit) (hdist : x ≠ .freqDist) (i : Nat) :
    tableEntry x i (startState level container s) = tableEntry x i s := by
  have hseed : ∀ v, tableEntry x i (seedFreqs v) = tableEntry x i v := fun v => by
    rw [seedFreqs]
    generalize Cells.ofNats 288 v.params.seedLit = lits, Cells.ofNats 32 v.params.seedDist = dists
    cases x with
    | head => exact absurd rfl hhead
    | freqLit => exact absurd rfl hlit
    | freqDist => exact absurd rfl hdist
    | _ => rfl
  have hreset : tableEntry x i (resetHead (resetWriter s)) = tableEntry x i s := by
    cases x with
    | head => exact absurd rfl hhead
    | _ => rfl
  have hregisters : ∀ v d a, tableEntry x i { v with driver := d, adler := a } = tableEntry x i v := fun v d a => by
    cases x <;> rfl
  rw [startState, hregisters, hseed, hreset]

/-- Twins with the same tables hold the same entries, but in PREV and RLE_ITEM. -/
theorem tableEntry_congr {o o' u u' : State} {q : Nat} (h : Twin o o' q u u') (hc : SameCodes u u') {x : TableId}
    (hprev : x ≠ .prev) (hitem : x ≠ .rleItem) (i : Nat) : tableEntry x i u = tableEntry x i u' := by
  rw [tableEntry, tableEntry, if_neg hprev, if_neg hprev]
  cases x with
  | prev => exact absurd rfl hprev
  | rleItem => exact absurd rfl hitem
  | _ =>
    simp only [readTable, h.head, h.freqLit, h.freqDist, hc.freqPre, hc.lenLit, hc.lenDist, hc.lenPre, hc.codeLit,
      hc.codeDist, hc.codePre, hc.rleCount]

/-- Settles O50: both runs end as `Compressed` says, their streams are the same fields, and their bufferless runs are twins. -/
theorem compressDependsOnlyOnTheInput : Obligations.CompressDependsOnlyOnTheInput := by
  unfold Obligations.CompressDependsOnlyOnTheInput
  intro level container s s' t t' h h' hp hsame ht ht' hf hf'
  have hp' : P_params s' := by rw [P_params, ← hsame.1]; exact hp
  have hend := compressed_of_no_fault h hp ht hf
  have hend' := compressed_of_no_fault h' hp' ht' hf'
  obtain ⟨hfields, ⟨q, htwin⟩, hcodes⟩ := compressBlocks_twin hsame hp level container
  have hlen : streamLength level container s' = streamLength level container s := by
    rw [streamLength, streamLength, hfields]
  have htables := compressed_tableEntry hend
  have htables' := compressed_tableEntry hend'
  obtain ⟨hadler, -⟩ := compressBlocks_registers level container s
  obtain ⟨hadler', -⟩ := compressBlocks_registers level container s'
  obtain ⟨hstate, hbytes, -⟩ := hend
  obtain ⟨hstate', hbytes', -⟩ := hend'
  have hempty := fun h0 : s.inLen = 0 => congrArg Prod.snd (compressBlocks_of_empty level container h0)
  generalize (compressBlocks level container s).2 = e at *
  generalize (compressBlocks level container s').2 = e' at *
  refine ⟨?_, ?_, ?_, ?_, ?_, fun j hj => ?_, ?_, ?_, ?_, ?_, ?_, ?_, fun hne => ⟨fun i hi => ?_, fun x i hx hx' => ?_⟩,
    fun h0 x i hx hx' hx'' => ?_⟩
  · rw [hstate, hstate', hlen]
  · rw [hstate, hstate', htwin.nblk]
  · rw [hstate, hstate', hlen]
  · rw [hstate, hstate']
  · rw [hstate, hstate']
  · have hj' : j < streamLength level container s := by
      rw [hstate] at hj
      exact hj.trans_le (Nat.mod_le _ _)
    rw [hbytes j hj', hbytes' j (by rw [hlen]; exact hj'), hfields]
  · have ht0 : t.adler = initAdler container s := by rw [hstate, ← hadler]
    have ht0' : t'.adler = initAdler container s' := by rw [hstate', ← hadler']
    cases container with
    | false => exact ht0
    | true => exact ht0.trans ((initAdler_congr hsame).symm.trans ht0'.symm)
  · rw [hstate, hstate', htwin.head]
  · rw [hstate, hstate', htwin.freqLit]
  · rw [hstate, hstate', htwin.freqDist]
  · rw [hstate, hstate']
    exact htwin.prev
  · rw [hstate, hstate']
    exact htwin.rleItem
  · rw [hstate] at hi
    rw [hstate, hstate']
    exact ((hcodes hne).items i hi).symm
  · rw [htables, htables', tableEntry_congr htwin (hcodes hne) hx hx']
  · rw [htables, hempty h0, startState_tableEntry level container s hx hx' hx'']

end Sys2Proof.Proofs
end

section
/-! SUPPORT. The control commands: NOP, RESET_STATE, TBL_READ and TBL_WRITE, and what a table entry is after a write and
after a reset (R48, R50, R340 to R344). -/

namespace Sys2Proof.Proofs

open Sys2Proof Sys2Proof.Machine Sys2Proof.Laws

/-! ### Entries that stay -/

@[simp] theorem tableEntry_accept (x : TableId) (i : Nat) (s : State) :
    tableEntry x i (accept s) = tableEntry x i s := by cases x <;> rfl

@[simp] theorem tableEntry_complete (x : TableId) (i : Nat) (s : State) :
    tableEntry x i (complete s) = tableEntry x i s := by cases x <;> rfl

@[simp] theorem tableEntries_accept (s : State) (x : TableId) : tableEntries (accept s) x = tableEntries s x := by
  cases x <;> rfl

/-! ### Entries after a write (R343, R344) -/

/-- A value that fits a narrower width survives being narrowed and widened again. -/
theorem setWidth_setWidth_of_lt {v : Word} {n : Nat} (h : v.toNat < 2 ^ n) : (v.setWidth n).setWidth 32 = v := by
  apply BitVec.eq_of_toNat_eq
  rw [BitVec.toNat_setWidth, BitVec.toNat_setWidth, Nat.mod_eq_of_lt h, Nat.mod_eq_of_lt v.isLt]

/-- An entry written reads back, where the value fits the table's width. -/
theorem tableEntry_writeTable_same {x : TableId} {v : Word} (i : Nat) (s : State) (hv : v.toNat < 2 ^ tableWidth x) :
    tableEntry x i (writeTable x i v s) = some v := by
  have hwide := setWidth_setWidth_of_lt hv
  cases x with
  | prev => simp [tableEntry, writeTable, Cells.find_put]
  | rleCount => exact congrArg some hwide
  | head | freqLit | freqDist | freqPre => simp [tableEntry, readTable, writeTable]
  | _ =>
    rw [tableWidth] at hwide
    simp [tableEntry, readTable, writeTable, hwide]

/-- A write leaves the other entries of its table; RLE_COUNT has no other. -/
theorem tableEntry_writeTable_index {x : TableId} {i j : Nat} {s : State} (v : Word) (hi : i < tableEntries s x)
    (hj : j < tableEntries s x) (h : i ≠ j) : tableEntry x j (writeTable x i v s) = tableEntry x j s := by
  cases x with
  | prev => simp [tableEntry, writeTable, Cells.find_put, h]
  | rleCount =>
    rw [tableEntries] at hi hj
    omega
  | _ => simp [tableEntry, readTable, writeTable, Cells.get_set_other _ _ h]

/-- A write leaves every other table. A pair of tables is on the diagonal, which h excludes, or the write is of a field the
entry is not read from. -/
theorem tableEntry_writeTable_table {x y : TableId} (i j : Nat) (v : Word) (s : State) (h : y ≠ x) :
    tableEntry y j (writeTable x i v s) = tableEntry y j s := by
  cases x <;> cases y <;> first | rfl | exact absurd rfl h

theorem writeTable_onlyTables (x : TableId) (i : Nat) (v : Word) (s : State) :
    OnlyTables s (complete (writeTable x i v (accept s))) := by
  cases x <;> rfl

/-! ### TBL_WRITE (R343) -/

/-- What TBL_WRITE asks of a value: it fits the width, and meets the extra condition of the two tables that have one. -/
theorem tableAccepts_iff {x : TableId} {v : Word} : tableAccepts x v = true ↔
    v.toNat < 2 ^ tableWidth x ∧ (x = .rleItem → v.toNat % 32 ≤ 18) ∧ (x = .rleCount → v.toNat ≤ 316) := by
  cases x <;> simp [tableAccepts]

/-- TBL_WRITE is its two checks, in the order of R343, and the write. -/
theorem execTblWrite_eq {sel : BitVec 4} {x : TableId} {s : State} (hx : TableId.ofSel sel = some x)
    (h : s.ready = true) :
    exec (.tblWrite sel) s =
      if s.arg0.toNat < tableEntries s x then
        if tableAccepts x s.arg1 = true then .next (complete (writeTable x s.arg0.toNat s.arg1 (accept s)))
        else .next (faulted .badArg 1 s)
      else .next (faulted .badArg 0 s) := by
  have hrun : runCommand (fun a => .ok (writeTable x a.arg0.toNat a.arg1 a)) s =
      .next (complete (writeTable x s.arg0.toNat s.arg1 (accept s))) := runCommand_completes h rfl
  simp only [exec, execTblWrite, hx]
  rw [runCommand_check (ok := fun a => decide (a.arg0.toNat < tableEntries a x)) h (by decide),
    runCommand_check (ok := fun a => tableAccepts x a.arg1) h (by decide), hrun]
  simp only [accept_arg0, accept_arg1, tableEntries_accept]
  exact if_congr decide_eq_true_iff rfl rfl

/-- The word of a TBL_WRITE with an illegal SEL is refused (R118). -/
theorem decode_tblWrite_illegal {sel : BitVec 4} (h : 13 ≤ sel.toNat) (i : Instr) :
    decode (encode (.tblWrite sel)) ≠ .ok i := by
  have hwf : (Instr.tblWrite sel).wellFormed = false := by
    rw [Instr.wellFormed, WellFormed.tableSel, decide_eq_false_iff_not]
    omega
  rw [decode_encode (.tblWrite sel), hwf]
  nofun

/-- Settles O17: past its two checks the command is one table write, and a write changes the one entry it names. -/
theorem tblWriteSetsTheEntry : Obligations.TblWriteSetsTheEntry := by
  unfold Obligations.TblWriteSetsTheEntry
  refine ⟨fun sel => ⟨by revert sel; decide, decode_tblWrite_illegal⟩, fun sel x s hx h => ?_⟩
  dsimp only
  rw [execTblWrite_eq hx h, ← tableAccepts_iff]
  refine ⟨fun hi => if_neg (Nat.not_lt.mpr hi), fun hi hv => by rw [if_pos hi, if_neg hv], fun hi hv => ?_⟩
  rw [if_pos hi, if_pos hv]
  have hi' : s.arg0.toNat < tableEntries (accept s) x := by rwa [tableEntries_accept]
  refine ⟨_, rfl, writeTable_onlyTables x _ _ s, ?_, fun y j hj hne => ?_⟩
  · rw [tableEntry_complete]
    exact tableEntry_writeTable_same _ _ (tableAccepts_iff.mp hv).1
  · rw [tableEntry_complete, ← tableEntry_accept y j s]
    by_cases hy : y = x
    · subst hy
      exact tableEntry_writeTable_index _ hi' (by rwa [tableEntries_accept]) fun he => hne ⟨rfl, he.symm⟩
    · exact tableEntry_writeTable_table _ _ _ _ hy

/-! ### TBL_READ (R342) -/

/-- A read of an entry that holds a value gives it and changes nothing. -/
theorem readTable_of_some {x : TableId} {i : Nat} {s : State} {v : Word} (h : tableEntry x i s = some v) :
    readTable x i s = (v, s) := by
  cases x with
  | prev =>
    have hfind : Cells.find s.prev i = some v := h
    rw [readTable, readPrev, hfind]
  | _ => exact congrArg (·, s) (Option.some.inj h)

/-- Only a PREV entry can hold no value, and its read is a draw (R50; log entry 4). -/
theorem readTable_of_none {x : TableId} {i : Nat} {s : State} (h : tableEntry x i s = none) :
    readTable x i s = (Config.drawn s.draws .prevRead, { s with draws := s.draws + 1 }) := by
  cases x with
  | prev =>
    have hfind : Cells.find s.prev i = none := h
    rw [readTable, readPrev, hfind]
  | _ => cases h

/-- TBL_READ is its check and one table read. -/
theorem execTblRead_eq {sel : BitVec 4} {x : TableId} {s : State} (hx : TableId.ofSel sel = some x)
    (h : s.ready = true) :
    exec (.tblRead sel) s =
      if s.arg0.toNat < tableEntries s x then
        .next (complete { (readTable x s.arg0.toNat (accept s)).2 with
          res0 := (readTable x s.arg0.toNat (accept s)).1 })
      else .next (faulted .badArg 0 s) := by
  simp only [exec, execTblRead, hx]
  rw [runCommand_check (ok := fun a => decide (a.arg0.toNat < tableEntries a x)) h (by decide), tableEntries_accept]
  exact if_congr decide_eq_true_iff ((runCommand_ready h).trans rfl) rfl

/-- Settles O16: past its check the command is one table read, which is the entry, or a draw where there is none. -/
theorem tblReadGivesTheEntry : Obligations.TblReadGivesTheEntry := by
  unfold Obligations.TblReadGivesTheEntry
  intro sel x s hx h
  dsimp only
  rw [execTblRead_eq hx h]
  refine ⟨fun hi => if_neg (Nat.not_lt.mpr hi), fun hi v hv => ?_, fun hi hv => ?_⟩
  · rw [if_pos hi, readTable_of_some ((tableEntry_accept _ _ _).trans hv)]
    rfl
  · rw [if_pos hi, readTable_of_none ((tableEntry_accept _ _ _).trans hv)]
    exact ⟨_, rfl⟩

/-! ### NOP (R340) -/

/-- Settles O14: the body changes nothing, and a FAULTED engine takes no NOP. -/
theorem nopChangesOnlyStatus : Obligations.NopChangesOnlyStatus := by
  unfold Obligations.NopChangesOnlyStatus
  refine ⟨by decide, fun s h => ?_, fun s h => exec_ignored (by decide) (by simp [State.ready, h])⟩
  rw [exec, execNop, runCommand_completes h rfl, complete_accept]

/-! ### RESET_STATE (R341) -/

/-- Every table but PREV is at its reset value. -/
structure TablesCleared (s : State) : Prop where
  head     : s.head = []
  freqLit  : s.freqLit = []
  freqDist : s.freqDist = []
  freqPre  : s.freqPre = []
  lenLit   : s.lenLit = []
  lenDist  : s.lenDist = []
  lenPre   : s.lenPre = []
  codeLit  : s.codeLit = []
  codeDist : s.codeDist = []
  codePre  : s.codePre = []
  rleItem  : s.rleItem = []
  rleCount : s.rleCount = 0

/-- Every bucket of a cleared HEAD is NIL. -/
theorem TablesCleared.head_nil {s : State} (h : TablesCleared s) (i : Nat) :
    tableEntry .head i s = some 0xFFFFFFFF := by
  simp [tableEntry, readTable, h.head]

/-- Every entry of the other cleared tables is 0. -/
theorem TablesCleared.entry_zero {s : State} (h : TablesCleared s) {x : TableId} (i : Nat) (hhead : x ≠ .head)
    (hprev : x ≠ .prev) : tableEntry x i s = some 0 := by
  rw [tableEntry, if_neg hprev]
  cases x with
  | head => exact absurd rfl hhead
  | prev => exact absurd rfl hprev
  | _ => simp [readTable, h.freqLit, h.freqDist, h.freqPre, h.lenLit, h.lenDist, h.lenPre, h.codeLit, h.codeDist,
      h.codePre, h.rleItem, h.rleCount]

/-- RESET_STATE of an engine that is neither BUSY nor held in reset, FAULTED or not. -/
theorem execResetState_completes {s : State} (hrst : s.rst = false) (hbusy : s.status.busy = false) :
    exec .resetState s = .next (complete (resetEngine (clearFault (accept s)))) := by
  rw [exec, execResetState, State.readyForReset, hrst, hbusy]
  rfl

/-- Settles O15: a FAULTED engine takes no other command, and RESET_STATE clears every table but PREV. -/
theorem resetStateEffect : Obligations.ResetStateEffect := by
  unfold Obligations.ResetStateEffect
  refine ⟨by decide, fun i s h hi => exec_ignored hi (by simp [State.ready, h]), fun s hrst hbusy => ?_⟩
  have hcleared : TablesCleared (complete (resetEngine (clearFault (accept s)))) :=
    ⟨rfl, rfl, rfl, rfl, rfl, rfl, rfl, rfl, rfl, rfl, rfl, rfl⟩
  exact ⟨_, execResetState_completes hrst hbusy, rfl, hcleared.head_nil, fun x i => hcleared.entry_zero i⟩

end Sys2Proof.Proofs
end

section
/-! SUPPORT. Faults: how long a recorded fault stays, and what a fault before a command's work leaves unchanged (R363,
R366). -/

namespace Sys2Proof.Proofs

open Sys2Proof Sys2Proof.Machine Sys2Proof.Laws

/-! ### A recorded fault stays (R46, R366) -/

/-- The fault record of s stands in t: STATUS and FAULT_INFO are the same. -/
def SameRecord (s t : State) : Prop := t.status = s.status ∧ t.faultInfo = s.faultInfo

/-- No register the host writes is part of the fault record. -/
theorem writeRegister_sameRecord (offset : BitVec 8) (v : Word) (s : State) :
    SameRecord s (writeRegister offset v s) := by
  unfold writeRegister
  split <;> exact ⟨rfl, rfl⟩

theorem hostRead_sameRecord (addr : Nat) (s : State) : SameRecord s (hostRead addr s) := by
  unfold hostRead busRead
  split
  · split <;> exact ⟨rfl, rfl⟩
  · exact ⟨rfl, rfl⟩

/-- While FAULTED a write of the window keeps the record, unless it runs RESET_STATE. -/
theorem busWrite_sameRecord {offset : BitVec 8} {v : Word} {s t : State} (hf : s.status.fault = true)
    (hreset : ¬(offset = cmdOffset ∧ decode v = .ok .resetState)) (h : busWrite offset v s = .next t) :
    SameRecord s t := by
  by_cases ha : offset.toNat % 4 = 0
  case neg =>
    rw [busWrite_unaligned ha] at h
    cases h
    exact ⟨rfl, rfl⟩
  case pos =>
    by_cases hc : offset = cmdOffset
    · subst hc
      have hign : busWrite cmdOffset v s = .next s :=
        commandWrite_ignored (fun hv => hreset ⟨rfl, hv⟩) (by simp [State.ready, hf])
      rw [hign] at h
      cases h
      exact ⟨rfl, rfl⟩
    · rw [busWrite_register ha hc] at h
      split at h <;> cases h
      · exact writeRegister_sameRecord offset v s
      · exact ⟨rfl, rfl⟩

/-- A move of the host that ends a recorded fault, or may: RESET_STATE written to CMD, or a move of the rst pin. -/
def EndsFault (s : State) (op : HostOp) : Prop :=
  (∃ w, op = .write32 s.params.regBase w ∧ decode w = .ok .resetState) ∨ op = .rstAssert ∨ op = .rstRelease ∨
    ∃ w, op = .abandon w

/-- While FAULTED every other move keeps the record. -/
theorem hostMove_sameRecord {op : HostOp} {s t : State} (hf : s.status.fault = true) (hop : ¬EndsFault s op)
    (h : hostMove op s = .next t) : SameRecord s t := by
  cases op with
  | write32 addr v =>
    rw [hostMove, hostWrite] at h
    split at h
    · rename_i offset hoff
      refine busWrite_sameRecord hf (fun ⟨hc, hv⟩ => hop (.inl ⟨v, ?_, hv⟩)) h
      have haddr : addr = s.params.regBase := windowOffset_cmd (hc ▸ hoff)
      rw [haddr]
    · cases h
      exact ⟨rfl, rfl⟩
  | read32 addr =>
    cases h
    exact hostRead_sameRecord addr s
  | rstAssert => exact absurd (.inr (.inl rfl)) hop
  | rstRelease => exact absurd (.inr (.inr (.inl rfl))) hop
  | abandon w => exact absurd (.inr (.inr (.inr ⟨w, rfl⟩))) hop
  | _ =>
    cases h
    exact ⟨rfl, rfl⟩

/-- Settles O10: a FAULTED engine ignores every command but RESET_STATE, and no other move writes STATUS or FAULT_INFO. -/
theorem faultIsSticky : Obligations.FaultIsSticky := by
  unfold Obligations.FaultIsSticky
  refine ⟨fun s t hf h => ?_, fun s _ hbusy hrst => ?_⟩
  · cases hb : s.bus with
    | nil =>
      rw [step_of_bus_nil hb] at h
      cases h
      exact .inl ⟨rfl, rfl⟩
    | cons op rest =>
      rw [step_of_bus_cons hb] at h
      by_cases hop : EndsFault s op
      · exact .inr ⟨op, rest, rfl, hop⟩
      · exact .inl (hostMove_sameRecord (s := { s with bus := rest }) hf hop h)
  · exact ⟨_, execResetState_completes hrst hbusy, rfl, rfl⟩

/-! ### A fault before a command's work (R363) -/

/-- Settles O54: of the ways a command can end, only a fault other than OUT_OVERFLOW leaves FAULT and such a cause. -/
theorem preCheckFaultKeepsEverything : Obligations.PreCheckFaultKeepsEverything := by
  unfold Obligations.PreCheckFaultKeepsEverything
  intro i s t hr h hf hc
  obtain ⟨-, -, hnone⟩ := ready_iff.mp hr
  have hi : i ≠ .resetState := by
    rintro rfl
    rw [execResetState_ready hr] at h
    cases h
    cases hf
  rcases exec_cases hi h with ⟨hn, -⟩ | ⟨-, u, hu, rfl⟩ | ⟨-, c, info, -, -, rfl⟩ | ⟨-, -, -, info, rfl⟩
  · rw [hr] at hn
    cases hn
  · have hkept : u.status.fault = s.status.fault := by rw [did_status hu, accept_status]
    rw [complete_status, hkept, hnone] at hf
    cases hf
  · rfl
  · exact absurd rfl hc

end Sys2Proof.Proofs
end

section
/-! SUPPORT. The rst pin, the state it leaves, and the launch of a COMPRESS and the end of its run (R390 to R395). -/

namespace Sys2Proof.Proofs

open Sys2Proof Sys2Proof.Machine Sys2Proof.Laws

/-! ### The rst pin (R390, R391) -/

/-- While rst is asserted no command is taken, RESET_STATE included (R390). -/
theorem commandWrite_in_reset {s : State} (w : Word) (h : s.rst = true) : commandWrite w s = .next s := by
  by_cases hw : decode w = .ok .resetState
  · rw [commandWrite, hw]
    simp [exec, execResetState, State.readyForReset, h]
  · exact commandWrite_ignored hw (by simp [State.ready, h])

/-- While rst is asserted no write of the window has an effect. -/
theorem busWrite_in_reset {s : State} (offset : BitVec 8) (v : Word) (h : s.rst = true) :
    busWrite offset v s = .next s := by
  by_cases ha : offset.toNat % 4 = 0
  case neg => exact busWrite_unaligned ha
  case pos =>
    by_cases hc : offset = cmdOffset
    · subst hc
      exact commandWrite_in_reset v h
    · rw [busWrite_register ha hc, writable, h, Bool.not_true, Bool.and_false]
      rfl

/-- While rst is asserted a read of the window gives an open value (R390; log entry 8). -/
theorem busRead_in_reset {s : State} (offset : BitVec 8) (h : s.rst = true) : busRead offset s = openRead s := by
  rw [busRead, h, Bool.not_true, Bool.and_false]
  rfl

theorem releaseReset_of_rst {s : State} (h : s.rst = true) : releaseReset s = resetTo s.prev s.mem false s := by
  rw [releaseReset, if_pos h]

theorem resetTo_tablesCleared (prev : Cells Word) (mem : Memory) (rst : Bool) (s : State) :
    TablesCleared (resetTo prev mem rst s) :=
  ⟨rfl, rfl, rfl, rfl, rfl, rfl, rfl, rfl, rfl, rfl, rfl, rfl⟩

/-- Settles O12: both moves of the pin end in `resetTo`, and while it is asserted neither the CMD port nor a register takes a
write. -/
theorem resetPinAndValues : Obligations.ResetPinAndValues := by
  unfold Obligations.ResetPinAndValues
  refine ⟨fun s h => ?_, fun s h => ?_, fun s offset v h => ?_⟩
  · have hcleared := resetTo_tablesCleared s.prev s.mem false s
    rw [releaseReset_of_rst h]
    exact ⟨rfl, show Status.initial.word = 0 by decide, rfl, rfl, rfl, rfl, rfl, rfl, rfl, rfl, rfl, rfl, rfl, rfl, rfl,
      rfl, rfl, rfl, hcleared.head_nil, rfl, fun x i => hcleared.entry_zero i, rfl, rfl, rfl⟩
  · refine ⟨resetTo [] s.mem true s, ?_, rfl, rfl, rfl⟩
    rw [hostMove, assertReset, h]
    rfl
  · exact ⟨busWrite_in_reset offset v h, _, busRead_in_reset offset h⟩

/-- Settles O60: the reset state has reset values, an unwritten PREV and an empty memory. -/
theorem invAtReset : Obligations.InvAtReset := by
  unfold Obligations.InvAtReset
  exact resetTo_inv (s := State.reset) (rst := false) ⟨List.Pairwise.nil, nofun⟩ Memory.wf_reset

/-! ### The launch of a COMPRESS (R393 to R395) -/

/-- The word of a COMPRESS in numbers (R116). -/
theorem encode_compress_toNat (level : BitVec 4) (container : Bool) :
    (encode (.compress level container)).toNat = 3 + 256 * level.toNat + (if container then 4096 else 0) := by
  revert level container
  decide

/-- The word P_cmd names is COMPRESS's. -/
theorem decode_of_P_cmd {level : BitVec 4} {container : Bool} {w : Word} (h : P_cmd level container w) :
    decode w = .ok (.compress level container) := by
  obtain ⟨-, hw⟩ := h
  rw [BitVec.eq_of_toNat_eq (hw.trans (encode_compress_toNat level container).symm)]
  exact (decode_encode _).trans (if_pos rfl)

/-- A clean engine has no cause recorded: STATUS has no bit above DONE. -/
theorem cause_of_P_clean {s : State} (h : P_clean s) : s.status.cause.code.toNat = 0 := by
  obtain ⟨hw, -⟩ := h
  have hsum := statusWord_toNat s.status
  have hle : s.status.word.toNat ≤ 2 := by rcases hw with hw | hw <;> rw [hw] <;> decide
  omega

/-- A clean engine's completion reads as DONE alone. -/
theorem okStatus_of_P_clean {s : State} (h : P_clean s) : (okStatus s.status).word = 0x00000002 := by
  obtain ⟨-, -, hfault⟩ := ready_iff.mp (P_clean_ready h)
  apply BitVec.eq_of_toNat_eq
  rw [statusWord_toNat]
  simp [okStatus, hfault, cause_of_P_clean h]

/-- No command changes the chip's parameters. -/
theorem exec_params {i : Instr} {s t : State} (h : exec i s = .next t) : t.params = s.params := by
  obtain ⟨-, -, -, -, -, -, -, -, -, hparams, -⟩ := commandsKeepHostRegisters i s t h
  exact hparams

/-- The input region holds the bytes of P_input and no others. -/
theorem inputBytesOf_of_P_input {s : State} {B : List Byte} (h : P_input s B) : inputBytesOf s = B := by
  obtain ⟨hlen, hbytes⟩ := h
  refine List.ext_getElem (by rw [inputBytesOf, List.length_map, List.length_range, hlen]) fun k _ hk => ?_
  rw [← hbytes k hk]
  simp only [inputBytesOf, List.getElem_map, List.getElem_range]

/-- The host's other pending moves are no part of what the stream depends on. -/
theorem P_fits_bus {level : BitVec 4} {container : Bool} {s : State} (hp : P_params s) (rest : List HostOp) :
    P_fits level container { s with bus := rest } ↔ P_fits level container s := by
  obtain ⟨hfields, -, -⟩ :=
    compressBlocks_twin (s := s) (s' := { s with bus := rest }) ⟨rfl, rfl, fun _ _ => rfl⟩ hp level container
  rw [P_fits, P_fits, streamLength, streamLength, hfields]

/-- Settles O48: the write of the word runs COMPRESS on a ready engine, which ends as O46 says, and the tokens give the input
back by O47. -/
theorem launchOfCompress : Obligations.LaunchOfCompress := by
  unfold Obligations.LaunchOfCompress
  intro level container s w rest B hclean hregions hinput hroom hcmd hp hbus
  have ⟨hl, _⟩ := hcmd
  rw [step_write_cmd hbus (decode_of_P_cmd hcmd)]
  obtain ⟨hok, hfull⟩ := compressCompletesWithRoom level container { s with bus := rest } (P_clean_ready hclean) hp hl
    hregions hroom
  rw [P_fits_bus hp] at hok hfull
  by_cases hfits : P_fits level container s
  case pos =>
    obtain ⟨t, ht, hend⟩ := hok hfits
    obtain ⟨-, -, -, hexpand, -⟩ := streamCoversTheInput level container s hp hregions hl
    have ⟨hstate, _, _⟩ := hend
    have hstatus : t.status = okStatus s.status := congrArg State.status hstate
    refine ⟨t, ht, congrArg Status.busy hstatus, exec_params (s := { s with bus := rest }) ht, fun _ => ⟨?_, hend, ?_⟩,
      absurd hfits⟩
    · rw [hstatus]
      exact okStatus_of_P_clean hclean
    · rw [hexpand]
      exact inputBytesOf_of_P_input hinput
  case neg =>
    obtain ⟨t, ht, hstatus, hinfo, -⟩ := hfull hfits
    refine ⟨t, ht, congrArg Status.busy hstatus, exec_params (s := { s with bus := rest }) ht,
      fun h => absurd h hfits, fun _ => ⟨?_, hinfo⟩⟩
    rw [hstatus]
    decide

end Sys2Proof.Proofs
end
